-- ==== Sys2Proof/Word.lean ====
section
/-! DEFINITION. The word types of the block (00_scope.md R13): every value is a bit string of a stated width, bit 0 the
least significant. -/

namespace Sys2Proof

/-- A byte (R13). -/
abbrev Byte := BitVec 8

/-- A 16-bit field: the CRC, Finder flags, a count (R14). -/
abbrev Half := BitVec 16

/-- A 32-bit field: a length, a time, a type code, a magic word (R14). -/
abbrev Word := BitVec 32

/-- A stream offset, `POS_BITS` = 64 bits (10_state.md R24), and every 64-bit register. -/
abbrev Pos := BitVec 64

/-- A sextet, 0 to 63 (00_scope.md R18). -/
abbrev Sextet := BitVec 6

end Sys2Proof
end

