-- ==== Sys2Proof/Config.lean ====
section
/-! DEFINITION. What an implementation fixes (00_scope.md R7, R8) and the type of what the spec leaves OPEN (R9). The
constants are the spec's values. The open parameters are a record the machine carries and never writes, so that a
statement about every state is a statement about every choice of them (notes/assumptions/5.md). -/

namespace Sys2Proof

/-- `CRC_POLY` (R7). -/
def crcPoly : Half := 0x1021

/-- `CRC_INIT` (R8, decision D5). -/
def crcInit : Half := 0x0000

/-- `RLE_MARK` (R7). -/
def rleMark : Byte := 0x90

/-- `RBUF_SIZE` (R7). -/
def rbufSize : Nat := 1024

/-- `NAME_MAX` (R7). -/
def nameMax : Nat := 63

/-- `NAME_LIMIT` (R7): compared with `L + 1` (`NAME_CHECK_ON`, R8). -/
def nameLimit : Nat := 64

/-- `SIT_HDR_SIZE` (R7). -/
def sitHdrSize : Nat := 22

/-- `SIT_ENT_SIZE` (R7). -/
def sitEntSize : Nat := 112

/-- `SIT_MAGIC2_OFF` (R7). -/
def sitMagic2Off : Nat := 10

/-- `SIT_FOLDER_START` (R7). -/
def sitFolderStart : Byte := 32

/-- `SIT_FOLDER_END` (R7). -/
def sitFolderEnd : Byte := 33

/-- `SIT_ENCRYPTED` (R7). -/
def sitEncrypted : Byte := 16

/-- The three values of the parameter `RLE_COUNT1_MODE` (R9, 43_run_length.md R172). -/
inductive Count1Mode where
  | emitOne
  | emitZero
  | fault
deriving DecidableEq, Repr

/-- The parameter `SIT_ENT_OFF` (R9): the 16 byte offsets of the fields of a StuffIt entry record
(30_encoding.md R121). -/
structure EntOff where
  rmeth   : Nat
  dmeth   : Nat
  namelen : Nat
  name    : Nat
  typ     : Nat
  creator : Nat
  flags   : Nat
  cdate   : Nat
  mdate   : Nat
  rlen    : Nat
  dlen    : Nat
  crlen   : Nat
  cdlen   : Nat
  rcrc    : Nat
  dcrc    : Nat
  hcrc    : Nat
deriving DecidableEq, Repr

/-- The parameters the spec leaves OPEN (R9). `xltHi` is indexed by `b - 0x80`. -/
structure Params where
  xltHi  : List Byte
  count1 : Count1Mode
  entOff : EntOff
  verOff : Nat
deriving DecidableEq, Repr

end Sys2Proof
end

