-- ==== Sys2Proof/Syntax.lean ====
section
/-! DEFINITION. The instructions of the block: one constructor per row of spec/opcode_table.json. The table's column
"space" names the place where the block meets the symbol; `Space` is that column (notes/assumptions/2.md). -/

namespace Sys2Proof

/-- The symbol spaces of the table. A BinHex fork's length is not in its own bytes (30_encoding.md R114 (b)), so the
space carries it; nothing ties it to `BH_DLEN` or `BH_RLEN` there, which is the model's choice (notes/assumptions/20.md). -/
inductive Space where
  | command
  | rawChar
  | locate
  | group
  | rawByte
  | bhxHeader
  | bhxFork (len : Nat)
  | sitHeader
  | magic1
  | magic2
  | sitEntry
  | method
  | typeCode
deriving DecidableEq, Repr

/-- The four classes of a raw character (30_encoding.md R106), kept apart from the sextet values as R107 asks. -/
inductive CharClass where
  | sextet (v : Sextet)
  | skip
  | term
  | invalid
deriving DecidableEq, Repr

/-- The record `BHXHDR` (30_encoding.md R111). -/
structure BhxHeaderRec where
  len     : Byte
  name    : List Byte
  tm      : Byte
  typ     : Word
  creator : Word
  flags   : Half
  dlen    : Word
  rlen    : Word
  hcrc    : Half
deriving DecidableEq, Repr

/-- The record `BHXFORK` (30_encoding.md R112). -/
structure BhxForkRec where
  body : List Byte
  crc  : Half
deriving DecidableEq, Repr

/-- The record `SITHDR22` (30_encoding.md R117), cut at the default offsets; `unused` is bytes 15 to 21. -/
structure SitHeaderRec where
  magic1 : Word
  count  : Half
  len    : Word
  magic2 : Word
  ver    : Byte
  unused : List Byte
deriving DecidableEq, Repr

/-- The record `SITENT112` (30_encoding.md R121), cut at the default offsets; `unused` is bytes 104 to 109. -/
structure SitEntryRec where
  rmeth   : Byte
  dmeth   : Byte
  namelen : Byte
  name    : List Byte
  typ     : Word
  creator : Word
  flags   : Half
  cdate   : Word
  mdate   : Word
  rlen    : Word
  dlen    : Word
  crlen   : Word
  cdlen   : Word
  rcrc    : Half
  dcrc    : Half
  unused  : List Byte
  hcrc    : Half
deriving DecidableEq, Repr

/-- The instructions, in the table's order. -/
inductive Instr where
  | openBhx
  | openSit
  | close
  | bhxHdr
  | bhxData
  | bhxRsrc
  | sitHdr
  | sitNext
  | sitIsenc
  | sitIsfst
  | sitIsfend
  | sitIsapp
  | sitCsize
  | sitUsize
  | sitMtime
  | xlit
  | reservedCommand (c : Byte)
  | chSextet0
  | chSextet1
  | chSextet2
  | chSextet3
  | chSextet4
  | chSextet5
  | chSextet6
  | chSextet7
  | chSextet8
  | chSextet9
  | chSextet10
  | chSextet11
  | chSextet12
  | chSextet13
  | chSextet14
  | chSextet15
  | chSextet16
  | chSextet17
  | chSextet18
  | chSextet19
  | chSextet20
  | chSextet21
  | chSextet22
  | chSextet23
  | chSextet24
  | chSextet25
  | chSextet26
  | chSextet27
  | chSextet28
  | chSextet29
  | chSextet30
  | chSextet31
  | chSextet32
  | chSextet33
  | chSextet34
  | chSextet35
  | chSextet36
  | chSextet37
  | chSextet38
  | chSextet39
  | chSextet40
  | chSextet41
  | chSextet42
  | chSextet43
  | chSextet44
  | chSextet45
  | chSextet46
  | chSextet47
  | chSextet48
  | chSextet49
  | chSextet50
  | chSextet51
  | chSextet52
  | chSextet53
  | chSextet54
  | chSextet55
  | chSextet56
  | chSextet57
  | chSextet58
  | chSextet59
  | chSextet60
  | chSextet61
  | chSextet62
  | chSextet63
  | chSkipLf
  | chSkipCr
  | chTerm
  | chInvalid (c : Byte)
  | locateStart (c : Byte)
  | grpPack (s0 s1 s2 s3 : Sextet)
  | rleLiteral (b : Byte)
  | rleMarkLiteral
  | rleCount1
  | rleRun (n : Byte)
  | recBhxhdr (r : BhxHeaderRec)
  | recBhxfork (r : BhxForkRec)
  | recSithdr22 (r : SitHeaderRec)
  | magic1Sit
  | magic1St46
  | magic1St50
  | magic1St60
  | magic1St65
  | magic1Stin
  | magic1Sti2
  | magic1Sti3
  | magic1Sti4
  | magic1Other (m : Word)
  | magic2Rlau
  | recSitent112 (r : SitEntryRec)
  | methEncrypted
  | methFolderStart
  | methFolderEnd
  | methOther (m : Byte)
  | typeAppl
deriving DecidableEq, Repr

end Sys2Proof
end

