-- ==== Sys2Proof/Machine/Operands.lean ====
section
/-! DEFINITION. How operands are assembled from bytes (30_encoding.md R125, 00_scope.md R14), the character table
(R104 to R106), the group format (R108), the record accessor FIELD (46_stuffit_records.md R210). -/

namespace Sys2Proof

/-- `be16(b0, b1)` (R14): the first byte is the most significant. -/
def be16 (b0 b1 : Byte) : Half := (b0.setWidth 16 <<< 8) ||| b1.setWidth 16

/-- `be32(b0, b1, b2, b3)` (R14). -/
def be32 (b0 b1 b2 b3 : Byte) : Word :=
  (b0.setWidth 32 <<< 24) ||| (b1.setWidth 32 <<< 16) ||| (b2.setWidth 32 <<< 8) ||| b3.setWidth 32

/-- The two bytes of a 16-bit field, most significant first (20_memory.md R78). -/
def bytes16 (h : Half) : List Byte := [(h >>> 8).setWidth 8, h.setWidth 8]

/-- The four bytes of a 32-bit field, most significant first (20_memory.md R78). -/
def bytes32 (w : Word) : List Byte :=
  [(w >>> 24).setWidth 8, (w >>> 16).setWidth 8, (w >>> 8).setWidth 8, w.setWidth 8]

/-- The low `n` bytes of a number, most significant first: how a table word lies in the stream (20_memory.md R78). -/
def beBytes : Nat → Nat → List Byte
  | 0, _ => []
  | n + 1, w => BitVec.ofNat 8 (w / 256 ^ n) :: beBytes n w

/-- Field of one byte at offset `off` (R210, width 1). -/
def field8 (rec : List Byte) (off : Nat) : Byte := rec.getD off 0

/-- Field of two bytes at offset `off` (R210, width 2). -/
def field16 (rec : List Byte) (off : Nat) : Half := be16 (field8 rec off) (field8 rec (off + 1))

/-- Field of four bytes at offset `off` (R210, width 4). -/
def field32 (rec : List Byte) (off : Nat) : Word :=
  be32 (field8 rec off) (field8 rec (off + 1)) (field8 rec (off + 2)) (field8 rec (off + 3))

/-- The sum of two unsigned 32-bit lengths, not truncated (R125 (i)): 33 bits, zero-extended to 64. -/
def lengthSum (a b : Word) : Pos := a.setWidth 64 + b.setWidth 64

/-- `bs` written at the front of a buffer of `n` zero bytes. -/
def padTo (n : Nat) (bs : List Byte) : List Byte := bs ++ List.replicate (n - bs.length) 0

/-- `bs` written over the bytes of `buf` from offset `off` on. -/
def overlay (buf : List Byte) (off : Nat) (bs : List Byte) : List Byte :=
  buf.take off ++ bs ++ buf.drop (off + bs.length)

/-- The alphabet (R104), the character of sextet `v` at index `v`. -/
def alphabet : List Byte :=
  [0x21, 0x22, 0x23, 0x24, 0x25, 0x26, 0x27, 0x28, 0x29, 0x2A, 0x2B, 0x2C, 0x2D, 0x30, 0x31, 0x32,
   0x33, 0x34, 0x35, 0x36, 0x38, 0x39, 0x40, 0x41, 0x42, 0x43, 0x44, 0x45, 0x46, 0x47, 0x48, 0x49,
   0x4A, 0x4B, 0x4C, 0x4D, 0x4E, 0x50, 0x51, 0x52, 0x53, 0x54, 0x55, 0x56, 0x58, 0x59, 0x5A, 0x5B,
   0x60, 0x61, 0x62, 0x63, 0x64, 0x65, 0x66, 0x68, 0x69, 0x6A, 0x6B, 0x6C, 0x6D, 0x70, 0x71, 0x72]

/-- The index of `c` in a list of characters, counted from `v`. -/
def indexIn (c : Byte) : List Byte → Nat → Option Sextet
  | [], _ => none
  | d :: r, v => if c = d then some (BitVec.ofNat 6 v) else indexIn c r (v + 1)

/-- `ALPHA_VAL` (R105): the sextet of an alphabet character, none for every other byte (R107). -/
def alphaVal (c : Byte) : Option Sextet := indexIn c alphabet 0

/-- The class of a raw character (R106). -/
def charClass (c : Byte) : CharClass :=
  if c = 0x0A ∨ c = 0x0D then .skip
  else if c = 0x3A then .term
  else match alphaVal c with
    | some v => .sextet v
    | none => .invalid

/-- Whether a byte is an alphabet character, the test of the header locator (41_stream_locate.md R155 (e)). -/
def isAlphabet (c : Byte) : Bool := (alphaVal c).isSome

/-- The three bytes of a group (R108, 42_sextet_unpacker.md R162). -/
def pack (s0 s1 s2 s3 : Sextet) : Byte × Byte × Byte :=
  ((s0.setWidth 8 <<< 2) ||| (s1.setWidth 8 >>> 4),
   ((s1.setWidth 8 &&& 0x0F) <<< 4) ||| (s2.setWidth 8 >>> 2),
   ((s2.setWidth 8 &&& 0x03) <<< 6) ||| s3.setWidth 8)

/-- The four sextets of a group's 24 bits, `s0` in bits 23:18 (R108). -/
def unpack (b0 b1 b2 : Byte) : Sextet × Sextet × Sextet × Sextet :=
  ((b0 >>> 2).setWidth 6,
   (((b0 &&& 0x03) <<< 4) ||| (b1 >>> 4)).setWidth 6,
   (((b1 &&& 0x0F) <<< 2) ||| (b2 >>> 6)).setWidth 6,
   (b2 &&& 0x3F).setWidth 6)

/-- The nine values of magic-1 (R118): `SIT!`, `ST46`, `ST50`, `ST60`, `ST65`, `STin`, `STi2`, `STi3`, `STi4`. -/
def magic1Values : List Word :=
  [0x53495421, 0x53543436, 0x53543530, 0x53543630, 0x53543635, 0x5354696E, 0x53546932, 0x53546933, 0x53546934]

/-- Magic-2, `rLau` (R119). -/
def magic2Value : Word := 0x724C6175

/-- The type code `APPL` (46_stuffit_records.md R228). -/
def applType : Word := 0x4150504C

/-- The 16 command codes of R102. -/
def commandCodes : List Byte :=
  [0x01, 0x02, 0x03, 0x10, 0x11, 0x12, 0x20, 0x21, 0x28, 0x29, 0x2A, 0x2B, 0x2C, 0x2D, 0x2E, 0x30]

end Sys2Proof
end

