-- ==== Sys2Proof/WellFormed.lean ====
section
/-! DEFINITION. Which instruction terms stand for a row of the table: the operand values a row's encoding admits. -/

namespace Sys2Proof

/-- The operands lie in the row's range: a reserved byte is none of the 16 codes (R103), an invalid character has class
INVALID (R106), a start mark is followed by an alphabet character (R154), a literal is not the marker and a run has
count 2 or more (R109), a record's variable parts have the length its format fixes (R111, R112, R117, R121), and an
`(other)` value is none of the named ones (R118, R122). -/
def wellFormed : Instr → Bool
  | .reservedCommand c => !commandCodes.contains c
  | .chInvalid c => charClass c == .invalid
  | .locateStart c => isAlphabet c
  | .rleLiteral b => b != rleMark
  | .rleRun n => 2 ≤ n.toNat
  | .recBhxhdr r => r.name.length == r.len.toNat
  | .recBhxfork r => r.body.length < 2 ^ 31
  | .recSithdr22 r => r.unused.length == 7
  | .recSitent112 r => r.name.length == 63 && r.unused.length == 6
  | .magic1Other m => !magic1Values.contains m
  | .methOther m => m != sitEncrypted && m != sitFolderStart && m != sitFolderEnd
  | .openBhx | .openSit | .close | .bhxHdr | .bhxData | .bhxRsrc | .sitHdr | .sitNext | .sitIsenc | .sitIsfst | .sitIsfend
  | .sitIsapp | .sitCsize | .sitUsize | .sitMtime | .xlit | .chSextet0 | .chSextet1 | .chSextet2 | .chSextet3
  | .chSextet4 | .chSextet5 | .chSextet6 | .chSextet7 | .chSextet8 | .chSextet9 | .chSextet10 | .chSextet11
  | .chSextet12 | .chSextet13 | .chSextet14 | .chSextet15 | .chSextet16 | .chSextet17 | .chSextet18 | .chSextet19
  | .chSextet20 | .chSextet21 | .chSextet22 | .chSextet23 | .chSextet24 | .chSextet25 | .chSextet26 | .chSextet27
  | .chSextet28 | .chSextet29 | .chSextet30 | .chSextet31 | .chSextet32 | .chSextet33 | .chSextet34 | .chSextet35
  | .chSextet36 | .chSextet37 | .chSextet38 | .chSextet39 | .chSextet40 | .chSextet41 | .chSextet42 | .chSextet43
  | .chSextet44 | .chSextet45 | .chSextet46 | .chSextet47 | .chSextet48 | .chSextet49 | .chSextet50 | .chSextet51
  | .chSextet52 | .chSextet53 | .chSextet54 | .chSextet55 | .chSextet56 | .chSextet57 | .chSextet58 | .chSextet59
  | .chSextet60 | .chSextet61 | .chSextet62 | .chSextet63 | .chSkipLf | .chSkipCr | .chTerm | .grpPack _ _ _ _
  | .rleMarkLiteral | .rleCount1 | .magic1Sit | .magic1St46 | .magic1St50 | .magic1St60 | .magic1St65 | .magic1Stin
  | .magic1Sti2 | .magic1Sti3 | .magic1Sti4 | .magic2Rlau | .methEncrypted | .methFolderStart | .methFolderEnd
  | .typeAppl => true

end Sys2Proof
end

