-- ==== Sys2Proof/Decode.lean ====
section
/-! DEFINITION. The decoder, total on any bytes and rejecting by name, and after it the encoder, both written from the
encoding tables of 30_encoding.md. A byte sequence is decoded in a space: the table's rows are told apart within one
space only (notes/assumptions/3.md). -/

namespace Sys2Proof

/-- Why a byte sequence is no instruction of its space: it ends before the row does; no start mark stands there
(41_stream_locate.md R154, R155); the magic-2 word is not `rLau` (R119); the type code is not `APPL` (R228). -/
inductive DecodeError where
  | tooShort
  | notStart
  | notMagic2
  | notAppl
deriving DecidableEq, Repr

/-- The instruction of a command byte (R102, R103): every byte is one. -/
def decodeCommand (c : Byte) : Instr :=
  if c = 0x01 then .openBhx
  else if c = 0x02 then .openSit
  else if c = 0x03 then .close
  else if c = 0x10 then .bhxHdr
  else if c = 0x11 then .bhxData
  else if c = 0x12 then .bhxRsrc
  else if c = 0x20 then .sitHdr
  else if c = 0x21 then .sitNext
  else if c = 0x28 then .sitIsenc
  else if c = 0x29 then .sitIsfst
  else if c = 0x2A then .sitIsfend
  else if c = 0x2B then .sitIsapp
  else if c = 0x2C then .sitCsize
  else if c = 0x2D then .sitUsize
  else if c = 0x2E then .sitMtime
  else if c = 0x30 then .xlit
  else .reservedCommand c

/-- The row of a sextet's character (R105). -/
def sextetInstr (v : Sextet) : Instr :=
  match v.toNat with
  | 0 => .chSextet0
  | 1 => .chSextet1
  | 2 => .chSextet2
  | 3 => .chSextet3
  | 4 => .chSextet4
  | 5 => .chSextet5
  | 6 => .chSextet6
  | 7 => .chSextet7
  | 8 => .chSextet8
  | 9 => .chSextet9
  | 10 => .chSextet10
  | 11 => .chSextet11
  | 12 => .chSextet12
  | 13 => .chSextet13
  | 14 => .chSextet14
  | 15 => .chSextet15
  | 16 => .chSextet16
  | 17 => .chSextet17
  | 18 => .chSextet18
  | 19 => .chSextet19
  | 20 => .chSextet20
  | 21 => .chSextet21
  | 22 => .chSextet22
  | 23 => .chSextet23
  | 24 => .chSextet24
  | 25 => .chSextet25
  | 26 => .chSextet26
  | 27 => .chSextet27
  | 28 => .chSextet28
  | 29 => .chSextet29
  | 30 => .chSextet30
  | 31 => .chSextet31
  | 32 => .chSextet32
  | 33 => .chSextet33
  | 34 => .chSextet34
  | 35 => .chSextet35
  | 36 => .chSextet36
  | 37 => .chSextet37
  | 38 => .chSextet38
  | 39 => .chSextet39
  | 40 => .chSextet40
  | 41 => .chSextet41
  | 42 => .chSextet42
  | 43 => .chSextet43
  | 44 => .chSextet44
  | 45 => .chSextet45
  | 46 => .chSextet46
  | 47 => .chSextet47
  | 48 => .chSextet48
  | 49 => .chSextet49
  | 50 => .chSextet50
  | 51 => .chSextet51
  | 52 => .chSextet52
  | 53 => .chSextet53
  | 54 => .chSextet54
  | 55 => .chSextet55
  | 56 => .chSextet56
  | 57 => .chSextet57
  | 58 => .chSextet58
  | 59 => .chSextet59
  | 60 => .chSextet60
  | 61 => .chSextet61
  | 62 => .chSextet62
  | _ => .chSextet63

/-- The instruction of a raw character (R106): every byte is one. -/
def decodeChar (c : Byte) : Instr :=
  match charClass c with
  | .sextet v => sextetInstr v
  | .skip => if c = 0x0A then .chSkipLf else .chSkipCr
  | .term => .chTerm
  | .invalid => .chInvalid c

/-- The instruction of a magic-1 word (R118): every word is one. -/
def decodeMagic1 (m : Word) : Instr :=
  if m = 0x53495421 then .magic1Sit
  else if m = 0x53543436 then .magic1St46
  else if m = 0x53543530 then .magic1St50
  else if m = 0x53543630 then .magic1St60
  else if m = 0x53543635 then .magic1St65
  else if m = 0x5354696E then .magic1Stin
  else if m = 0x53546932 then .magic1Sti2
  else if m = 0x53546933 then .magic1Sti3
  else if m = 0x53546934 then .magic1Sti4
  else .magic1Other m

/-- The instruction of a resource method code (R122): every byte is one. -/
def decodeMethod (m : Byte) : Instr :=
  if m = sitEncrypted then .methEncrypted
  else if m = sitFolderStart then .methFolderStart
  else if m = sitFolderEnd then .methFolderEnd
  else .methOther m

/-- The instruction of a run-length pair's count (R109). -/
def decodePair (n : Byte) : Instr :=
  if n = 0 then .rleMarkLiteral else if n = 1 then .rleCount1 else .rleRun n

/-- The record `BHXHDR` whose length byte is `l`, from the bytes after it (R111). -/
def bhxHeaderOf (l : Byte) (r : List Byte) : BhxHeaderRec :=
  let t := r.drop l.toNat
  { len := l, name := r.take l.toNat, tm := field8 t 0, typ := field32 t 1, creator := field32 t 5,
    flags := field16 t 9, dlen := field32 t 11, rlen := field32 t 15, hcrc := field16 t 19 }

/-- The record `SITHDR22` (R117). -/
def sitHeaderOf (b : List Byte) : SitHeaderRec :=
  { magic1 := field32 b 0, count := field16 b 4, len := field32 b 6, magic2 := field32 b 10, ver := field8 b 14,
    unused := (b.drop 15).take 7 }

/-- The record `SITENT112` (R121). -/
def sitEntryOf (b : List Byte) : SitEntryRec :=
  { rmeth := field8 b 0, dmeth := field8 b 1, namelen := field8 b 2, name := (b.drop 3).take 63,
    typ := field32 b 66, creator := field32 b 70, flags := field16 b 74, cdate := field32 b 76, mdate := field32 b 80,
    rlen := field32 b 84, dlen := field32 b 88, crlen := field32 b 92, cdlen := field32 b 96,
    rcrc := field16 b 100, dcrc := field16 b 102, unused := (b.drop 104).take 6, hcrc := field16 b 110 }

/-- The instruction at the front of a byte sequence, in a space, and the bytes after it. -/
def decode (sp : Space) (bs : List Byte) : Except DecodeError (Instr × List Byte) :=
  match sp with
  | .command =>
    match bs with
    | c :: r => .ok (decodeCommand c, r)
    | [] => .error .tooShort
  | .rawChar =>
    match bs with
    | c :: r => .ok (decodeChar c, r)
    | [] => .error .tooShort
  | .locate =>
    match bs with
    | c :: d :: r => if c = 0x3A ∧ isAlphabet d = true then .ok (.locateStart d, r) else .error .notStart
    | _ => .error .tooShort
  | .group =>
    match bs with
    | b0 :: b1 :: b2 :: r =>
      .ok (.grpPack (unpack b0 b1 b2).1 (unpack b0 b1 b2).2.1 (unpack b0 b1 b2).2.2.1 (unpack b0 b1 b2).2.2.2, r)
    | _ => .error .tooShort
  | .rawByte =>
    match bs with
    | b :: r =>
      if b ≠ rleMark then .ok (.rleLiteral b, r)
      else match r with
        | n :: r' => .ok (decodePair n, r')
        | [] => .error .tooShort
    | [] => .error .tooShort
  | .bhxHeader =>
    match bs with
    | l :: r =>
      if r.length < 21 + l.toNat then .error .tooShort
      else .ok (.recBhxhdr (bhxHeaderOf l r), r.drop (21 + l.toNat))
    | [] => .error .tooShort
  | .bhxFork len =>
    if bs.length < len + 2 then .error .tooShort
    else .ok (.recBhxfork { body := bs.take len, crc := field16 bs len }, bs.drop (len + 2))
  | .sitHeader =>
    if bs.length < sitHdrSize then .error .tooShort
    else .ok (.recSithdr22 (sitHeaderOf bs), bs.drop sitHdrSize)
  | .magic1 =>
    match bs with
    | b0 :: b1 :: b2 :: b3 :: r => .ok (decodeMagic1 (be32 b0 b1 b2 b3), r)
    | _ => .error .tooShort
  | .magic2 =>
    match bs with
    | b0 :: b1 :: b2 :: b3 :: r => if be32 b0 b1 b2 b3 = magic2Value then .ok (.magic2Rlau, r) else .error .notMagic2
    | _ => .error .tooShort
  | .sitEntry =>
    if bs.length < sitEntSize then .error .tooShort
    else .ok (.recSitent112 (sitEntryOf bs), bs.drop sitEntSize)
  | .method =>
    match bs with
    | m :: r => .ok (decodeMethod m, r)
    | [] => .error .tooShort
  | .typeCode =>
    match bs with
    | b0 :: b1 :: b2 :: b3 :: r => if be32 b0 b1 b2 b3 = applType then .ok (.typeAppl, r) else .error .notAppl
    | _ => .error .tooShort

/-- The space a table word of some length is read in when nothing but its bits is known: the space where a named row
matches it before a space where only an `(other)` row does (notes/assumptions/3.md). -/
def tableSpace (bs : List Byte) : Option Space :=
  match bs with
  | [] => none
  | [c] => if commandCodes.contains c then some .command
           else if charClass c = .invalid then some .command else some .rawChar
  | [b0, b1] => if b0 = 0x3A ∧ isAlphabet b1 = true then some .locate
                else if b0 = rleMark then some .rawByte else some (.bhxFork 0)
  | [_, _, _] => some .group
  | [b0, b1, b2, b3] => if be32 b0 b1 b2 b3 = magic2Value then some .magic2
                        else if be32 b0 b1 b2 b3 = applType then some .typeCode else some .magic1
  | b0 :: r => if r.length + 1 = sitEntSize then some .sitEntry
               else if r.length = 21 + b0.toNat then some .bhxHeader
               else if r.length + 1 = sitHdrSize then some .sitHeader
               else some (.bhxFork (r.length - 1))

/-- The bytes of a table word of `nbits` bits, as the stream holds them: the table numbers a row as one number whose
most significant byte comes first (20_memory.md R78). -/
def tableBytes (nbits w : Nat) : List Byte := beBytes (nbits / 8) w

/-- The instruction the decoder reads from a table word; none where it refuses. -/
def decodeTableWord (nbits w : Nat) : Option Instr :=
  match tableSpace (tableBytes nbits w) with
  | none => none
  | some sp =>
    match decode sp (tableBytes nbits w) with
    | .ok (i, _) => some i
    | .error _ => none

/-- The space of an instruction's row. -/
def spaceOf : Instr → Space
  | .openBhx | .openSit | .close | .bhxHdr | .bhxData | .bhxRsrc | .sitHdr | .sitNext | .sitIsenc | .sitIsfst | .sitIsfend
  | .sitIsapp | .sitCsize | .sitUsize | .sitMtime | .xlit | .reservedCommand _ => .command
  | .chSextet0 | .chSextet1 | .chSextet2 | .chSextet3 | .chSextet4 | .chSextet5 | .chSextet6 | .chSextet7 | .chSextet8
  | .chSextet9 | .chSextet10 | .chSextet11 | .chSextet12 | .chSextet13 | .chSextet14 | .chSextet15 | .chSextet16
  | .chSextet17 | .chSextet18 | .chSextet19 | .chSextet20 | .chSextet21 | .chSextet22 | .chSextet23 | .chSextet24
  | .chSextet25 | .chSextet26 | .chSextet27 | .chSextet28 | .chSextet29 | .chSextet30 | .chSextet31 | .chSextet32
  | .chSextet33 | .chSextet34 | .chSextet35 | .chSextet36 | .chSextet37 | .chSextet38 | .chSextet39 | .chSextet40
  | .chSextet41 | .chSextet42 | .chSextet43 | .chSextet44 | .chSextet45 | .chSextet46 | .chSextet47 | .chSextet48
  | .chSextet49 | .chSextet50 | .chSextet51 | .chSextet52 | .chSextet53 | .chSextet54 | .chSextet55 | .chSextet56
  | .chSextet57 | .chSextet58 | .chSextet59 | .chSextet60 | .chSextet61 | .chSextet62 | .chSextet63 | .chSkipLf
  | .chSkipCr | .chTerm | .chInvalid _ => .rawChar
  | .locateStart _ => .locate
  | .grpPack _ _ _ _ => .group
  | .rleLiteral _ | .rleMarkLiteral | .rleCount1 | .rleRun _ => .rawByte
  | .recBhxhdr _ => .bhxHeader
  | .recSithdr22 _ => .sitHeader
  | .magic1Sit | .magic1St46 | .magic1St50 | .magic1St60 | .magic1St65 | .magic1Stin | .magic1Sti2 | .magic1Sti3
  | .magic1Sti4 | .magic1Other _ => .magic1
  | .magic2Rlau => .magic2
  | .recSitent112 _ => .sitEntry
  | .methEncrypted | .methFolderStart | .methFolderEnd | .methOther _ => .method
  | .typeAppl => .typeCode
  | .recBhxfork r => .bhxFork r.body.length

/-- The bytes of an instruction, from the same tables. -/
def encode : Instr → List Byte
  | .openBhx => [0x01]
  | .openSit => [0x02]
  | .close => [0x03]
  | .bhxHdr => [0x10]
  | .bhxData => [0x11]
  | .bhxRsrc => [0x12]
  | .sitHdr => [0x20]
  | .sitNext => [0x21]
  | .sitIsenc => [0x28]
  | .sitIsfst => [0x29]
  | .sitIsfend => [0x2A]
  | .sitIsapp => [0x2B]
  | .sitCsize => [0x2C]
  | .sitUsize => [0x2D]
  | .sitMtime => [0x2E]
  | .xlit => [0x30]
  | .reservedCommand c => [c]
  | .chSextet0 => [0x21]
  | .chSextet1 => [0x22]
  | .chSextet2 => [0x23]
  | .chSextet3 => [0x24]
  | .chSextet4 => [0x25]
  | .chSextet5 => [0x26]
  | .chSextet6 => [0x27]
  | .chSextet7 => [0x28]
  | .chSextet8 => [0x29]
  | .chSextet9 => [0x2A]
  | .chSextet10 => [0x2B]
  | .chSextet11 => [0x2C]
  | .chSextet12 => [0x2D]
  | .chSextet13 => [0x30]
  | .chSextet14 => [0x31]
  | .chSextet15 => [0x32]
  | .chSextet16 => [0x33]
  | .chSextet17 => [0x34]
  | .chSextet18 => [0x35]
  | .chSextet19 => [0x36]
  | .chSextet20 => [0x38]
  | .chSextet21 => [0x39]
  | .chSextet22 => [0x40]
  | .chSextet23 => [0x41]
  | .chSextet24 => [0x42]
  | .chSextet25 => [0x43]
  | .chSextet26 => [0x44]
  | .chSextet27 => [0x45]
  | .chSextet28 => [0x46]
  | .chSextet29 => [0x47]
  | .chSextet30 => [0x48]
  | .chSextet31 => [0x49]
  | .chSextet32 => [0x4A]
  | .chSextet33 => [0x4B]
  | .chSextet34 => [0x4C]
  | .chSextet35 => [0x4D]
  | .chSextet36 => [0x4E]
  | .chSextet37 => [0x50]
  | .chSextet38 => [0x51]
  | .chSextet39 => [0x52]
  | .chSextet40 => [0x53]
  | .chSextet41 => [0x54]
  | .chSextet42 => [0x55]
  | .chSextet43 => [0x56]
  | .chSextet44 => [0x58]
  | .chSextet45 => [0x59]
  | .chSextet46 => [0x5A]
  | .chSextet47 => [0x5B]
  | .chSextet48 => [0x60]
  | .chSextet49 => [0x61]
  | .chSextet50 => [0x62]
  | .chSextet51 => [0x63]
  | .chSextet52 => [0x64]
  | .chSextet53 => [0x65]
  | .chSextet54 => [0x66]
  | .chSextet55 => [0x68]
  | .chSextet56 => [0x69]
  | .chSextet57 => [0x6A]
  | .chSextet58 => [0x6B]
  | .chSextet59 => [0x6C]
  | .chSextet60 => [0x6D]
  | .chSextet61 => [0x70]
  | .chSextet62 => [0x71]
  | .chSextet63 => [0x72]
  | .chSkipLf => [0x0A]
  | .chSkipCr => [0x0D]
  | .chTerm => [0x3A]
  | .chInvalid c => [c]
  | .locateStart c => [0x3A, c]
  | .grpPack s0 s1 s2 s3 => [(pack s0 s1 s2 s3).1, (pack s0 s1 s2 s3).2.1, (pack s0 s1 s2 s3).2.2]
  | .rleLiteral b => [b]
  | .rleMarkLiteral => [0x90, 0x00]
  | .rleCount1 => [0x90, 0x01]
  | .rleRun n => [0x90, n]
  | .recBhxhdr r =>
    r.len :: r.name ++ r.tm :: bytes32 r.typ ++ bytes32 r.creator ++ bytes16 r.flags ++ bytes32 r.dlen
      ++ bytes32 r.rlen ++ bytes16 r.hcrc
  | .recBhxfork r => r.body ++ bytes16 r.crc
  | .recSithdr22 r =>
    bytes32 r.magic1 ++ bytes16 r.count ++ bytes32 r.len ++ bytes32 r.magic2 ++ r.ver :: r.unused
  | .magic1Sit => bytes32 0x53495421
  | .magic1St46 => bytes32 0x53543436
  | .magic1St50 => bytes32 0x53543530
  | .magic1St60 => bytes32 0x53543630
  | .magic1St65 => bytes32 0x53543635
  | .magic1Stin => bytes32 0x5354696E
  | .magic1Sti2 => bytes32 0x53546932
  | .magic1Sti3 => bytes32 0x53546933
  | .magic1Sti4 => bytes32 0x53546934
  | .magic1Other m => bytes32 m
  | .magic2Rlau => bytes32 0x724C6175
  | .recSitent112 r =>
    r.rmeth :: r.dmeth :: r.namelen :: r.name ++ bytes32 r.typ ++ bytes32 r.creator ++ bytes16 r.flags
      ++ bytes32 r.cdate ++ bytes32 r.mdate ++ bytes32 r.rlen ++ bytes32 r.dlen ++ bytes32 r.crlen ++ bytes32 r.cdlen
      ++ bytes16 r.rcrc ++ bytes16 r.dcrc ++ r.unused ++ bytes16 r.hcrc
  | .methEncrypted => [0x10]
  | .methFolderStart => [0x20]
  | .methFolderEnd => [0x21]
  | .methOther m => [m]
  | .typeAppl => bytes32 0x4150504C

end Sys2Proof
end

