-- ==== Sys2Proof/Machine/Defaults.lean ====
section
/-! DEFINITION. The default values of the OPEN parameters (00_scope.md R9), for running the machine from reset, and the
constraints the spec puts on every choice of them. No statement rests on a default (notes/assumptions/5.md to 8.md). -/

namespace Sys2Proof

/-- Rows 0x80 to 0xBF of the default `XLT_HI` (40_transliterator.md R146). -/
def xltHiLow : List Byte :=
  [0x41, 0x41, 0x43, 0x45, 0x4E, 0x4F, 0x55, 0x61, 0x61, 0x61, 0x61, 0x61, 0x61, 0x63, 0x65, 0x65,
   0x65, 0x65, 0x69, 0x69, 0x69, 0x69, 0x6E, 0x6F, 0x6F, 0x6F, 0x6F, 0x6F, 0x75, 0x75, 0x75, 0x75,
   0x5F, 0x5F, 0x5F, 0x5F, 0x5F, 0x2A, 0x5F, 0x73, 0x5F, 0x5F, 0x5F, 0x5F, 0x5F, 0x5F, 0x41, 0x4F,
   0x5F, 0x5F, 0x5F, 0x5F, 0x5F, 0x5F, 0x5F, 0x5F, 0x5F, 0x5F, 0x5F, 0x5F, 0x5F, 0x5F, 0x61, 0x6F]

/-- Rows 0xC0 to 0xFF of the default `XLT_HI` (40_transliterator.md R146). -/
def xltHiHigh : List Byte :=
  [0x3F, 0x21, 0x5F, 0x5F, 0x66, 0x5F, 0x5F, 0x3C, 0x3E, 0x2E, 0x5F, 0x41, 0x41, 0x4F, 0x4F, 0x6F,
   0x2D, 0x2D, 0x22, 0x22, 0x27, 0x27, 0x2F, 0x5F, 0x79, 0x59, 0x2F, 0x5F, 0x3C, 0x3E, 0x66, 0x66,
   0x5F, 0x2E, 0x2C, 0x22, 0x5F, 0x41, 0x45, 0x41, 0x45, 0x45, 0x49, 0x49, 0x49, 0x49, 0x4F, 0x4F,
   0x5F, 0x4F, 0x55, 0x55, 0x55, 0x69, 0x5F, 0x5F, 0x5F, 0x5F, 0x5F, 0x5F, 0x5F, 0x5F, 0x5F, 0x5F]

/-- The default `SIT_ENT_OFF` (30_encoding.md R121). -/
def entOffDefault : EntOff :=
  { rmeth := 0, dmeth := 1, namelen := 2, name := 3, typ := 66, creator := 70, flags := 74, cdate := 76, mdate := 80,
    rlen := 84, dlen := 88, crlen := 92, cdlen := 96, rcrc := 100, dcrc := 102, hcrc := 110 }

/-- The defaults of R9: the table of R146, `EMIT_ONE` (43_run_length.md R172), R121, and `SIT_VER_OFF` = 14 (R117). -/
def paramsDefault : Params :=
  { xltHi := xltHiLow ++ xltHiHigh, count1 := .emitOne, entOff := entOffDefault, verOff := 14 }

/-- An ASCII letter, an ASCII punctuation character or `_` (40_transliterator.md R142). -/
def letterOrPunct (b : Byte) : Bool :=
  (0x21 ≤ b.toNat && b.toNat ≤ 0x2F) || (0x3A ≤ b.toNat && b.toNat ≤ 0x7E)

/-- The constraints of R142 on `XLT_HI`: 128 entries, each a letter, punctuation or `_`, and the document's two rows. -/
def xltHiOk (t : List Byte) : Bool :=
  t.length == 128 && t.all letterOrPunct && t.getD 0x07 0 == 0x61 && t.getD 0x59 0 == 0x59

/-- Fields of `n` bytes at these offsets, no two of which share a byte. -/
def apart (n : Nat) : List Nat → Bool
  | [] => true
  | a :: r => r.all (fun b => decide (a + n ≤ b) || decide (b + n ≤ a)) && apart n r

/-- The constraints of R9, R120 and R123 on `SIT_ENT_OFF`: every field inside the 112 bytes, no two sharing a byte, in the
order the document lists them: the methods, resource before data; the name right after its length byte; type and creator;
flags; creation before modification time; the four lengths; the three CRCs. The document gives no order inside the last two
groups (R121), so any is allowed there. -/
def entOffOk (o : EntOff) : Bool :=
  o.rmeth < o.dmeth && o.dmeth < o.namelen && o.name == o.namelen + 1 && o.name + nameMax ≤ o.typ
    && o.typ + 4 ≤ o.creator && o.creator + 4 ≤ o.flags && o.flags + 2 ≤ o.cdate && o.cdate + 4 ≤ o.mdate
    && apart 4 [o.rlen, o.dlen, o.crlen, o.cdlen] && apart 2 [o.rcrc, o.dcrc, o.hcrc]
    && [o.rlen, o.dlen, o.crlen, o.cdlen].all (fun l => o.mdate + 4 ≤ l
      && [o.rcrc, o.dcrc, o.hcrc].all (fun k => l + 4 ≤ k && k + 2 ≤ sitEntSize))

/-- The constraints the spec puts on the OPEN parameters (R9): `SIT_VER_OFF` lies after magic-2, inside the header. -/
def paramsOk (p : Params) : Bool :=
  xltHiOk p.xltHi && entOffOk p.entOff && 14 ≤ p.verOff && p.verOff < sitHdrSize

end Sys2Proof
end

