-- ==== Sys2Proof/Machine/State.lean ====
section
/-! DEFINITION. The state of the block: every register and buffer of 10_state.md, the spaces it reaches
(20_memory.md R70, R75), the host's side of its ports (48_commands.md R250), and the model's own fields. -/

namespace Sys2Proof.Machine

/-- `MODE` (10_state.md R32). Its code 3 is never written. -/
inductive Mode where
  | closed
  | bhx
  | sit
deriving DecidableEq, Repr

/-- `STAGE` (10_state.md R33). Its codes 6 and 7 are never written. -/
inductive Stage where
  | searching
  | headerRead
  | forkData
  | forkRsrc
  | done
  | error
deriving DecidableEq, Repr

/-- The four error classes (60_exceptions.md R260). -/
inductive ErrClass where
  | format
  | shortRead
  | sequencing
  | resource
deriving DecidableEq, Repr

/-- `STATUS` (10_state.md R34): `OK`, `END`, or the class of the error the command ended with. -/
inductive Status where
  | ok
  | endOfEntries
  | failed (c : ErrClass)
deriving DecidableEq, Repr

/-- The 18 causes of a fatal error (60_exceptions.md R261). -/
inductive Cause where
  | noStart
  | badChar
  | nameTooLong
  | badHdrCrc
  | badForkCrc
  | badMagic1
  | badMagic2
  | negLength
  | streamEnd
  | shortBlock
  | badStage
  | illegalCmd
  | noEntry
  | badLength
  | openFailed
  | closeFailed
  | rleCount1
  | badMode
deriving DecidableEq, Repr

/-- The sinks (20_memory.md R75). -/
inductive Sink where
  | data
  | rsrc
deriving DecidableEq, Repr

/-- The output ring `RING[0..2]` with `RING_CNT` and `RING_RD` (10_state.md R26). -/
structure Ring where
  b0  : Byte
  b1  : Byte
  b2  : Byte
  cnt : BitVec 2
  rd  : BitVec 2
deriving DecidableEq, Repr

/-- The hidden read buffer `RBUF[0..1023]` with `RBUF_IDX`, `RBUF_FILL`, `RBUF_EOF`, `FPOS` (10_state.md R31, R56). -/
structure ReadBuf where
  bytes : List Byte
  idx   : BitVec 11
  fill  : BitVec 11
  eof   : Bool
  fpos  : Pos
deriving DecidableEq, Repr

/-- The BinHex record registers `BH_*` (10_state.md R40, R41). `dlen` and `rlen` are signed. -/
structure BinHexRegs where
  nameLen  : Byte
  name     : List Byte
  pnameLen : Byte
  pname    : List Byte
  typ      : Word
  creator  : Word
  flags    : Half
  dlen     : Word
  rlen     : Word
  hcrc     : Half
  dcrc     : Half
  rcrc     : Half
deriving DecidableEq, Repr

/-- The StuffIt archive registers `SA_*` (10_state.md R42). -/
structure ArchiveRegs where
  magic1 : Word
  count  : Half
  len    : Word
  magic2 : Word
  ver    : Byte
deriving DecidableEq, Repr

/-- The StuffIt entry registers `SE_*` (10_state.md R43). -/
structure EntryRegs where
  rmeth    : Byte
  dmeth    : Byte
  nameLen  : Byte
  name     : List Byte
  pnameLen : Byte
  pname    : List Byte
  typ      : Word
  creator  : Word
  flags    : Half
  cdate    : Word
  mdate    : Word
  rlen     : Word
  dlen     : Word
  crlen    : Word
  cdlen    : Word
  rcrc     : Half
  dcrc     : Half
  hcrc     : Half
deriving DecidableEq, Repr

/-- The transliterator's buffers (10_state.md R52); the three lengths have 7 bits each (notes/assumptions/10.md). -/
structure XlitRegs where
  src    : List Byte
  srcLen : BitVec 7
  dstCap : BitVec 7
  dst    : List Byte
  dstLen : BitVec 7
deriving DecidableEq, Repr

/-- What the host does at the block's ports (48_commands.md R250), one action at a time: presents a command byte; applies
reset; puts a byte sequence behind the stream port; sets the answers `OPEN_OK`, `CLOSE_OK`, `IO_CAUSE`; writes
`XSRC[i]`, `XSRC_LEN`, `XDST_CAP` (10_state.md R52). -/
inductive HostAct where
  | command (c : Byte)
  | reset
  | attach (bytes : List Byte)
  | answers (openOk closeOk : Bool) (cause : Word)
  | writeXsrc (i : BitVec 6) (b : Byte)
  | writeXsrcLen (n : BitVec 7)
  | writeXdstCap (n : BitVec 7)
deriving DecidableEq, Repr

/-- The whole state. -/
structure State where
  /-- `POS`, the stream position, the block's program counter (R24). -/
  pos : Pos
  /-- `CRC` (R25). -/
  crc : Half
  /-- `RING`, `RING_CNT`, `RING_RD` (R26). -/
  ring : Ring
  /-- `RPT_CHAR` (R27). -/
  rptChar : Byte
  /-- `RPT_CNT`, signed (R27). -/
  rptCnt : BitVec 16
  /-- `LEND` (R28). -/
  lend : Bool
  /-- `EOFSEV` (R29). -/
  eofsev : BitVec 2
  /-- `RBUF` and its fields (R31, R56). -/
  buf : ReadBuf
  /-- `BH_VALID` (R30). -/
  bhValid : Bool
  /-- `SA_VALID` (R30). -/
  saValid : Bool
  /-- `SE_VALID` (R30). -/
  seValid : Bool
  /-- `MODE` (R32). -/
  mode : Mode
  /-- `STAGE` (R33). -/
  stage : Stage
  /-- `STATUS` (R34). -/
  status : Status
  /-- `ERR` (R35); none is the code 0, `NONE`. -/
  err : Option ErrClass
  /-- `ERRSUB` (R36); none is the code 0. -/
  errSub : Option Cause
  /-- `ERR_EXPECTED` (R36). -/
  errExpected : Word
  /-- `ERR_FOUND` (R36). -/
  errFound : Word
  /-- `ERR_POS` (R36). -/
  errPos : Pos
  /-- `RESULT` (R37). -/
  result : Pos
  /-- `BH_*` (R40, R41). -/
  bh : BinHexRegs
  /-- `SA_*` (R42). -/
  sa : ArchiveRegs
  /-- `SE_*` (R43). -/
  se : EntryRegs
  /-- `XSRC`, `XSRC_LEN`, `XDST_CAP`, `XDST`, `XDST_LEN` (R52). -/
  xl : XlitRegs
  /-- `REC[0..111]` (R57). -/
  recb : List Byte
  /-- `STREAM` (20_memory.md R70): the bytes behind the stream port, in the canonical form of `Memory.wf`. -/
  stream : List Host.Cell
  /-- `SINK_D` (20_memory.md R75). -/
  sinkD : List Byte
  /-- `SINK_R` (20_memory.md R75). -/
  sinkR : List Byte
  /-- The answer `OPEN_OK` the stream port stands ready to give (48_commands.md R242). -/
  openOk : Bool
  /-- The answer `CLOSE_OK` (48_commands.md R244). -/
  closeOk : Bool
  /-- The word `IO_CAUSE` (48_commands.md R250). -/
  ioCause : Word
  /-- The model's own: the host actions not yet presented, the next one first (notes/assumptions/1.md). -/
  todo : List HostAct
  /-- The model's own: the symbol space the next step takes its instruction from (notes/assumptions/2.md). -/
  space : Space
  /-- The model's own: the sextets `s[0..j-1]` FILLRING has read of the group it is filling (42_sextet_unpacker.md R163;
  notes/assumptions/4.md). -/
  grp : List Sextet
  /-- The model's own: decoded bytes the run-length decoder has delivered and the record parser has not taken
  (41_stream_locate.md R150; notes/assumptions/4.md). -/
  dbuf : List Byte
  /-- The model's own: the OPEN parameters (00_scope.md R9), never written (70_reset_and_hazards.md R294;
  notes/assumptions/5.md). -/
  par : Params
deriving DecidableEq, Repr

/-- Why a step stops with a fault. -/
inductive Fault where
  /-- Raised by the host action `attach` for a sequence of 2^63 bytes or more, which is outside the spec
  (10_state.md R24, U12). Safe: the model stops where the spec defines nothing. -/
  | streamTooLong
deriving DecidableEq, Repr

/-- Why a step is refused. -/
inductive Refusal where
  /-- Raised by `exec` for an instruction without a meaning. Safe. No arm of this model answers it. -/
  | notModelled (mnemonic : String)
  /-- Raised by the host action `attach` while a session is open: the host must not change the stream then, and the spec
  defines no result (70_reset_and_hazards.md R301, U13). Safe. -/
  | streamChangedInSession
deriving DecidableEq, Repr

/-- The ring at reset: empty (10_state.md R60). -/
def ringReset : Ring := { b0 := 0, b1 := 0, b2 := 0, cnt := 0, rd := 0 }

/-- The read buffer at reset (10_state.md R60). -/
def bufReset : ReadBuf := { bytes := List.replicate rbufSize 0, idx := 0, fill := 0, eof := false, fpos := 0 }

/-- The `BH_*` registers at reset (10_state.md R60). -/
def bhReset : BinHexRegs :=
  { nameLen := 0, name := List.replicate 64 0, pnameLen := 0, pname := List.replicate 64 0, typ := 0, creator := 0,
    flags := 0, dlen := 0, rlen := 0, hcrc := 0, dcrc := 0, rcrc := 0 }

/-- The `SA_*` registers at reset (10_state.md R60). -/
def saReset : ArchiveRegs := { magic1 := 0, count := 0, len := 0, magic2 := 0, ver := 0 }

/-- The `SE_*` registers at reset (10_state.md R60). -/
def seReset : EntryRegs :=
  { rmeth := 0, dmeth := 0, nameLen := 0, name := List.replicate nameMax 0, pnameLen := 0,
    pname := List.replicate nameMax 0, typ := 0, creator := 0, flags := 0, cdate := 0, mdate := 0, rlen := 0, dlen := 0,
    crlen := 0, cdlen := 0, rcrc := 0, dcrc := 0, hcrc := 0 }

/-- The transliterator's buffers at reset (10_state.md R60). -/
def xlReset : XlitRegs :=
  { src := List.replicate 64 0, srcLen := 0, dstCap := 0, dst := List.replicate 64 0, dstLen := 0 }

/-- The machine right after reset (70_reset_and_hazards.md R290): every register 0, no session; nothing behind the
stream port, both sinks empty, no host action presented yet. The parameters stand at the spec's defaults. -/
def State.reset : State :=
  { pos := 0, crc := 0, ring := ringReset, rptChar := 0, rptCnt := 0, lend := false, eofsev := 0, buf := bufReset,
    bhValid := false, saValid := false, seValid := false, mode := .closed, stage := .searching, status := .ok,
    err := none, errSub := none, errExpected := 0, errFound := 0, errPos := 0, result := 0, bh := bhReset, sa := saReset,
    se := seReset, xl := xlReset, recb := List.replicate sitEntSize 0, stream := [], sinkD := [], sinkR := [],
    openOk := true, closeOk := true, ioCause := 0, todo := [], space := .command, grp := [], dbuf := [],
    par := paramsDefault }

end Sys2Proof.Machine
end

