-- ==== Sys2Proof/Machine/Flags.lean ====
section
/-! DEFINITION. The codes of the enumerated registers (10_state.md R32 to R36, 60_exceptions.md R261) and every flag the
rules compute: the ring's byte count and the end-of-stream severity of a group (42_sextet_unpacker.md R163), the signed
test of the repeat counter (43_run_length.md R176). -/

namespace Sys2Proof.Machine

/-- The code of `MODE` (R32). -/
def Mode.code : Mode → BitVec 2
  | .closed => 0
  | .bhx => 1
  | .sit => 2

/-- The code of `STAGE` (R33). -/
def Stage.code : Stage → BitVec 3
  | .searching => 0
  | .headerRead => 1
  | .forkData => 2
  | .forkRsrc => 3
  | .done => 4
  | .error => 5

/-- The code of an error class (60_exceptions.md R260). -/
def ErrClass.code : ErrClass → BitVec 3
  | .format => 2
  | .shortRead => 3
  | .sequencing => 4
  | .resource => 5

/-- The code of `STATUS` (R34). -/
def Status.code : Status → BitVec 3
  | .ok => 0
  | .endOfEntries => 1
  | .failed c => c.code

/-- The code of `ERR` (R35). -/
def errCode : Option ErrClass → BitVec 3
  | none => 0
  | some c => c.code

/-- The code of a cause in `ERRSUB` (60_exceptions.md R261). -/
def Cause.code : Cause → BitVec 5
  | .noStart => 1
  | .badChar => 2
  | .nameTooLong => 3
  | .badHdrCrc => 4
  | .badForkCrc => 5
  | .badMagic1 => 6
  | .badMagic2 => 7
  | .negLength => 8
  | .streamEnd => 9
  | .shortBlock => 10
  | .badStage => 11
  | .illegalCmd => 12
  | .noEntry => 13
  | .badLength => 14
  | .openFailed => 15
  | .closeFailed => 16
  | .rleCount1 => 17
  | .badMode => 18

/-- The code of `ERRSUB` (R36). -/
def errSubCode : Option Cause → BitVec 5
  | none => 0
  | some c => c.code

/-- The class of a cause (60_exceptions.md R261). -/
def Cause.cls : Cause → ErrClass
  | .noStart | .badChar | .nameTooLong | .badHdrCrc | .badForkCrc | .badMagic1 | .badMagic2 | .negLength
  | .rleCount1 => .format
  | .streamEnd | .shortBlock => .shortRead
  | .badStage | .illegalCmd | .noEntry | .badLength | .badMode => .sequencing
  | .openFailed | .closeFailed => .resource

/-- `RING_CNT` after a group of `j` sextets (42_sextet_unpacker.md R163). -/
def ringCount (j : Nat) : BitVec 2 :=
  if j = 4 then 3 else if j = 3 then 2 else if j = 2 then 1 else 0

/-- `EOFSEV` of the group that met the end: `3 - RING_CNT` (10_state.md R29, 42_sextet_unpacker.md R163). -/
def severity (cnt : BitVec 2) : BitVec 2 := 3 - cnt

/-- Whether copies are pending: the signed test `RPT_CNT > 0` (43_run_length.md R171, R176). -/
def copiesPending (cnt : BitVec 16) : Bool := 0 < cnt.toInt

/-- Whether a signed 32-bit length is below zero (45_binhex_records.md R202). -/
def isNegative (len : Word) : Bool := len.toInt < 0

end Sys2Proof.Machine
end

