-- ==== Sys2Proof/Machine/Ops.lean ====
section
/-! DEFINITION. The operations every unit shares: reading the stream (20_memory.md R72), appending to a sink (R75), the
fatal-error path (60_exceptions.md R270) and what loads the reset values again (10_state.md R60), and how
micro-operations are sequenced (00_scope.md R16). -/

namespace Sys2Proof.Machine

/-- The byte at offset `a` of a stream; an offset that lists nothing reads as `EOF`, here none (R72). -/
def Memory.read : List Host.Cell → Nat → Option Byte
  | [], _ => none
  | (k, b) :: r, a => if k = a then some b else Memory.read r a

/-- The stream with byte `b` at offset `a`: how a stream is put together on the host's side. The block itself never
writes its stream (R88). -/
def Memory.write : List Host.Cell → Nat → Byte → List Host.Cell
  | [], a, b => [(a, b)]
  | (k, c) :: r, a, b =>
    if a < k then (a, b) :: (k, c) :: r
    else if a = k then (a, b) :: r
    else (k, c) :: Memory.write r a b

/-- Several bytes written from offset `a` on. -/
def Memory.writes : List Host.Cell → Nat → List Byte → List Host.Cell
  | m, _, [] => m
  | m, a, b :: r => Memory.writes (Memory.write m a b) (a + 1) r

/-- The cells of a byte sequence laid out from offset `a` on. -/
def Memory.ofBytesFrom : Nat → List Byte → List Host.Cell
  | _, [] => []
  | a, b :: r => (a, b) :: Memory.ofBytesFrom (a + 1) r

/-- The stream `S[0], S[1], ...` of a byte sequence (R70). -/
def Memory.ofBytes (bs : List Byte) : List Host.Cell := Memory.ofBytesFrom 0 bs

/-- Offsets rise strictly from `lo` on. -/
def Memory.risingFrom : Nat → List Host.Cell → Bool
  | _, [] => true
  | lo, (k, _) :: r => decide (lo ≤ k) && Memory.risingFrom (k + 1) r

/-- The canonical form: offsets strictly rising. An offset that is not listed reads as `EOF`, which no byte equals, so no
entry equals what an unlisted offset reads as. -/
def Memory.wf (m : List Host.Cell) : Bool := Memory.risingFrom 0 m

/-- `MemRead(STREAM, a, 1)` (R72). -/
def memRead (s : State) (a : Pos) : Option Byte := Memory.read s.stream a.toNat

/-- The bytes read at consecutive offsets from `a` on, at most `n`, up to the end of the stream (R73). -/
def readRun (m : List Host.Cell) : Nat → Pos → List Byte
  | 0, _ => []
  | n + 1, a =>
    match Memory.read m a.toNat with
    | none => []
    | some b => b :: readRun m n (a + 1)

/-- A bound on the turns of a loop that consumes one raw character per turn: each is listed in the stream or stands in the
read buffer already, whose index passes 2047 places at most before it refills (60_exceptions.md R281;
notes/assumptions/15.md). -/
def streamFuel (s : State) : Nat := s.stream.length + 2049

/-- `MemWrite(SINK, v)`: appends one byte to a sink (R75). -/
def appendSink (k : Sink) (v : Byte) (s : State) : State :=
  match k with
  | .data => { s with sinkD := s.sinkD ++ [v] }
  | .rsrc => { s with sinkR := s.sinkR ++ [v] }

/-- `raise <Class>(sub, expected, found)`: the fatal-error path (60_exceptions.md R270). The class is the cause's (R261).
Every other register keeps its value; what the micro-operations held as locals ends with the command. -/
def fatal (sub : Cause) (expected found : Word) (s : State) : State :=
  { s with
    err := some sub.cls, errSub := some sub, errExpected := expected, errFound := found, errPos := s.pos,
    stage := .error, status := .failed sub.cls, grp := [], dbuf := [] }

/-- There is no return from an error (60_exceptions.md R272); recovery is a new session. The registers as an accepted
`OPEN.*` loads them: every register its reset value but the transliterator's buffers (10_state.md R60), both sinks
empty (20_memory.md R75). What belongs to the host's side stays. -/
def loadReset (s : State) : State :=
  { State.reset with
    xl := s.xl, stream := s.stream, openOk := s.openOk, closeOk := s.closeOk, ioCause := s.ioCause, todo := s.todo,
    space := s.space, par := s.par }

/-- The reset event (70_reset_and_hazards.md R290): every register its reset value. The stream and the sinks belong to
the host (R292), the parameters are not state (R294). -/
def resetEvent (s : State) : State :=
  { State.reset with
    stream := s.stream, sinkD := s.sinkD, sinkR := s.sinkR, openOk := s.openOk, closeOk := s.closeOk,
    ioCause := s.ioCause, todo := s.todo, par := s.par }

/-- What a micro-operation answers: a value and the state it leaves, or the state in which a `raise` ended the command
(00_scope.md R15, R16). -/
inductive Res (α : Type) where
  | ok (a : α) (s : State)
  | stop (s : State)
deriving Repr

/-- One micro-operation after another: a `raise` in the first ends the command (R16). -/
def Res.bind {α β : Type} (r : Res α) (f : α → State → Res β) : Res β :=
  match r with
  | .ok a s => f a s
  | .stop s => .stop s

/-- The `raise` statement as a micro-operation's answer. -/
def raise {α : Type} (sub : Cause) (expected found : Word) (s : State) : Res α := .stop (fatal sub expected found s)

/-- `STATUS <- OK`, the end of a command that succeeded. -/
def endOk (s : State) : State := { s with status := .ok }

/-- A command's or symbol's last state is the step's next state, whether it ended well or by the fatal-error path: control
goes back to the host with a status (60_exceptions.md R270). -/
def finish {α : Type} (r : Res α) : Host.Outcome State Fault Refusal :=
  match r with
  | .ok _ s => .next s
  | .stop s => .next s

/-- Acceptance of a command that needs no session (48_commands.md R240): with ERR set only STATUS is written. -/
def acceptAny (body : State → Res Unit) (s : State) : Host.Outcome State Fault Refusal :=
  match s.err with
  | some c => .next { s with status := .failed c }
  | none => finish (body s)

/-- Acceptance of a command that needs a session of some mode and, for a BinHex command, some stage
(48_commands.md R240): the sticky error first, then the mode, then the stage, then the command's own rule. -/
def accept (need : Mode) (stage : Option Stage) (body : State → Res Unit) (s : State) :
    Host.Outcome State Fault Refusal :=
  match s.err with
  | some c => .next { s with status := .failed c }
  | none =>
    if s.mode ≠ need then finish (raise (α := Unit) .badMode (need.code.setWidth 32) (s.mode.code.setWidth 32) s)
    else match stage with
      | none => finish (body s)
      | some g =>
        if s.stage ≠ g then finish (raise (α := Unit) .badStage (g.code.setWidth 32) (s.stage.code.setWidth 32) s)
        else finish (body s)

end Sys2Proof.Machine
end

