-- ==== Sys2Proof/Machine/Stream.lean ====
section
/-! DEFINITION. The stream reader and the header locator (41_stream_locate.md). -/

namespace Sys2Proof.Machine

/-- `RAWGET()` in its plain form (R151): reads straight from the stream at POS. The block runs the buffered form below;
R153 says the two agree. -/
def rawgetPlain (s : State) : Option Byte × State :=
  match memRead s s.pos with
  | none => (none, s)
  | some c => (some c, { s with pos := s.pos + 1 })

/-- The refill of `RAWGET_BUFFERED` (R152): up to 1024 bytes from `FPOS` on. -/
def refill (s : State) : State :=
  let got := readRun s.stream rbufSize s.buf.fpos
  { s with buf :=
      { bytes := overlay s.buf.bytes 0 got
        idx := 0
        fill := BitVec.ofNat 11 got.length
        eof := if got.length < rbufSize then true else s.buf.eof
        fpos := s.buf.fpos + BitVec.ofNat 64 got.length } }

/-- The last lines of `RAWGET_BUFFERED` (R152): hand out `RBUF[RBUF_IDX]`. -/
def takeBuf (s : State) : Option Byte × State :=
  (some (s.buf.bytes.getD s.buf.idx.toNat 0), { s with buf := { s.buf with idx := s.buf.idx + 1 }, pos := s.pos + 1 })

/-- `RAWGET_BUFFERED()` (R152). -/
def rawget (s : State) : Option Byte × State :=
  if s.buf.idx = s.buf.fill then
    if s.buf.eof then (none, s)
    else
      let s1 := refill s
      if s1.buf.fill = 0 then (none, s1) else takeBuf s1
  else takeBuf s

/-- The search of `LOCATE()` (R154): from POS on, for a line-initial `:` right before an alphabet character; answers that
character, with POS at it. `bol` says whether POS is at the beginning of a line. -/
def locateSearch : Nat → Bool → State → Res Byte
  | 0, _, s => raise .noStart 0x3A 0x100 s
  | n + 1, bol, s =>
    match memRead s s.pos with
    | none => raise .noStart 0x3A 0x100 s
    | some c =>
      let s1 := { s with pos := s.pos + 1 }
      match (if bol && c == 0x3A then (memRead s1 s1.pos).filter isAlphabet else none) with
      | some d => .ok d s1
      | none => locateSearch n (c == 0x0A || c == 0x0D) s1

/-- What a start mark does (R154): STAGE becomes HEADER_READ and the read buffer starts empty at POS (R152). -/
def locateMatched (s : State) : State :=
  { s with
    stage := .headerRead
    buf := { s.buf with fpos := s.pos, idx := 0, fill := 0, eof := false } }

/-- `LOCATE()` (R154). The search starts at the beginning of a line. -/
def locate (s : State) : Res Unit :=
  (locateSearch (streamFuel s) true s).bind fun _ s => .ok () (locateMatched s)

/-- `LOCATE.START`: a line-initial `:` has been consumed and the alphabet character `c` stands at POS, not consumed
(R154). -/
def execLocateStart (_c : Byte) (s : State) : Host.Outcome State Fault Refusal := .next (locateMatched s)

end Sys2Proof.Machine
end

