-- ==== Sys2Proof/Machine/Sxt.lean ====
section
/-! DEFINITION. The unit SXT: raw characters to sextets, sextets to raw bytes through the ring (42_sextet_unpacker.md).
The meaning of a character's row is what SEXTET and the loop of FILLRING do once RAWGET has delivered it. -/

namespace Sys2Proof.Machine

/-- A sextet joins the group being filled (R163: `s[j] <- r; j <- j + 1`). -/
def pushSextet (v : Sextet) (s : State) : State := { s with grp := s.grp ++ [v] }

/-- A SKIP character: consumed, yields nothing (30_encoding.md R106, R130). -/
def skipChar (s : State) : State := s

/-- The terminator, or the end of the stream: the logical end (R161, R163). -/
def termChar (s : State) : State := { s with lend := true }

/-- An INVALID character (R161). -/
def invalidChar {α : Type} (c : Byte) (s : State) : Res α := raise .badChar 0 (c.setWidth 32) s

/-- `SEXTET()` (R161): a sextet, or none for `TERM`. -/
def sextet : Nat → State → Res (Option Sextet)
  | 0, s => .ok none s
  | n + 1, s =>
    match rawget s with
    | (none, s1) => .ok none s1
    | (some c, s1) =>
      match charClass c with
      | .sextet v => .ok (some v) s1
      | .skip => sextet n (skipChar s1)
      | .term => .ok none s1
      | .invalid => invalidChar c s1

/-- The loop of `FILLRING()` (R163): up to `n` more sextets. -/
def collect : Nat → State → Res Unit
  | 0, s => .ok () s
  | n + 1, s =>
    (sextet (streamFuel s) s).bind fun r s =>
      match r with
      | none => .ok () (termChar s)
      | some v => collect n (pushSextet v s)

/-- The end of `FILLRING()` (R163): four sextets, the missing ones 0, into the ring; `j` is how many were read. -/
def packGroup (s0 s1 s2 s3 : Sextet) (s : State) : State :=
  let p := pack s0 s1 s2 s3
  let cnt := ringCount s.grp.length
  { s with
    ring := { b0 := p.1, b1 := p.2.1, b2 := p.2.2, cnt := cnt, rd := 0 }
    eofsev := if s.lend then severity cnt else s.eofsev
    grp := [] }

/-- `packGroup` of the sextets read so far. -/
def packRead (s : State) : State :=
  packGroup (s.grp.getD 0 0) (s.grp.getD 1 0) (s.grp.getD 2 0) (s.grp.getD 3 0) s

/-- `FILLRING()` (R163). -/
def fillring (s : State) : Res Unit :=
  (collect 4 { s with grp := [] }).bind fun _ s => .ok () (packRead s)

/-- The byte at index `RING_RD`. -/
def ringByte (r : Ring) : Byte := if r.rd = 0 then r.b0 else if r.rd = 1 then r.b1 else r.b2

/-- The last lines of `RAWBYTE()` (R165): hand out the next byte of the ring. -/
def takeRing (s : State) : Res Byte := .ok (ringByte s.ring) { s with ring := { s.ring with rd := s.ring.rd + 1 } }

/-- `RAWBYTE()` (R165). -/
def rawbyte (s : State) : Res Byte :=
  if s.ring.cnt ≤ s.ring.rd then
    if s.lend then raise .streamEnd 1 0 s
    else (fillring s).bind fun _ s => if s.ring.cnt = 0 then raise .streamEnd 1 0 s else takeRing s
  else takeRing s

/-- `CH.SEXTET_0`: yields the sextet 0 (30_encoding.md R105, R161). -/
def execChSextet0 (s : State) : Host.Outcome State Fault Refusal := .next (pushSextet 0 s)

/-- `CH.SEXTET_1`: yields the sextet 1 (30_encoding.md R105, R161). -/
def execChSextet1 (s : State) : Host.Outcome State Fault Refusal := .next (pushSextet 1 s)

/-- `CH.SEXTET_2`: yields the sextet 2 (30_encoding.md R105, R161). -/
def execChSextet2 (s : State) : Host.Outcome State Fault Refusal := .next (pushSextet 2 s)

/-- `CH.SEXTET_3`: yields the sextet 3 (30_encoding.md R105, R161). -/
def execChSextet3 (s : State) : Host.Outcome State Fault Refusal := .next (pushSextet 3 s)

/-- `CH.SEXTET_4`: yields the sextet 4 (30_encoding.md R105, R161). -/
def execChSextet4 (s : State) : Host.Outcome State Fault Refusal := .next (pushSextet 4 s)

/-- `CH.SEXTET_5`: yields the sextet 5 (30_encoding.md R105, R161). -/
def execChSextet5 (s : State) : Host.Outcome State Fault Refusal := .next (pushSextet 5 s)

/-- `CH.SEXTET_6`: yields the sextet 6 (30_encoding.md R105, R161). -/
def execChSextet6 (s : State) : Host.Outcome State Fault Refusal := .next (pushSextet 6 s)

/-- `CH.SEXTET_7`: yields the sextet 7 (30_encoding.md R105, R161). -/
def execChSextet7 (s : State) : Host.Outcome State Fault Refusal := .next (pushSextet 7 s)

/-- `CH.SEXTET_8`: yields the sextet 8 (30_encoding.md R105, R161). -/
def execChSextet8 (s : State) : Host.Outcome State Fault Refusal := .next (pushSextet 8 s)

/-- `CH.SEXTET_9`: yields the sextet 9 (30_encoding.md R105, R161). -/
def execChSextet9 (s : State) : Host.Outcome State Fault Refusal := .next (pushSextet 9 s)

/-- `CH.SEXTET_10`: yields the sextet 10 (30_encoding.md R105, R161). -/
def execChSextet10 (s : State) : Host.Outcome State Fault Refusal := .next (pushSextet 10 s)

/-- `CH.SEXTET_11`: yields the sextet 11 (30_encoding.md R105, R161). -/
def execChSextet11 (s : State) : Host.Outcome State Fault Refusal := .next (pushSextet 11 s)

/-- `CH.SEXTET_12`: yields the sextet 12 (30_encoding.md R105, R161). -/
def execChSextet12 (s : State) : Host.Outcome State Fault Refusal := .next (pushSextet 12 s)

/-- `CH.SEXTET_13`: yields the sextet 13 (30_encoding.md R105, R161). -/
def execChSextet13 (s : State) : Host.Outcome State Fault Refusal := .next (pushSextet 13 s)

/-- `CH.SEXTET_14`: yields the sextet 14 (30_encoding.md R105, R161). -/
def execChSextet14 (s : State) : Host.Outcome State Fault Refusal := .next (pushSextet 14 s)

/-- `CH.SEXTET_15`: yields the sextet 15 (30_encoding.md R105, R161). -/
def execChSextet15 (s : State) : Host.Outcome State Fault Refusal := .next (pushSextet 15 s)

/-- `CH.SEXTET_16`: yields the sextet 16 (30_encoding.md R105, R161). -/
def execChSextet16 (s : State) : Host.Outcome State Fault Refusal := .next (pushSextet 16 s)

/-- `CH.SEXTET_17`: yields the sextet 17 (30_encoding.md R105, R161). -/
def execChSextet17 (s : State) : Host.Outcome State Fault Refusal := .next (pushSextet 17 s)

/-- `CH.SEXTET_18`: yields the sextet 18 (30_encoding.md R105, R161). -/
def execChSextet18 (s : State) : Host.Outcome State Fault Refusal := .next (pushSextet 18 s)

/-- `CH.SEXTET_19`: yields the sextet 19 (30_encoding.md R105, R161). -/
def execChSextet19 (s : State) : Host.Outcome State Fault Refusal := .next (pushSextet 19 s)

/-- `CH.SEXTET_20`: yields the sextet 20 (30_encoding.md R105, R161). -/
def execChSextet20 (s : State) : Host.Outcome State Fault Refusal := .next (pushSextet 20 s)

/-- `CH.SEXTET_21`: yields the sextet 21 (30_encoding.md R105, R161). -/
def execChSextet21 (s : State) : Host.Outcome State Fault Refusal := .next (pushSextet 21 s)

/-- `CH.SEXTET_22`: yields the sextet 22 (30_encoding.md R105, R161). -/
def execChSextet22 (s : State) : Host.Outcome State Fault Refusal := .next (pushSextet 22 s)

/-- `CH.SEXTET_23`: yields the sextet 23 (30_encoding.md R105, R161). -/
def execChSextet23 (s : State) : Host.Outcome State Fault Refusal := .next (pushSextet 23 s)

/-- `CH.SEXTET_24`: yields the sextet 24 (30_encoding.md R105, R161). -/
def execChSextet24 (s : State) : Host.Outcome State Fault Refusal := .next (pushSextet 24 s)

/-- `CH.SEXTET_25`: yields the sextet 25 (30_encoding.md R105, R161). -/
def execChSextet25 (s : State) : Host.Outcome State Fault Refusal := .next (pushSextet 25 s)

/-- `CH.SEXTET_26`: yields the sextet 26 (30_encoding.md R105, R161). -/
def execChSextet26 (s : State) : Host.Outcome State Fault Refusal := .next (pushSextet 26 s)

/-- `CH.SEXTET_27`: yields the sextet 27 (30_encoding.md R105, R161). -/
def execChSextet27 (s : State) : Host.Outcome State Fault Refusal := .next (pushSextet 27 s)

/-- `CH.SEXTET_28`: yields the sextet 28 (30_encoding.md R105, R161). -/
def execChSextet28 (s : State) : Host.Outcome State Fault Refusal := .next (pushSextet 28 s)

/-- `CH.SEXTET_29`: yields the sextet 29 (30_encoding.md R105, R161). -/
def execChSextet29 (s : State) : Host.Outcome State Fault Refusal := .next (pushSextet 29 s)

/-- `CH.SEXTET_30`: yields the sextet 30 (30_encoding.md R105, R161). -/
def execChSextet30 (s : State) : Host.Outcome State Fault Refusal := .next (pushSextet 30 s)

/-- `CH.SEXTET_31`: yields the sextet 31 (30_encoding.md R105, R161). -/
def execChSextet31 (s : State) : Host.Outcome State Fault Refusal := .next (pushSextet 31 s)

/-- `CH.SEXTET_32`: yields the sextet 32 (30_encoding.md R105, R161). -/
def execChSextet32 (s : State) : Host.Outcome State Fault Refusal := .next (pushSextet 32 s)

/-- `CH.SEXTET_33`: yields the sextet 33 (30_encoding.md R105, R161). -/
def execChSextet33 (s : State) : Host.Outcome State Fault Refusal := .next (pushSextet 33 s)

/-- `CH.SEXTET_34`: yields the sextet 34 (30_encoding.md R105, R161). -/
def execChSextet34 (s : State) : Host.Outcome State Fault Refusal := .next (pushSextet 34 s)

/-- `CH.SEXTET_35`: yields the sextet 35 (30_encoding.md R105, R161). -/
def execChSextet35 (s : State) : Host.Outcome State Fault Refusal := .next (pushSextet 35 s)

/-- `CH.SEXTET_36`: yields the sextet 36 (30_encoding.md R105, R161). -/
def execChSextet36 (s : State) : Host.Outcome State Fault Refusal := .next (pushSextet 36 s)

/-- `CH.SEXTET_37`: yields the sextet 37 (30_encoding.md R105, R161). -/
def execChSextet37 (s : State) : Host.Outcome State Fault Refusal := .next (pushSextet 37 s)

/-- `CH.SEXTET_38`: yields the sextet 38 (30_encoding.md R105, R161). -/
def execChSextet38 (s : State) : Host.Outcome State Fault Refusal := .next (pushSextet 38 s)

/-- `CH.SEXTET_39`: yields the sextet 39 (30_encoding.md R105, R161). -/
def execChSextet39 (s : State) : Host.Outcome State Fault Refusal := .next (pushSextet 39 s)

/-- `CH.SEXTET_40`: yields the sextet 40 (30_encoding.md R105, R161). -/
def execChSextet40 (s : State) : Host.Outcome State Fault Refusal := .next (pushSextet 40 s)

/-- `CH.SEXTET_41`: yields the sextet 41 (30_encoding.md R105, R161). -/
def execChSextet41 (s : State) : Host.Outcome State Fault Refusal := .next (pushSextet 41 s)

/-- `CH.SEXTET_42`: yields the sextet 42 (30_encoding.md R105, R161). -/
def execChSextet42 (s : State) : Host.Outcome State Fault Refusal := .next (pushSextet 42 s)

/-- `CH.SEXTET_43`: yields the sextet 43 (30_encoding.md R105, R161). -/
def execChSextet43 (s : State) : Host.Outcome State Fault Refusal := .next (pushSextet 43 s)

/-- `CH.SEXTET_44`: yields the sextet 44 (30_encoding.md R105, R161). -/
def execChSextet44 (s : State) : Host.Outcome State Fault Refusal := .next (pushSextet 44 s)

/-- `CH.SEXTET_45`: yields the sextet 45 (30_encoding.md R105, R161). -/
def execChSextet45 (s : State) : Host.Outcome State Fault Refusal := .next (pushSextet 45 s)

/-- `CH.SEXTET_46`: yields the sextet 46 (30_encoding.md R105, R161). -/
def execChSextet46 (s : State) : Host.Outcome State Fault Refusal := .next (pushSextet 46 s)

/-- `CH.SEXTET_47`: yields the sextet 47 (30_encoding.md R105, R161). -/
def execChSextet47 (s : State) : Host.Outcome State Fault Refusal := .next (pushSextet 47 s)

/-- `CH.SEXTET_48`: yields the sextet 48 (30_encoding.md R105, R161). -/
def execChSextet48 (s : State) : Host.Outcome State Fault Refusal := .next (pushSextet 48 s)

/-- `CH.SEXTET_49`: yields the sextet 49 (30_encoding.md R105, R161). -/
def execChSextet49 (s : State) : Host.Outcome State Fault Refusal := .next (pushSextet 49 s)

/-- `CH.SEXTET_50`: yields the sextet 50 (30_encoding.md R105, R161). -/
def execChSextet50 (s : State) : Host.Outcome State Fault Refusal := .next (pushSextet 50 s)

/-- `CH.SEXTET_51`: yields the sextet 51 (30_encoding.md R105, R161). -/
def execChSextet51 (s : State) : Host.Outcome State Fault Refusal := .next (pushSextet 51 s)

/-- `CH.SEXTET_52`: yields the sextet 52 (30_encoding.md R105, R161). -/
def execChSextet52 (s : State) : Host.Outcome State Fault Refusal := .next (pushSextet 52 s)

/-- `CH.SEXTET_53`: yields the sextet 53 (30_encoding.md R105, R161). -/
def execChSextet53 (s : State) : Host.Outcome State Fault Refusal := .next (pushSextet 53 s)

/-- `CH.SEXTET_54`: yields the sextet 54 (30_encoding.md R105, R161). -/
def execChSextet54 (s : State) : Host.Outcome State Fault Refusal := .next (pushSextet 54 s)

/-- `CH.SEXTET_55`: yields the sextet 55 (30_encoding.md R105, R161). -/
def execChSextet55 (s : State) : Host.Outcome State Fault Refusal := .next (pushSextet 55 s)

/-- `CH.SEXTET_56`: yields the sextet 56 (30_encoding.md R105, R161). -/
def execChSextet56 (s : State) : Host.Outcome State Fault Refusal := .next (pushSextet 56 s)

/-- `CH.SEXTET_57`: yields the sextet 57 (30_encoding.md R105, R161). -/
def execChSextet57 (s : State) : Host.Outcome State Fault Refusal := .next (pushSextet 57 s)

/-- `CH.SEXTET_58`: yields the sextet 58 (30_encoding.md R105, R161). -/
def execChSextet58 (s : State) : Host.Outcome State Fault Refusal := .next (pushSextet 58 s)

/-- `CH.SEXTET_59`: yields the sextet 59 (30_encoding.md R105, R161). -/
def execChSextet59 (s : State) : Host.Outcome State Fault Refusal := .next (pushSextet 59 s)

/-- `CH.SEXTET_60`: yields the sextet 60 (30_encoding.md R105, R161). -/
def execChSextet60 (s : State) : Host.Outcome State Fault Refusal := .next (pushSextet 60 s)

/-- `CH.SEXTET_61`: yields the sextet 61 (30_encoding.md R105, R161). -/
def execChSextet61 (s : State) : Host.Outcome State Fault Refusal := .next (pushSextet 61 s)

/-- `CH.SEXTET_62`: yields the sextet 62 (30_encoding.md R105, R161). -/
def execChSextet62 (s : State) : Host.Outcome State Fault Refusal := .next (pushSextet 62 s)

/-- `CH.SEXTET_63`: yields the sextet 63 (30_encoding.md R105, R161). -/
def execChSextet63 (s : State) : Host.Outcome State Fault Refusal := .next (pushSextet 63 s)

/-- `CH.SKIP_LF` (30_encoding.md R106). -/
def execChSkipLf (s : State) : Host.Outcome State Fault Refusal := .next (skipChar s)

/-- `CH.SKIP_CR` (30_encoding.md R106). -/
def execChSkipCr (s : State) : Host.Outcome State Fault Refusal := .next (skipChar s)

/-- `CH.TERM` (30_encoding.md R106, R163). -/
def execChTerm (s : State) : Host.Outcome State Fault Refusal := .next (termChar s)

/-- `CH.INVALID` (30_encoding.md R106, R161). -/
def execChInvalid (c : Byte) (s : State) : Host.Outcome State Fault Refusal := finish (invalidChar (α := Unit) c s)

/-- `GRP.PACK`: the group that ends a FILLRING; the ring gets as many bytes as the sextets that were read give
(30_encoding.md R108, R163). -/
def execGrpPack (s0 s1 s2 s3 : Sextet) (s : State) : Host.Outcome State Fault Refusal :=
  .next (packGroup s0 s1 s2 s3 s)

end Sys2Proof.Machine
end

