-- ==== Sys2Proof/Machine/Rle.lean ====
section
/-! DEFINITION. The unit RLE, the run-length decoder (43_run_length.md). The meaning of a row is what DECBYTE does once
RAWBYTE has delivered the row's raw bytes; a step of its own hands the decoded byte to the record parser's queue. -/

namespace Sys2Proof.Machine

/-- A literal (R171): the byte it delivers and the state. -/
def literalByte (b : Byte) (s : State) : Res Byte := .ok b { s with rptChar := b }

/-- The pair 90 00 (R171, R173): one byte 0x90, which a following pair would repeat. -/
def markLiteral (s : State) : Res Byte := .ok rleMark { s with rptChar := rleMark }

/-- The pair 90 `n`, `n >= 2` (R171): one copy at once, `n - 2` more pending. The subtraction is on integers (R176). -/
def startRun (n : Byte) (s : State) : Res Byte :=
  .ok s.rptChar { s with rptCnt := BitVec.ofInt 16 ((n.toNat : Int) - 2) }

/-- The pair 90 01 (R172), by `RLE_COUNT1_MODE`: a byte, or none where the pair delivers nothing. -/
def countOne (s : State) : Res (Option Byte) :=
  match s.par.count1 with
  | .emitOne => .ok (some s.rptChar) { s with rptCnt := BitVec.ofInt 16 (-1) }
  | .emitZero => .ok none { s with rptCnt := 0 }
  | .fault => raise .rleCount1 2 1 s

/-- One pending copy (R171). -/
def pendingCopy (s : State) : Res Byte := .ok s.rptChar { s with rptCnt := s.rptCnt - 1 }

/-- `DECBYTE()` (R171, R172); the number bounds the restarts of `EMIT_ZERO`. -/
def decbyteLoop : Nat → State → Res Byte
  | 0, s => raise .streamEnd 1 0 s
  | k + 1, s =>
    if copiesPending s.rptCnt then pendingCopy s
    else
      (rawbyte s).bind fun b s =>
        if b ≠ rleMark then literalByte b s
        else
          (rawbyte s).bind fun n s =>
            if n = 0 then markLiteral s
            else if n = 1 then
              (countOne s).bind fun r s =>
                match r with
                | some c => .ok c s
                | none => decbyteLoop k s
            else startRun n s

/-- `DECBYTE()` (R171): each restart takes two raw bytes of the stream or of the ring's three. -/
def decbyte (s : State) : Res Byte := decbyteLoop (streamFuel s + 3) s

/-- The decoded byte a row delivers joins the bytes the record parser has not taken (41_stream_locate.md R150). -/
def deliver (r : Res Byte) : Res Unit := r.bind fun b s => .ok () { s with dbuf := s.dbuf ++ [b] }

/-- `deliver` for a pair that may deliver nothing. -/
def deliverSome (r : Res (Option Byte)) : Res Unit :=
  r.bind fun b s => .ok () { s with dbuf := s.dbuf ++ b.toList }

/-- `RLE.LITERAL` (R171). -/
def execRleLiteral (b : Byte) (s : State) : Host.Outcome State Fault Refusal := finish (deliver (literalByte b s))

/-- `RLE.MARK_LITERAL` (R173). -/
def execRleMarkLiteral (s : State) : Host.Outcome State Fault Refusal := finish (deliver (markLiteral s))

/-- `RLE.COUNT1` (R172). -/
def execRleCount1 (s : State) : Host.Outcome State Fault Refusal := finish (deliverSome (countOne s))

/-- `RLE.RUN` (R171). -/
def execRleRun (n : Byte) (s : State) : Host.Outcome State Fault Refusal := finish (deliver (startRun n s))

end Sys2Proof.Machine
end

