-- ==== Sys2Proof/Machine/Crc.lean ====
section
/-! DEFINITION. The unit CRC, the CRC-16 accumulator and validator (44_crc16.md). -/

namespace Sys2Proof.Machine

/-- One iteration of `CRCUPD` (R181): shift left, the bit in at the low end, then the polynomial if the bit shifted out
was 1. -/
def crcBit (c : Half) (bit : Bool) : Half :=
  let n := (c <<< 1) ||| (if bit then 1 else 0)
  if c.msb then n ^^^ crcPoly else n

/-- `n` iterations, the bits of `v` most significant first (R181). -/
def crcLoop : Nat → Half → Byte → Half
  | 0, c, _ => c
  | n + 1, c, v => crcLoop n (crcBit c v.msb) (v <<< 1)

/-- `CRCUPD(b)` on the accumulator's value (R181). -/
def crcByte (c : Half) (b : Byte) : Half := crcLoop 8 c b

/-- The accumulator after a byte sequence, from `c` on. -/
def crcFrom (c : Half) (m : List Byte) : Half := m.foldl crcByte c

/-- `acc(m)` (R186). -/
def acc (m : List Byte) : Half := crcFrom crcInit m

/-- `crc16(m)` (R186): the value a span's stored field must have. -/
def crc16 (m : List Byte) : Half := acc (m ++ [0x00, 0x00])

/-- `CRCUPD(b)` (R181). -/
def crcUpd (b : Byte) (s : State) : State := { s with crc := crcByte s.crc b }

/-- The next decoded byte: one that has been delivered and not taken, else DECBYTE's (41_stream_locate.md R150). In a
command nothing stands between the two units, and this is DECBYTE. -/
def nextDecoded (s : State) : Res Byte :=
  match s.dbuf with
  | b :: r => .ok b { s with dbuf := r }
  | [] => decbyte s

/-- `GETC()` (R182). -/
def getc (s : State) : Res Byte := (nextDecoded s).bind fun b s => .ok b (crcUpd b s)

/-- `GETC0()` (R183): a zero is counted in place of the byte. -/
def getc0 (s : State) : Res Byte := (nextDecoded s).bind fun b s => .ok b (crcUpd 0x00 s)

/-- Span start (R184). -/
def spanStart (s : State) : State := { s with crc := crcInit }

/-- `CRCCHECK(sub)` (R185). -/
def crcCheck (sub : Cause) (s : State) : Res Half :=
  (getc0 s).bind fun hi s =>
    (getc0 s).bind fun lo s =>
      if s.crc ≠ be16 hi lo then raise sub (s.crc.setWidth 32) ((be16 hi lo).setWidth 32) s
      else .ok (be16 hi lo) s

end Sys2Proof.Machine
end

