-- ==== Sys2Proof/Machine/Xlt.lean ====
section
/-! DEFINITION. The unit XLT, the MacRoman transliterator (40_transliterator.md), and the command XLIT. -/

namespace Sys2Proof.Machine

/-- `XLTBYTE(b)` (R141), over the table `XLT_HI`. -/
def xltByte (hi : List Byte) (b : Byte) : Byte :=
  if b.toNat < 0x20 then 0x5F
  else if b.toNat ≤ 0x7E then b
  else if b = 0x7F then 0x7F
  else hi.getD (b.toNat - 0x80) 0x5F

/-- `XLTBUF(src, srcLen, dstCap)` (R143): the destination bytes; their count is the list's length. -/
def xltBuf (hi : List Byte) (src : List Byte) (srcLen dstCap : Nat) : List Byte :=
  ((src.take (min srcLen dstCap)).takeWhile (fun b => b != 0x00)).map (xltByte hi)

/-- The body of `XLIT` (R145), over the two 7-bit lengths of R52: the zero-length test before the over-length test
(60_exceptions.md R265 (e)). -/
def xlitBody (s : State) : Res Unit :=
  let sl := s.xl.srcLen.toNat
  let dc := s.xl.dstCap.toNat
  if sl = 0 ∨ dc = 0 then raise .badLength 1 0 s
  else if sl > 64 ∨ dc > 64 then raise .badLength 64 (BitVec.ofNat 32 (max sl dc)) s
  else
    let out := xltBuf s.par.xltHi s.xl.src sl dc
    .ok () (endOk { s with xl := { s.xl with dst := padTo 64 out, dstLen := BitVec.ofNat 7 out.length } })

/-- `XLIT` (R145): accepted in any MODE when ERR is NONE (48_commands.md R240). -/
def execXlit (s : State) : Host.Outcome State Fault Refusal := acceptAny xlitBody s

end Sys2Proof.Machine
end

