-- ==== Sys2Proof/Machine/BinHex.lean ====
section
/-! DEFINITION. The unit REC, BinHex personality (45_binhex_records.md): the header and fork records and the commands
BHX.HDR, BHX.DATA, BHX.RSRC. -/

namespace Sys2Proof.Machine

/-- `GETBE(k)` (R194), continuing from the value `v`. -/
def getbeFrom : Nat → Word → State → Res Word
  | 0, v, s => .ok v s
  | k + 1, v, s => (getc s).bind fun b s => getbeFrom k ((v <<< 8) ||| b.setWidth 32) s

/-- `GETBE(k)` (R194). -/
def getbe (k : Nat) (s : State) : Res Word := getbeFrom k 0 s

/-- `n` name bytes into `BH_NAME` from index `i` on (R193). -/
def readName : Nat → Nat → State → Res Unit
  | 0, _, s => .ok () s
  | n + 1, i, s =>
    (getc s).bind fun b s => readName n (i + 1) { s with bh := { s.bh with name := s.bh.name.set i b } }

/-- `BH_NAMELEN` and the portable name (R190, 40_transliterator.md R144). -/
def setBhName (l : Byte) (s : State) : State :=
  let p := if l = 0 then [] else xltBuf s.par.xltHi (s.bh.name.take l.toNat) l.toNat 64
  { s with bh := { s.bh with nameLen := l, pname := padTo 64 p, pnameLen := BitVec.ofNat 8 p.length } }

/-- The header record (R190): everything after LOCATE, from the span start on. -/
def headerRecord (s : State) : Res Unit :=
  let s := spanStart { s with
    bhValid := false
    bh := { s.bh with name := List.replicate 64 0, pname := List.replicate 64 0, pnameLen := 0 } }
  (getc s).bind fun l s =>
    let n := l.toNat + 1
    if n ≥ nameLimit then raise .nameTooLong 63 (BitVec.ofNat 32 n) s
    else
      (readName n 0 s).bind fun _ s =>
      (getbe 4 (setBhName l s)).bind fun v s =>
      (getbe 4 { s with bh := { s.bh with typ := v } }).bind fun v s =>
      (getbe 2 { s with bh := { s.bh with creator := v } }).bind fun v s =>
      (getbe 4 { s with bh := { s.bh with flags := v.setWidth 16 } }).bind fun v s =>
      (getbe 4 { s with bh := { s.bh with dlen := v } }).bind fun v s =>
      (crcCheck .badHdrCrc { s with bh := { s.bh with rlen := v } }).bind fun h s =>
      .ok () (endOk { s with bh := { s.bh with hcrc := h }, bhValid := true, stage := .forkData })

/-- The body of `BHX.HDR` (R190). -/
def hdrBody (s : State) : Res Unit := (locate s).bind fun _ s => headerRecord s

/-- The copying loop of `FORKBODY` (R200). -/
def forkBytes (k : Sink) : Nat → State → Res Unit
  | 0, s => .ok () s
  | n + 1, s => (getc s).bind fun b s => forkBytes k n (appendSink k b s)

/-- The stored CRC and the next stage of a fork (R198, R199). -/
def forkDone (k : Sink) (crc : Half) (s : State) : State :=
  match k with
  | .data => endOk { s with bh := { s.bh with dcrc := crc }, stage := .forkRsrc }
  | .rsrc => endOk { s with bh := { s.bh with rcrc := crc }, stage := .done }

/-- The fork record (30_encoding.md R112): `len` body bytes to the sink, then the checked CRC field (R200, R201). -/
def forkRecord (k : Sink) (len : Nat) (s : State) : Res Unit :=
  (forkBytes k len (spanStart s)).bind fun _ s =>
  (crcCheck .badForkCrc s).bind fun c s =>
  .ok () (forkDone k c s)

/-- A fork command's body (R198, R199): a negative length is an error before anything is read (R202). -/
def forkBody (k : Sink) (len : Word) (s : State) : Res Unit :=
  if isNegative len then raise .negLength 0 len s else forkRecord k len.toNat s

/-- `BHX.HDR` (R190). -/
def execBhxHdr (s : State) : Host.Outcome State Fault Refusal := accept .bhx (some .searching) hdrBody s

/-- `BHX.DATA` (R198). -/
def execBhxData (s : State) : Host.Outcome State Fault Refusal :=
  accept .bhx (some .forkData) (forkBody .data s.bh.dlen) s

/-- `BHX.RSRC` (R199). -/
def execBhxRsrc (s : State) : Host.Outcome State Fault Refusal :=
  accept .bhx (some .forkRsrc) (forkBody .rsrc s.bh.rlen) s

/-- `REC.BHXHDR`: the header record whose decoded bytes are the record's (R190 to R196). -/
def execRecBhxhdr (r : BhxHeaderRec) (s : State) : Host.Outcome State Fault Refusal :=
  finish (headerRecord { s with dbuf := encode (.recBhxhdr r) ++ s.dbuf })

/-- `REC.BHXFORK`: the fork record whose decoded bytes are the record's, for the fork STAGE stands at (R198 to R203); in a
stage that stands at no fork, the error of a fork asked for out of turn (R198). The length is that of the record's own body:
that the row by itself follows STAGE and does not compare its length with `BH_DLEN` or `BH_RLEN` (30_encoding.md R112) is the
model's choice (notes/assumptions/20.md). The commands take the length from those registers. -/
def execRecBhxfork (r : BhxForkRec) (s : State) : Host.Outcome State Fault Refusal :=
  let s1 := { s with dbuf := encode (.recBhxfork r) ++ s.dbuf }
  if s.stage = .forkData then finish (forkRecord .data r.body.length s1)
  else if s.stage = .forkRsrc then finish (forkRecord .rsrc r.body.length s1)
  else finish (raise (α := Unit) .badStage 2 (s.stage.code.setWidth 32) s)

end Sys2Proof.Machine
end

