-- ==== Sys2Proof/Machine/Session.lean ====
section
/-! DEFINITION. Session control (48_commands.md): OPEN.BHX, OPEN.SIT, CLOSE, and the reserved command bytes. -/

namespace Sys2Proof.Machine

/-- `OPEN.*` (R242): executed whether or not ERR is set; a session already open is an error fatal to it. -/
def openSession (m : Mode) (s : State) : Res Unit :=
  if s.mode ≠ .closed then raise .badMode 0 (s.mode.code.setWidth 32) s
  else
    let s1 := loadReset s
    if s1.openOk then .ok () (endOk { s1 with mode := m }) else raise .openFailed 0 s1.ioCause s1

/-- `CLOSE` (R244): executed in every state; ERR and the results stay readable. The end of a session discards the read
buffer (20_memory.md R89), also when the close then fails; what is left in it, all 0, is the model's choice
(notes/assumptions/25.md). -/
def closeSession (s : State) : Res Unit :=
  if s.mode = .closed then .ok () (endOk s)
  else
    let s1 := { s with mode := .closed, buf := bufReset }
    if s1.closeOk then .ok () (endOk s1) else raise .closeFailed 0 s1.ioCause s1

/-- `OPEN.BHX` (R242). -/
def execOpenBhx (s : State) : Host.Outcome State Fault Refusal := finish (openSession .bhx s)

/-- `OPEN.SIT` (R243). -/
def execOpenSit (s : State) : Host.Outcome State Fault Refusal := finish (openSession .sit s)

/-- `CLOSE` (R244). -/
def execClose (s : State) : Host.Outcome State Fault Refusal := finish (closeSession s)

/-- A reserved command byte (R241): with ERR set the sticky class is returned and no new error raised (R240). -/
def execReservedCommand (c : Byte) (s : State) : Host.Outcome State Fault Refusal :=
  acceptAny (fun s => raise .illegalCmd 0 (c.setWidth 32) s) s

end Sys2Proof.Machine
end

