-- ==== Sys2Proof/Machine/StuffIt.lean ====
section
/-! DEFINITION. The unit REC, StuffIt personality (46_stuffit_records.md): the archive header, the entry records, the seven
accessors. A row of the magic words, of the method codes or of the type code is what the rule does from the point where
it meets that value on (notes/assumptions/18.md, 19.md). -/

namespace Sys2Proof.Machine

/-- The record buffer with `bs` at its front; the bytes beyond keep what they held (R211). -/
def loadRec (bs : List Byte) (s : State) : State := { s with recb := (overlay s.recb 0 bs).take sitEntSize }

/-- The bytes `BLOCKREAD(n)` gets (R211). -/
def blockGot (n : Nat) (s : State) : List Byte := readRun s.stream n s.pos

/-- The state `BLOCKREAD(n)` leaves (R211): POS moves by the bytes obtained. -/
def blockRead (n : Nat) (s : State) : State :=
  let got := blockGot n s
  { loadRec got s with pos := s.pos + BitVec.ofNat 64 got.length }

/-- A short block read (R212, R216). -/
def shortBlock {α : Type} (want got : Nat) (s : State) : Res α :=
  raise .shortBlock (BitVec.ofNat 32 want) (BitVec.ofNat 32 got) s

/-- `SIT.HDR` once both magic words have passed (R212, R214). -/
def magic2Passed (m1 : Word) (s : State) : State :=
  endOk { s with
    sa := { magic1 := m1, count := field16 s.recb 4, len := field32 s.recb 6, magic2 := magic2Value,
            ver := field8 s.recb s.par.verOff }
    saValid := true }

/-- `SIT.HDR` at the check of magic-2 (R212, R213). -/
def checkMagic2 (m1 : Word) (s : State) : Res Unit :=
  let m2 := field32 s.recb sitMagic2Off
  if m2 ≠ magic2Value then raise .badMagic2 magic2Value m2 s else .ok () (magic2Passed m1 s)

/-- A magic-1 word that is none of the nine (R212, R213). -/
def badMagic1 {α : Type} (m1 : Word) (s : State) : Res α := raise .badMagic1 0x53495421 m1 s

/-- `SIT.HDR` once the 22 bytes are in REC (R212). -/
def checkMagic1 (s : State) : Res Unit :=
  let m1 := field32 s.recb 0
  if magic1Values.contains m1 then checkMagic2 m1 s else badMagic1 m1 s

/-- The body of `SIT.HDR` (R212). -/
def sitHdrBody (s : State) : Res Unit :=
  let s1 := blockRead sitHdrSize { s with saValid := false }
  let k := (blockGot sitHdrSize s).length
  if k < sitHdrSize then shortBlock sitHdrSize k s1 else checkMagic1 s1

/-- The capped name length (R218). -/
def capName (n : Byte) : Byte := if n.toNat > nameMax then BitVec.ofNat 8 nameMax else n

/-- The entry registers a record gives (R216, R218, 40_transliterator.md R144). -/
def entryOf (p : Params) (rec : List Byte) : EntryRegs :=
  let o := p.entOff
  let m := capName (field8 rec o.namelen)
  let nm := (List.range m.toNat).map fun i => field8 rec (o.name + i)
  let pn := if m = 0 then [] else xltBuf p.xltHi nm m.toNat 63
  { rmeth := field8 rec o.rmeth, dmeth := field8 rec o.dmeth, nameLen := m, name := padTo nameMax nm,
    pnameLen := BitVec.ofNat 8 pn.length, pname := padTo nameMax pn, typ := field32 rec o.typ,
    creator := field32 rec o.creator, flags := field16 rec o.flags, cdate := field32 rec o.cdate,
    mdate := field32 rec o.mdate, rlen := field32 rec o.rlen, dlen := field32 rec o.dlen, crlen := field32 rec o.crlen,
    cdlen := field32 rec o.cdlen, rcrc := field16 rec o.rcrc, dcrc := field16 rec o.dcrc, hcrc := field16 rec o.hcrc }

/-- Whether a resource method code marks a folder start or end (R221, 30_encoding.md R122). -/
def isFolder (m : Byte) : Bool := m == sitFolderStart || m == sitFolderEnd

/-- The end of `SIT.NEXT` for an entry with a payload: skip it, then the entry is valid (R220, R221). -/
def entrySkip (s : State) : State :=
  endOk { s with pos := s.pos + lengthSum s.se.crlen s.se.cdlen, seValid := true }

/-- The end of `SIT.NEXT` for a folder marker: nothing to skip (R220, R221). -/
def entryStay (s : State) : State := endOk { s with seValid := true }

/-- `SIT.NEXT` once the 112 bytes are in REC (R216). -/
def entryRecord (s : State) : State :=
  let s1 := { s with se := entryOf s.par s.recb }
  if isFolder s1.se.rmeth then entryStay s1 else entrySkip s1

/-- The body of `SIT.NEXT` (R216, R217). -/
def sitNextBody (s : State) : Res Unit :=
  let s1 := blockRead sitEntSize { s with seValid := false }
  let k := (blockGot sitEntSize s).length
  if k = 0 then .ok () { s with seValid := false, status := .endOfEntries }
  else if k < sitEntSize then shortBlock sitEntSize k s1
  else .ok () (entryRecord s1)

/-- An accessor's answer (10_state.md R37). -/
def answer (r : Pos) (s : State) : State := endOk { s with result := r }

/-- 1 if the test holds, else 0 (10_state.md R37). -/
def flag (b : Bool) : Pos := if b then 1 else 0

/-- An accessor of the current entry: without a valid one, the error NO_ENTRY (46_stuffit_records.md section 4). -/
def accessorBody (f : EntryRegs → Pos) (s : State) : Res Unit :=
  if s.seValid then .ok () (answer (f s.se) s) else raise .noEntry 1 0 s

/-- `SIT.HDR` (R212). -/
def execSitHdr (s : State) : Host.Outcome State Fault Refusal := accept .sit none sitHdrBody s

/-- `SIT.NEXT` (R216). -/
def execSitNext (s : State) : Host.Outcome State Fault Refusal := accept .sit none sitNextBody s

/-- `SIT.ISENC` (R225). -/
def execSitIsenc (s : State) : Host.Outcome State Fault Refusal :=
  accept .sit none (accessorBody fun e => flag (e.rmeth == sitEncrypted)) s

/-- `SIT.ISFST` (R226). -/
def execSitIsfst (s : State) : Host.Outcome State Fault Refusal :=
  accept .sit none (accessorBody fun e => flag (e.rmeth == sitFolderStart)) s

/-- `SIT.ISFEND` (R227). -/
def execSitIsfend (s : State) : Host.Outcome State Fault Refusal :=
  accept .sit none (accessorBody fun e => flag (e.rmeth == sitFolderEnd)) s

/-- `SIT.ISAPP` (R228). -/
def execSitIsapp (s : State) : Host.Outcome State Fault Refusal :=
  accept .sit none (accessorBody fun e => flag (e.typ == applType)) s

/-- `SIT.CSIZE` (R229). -/
def execSitCsize (s : State) : Host.Outcome State Fault Refusal :=
  accept .sit none (accessorBody fun e => lengthSum e.crlen e.cdlen) s

/-- `SIT.USIZE` (R230). -/
def execSitUsize (s : State) : Host.Outcome State Fault Refusal :=
  accept .sit none (accessorBody fun e => lengthSum e.rlen e.dlen) s

/-- `SIT.MTIME` (R231). -/
def execSitMtime (s : State) : Host.Outcome State Fault Refusal :=
  accept .sit none (accessorBody fun e => e.mdate.setWidth 64) s

/-- `REC.SITHDR22`: the record's 22 bytes in REC, then the checks (R212). -/
def execRecSithdr22 (r : SitHeaderRec) (s : State) : Host.Outcome State Fault Refusal :=
  finish (checkMagic1 (loadRec (encode (.recSithdr22 r)) { s with saValid := false }))

/-- `MAGIC1.SIT!` (R213, 30_encoding.md R118): magic-1 passes; the check of magic-2 follows. -/
def execMagic1Sit (s : State) : Host.Outcome State Fault Refusal := finish (checkMagic2 0x53495421 s)

/-- `MAGIC1.ST46` (R213, 30_encoding.md R118): magic-1 passes; the check of magic-2 follows. -/
def execMagic1St46 (s : State) : Host.Outcome State Fault Refusal := finish (checkMagic2 0x53543436 s)

/-- `MAGIC1.ST50` (R213, 30_encoding.md R118): magic-1 passes; the check of magic-2 follows. -/
def execMagic1St50 (s : State) : Host.Outcome State Fault Refusal := finish (checkMagic2 0x53543530 s)

/-- `MAGIC1.ST60` (R213, 30_encoding.md R118): magic-1 passes; the check of magic-2 follows. -/
def execMagic1St60 (s : State) : Host.Outcome State Fault Refusal := finish (checkMagic2 0x53543630 s)

/-- `MAGIC1.ST65` (R213, 30_encoding.md R118): magic-1 passes; the check of magic-2 follows. -/
def execMagic1St65 (s : State) : Host.Outcome State Fault Refusal := finish (checkMagic2 0x53543635 s)

/-- `MAGIC1.STin` (R213, 30_encoding.md R118): magic-1 passes; the check of magic-2 follows. -/
def execMagic1Stin (s : State) : Host.Outcome State Fault Refusal := finish (checkMagic2 0x5354696E s)

/-- `MAGIC1.STi2` (R213, 30_encoding.md R118): magic-1 passes; the check of magic-2 follows. -/
def execMagic1Sti2 (s : State) : Host.Outcome State Fault Refusal := finish (checkMagic2 0x53546932 s)

/-- `MAGIC1.STi3` (R213, 30_encoding.md R118): magic-1 passes; the check of magic-2 follows. -/
def execMagic1Sti3 (s : State) : Host.Outcome State Fault Refusal := finish (checkMagic2 0x53546933 s)

/-- `MAGIC1.STi4` (R213, 30_encoding.md R118): magic-1 passes; the check of magic-2 follows. -/
def execMagic1Sti4 (s : State) : Host.Outcome State Fault Refusal := finish (checkMagic2 0x53546934 s)

/-- `MAGIC1.(other)` (R213). -/
def execMagic1Other (m : Word) (s : State) : Host.Outcome State Fault Refusal := finish (badMagic1 (α := Unit) m s)

/-- `MAGIC2.rLau` (R213, 30_encoding.md R119): magic-2 passes; the header's fields are taken. -/
def execMagic2Rlau (s : State) : Host.Outcome State Fault Refusal := .next (magic2Passed (field32 s.recb 0) s)

/-- `REC.SITENT112`: the record's 112 bytes in REC, then its fields and the payload skip (R216, R221). -/
def execRecSitent112 (r : SitEntryRec) (s : State) : Host.Outcome State Fault Refusal :=
  .next (entryRecord (loadRec (encode (.recSitent112 r)) { s with seValid := false }))

/-- `METH.ENCRYPTED`: while the entry is being read, its payload is skipped (R221); of a valid entry, the predicate
holds (R225). -/
def execMethEncrypted (s : State) : Host.Outcome State Fault Refusal :=
  .next (if s.seValid then answer 1 s else entrySkip s)

/-- `METH.FOLDER_START`: while the entry is being read, nothing is skipped (R221); of a valid entry, the predicate
holds (R226). -/
def execMethFolderStart (s : State) : Host.Outcome State Fault Refusal :=
  .next (if s.seValid then answer 1 s else entryStay s)

/-- `METH.FOLDER_END`: while the entry is being read, nothing is skipped (R221); of a valid entry, the predicate
holds (R227). -/
def execMethFolderEnd (s : State) : Host.Outcome State Fault Refusal :=
  .next (if s.seValid then answer 1 s else entryStay s)

/-- `METH.(other)`: while the entry is being read, its payload is skipped (R221); of a valid entry, no predicate
holds (R225 to R227). -/
def execMethOther (_m : Byte) (s : State) : Host.Outcome State Fault Refusal :=
  .next (if s.seValid then answer 0 s else entrySkip s)

/-- `TYPE.APPL`: the predicate SIT.ISAPP asks for holds (R228); without a valid entry, the error NO_ENTRY. -/
def execTypeAppl (s : State) : Host.Outcome State Fault Refusal := finish (accessorBody (fun _ => 1) s)

end Sys2Proof.Machine
end

