-- ==== Sys2Proof/Machine/Dispatch.lean ====
section
/-! DEFINITION. The meaning of every instruction: one arm per constructor, each one call. -/

namespace Sys2Proof.Machine

/-- One instruction, run to its end (48_commands.md R240 for the commands). -/
def exec (i : Instr) (s : State) : Host.Outcome State Fault Refusal :=
  match i with
  | .openBhx => Sys2Proof.Machine.execOpenBhx s
  | .openSit => Sys2Proof.Machine.execOpenSit s
  | .close => Sys2Proof.Machine.execClose s
  | .bhxHdr => Sys2Proof.Machine.execBhxHdr s
  | .bhxData => Sys2Proof.Machine.execBhxData s
  | .bhxRsrc => Sys2Proof.Machine.execBhxRsrc s
  | .sitHdr => Sys2Proof.Machine.execSitHdr s
  | .sitNext => Sys2Proof.Machine.execSitNext s
  | .sitIsenc => Sys2Proof.Machine.execSitIsenc s
  | .sitIsfst => Sys2Proof.Machine.execSitIsfst s
  | .sitIsfend => Sys2Proof.Machine.execSitIsfend s
  | .sitIsapp => Sys2Proof.Machine.execSitIsapp s
  | .sitCsize => Sys2Proof.Machine.execSitCsize s
  | .sitUsize => Sys2Proof.Machine.execSitUsize s
  | .sitMtime => Sys2Proof.Machine.execSitMtime s
  | .xlit => Sys2Proof.Machine.execXlit s
  | .reservedCommand c => Sys2Proof.Machine.execReservedCommand c s
  | .chSextet0 => Sys2Proof.Machine.execChSextet0 s
  | .chSextet1 => Sys2Proof.Machine.execChSextet1 s
  | .chSextet2 => Sys2Proof.Machine.execChSextet2 s
  | .chSextet3 => Sys2Proof.Machine.execChSextet3 s
  | .chSextet4 => Sys2Proof.Machine.execChSextet4 s
  | .chSextet5 => Sys2Proof.Machine.execChSextet5 s
  | .chSextet6 => Sys2Proof.Machine.execChSextet6 s
  | .chSextet7 => Sys2Proof.Machine.execChSextet7 s
  | .chSextet8 => Sys2Proof.Machine.execChSextet8 s
  | .chSextet9 => Sys2Proof.Machine.execChSextet9 s
  | .chSextet10 => Sys2Proof.Machine.execChSextet10 s
  | .chSextet11 => Sys2Proof.Machine.execChSextet11 s
  | .chSextet12 => Sys2Proof.Machine.execChSextet12 s
  | .chSextet13 => Sys2Proof.Machine.execChSextet13 s
  | .chSextet14 => Sys2Proof.Machine.execChSextet14 s
  | .chSextet15 => Sys2Proof.Machine.execChSextet15 s
  | .chSextet16 => Sys2Proof.Machine.execChSextet16 s
  | .chSextet17 => Sys2Proof.Machine.execChSextet17 s
  | .chSextet18 => Sys2Proof.Machine.execChSextet18 s
  | .chSextet19 => Sys2Proof.Machine.execChSextet19 s
  | .chSextet20 => Sys2Proof.Machine.execChSextet20 s
  | .chSextet21 => Sys2Proof.Machine.execChSextet21 s
  | .chSextet22 => Sys2Proof.Machine.execChSextet22 s
  | .chSextet23 => Sys2Proof.Machine.execChSextet23 s
  | .chSextet24 => Sys2Proof.Machine.execChSextet24 s
  | .chSextet25 => Sys2Proof.Machine.execChSextet25 s
  | .chSextet26 => Sys2Proof.Machine.execChSextet26 s
  | .chSextet27 => Sys2Proof.Machine.execChSextet27 s
  | .chSextet28 => Sys2Proof.Machine.execChSextet28 s
  | .chSextet29 => Sys2Proof.Machine.execChSextet29 s
  | .chSextet30 => Sys2Proof.Machine.execChSextet30 s
  | .chSextet31 => Sys2Proof.Machine.execChSextet31 s
  | .chSextet32 => Sys2Proof.Machine.execChSextet32 s
  | .chSextet33 => Sys2Proof.Machine.execChSextet33 s
  | .chSextet34 => Sys2Proof.Machine.execChSextet34 s
  | .chSextet35 => Sys2Proof.Machine.execChSextet35 s
  | .chSextet36 => Sys2Proof.Machine.execChSextet36 s
  | .chSextet37 => Sys2Proof.Machine.execChSextet37 s
  | .chSextet38 => Sys2Proof.Machine.execChSextet38 s
  | .chSextet39 => Sys2Proof.Machine.execChSextet39 s
  | .chSextet40 => Sys2Proof.Machine.execChSextet40 s
  | .chSextet41 => Sys2Proof.Machine.execChSextet41 s
  | .chSextet42 => Sys2Proof.Machine.execChSextet42 s
  | .chSextet43 => Sys2Proof.Machine.execChSextet43 s
  | .chSextet44 => Sys2Proof.Machine.execChSextet44 s
  | .chSextet45 => Sys2Proof.Machine.execChSextet45 s
  | .chSextet46 => Sys2Proof.Machine.execChSextet46 s
  | .chSextet47 => Sys2Proof.Machine.execChSextet47 s
  | .chSextet48 => Sys2Proof.Machine.execChSextet48 s
  | .chSextet49 => Sys2Proof.Machine.execChSextet49 s
  | .chSextet50 => Sys2Proof.Machine.execChSextet50 s
  | .chSextet51 => Sys2Proof.Machine.execChSextet51 s
  | .chSextet52 => Sys2Proof.Machine.execChSextet52 s
  | .chSextet53 => Sys2Proof.Machine.execChSextet53 s
  | .chSextet54 => Sys2Proof.Machine.execChSextet54 s
  | .chSextet55 => Sys2Proof.Machine.execChSextet55 s
  | .chSextet56 => Sys2Proof.Machine.execChSextet56 s
  | .chSextet57 => Sys2Proof.Machine.execChSextet57 s
  | .chSextet58 => Sys2Proof.Machine.execChSextet58 s
  | .chSextet59 => Sys2Proof.Machine.execChSextet59 s
  | .chSextet60 => Sys2Proof.Machine.execChSextet60 s
  | .chSextet61 => Sys2Proof.Machine.execChSextet61 s
  | .chSextet62 => Sys2Proof.Machine.execChSextet62 s
  | .chSextet63 => Sys2Proof.Machine.execChSextet63 s
  | .chSkipLf => Sys2Proof.Machine.execChSkipLf s
  | .chSkipCr => Sys2Proof.Machine.execChSkipCr s
  | .chTerm => Sys2Proof.Machine.execChTerm s
  | .chInvalid c => Sys2Proof.Machine.execChInvalid c s
  | .locateStart c => Sys2Proof.Machine.execLocateStart c s
  | .grpPack s0 s1 s2 s3 => Sys2Proof.Machine.execGrpPack s0 s1 s2 s3 s
  | .rleLiteral b => Sys2Proof.Machine.execRleLiteral b s
  | .rleMarkLiteral => Sys2Proof.Machine.execRleMarkLiteral s
  | .rleCount1 => Sys2Proof.Machine.execRleCount1 s
  | .rleRun n => Sys2Proof.Machine.execRleRun n s
  | .recBhxhdr r => Sys2Proof.Machine.execRecBhxhdr r s
  | .recBhxfork r => Sys2Proof.Machine.execRecBhxfork r s
  | .recSithdr22 r => Sys2Proof.Machine.execRecSithdr22 r s
  | .magic1Sit => Sys2Proof.Machine.execMagic1Sit s
  | .magic1St46 => Sys2Proof.Machine.execMagic1St46 s
  | .magic1St50 => Sys2Proof.Machine.execMagic1St50 s
  | .magic1St60 => Sys2Proof.Machine.execMagic1St60 s
  | .magic1St65 => Sys2Proof.Machine.execMagic1St65 s
  | .magic1Stin => Sys2Proof.Machine.execMagic1Stin s
  | .magic1Sti2 => Sys2Proof.Machine.execMagic1Sti2 s
  | .magic1Sti3 => Sys2Proof.Machine.execMagic1Sti3 s
  | .magic1Sti4 => Sys2Proof.Machine.execMagic1Sti4 s
  | .magic1Other m => Sys2Proof.Machine.execMagic1Other m s
  | .magic2Rlau => Sys2Proof.Machine.execMagic2Rlau s
  | .recSitent112 r => Sys2Proof.Machine.execRecSitent112 r s
  | .methEncrypted => Sys2Proof.Machine.execMethEncrypted s
  | .methFolderStart => Sys2Proof.Machine.execMethFolderStart s
  | .methFolderEnd => Sys2Proof.Machine.execMethFolderEnd s
  | .methOther m => Sys2Proof.Machine.execMethOther m s
  | .typeAppl => Sys2Proof.Machine.execTypeAppl s

end Sys2Proof.Machine
end

