-- ==== Sys2Proof/Machine/Ports.lean ====
section
/-! DEFINITION. The ports of the block (48_commands.md R250): what a host action does, where the next instruction is
fetched, what the host reads at the result port, and the two pseudo-commands of 30_encoding.md R133. -/

namespace Sys2Proof.Machine

/-- What a step finds to do: an instruction to run, a step that is over without one, or a stop. -/
inductive Fetched where
  | run (i : Instr) (s : State)
  | quiet (s : State)
  | fault (f : Fault)
  | refused (r : Refusal)
deriving Repr

/-- A host action other than a command (R250). -/
def hostAct (a : HostAct) (s : State) : Fetched :=
  match a with
  | .command c => .run (decodeCommand c) s
  | .reset => .quiet (resetEvent s)
  | .attach bs =>
    if s.mode ≠ .closed then .refused .streamChangedInSession
    else if 2 ^ 63 ≤ bs.length then .fault .streamTooLong
    else .quiet { s with stream := Memory.ofBytes bs }
  | .answers o c w => .quiet { s with openOk := o, closeOk := c, ioCause := w }
  | .writeXsrc i b => .quiet { s with xl := { s.xl with src := s.xl.src.set i.toNat b } }
  | .writeXsrcLen n => .quiet { s with xl := { s.xl with srcLen := n } }
  | .writeXdstCap n => .quiet { s with xl := { s.xl with dstCap := n } }

/-- Bytes that are no instruction of their space: a magic-2 word that is not `rLau` raises BAD_MAGIC2
(46_stuffit_records.md R213); of another type code SIT.ISAPP's answer is 0 (R228); a record that is not all there yet is
waited for (60_exceptions.md R281). -/
def noInstr (e : DecodeError) (bs : List Byte) (s : State) : Fetched :=
  match e with
  | .notMagic2 => .quiet (fatal .badMagic2 magic2Value (field32 bs 0) s)
  | .notAppl => if s.seValid then .quiet (answer 0 s) else .quiet (fatal .noEntry 1 0 s)
  | .notStart => .quiet s
  | .tooShort => .quiet s

/-- The instruction at the front of the bytes found at a space's place. -/
def decoded (sp : Space) (bs : List Byte) (s : State) : Fetched :=
  match decode sp bs with
  | .ok (i, _) => .run i s
  | .error e => noInstr e bs s

/-- The same for bytes waiting in the decoded-byte queue, which the instruction takes. -/
def decodedQueue (sp : Space) (s : State) : Fetched :=
  match decode sp s.dbuf with
  | .ok (i, r) => .run i { s with dbuf := r }
  | .error e => noInstr e s.dbuf s

/-- A micro-operation that fetches: its value goes on, a `raise` in it ends the step. -/
def fetchWith {α : Type} (r : Res α) (f : α → State → Fetched) : Fetched :=
  match r with
  | .ok a s => f a s
  | .stop s => .quiet s

/-- The raw bytes of the next run-length symbol: one, or the marker and its count (43_run_length.md R171). -/
def fetchRaw (s : State) : Res (List Byte) :=
  (rawbyte s).bind fun b s =>
    if b ≠ rleMark then .ok [b] s else (rawbyte s).bind fun n s => .ok [b, n] s

/-- The bytes of the group latch, the missing sextets 0 (42_sextet_unpacker.md R163). -/
def groupBytes (g : List Sextet) : List Byte :=
  let p := pack (g.getD 0 0) (g.getD 1 0) (g.getD 2 0) (g.getD 3 0)
  [p.1, p.2.1, p.2.2]

/-- Whether the character layer reads on: the logical end has not been met, after which it reads nothing (10_state.md R28,
42_sextet_unpacker.md R161), and the group has fewer than its four sextets (R163). That a step of the raw-character space
leaves the state as it is otherwise is the model's choice (notes/assumptions/22.md). -/
def charWanted (s : State) : Bool := !s.lend && decide (s.grp.length < 4)

/-- Whether the group is ready to be packed: it has its four sextets, or the end has been met and not been packed yet. -/
def groupReady (s : State) : Bool := s.grp.length == 4 || (s.lend && s.eofsev == 0)

/-- The next thing a step does. At the command port it is the host's next action. In another space it is the symbol the
unit of that space meets at its own place: the stream at POS, the group, the ring, the decoded bytes, REC, SE_RMETH,
SE_TYPE. What it does where that unit would not be asked for a symbol is the model's choice (notes/assumptions/21.md,
22.md). -/
def fetch (s : State) : Fetched :=
  match s.space with
  | .command =>
    match s.todo with
    | [] => .quiet s
    | a :: r => hostAct a { s with todo := r }
  | .rawChar =>
    if charWanted s then
      match rawget s with
      | (none, s1) => .run .chTerm s1
      | (some c, s1) => decoded .rawChar [c] s1
    else .quiet s
  | .locate => fetchWith (locateSearch (streamFuel s) true s) fun d s => decoded .locate [0x3A, d] s
  | .group => if groupReady s then decoded .group (groupBytes s.grp) s else .quiet s
  | .rawByte =>
    if copiesPending s.rptCnt then fetchWith (deliver (pendingCopy s)) fun _ s => .quiet s
    else fetchWith (fetchRaw s) fun bs s => decoded .rawByte bs s
  | .bhxHeader => decodedQueue .bhxHeader s
  | .bhxFork len => decodedQueue (.bhxFork len) s
  | .sitHeader =>
    let k := (blockGot sitHdrSize s).length
    let s1 := blockRead sitHdrSize { s with saValid := false }
    if k < sitHdrSize then fetchWith (shortBlock (α := Unit) sitHdrSize k s1) fun _ s => .quiet s
    else decoded .sitHeader (s1.recb.take sitHdrSize) s1
  | .magic1 => decoded .magic1 (s.recb.take 4) s
  | .magic2 => decoded .magic2 ((s.recb.drop sitMagic2Off).take 4) s
  | .sitEntry =>
    let k := (blockGot sitEntSize s).length
    let s1 := blockRead sitEntSize { s with seValid := false }
    if k = 0 then .quiet { s with seValid := false, status := .endOfEntries }
    else if k < sitEntSize then fetchWith (shortBlock (α := Unit) sitEntSize k s1) fun _ s => .quiet s
    else decoded .sitEntry (s1.recb.take sitEntSize) s1
  | .method => decoded .method [s.se.rmeth] s
  | .typeCode => decoded .typeCode (bytes32 s.se.typ) s

/-- Bytes put where the fetch of a space finds them, and that space selected. -/
def present (sp : Space) (bs : List Byte) (s : State) : State :=
  match sp with
  | .command => { s with space := .command, todo := bs.map HostAct.command ++ s.todo }
  | .rawChar =>
    { s with space := .rawChar, stream := Memory.writes s.stream s.pos.toNat bs, lend := false
             grp := if s.grp.length < 4 then s.grp else []
             buf := { s.buf with idx := 0, fill := 0, eof := false, fpos := s.pos } }
  | .locate => { s with space := .locate, stream := Memory.writes s.stream s.pos.toNat bs }
  | .group =>
    let u := unpack (field8 bs 0) (field8 bs 1) (field8 bs 2)
    { s with space := .group, grp := [u.1, u.2.1, u.2.2.1, u.2.2.2] }
  | .rawByte =>
    { s with space := .rawByte, rptCnt := if copiesPending s.rptCnt then 0 else s.rptCnt
             ring := { b0 := field8 bs 0, b1 := field8 bs 1, b2 := field8 bs 2, cnt := BitVec.ofNat 2 bs.length
                       rd := 0 } }
  | .bhxHeader => { s with space := .bhxHeader, dbuf := bs }
  | .bhxFork len => { s with space := .bhxFork len, dbuf := bs }
  | .sitHeader => { s with space := .sitHeader, stream := Memory.writes s.stream s.pos.toNat bs }
  | .magic1 => { s with space := .magic1, recb := overlay s.recb 0 bs }
  | .magic2 => { s with space := .magic2, recb := overlay s.recb sitMagic2Off bs }
  | .sitEntry => { s with space := .sitEntry, stream := Memory.writes s.stream s.pos.toNat bs }
  | .method => { s with space := .method, se := { s.se with rmeth := field8 bs 0 } }
  | .typeCode => { s with space := .typeCode, se := { s.se with typ := field32 bs 0 } }

/-- A table word put where the fetch finds it, in the space `tableSpace` gives it. -/
def presentWord (nbits w : Nat) (s : State) : State :=
  match tableSpace (tableBytes nbits w) with
  | some sp => present sp (tableBytes nbits w) s
  | none => s

/-- The registers of 10_state.md R61 that the result port shows, by name; those that are arrays take an index. The hidden
ones (RBUF, RBUF_IDX, RBUF_FILL, RBUF_EOF, FPOS, REC) are in State and not here: R21 and R250 let the host read the value
of any register, R56 says that no interface shows RBUF's content, 41_stream_locate.md R153 that nothing of the read-ahead
can be observed, and R57 that REC is no result. Which of them holds for the port is the model's choice; so is that RING,
RING_CNT, RING_RD, RPT_CHAR and RPT_CNT are here, by R21 and R250, though 70_reset_and_hazards.md R313 says that the host
cannot see this state between fork commands (notes/assumptions/23.md). -/
inductive RegName where
  | pos | crc | ring (i : Nat) | ringCnt | ringRd | rptChar | rptCnt | lend | eofsev
  | bhValid | saValid | seValid | mode | stage | status | err | errSub | errExpected | errFound | errPos | result
  | bhNameLen | bhName (i : Nat) | bhPnameLen | bhPname (i : Nat) | bhType | bhCreator | bhFlags | bhDlen | bhRlen
  | bhHcrc | bhDcrc | bhRcrc | saMagic1 | saCount | saLen | saMagic2 | saVer
  | seRmeth | seDmeth | seNameLen | seName (i : Nat) | sePnameLen | sePname (i : Nat) | seType | seCreator | seFlags
  | seCdate | seMdate | seRlen | seDlen | seCrlen | seCdlen | seRcrc | seDcrc | seHcrc
  | xsrc (i : Nat) | xsrcLen | xdstCap | xdst (i : Nat) | xdstLen
deriving DecidableEq, Repr

/-- A flag as a register value. -/
def bitOf (b : Bool) : Pos := if b then 1 else 0

/-- What the host reads at the result port (R21, R250): every register that is not hidden, by its code, zero-extended to
64 bits; an index outside an array reads as 0. That the hidden registers of R56 and R57 are not shown, that the ring and the
run-length registers are (R21, R250, against 70_reset_and_hazards.md R313), the width and the 0 are the model's choice
(notes/assumptions/23.md). A step runs a whole command, so every state a step answers is one between
commands. -/
def resultPort (r : RegName) (s : State) : Pos :=
  match r with
  | .pos => s.pos
  | .crc => s.crc.setWidth 64
  | .ring i => (field8 [s.ring.b0, s.ring.b1, s.ring.b2] i).setWidth 64
  | .ringCnt => s.ring.cnt.setWidth 64
  | .ringRd => s.ring.rd.setWidth 64
  | .rptChar => s.rptChar.setWidth 64
  | .rptCnt => s.rptCnt.setWidth 64
  | .lend => bitOf s.lend
  | .eofsev => s.eofsev.setWidth 64
  | .bhValid => bitOf s.bhValid
  | .saValid => bitOf s.saValid
  | .seValid => bitOf s.seValid
  | .mode => s.mode.code.setWidth 64
  | .stage => s.stage.code.setWidth 64
  | .status => s.status.code.setWidth 64
  | .err => (errCode s.err).setWidth 64
  | .errSub => (errSubCode s.errSub).setWidth 64
  | .errExpected => s.errExpected.setWidth 64
  | .errFound => s.errFound.setWidth 64
  | .errPos => s.errPos
  | .result => s.result
  | .bhNameLen => s.bh.nameLen.setWidth 64
  | .bhName i => (field8 s.bh.name i).setWidth 64
  | .bhPnameLen => s.bh.pnameLen.setWidth 64
  | .bhPname i => (field8 s.bh.pname i).setWidth 64
  | .bhType => s.bh.typ.setWidth 64
  | .bhCreator => s.bh.creator.setWidth 64
  | .bhFlags => s.bh.flags.setWidth 64
  | .bhDlen => s.bh.dlen.setWidth 64
  | .bhRlen => s.bh.rlen.setWidth 64
  | .bhHcrc => s.bh.hcrc.setWidth 64
  | .bhDcrc => s.bh.dcrc.setWidth 64
  | .bhRcrc => s.bh.rcrc.setWidth 64
  | .saMagic1 => s.sa.magic1.setWidth 64
  | .saCount => s.sa.count.setWidth 64
  | .saLen => s.sa.len.setWidth 64
  | .saMagic2 => s.sa.magic2.setWidth 64
  | .saVer => s.sa.ver.setWidth 64
  | .seRmeth => s.se.rmeth.setWidth 64
  | .seDmeth => s.se.dmeth.setWidth 64
  | .seNameLen => s.se.nameLen.setWidth 64
  | .seName i => (field8 s.se.name i).setWidth 64
  | .sePnameLen => s.se.pnameLen.setWidth 64
  | .sePname i => (field8 s.se.pname i).setWidth 64
  | .seType => s.se.typ.setWidth 64
  | .seCreator => s.se.creator.setWidth 64
  | .seFlags => s.se.flags.setWidth 64
  | .seCdate => s.se.cdate.setWidth 64
  | .seMdate => s.se.mdate.setWidth 64
  | .seRlen => s.se.rlen.setWidth 64
  | .seDlen => s.se.dlen.setWidth 64
  | .seCrlen => s.se.crlen.setWidth 64
  | .seCdlen => s.se.cdlen.setWidth 64
  | .seRcrc => s.se.rcrc.setWidth 64
  | .seDcrc => s.se.dcrc.setWidth 64
  | .seHcrc => s.se.hcrc.setWidth 64
  | .xsrc i => (field8 s.xl.src i).setWidth 64
  | .xsrcLen => s.xl.srcLen.setWidth 64
  | .xdstCap => s.xl.dstCap.setWidth 64
  | .xdst i => (field8 s.xl.dst i).setWidth 64
  | .xdstLen => s.xl.dstLen.setWidth 64

/-- A command and then, if its STATUS is `OK`, what follows. -/
def whileOk (i : Instr) (k : State → Host.Outcome State Fault Refusal) (s : State) : Host.Outcome State Fault Refusal :=
  match exec i s with
  | .next s1 => if s1.status = .ok then k s1 else .next s1
  | .fault f => .fault f
  | .refused r => .refused r

/-- The pseudo-command `BHX.EXTRACT` (30_encoding.md R133): `BHX.HDR`, `BHX.DATA`, `BHX.RSRC`, stopping at the first whose
STATUS is not `OK`. -/
def bhxExtract (s : State) : Host.Outcome State Fault Refusal :=
  whileOk .bhxHdr (whileOk .bhxData (exec .bhxRsrc)) s

/-- `SIT.NEXT` repeated until a STATUS other than `OK`, at most `n` times. -/
def sitNextLoop : Nat → State → Host.Outcome State Fault Refusal
  | 0, s => .next s
  | n + 1, s => whileOk .sitNext (sitNextLoop n) s

/-- The pseudo-command `SIT.LIST` (30_encoding.md R133): every `SIT.NEXT` that answers `OK` takes 112 bytes of the
stream, so one turn more than the stream has bytes reaches the last. -/
def sitList (s : State) : Host.Outcome State Fault Refusal := whileOk .sitHdr (sitNextLoop (s.stream.length + 1)) s

end Sys2Proof.Machine
end

