-- ==== Sys2Proof/Machine/Step.lean ====
section
/-! DEFINITION. One step of the machine: fetch, then run. -/

namespace Sys2Proof.Machine

/-- One step. With the command port selected, as after reset, it is one host action: a command is run to its end
(00_scope.md R10). With another space selected it is one symbol of that space. -/
def step (s : State) : Host.Outcome State Fault Refusal :=
  match fetch s with
  | .run i s1 => exec i s1
  | .quiet s1 => .next s1
  | .fault f => .fault f
  | .refused r => .refused r

/-- A table word stored where `step` fetches its next instruction. -/
def State.withFetchWord (s : State) (nbits w : Nat) : State := presentWord nbits w s

end Sys2Proof.Machine
end

