-- ==== Sys2Proof/Safety.lean ====
section
/-! DEFINITION. The terms the claims use: the invariants every step keeps, calls in a row of a micro-operation, the stage
machine's table, the causes each command can raise, what an encoder of runs may write. -/

namespace Sys2Proof.Machine

/-- The buffers have the sizes of 10_state.md R40, R43, R52, R56, R57. -/
abbrev sizesOk (s : State) : Prop :=
  s.bh.name.length = 64 ∧ s.bh.pname.length = 64 ∧ s.se.name.length = 63 ∧ s.se.pname.length = 63
    ∧ s.xl.src.length = 64 ∧ s.xl.dst.length = 64 ∧ s.buf.bytes.length = 1024 ∧ s.recb.length = 112

/-- The decode registers hold values the rules can give them: `RING_RD <= RING_CNT` (R26), `RPT_CNT` from -1 to 253 (R27),
`EOFSEV` `NONE` while `LEND` is 0 and `3 - RING_CNT` after (R28, R29), `RBUF_IDX <= RBUF_FILL <= 1024` (R56). -/
abbrev stackOk (s : State) : Prop :=
  s.ring.rd ≤ s.ring.cnt ∧ -1 ≤ s.rptCnt.toInt ∧ s.rptCnt.toInt ≤ 253
    ∧ s.eofsev = (if s.lend then severity s.ring.cnt else 0)
    ∧ s.buf.idx.toNat ≤ s.buf.fill.toNat ∧ s.buf.fill.toNat ≤ 1024

/-- The control registers agree: ERR is set exactly in stage `ERROR` and has the class of ERRSUB (60_exceptions.md R261,
R270), a failed STATUS is ERR's (R35), STAGE is never `HEADER_READ` between commands and stays `SEARCHING` in a StuffIt
session without an error (R33). -/
abbrev controlOk (s : State) : Prop :=
  (s.err ≠ none ↔ s.stage = .error) ∧ s.errSub.map Cause.cls = s.err
    ∧ (∀ c : ErrClass, s.status = .failed c → s.err = some c) ∧ s.stage ≠ .headerRead
    ∧ (s.mode = .sit → s.stage = .searching ∨ s.stage = .error)

/-- Between commands no micro-operation's local is live, and the command port is selected. -/
abbrev idleOk (s : State) : Prop := s.space = .command ∧ s.grp = [] ∧ s.dbuf = []

/-- The invariant of the machine between commands. -/
abbrev Inv (s : State) : Prop :=
  Memory.wf s.stream = true ∧ sizesOk s ∧ stackOk s ∧ controlOk s ∧ idleOk s

/-- The stream is a sequence `S[0], ..., S[SLEN-1]` (20_memory.md R70) shorter than 2^63 bytes (10_state.md R24). -/
abbrev streamOk (s : State) : Prop :=
  s.stream = Memory.ofBytes (s.stream.map Prod.snd) ∧ s.stream.length < 2 ^ 63

/-- `SLEN` of a stream that is a sequence. -/
abbrev slen (s : State) : Nat := s.stream.length

/-- The read buffer agrees with the stream (41_stream_locate.md R152, R153): `POS = FPOS - (RBUF_FILL - RBUF_IDX)`, what is
in the buffer and not yet handed out is what the stream holds from POS on, and `RBUF_EOF` is set only when the stream
has no byte at `FPOS`. -/
abbrev bufferOk (s : State) : Prop :=
  s.buf.bytes.length = rbufSize ∧ s.buf.idx.toNat ≤ s.buf.fill.toNat ∧ s.buf.fill.toNat ≤ rbufSize
    ∧ s.buf.fpos.toNat ≤ slen s ∧ s.pos.toNat + (s.buf.fill.toNat - s.buf.idx.toNat) = s.buf.fpos.toNat
    ∧ (∀ i, i < s.buf.fill.toNat - s.buf.idx.toNat →
        Memory.read s.stream (s.pos.toNat + i) = some (s.buf.bytes.getD (s.buf.idx.toNat + i) 0))
    ∧ (s.buf.eof = true → s.buf.fpos.toNat = slen s)

/-- The invariant of the stream position: in a session POS is at most a payload skip beyond the end of the stream
(46_stuffit_records.md R221), and after the header of a BinHex session the read buffer agrees with the stream. -/
abbrev PosInv (s : State) : Prop :=
  streamOk s ∧ s.space = .command ∧ s.dbuf = []
    ∧ (s.mode = .bhx → s.pos.toNat ≤ slen s)
    ∧ (s.mode = .sit → s.pos.toNat ≤ slen s + 2 ^ 33) ∧ s.buf.bytes.length = rbufSize
    ∧ (s.mode = .bhx → s.stage = .forkData ∨ s.stage = .forkRsrc ∨ s.stage = .done → bufferOk s)

/-- `n` calls in a row of a micro-operation that answers one byte: the bytes, in order. -/
def calls (op : State → Res Byte) : Nat → State → Res (List Byte)
  | 0, s => .ok [] s
  | n + 1, s => (op s).bind fun b s => (calls op n s).bind fun r s => .ok (b :: r) s

/-- `n` calls in a row of a form of `RAWGET`: each result, and POS after it. -/
def gets (op : State → Option Byte × State) : Nat → State → List (Option Byte × Pos)
  | 0, _ => []
  | n + 1, s => ((op s).1, (op s).2.pos) :: gets op n (op s).2

/-- A header start at offset `a` of a byte sequence (41_stream_locate.md R155): a `:` that is the first byte or stands
right after a line feed or a carriage return, followed by an alphabet character. -/
abbrev startsAt (bs : List Byte) (a : Nat) : Prop :=
  bs[a]? = some 0x3A ∧ (a = 0 ∨ bs[a - 1]? = some 0x0A ∨ bs[a - 1]? = some 0x0D)
    ∧ ∃ d, bs[a + 1]? = some d ∧ isAlphabet d = true

/-- The sextets of a list of characters, those that are none left out (30_encoding.md R106). -/
def sextetsOf : List Byte → List Sextet
  | [] => []
  | c :: r =>
    match charClass c with
    | .sextet v => v :: sextetsOf r
    | _ => sextetsOf r

/-- The raw bytes of a list of sextets: three for each four, and two, one or none for a last three, two or one
(42_sextet_unpacker.md R163, R167). -/
def rawOf : List Sextet → List Byte
  | s0 :: s1 :: s2 :: s3 :: r => (pack s0 s1 s2 s3).1 :: (pack s0 s1 s2 s3).2.1 :: (pack s0 s1 s2 s3).2.2 :: rawOf r
  | [s0, s1, s2] => [(pack s0 s1 s2 0).1, (pack s0 s1 s2 0).2.1]
  | [s0, s1] => [(pack s0 s1 0 0).1]
  | _ => []

/-- What an encoder that obeys 43_run_length.md R177 may write for a byte sequence. -/
inductive RleEnc : List Byte → List Byte → Prop where
  | nil : RleEnc [] []
  | literal {x e : List Byte} (v : Byte) (hv : v ≠ rleMark) (h : RleEnc x e) : RleEnc (v :: x) (v :: e)
  | mark {x e : List Byte} (h : RleEnc x e) : RleEnc (rleMark :: x) (rleMark :: 0 :: e)
  | run {x e : List Byte} (v r : Byte) (hv : v ≠ rleMark) (hr : 2 ≤ r.toNat) (h : RleEnc x e) :
      RleEnc (List.replicate r.toNat v ++ x) (v :: rleMark :: r :: e)
  | markRun {x e : List Byte} (r : Byte) (hr : 2 ≤ r.toNat) (h : RleEnc x e) :
      RleEnc (List.replicate r.toNat rleMark ++ x) (rleMark :: 0 :: rleMark :: r :: e)

/-- `SIT.NEXT` repeated from `s` until a STATUS other than `OK` (30_encoding.md R133); it answers the last state. -/
inductive NextUntilNotOk : State → State → Prop where
  | last {s t : State} (h : exec .sitNext s = .next t) (hs : t.status ≠ .ok) : NextUntilNotOk s t
  | more {s t u : State} (h : exec .sitNext s = .next t) (hs : t.status = .ok) (r : NextUntilNotOk t u) : NextUntilNotOk s u

/-- The errors of the decode stack itself, with their two words (60_exceptions.md R261): the stream ended, an INVALID
character, a count of 1 where the parameter makes it an error. -/
abbrev decodeError (c : Cause) (e f : Word) : Prop :=
  (c = .streamEnd ∧ e = 1 ∧ f = 0) ∨ (c = .badChar ∧ e = 0 ∧ ∃ ch : Byte, charClass ch = .invalid ∧ f = ch.setWidth 32)
    ∨ (c = .rleCount1 ∧ e = 2 ∧ f = 1)

/-- The causes a command can raise (60_exceptions.md R263). -/
def causesOf : Instr → List Cause
  | .openBhx | .openSit => [.badMode, .openFailed]
  | .close => [.closeFailed]
  | .bhxHdr => [.badMode, .badStage, .noStart, .badChar, .streamEnd, .nameTooLong, .badHdrCrc, .rleCount1]
  | .bhxData | .bhxRsrc => [.badMode, .badStage, .negLength, .badChar, .streamEnd, .badForkCrc, .rleCount1]
  | .sitHdr => [.badMode, .shortBlock, .badMagic1, .badMagic2]
  | .sitNext => [.badMode, .shortBlock]
  | .sitIsenc | .sitIsfst | .sitIsfend | .sitIsapp | .sitCsize | .sitUsize | .sitMtime => [.badMode, .noEntry]
  | .xlit => [.badLength]
  | .reservedCommand _ => [.illegalCmd]
  | _ => []

/-- The stage transitions a command can make other than leaving STAGE as it is or going to `ERROR` (48_commands.md R256);
`HEADER_READ` is passed through inside `BHX.HDR`. -/
def stageMoves : Instr → Stage → Stage → Bool
  | .openBhx, _, b => b == .searching
  | .openSit, _, b => b == .searching
  | .bhxHdr, a, b => a == .searching && b == .forkData
  | .bhxData, a, b => a == .forkData && b == .forkRsrc
  | .bhxRsrc, a, b => a == .forkRsrc && b == .done
  | _, _, _ => false

/-- `OPEN.*`, the one command that sets POS back (48_commands.md R257). -/
def opens : Instr → Bool
  | .openBhx | .openSit => true
  | _ => false

end Sys2Proof.Machine
end

