-- ==== Sys2Proof/Certificates/Slice0/Obligations.lean ====
section
/-! DEFINITION. The statements for the provers. Each docstring names the rules of spec/ it formalises; `fatal` is the
fatal-error path, whose own statement is `FatalPath`. -/

open Sys2Proof Sys2Proof.Machine

/-! Encodings. -/

/-- 30_encoding.md: every operand at every value its encoding admits. -/
def Obligations.DecodeOfEncode : Prop :=
  ∀ (i : Instr) (rest : List Byte), wellFormed i = true → decode (spaceOf i) (encode i ++ rest) = .ok (i, rest)

/-- 30_encoding.md: what is decoded is well formed, belongs to the space, and has exactly the bytes that were read. A fork's
length is a non-negative 32-bit number. -/
def Obligations.EncodeOfDecode : Prop :=
  ∀ (sp : Space) (bs rest : List Byte) (i : Instr), (∀ n, sp = .bhxFork n → n < 2 ^ 31) →
    decode sp bs = .ok (i, rest) → wellFormed i = true ∧ spaceOf i = sp ∧ encode i ++ rest = bs

/-- A few words written out from R102, R105, R106, R109, R118, R122. -/
def Obligations.SpecWordsDecode : Prop :=
  decode .command [0x2C] = .ok (.sitCsize, []) ∧ decode .rawChar [0x35] = .ok (.chSextet18, [])
    ∧ decode .rawChar [0x0D] = .ok (.chSkipCr, []) ∧ decode .rawByte [0x90, 0x05] = .ok (.rleRun 5, [])
    ∧ decode .magic1 [0x53, 0x54, 0x69, 0x6E] = .ok (.magic1Stin, []) ∧ decode .method [0x21] = .ok (.methFolderEnd, [])

/-- R104 to R106 (decision D7 of the spec): the four classes of a character, by its value alone; 189 values are `INVALID`. -/
def Obligations.CharacterClasses : Prop :=
  (∀ c : Byte, charClass c = .skip ↔ c = 0x0A ∨ c = 0x0D) ∧ (∀ c : Byte, charClass c = .term ↔ c = 0x3A)
    ∧ (∀ (c : Byte) (v : Sextet), charClass c = .sextet v ↔ alphabet[v.toNat]? = some c)
    ∧ ((List.range 256).filter fun n => charClass (BitVec.ofNat 8 n) == .invalid).length = 189

/-- R162: the packing of four sextets as a 24-bit concatenation, a bijection with inverse `unpack`. -/
def Obligations.PackIsConcatenation : Prop :=
  (∀ s0 s1 s2 s3 : Sextet, (pack s0 s1 s2 s3).1 ++ (pack s0 s1 s2 s3).2.1 ++ (pack s0 s1 s2 s3).2.2 = s0 ++ s1 ++ s2 ++ s3)
    ∧ (∀ s0 s1 s2 s3 : Sextet, unpack (pack s0 s1 s2 s3).1 (pack s0 s1 s2 s3).2.1 (pack s0 s1 s2 s3).2.2
        = (s0, s1, s2, s3))
    ∧ (∀ b0 b1 b2 : Byte, pack (unpack b0 b1 b2).1 (unpack b0 b1 b2).2.1 (unpack b0 b1 b2).2.2.1 (unpack b0 b1 b2).2.2.2
        = (b0, b1, b2))
    ∧ pack 0 0 0 0 = (0x00, 0x00, 0x00) ∧ pack 63 63 63 63 = (0xFF, 0xFF, 0xFF) ∧ pack 1 2 3 4 = (0x04, 0x20, 0xC4)
    ∧ pack 36 9 0 0 = (0x90, 0x90, 0x00)

/-! The machine. -/

/-- A step runs the instruction that stands at the place of the selected space (R150, R240; the spaces are the model's,
notes/assumptions/1.md and 2.md). After the logical end no character is read (R28, R161), nor when the group has its four
sextets (R163); that the step then leaves the state as it is is the model's choice (22.md). -/
def Obligations.StepRunsDecodedInstruction : Prop :=
  ∀ (s u v : State) (c d : Byte) (i : Instr) (as : List HostAct) (r : List Byte),
    (s.space = .command → s.todo = .command c :: as → step s = exec (decodeCommand c) { s with todo := as })
    ∧ (s.space = .rawChar → s.lend = false → s.grp.length < 4 → rawget s = (some c, u) → step s = exec (decodeChar c) u)
    ∧ (s.space = .rawChar → s.lend = false → s.grp.length < 4 → rawget s = (none, u) → step s = exec .chTerm u)
    ∧ (s.space = .rawChar → s.lend = true ∨ 4 ≤ s.grp.length → step s = .next s)
    ∧ (s.space = .locate → locateSearch (streamFuel s) true s = .ok d u → step s = exec (.locateStart d) u)
    ∧ (s.space = .group → groupReady s = true →
        step s = exec (.grpPack (s.grp.getD 0 0) (s.grp.getD 1 0) (s.grp.getD 2 0) (s.grp.getD 3 0)) s)
    ∧ (s.space = .rawByte → copiesPending s.rptCnt = false → rawbyte s = .ok c u → c ≠ rleMark →
        step s = exec (.rleLiteral c) u)
    ∧ (s.space = .rawByte → copiesPending s.rptCnt = false → rawbyte s = .ok rleMark u → rawbyte u = .ok d v →
        step s = exec (decodePair d) v)
    ∧ (∀ sp, s.space = sp → (sp = .bhxHeader ∨ ∃ n, sp = .bhxFork n) → decode sp s.dbuf = .ok (i, r) →
        step s = exec i { s with dbuf := r })
    ∧ (s.space = .sitHeader → (blockGot sitHdrSize s).length = sitHdrSize →
        decode .sitHeader ((blockRead sitHdrSize { s with saValid := false }).recb.take sitHdrSize) = .ok (i, r) →
        step s = exec i (blockRead sitHdrSize { s with saValid := false }))
    ∧ (s.space = .sitEntry → (blockGot sitEntSize s).length = sitEntSize →
        decode .sitEntry ((blockRead sitEntSize { s with seValid := false }).recb.take sitEntSize) = .ok (i, r) →
        step s = exec i (blockRead sitEntSize { s with seValid := false }))
    ∧ (s.space = .magic1 → decode .magic1 (s.recb.take 4) = .ok (i, r) → step s = exec i s)
    ∧ (s.space = .magic2 → decode .magic2 ((s.recb.drop 10).take 4) = .ok (i, r) → step s = exec i s)
    ∧ (s.space = .method → step s = exec (decodeMethod s.se.rmeth) s)
    ∧ (s.space = .typeCode → s.se.typ = applType → step s = exec .typeAppl s)

/-- What the host does at the other ports (R52, R250, R290, R301). The model's choices: one step is one host action, and with
nothing to do the machine stays as it is (notes/assumptions/1.md); a length is written as the 7 bits of R52, whatever their
value (10.md); a stream change inside a session is refused (13.md); a stream of 2^63 bytes or more is a fault (14.md). -/
def Obligations.HostActionSteps : Prop :=
  ∀ (s : State) (as : List HostAct), s.space = .command →
    (s.todo = [] → step s = .next s)
    ∧ (s.todo = .reset :: as → step s = .next (resetEvent { s with todo := as }))
    ∧ (∀ o c w, s.todo = .answers o c w :: as →
        step s = .next { s with todo := as, openOk := o, closeOk := c, ioCause := w })
    ∧ (∀ i b, s.todo = .writeXsrc i b :: as →
        step s = .next { s with todo := as, xl := { s.xl with src := s.xl.src.set i.toNat b } })
    ∧ (∀ n, s.todo = .writeXsrcLen n :: as → step s = .next { s with todo := as, xl := { s.xl with srcLen := n } })
    ∧ (∀ n, s.todo = .writeXdstCap n :: as → step s = .next { s with todo := as, xl := { s.xl with dstCap := n } })
    ∧ (∀ bs, s.todo = .attach bs :: as → s.mode = .closed → bs.length < 2 ^ 63 →
        step s = .next { s with todo := as, stream := Memory.ofBytes bs })
    ∧ (∀ bs, s.todo = .attach bs :: as → s.mode = .closed → 2 ^ 63 ≤ bs.length → step s = .fault .streamTooLong)
    ∧ (∀ bs, s.todo = .attach bs :: as → s.mode ≠ .closed → step s = .refused .streamChangedInSession)

/-- R21, R250: what the host reads at the result port: the codes of R32 to R36 and of 60_exceptions.md R261, and every other
register's value. R290: after the reset event every register reads zero, the hidden ones of R56 and R57 too; R292, R294:
the stream, the sinks and the parameters are not touched. That the port has 64 bits, shows `RPT_CNT` and the signed lengths
as their bits, reads 0 outside an array, does not show the hidden registers, and shows the ring and the run-length registers
(R21, R250, against R313) is the model's choice (notes/assumptions/23.md). -/
def Obligations.ResultPortAndReset : Prop :=
  (∀ s : State,
    (∀ p ∈ [(Mode.closed, 0), (.bhx, 1), (.sit, 2)], s.mode = p.1 → (resultPort .mode s).toNat = p.2)
    ∧ (∀ p ∈ [(Stage.searching, 0), (.headerRead, 1), (.forkData, 2), (.forkRsrc, 3), (.done, 4), (.error, 5)],
        s.stage = p.1 → (resultPort .stage s).toNat = p.2)
    ∧ (∀ p ∈ [(Status.ok, 0), (.endOfEntries, 1), (.failed .format, 2), (.failed .shortRead, 3), (.failed .sequencing, 4),
          (.failed .resource, 5)],
        s.status = p.1 → (resultPort .status s).toNat = p.2)
    ∧ (∀ p ∈ [(none, 0), (some ErrClass.format, 2), (some .shortRead, 3), (some .sequencing, 4), (some .resource, 5)],
        s.err = p.1 → (resultPort .err s).toNat = p.2)
    ∧ (∀ p ∈ [(none, 0), (some Cause.noStart, 1), (some .badChar, 2), (some .nameTooLong, 3), (some .badHdrCrc, 4),
          (some .badForkCrc, 5), (some .badMagic1, 6), (some .badMagic2, 7), (some .negLength, 8), (some .streamEnd, 9),
          (some .shortBlock, 10), (some .badStage, 11), (some .illegalCmd, 12), (some .noEntry, 13), (some .badLength, 14),
          (some .openFailed, 15), (some .closeFailed, 16), (some .rleCount1, 17), (some .badMode, 18)],
        s.errSub = p.1 → (resultPort .errSub s).toNat = p.2)
    ∧ (∀ p ∈ [(RegName.pos, s.pos.toNat), (.crc, s.crc.toNat), (.ringCnt, s.ring.cnt.toNat), (.ringRd, s.ring.rd.toNat),
          (.ring 0, s.ring.b0.toNat), (.ring 1, s.ring.b1.toNat), (.ring 2, s.ring.b2.toNat), (.rptChar, s.rptChar.toNat),
          (.rptCnt, s.rptCnt.toNat), (.lend, s.lend.toNat), (.eofsev, s.eofsev.toNat), (.bhValid, s.bhValid.toNat),
          (.saValid, s.saValid.toNat), (.seValid, s.seValid.toNat), (.errExpected, s.errExpected.toNat),
          (.errFound, s.errFound.toNat), (.errPos, s.errPos.toNat), (.result, s.result.toNat)],
        (resultPort p.1 s).toNat = p.2)
    ∧ (∀ p ∈ [(RegName.bhNameLen, s.bh.nameLen.toNat), (.bhPnameLen, s.bh.pnameLen.toNat), (.bhType, s.bh.typ.toNat),
          (.bhCreator, s.bh.creator.toNat), (.bhFlags, s.bh.flags.toNat), (.bhDlen, s.bh.dlen.toNat),
          (.bhRlen, s.bh.rlen.toNat), (.bhHcrc, s.bh.hcrc.toNat), (.bhDcrc, s.bh.dcrc.toNat), (.bhRcrc, s.bh.rcrc.toNat),
          (.saMagic1, s.sa.magic1.toNat), (.saCount, s.sa.count.toNat), (.saLen, s.sa.len.toNat),
          (.saMagic2, s.sa.magic2.toNat), (.saVer, s.sa.ver.toNat)],
        (resultPort p.1 s).toNat = p.2)
    ∧ (∀ p ∈ [(RegName.seRmeth, s.se.rmeth.toNat), (.seDmeth, s.se.dmeth.toNat), (.seNameLen, s.se.nameLen.toNat),
          (.sePnameLen, s.se.pnameLen.toNat), (.seType, s.se.typ.toNat), (.seCreator, s.se.creator.toNat),
          (.seFlags, s.se.flags.toNat), (.seCdate, s.se.cdate.toNat), (.seMdate, s.se.mdate.toNat),
          (.seRlen, s.se.rlen.toNat), (.seDlen, s.se.dlen.toNat), (.seCrlen, s.se.crlen.toNat),
          (.seCdlen, s.se.cdlen.toNat), (.seRcrc, s.se.rcrc.toNat), (.seDcrc, s.se.dcrc.toNat), (.seHcrc, s.se.hcrc.toNat),
          (.xsrcLen, s.xl.srcLen.toNat), (.xdstCap, s.xl.dstCap.toNat), (.xdstLen, s.xl.dstLen.toNat)],
        (resultPort p.1 s).toNat = p.2)
    ∧ (∀ i, ∀ p ∈ [(RegName.bhName i, s.bh.name), (.bhPname i, s.bh.pname), (.seName i, s.se.name),
          (.sePname i, s.se.pname), (.xsrc i, s.xl.src), (.xdst i, s.xl.dst)],
        (resultPort p.1 s).toNat = (p.2.getD i 0).toNat))
  ∧ (∀ t : State, t = State.reset ∨ (∃ s, t = resetEvent s) →
      (∀ r : RegName, resultPort r t = 0) ∧ t.recb = List.replicate 112 0
        ∧ t.buf = { bytes := List.replicate 1024 0, idx := 0, fill := 0, eof := false, fpos := 0 })
  ∧ ∀ s : State, (resetEvent s).stream = s.stream ∧ (resetEvent s).sinkD = s.sinkD ∧ (resetEvent s).sinkR = s.sinkR
      ∧ (resetEvent s).par = s.par

/-- The machine right after reset meets the two invariants, and its parameters the constraints of R9. -/
def Obligations.ResetMeetsInvariants : Prop :=
  Inv State.reset ∧ PosInv State.reset ∧ paramsOk State.reset.par = true

/-- The invariant of the registers (R26 to R29, R33, R35, R40, R43, R52, R56, R57, R261) is kept by every step. -/
def Obligations.StepKeepsInv : Prop :=
  ∀ s t : State, Inv s → step s = .next t → Inv t

/-- The invariant of POS and the read buffer (R24, R152, R221) is kept by every step. -/
def Obligations.StepKeepsPosInv : Prop :=
  ∀ s t : State, PosInv s → step s = .next t → PosInv t

/-- R24, R258: no command but `OPEN.*` moves POS backwards. -/
def Obligations.PosNeverMovesBack : Prop :=
  ∀ (s t : State) (i : Instr), PosInv s → spaceOf i = .command → opens i = false → exec i s = .next t →
    s.pos.toNat ≤ t.pos.toNat

/-- R256: the writes of STAGE, seen between commands. -/
def Obligations.StageTransitions : Prop :=
  ∀ (s t : State) (i : Instr), spaceOf i = .command → exec i s = .next t →
    t.stage = s.stage ∨ t.stage = .error ∧ t.err ≠ none ∨ stageMoves i s.stage t.stage = true

/-- R263: which command can raise which cause; R261, R270: with which class, stage, status and position. -/
def Obligations.CausesOfCommands : Prop :=
  ∀ (s t : State) (i : Instr), spaceOf i = .command → exec i s = .next t →
    t.err = s.err ∧ t.errSub = s.errSub ∨ t.err = none ∧ t.errSub = none
      ∨ ∃ c ∈ causesOf i, t.errSub = some c ∧ t.err = some c.cls ∧ t.stage = .error ∧ t.status = .failed c.cls
          ∧ t.errPos = t.pos

/-- R270, R273: an error is a next state too; no instruction of the table stops the machine. -/
def Obligations.ExecAlwaysAnswersNext : Prop :=
  ∀ (i : Instr) (s : State), ∃ t, exec i s = .next t

/-- R70, R88: no instruction writes the stream; R294: none writes a parameter; R21: none writes what the host writes. -/
def Obligations.HostSideUnchanged : Prop :=
  ∀ (i : Instr) (s t : State), exec i s = .next t →
    t.stream = s.stream ∧ t.par = s.par ∧ t.todo = s.todo ∧ t.space = s.space ∧ t.openOk = s.openOk
      ∧ t.closeOk = s.closeOk ∧ t.ioCause = s.ioCause ∧ t.xl.src = s.xl.src ∧ t.xl.srcLen = s.xl.srcLen
      ∧ t.xl.dstCap = s.xl.dstCap

/-- R75, R76: a sink only grows, whatever the outcome, and only `BHX.DATA` and `BHX.RSRC` (and the fork record they decode)
write; `OPEN.*` of a closed block empties both, also when the open then fails (the model's choice for a failed open,
notes/assumptions/12.md). -/
def Obligations.SinksAppendOnly : Prop :=
  ∀ (i : Instr) (s t : State), exec i s = .next t →
    (opens i = false → s.sinkD <+: t.sinkD ∧ s.sinkR <+: t.sinkR)
    ∧ (opens i = false → i ≠ .bhxData → (∀ r, i ≠ .recBhxfork r) → t.sinkD = s.sinkD)
    ∧ (opens i = false → i ≠ .bhxRsrc → (∀ r, i ≠ .recBhxfork r) → t.sinkR = s.sinkR)
    ∧ (opens i = true → s.mode = .closed → t.sinkD = [] ∧ t.sinkR = [])

/-- R257, with R188, R37, R271: what the commands of each personality leave as they are, whether they end well or by an
error. The StuffIt commands: the decode registers and the BinHex records, and each other's records. The BinHex commands: the
StuffIt records, RESULT and REC, and the records of an earlier BinHex command. Only an accessor writes RESULT (and `OPEN.*`
its reset value). -/
def Obligations.PersonalitiesKeepApart : Prop :=
  ∀ (i : Instr) (s t : State), exec i s = .next t →
    (i ∈ [Instr.sitHdr, .sitNext, .sitIsenc, .sitIsfst, .sitIsfend, .sitIsapp, .sitCsize, .sitUsize, .sitMtime] →
      t.crc = s.crc ∧ t.ring = s.ring ∧ t.rptChar = s.rptChar ∧ t.rptCnt = s.rptCnt ∧ t.lend = s.lend
        ∧ t.eofsev = s.eofsev ∧ t.buf = s.buf ∧ t.bh = s.bh ∧ t.bhValid = s.bhValid ∧ t.xl = s.xl ∧ t.mode = s.mode
        ∧ (i ≠ .sitHdr → t.sa = s.sa ∧ t.saValid = s.saValid) ∧ (i ≠ .sitNext → t.se = s.se ∧ t.seValid = s.seValid)
        ∧ (i ≠ .sitHdr → i ≠ .sitNext → t.recb = s.recb ∧ t.pos = s.pos))
    ∧ (i ∈ [Instr.bhxHdr, .bhxData, .bhxRsrc] →
      t.sa = s.sa ∧ t.saValid = s.saValid ∧ t.se = s.se ∧ t.seValid = s.seValid ∧ t.result = s.result ∧ t.recb = s.recb
        ∧ t.xl = s.xl ∧ t.mode = s.mode
        ∧ (i = .bhxHdr → t.bh.dcrc = s.bh.dcrc ∧ t.bh.rcrc = s.bh.rcrc)
        ∧ (i = .bhxData → t.bhValid = s.bhValid ∧ t.bh = { s.bh with dcrc := t.bh.dcrc })
        ∧ (i = .bhxRsrc → t.bhValid = s.bhValid ∧ t.bh = { s.bh with rcrc := t.bh.rcrc }))
    ∧ (spaceOf i = .command → opens i = false →
      i ∉ [Instr.sitIsenc, .sitIsfst, .sitIsfend, .sitIsapp, .sitCsize, .sitUsize, .sitMtime] → t.result = s.result)

/-- The stream as the host lays it out: what a read gives after a write, and the canonical form. -/
def Obligations.MemoryLaws : Prop :=
  (∀ (bs : List Byte) (a : Nat), Memory.read (Memory.ofBytes bs) a = bs[a]?)
    ∧ (∀ (m : List Host.Cell) (a a' : Nat) (b : Byte),
        Memory.read (Memory.write m a b) a' = if a' = a then some b else Memory.read m a')
    ∧ (∀ (m : List Host.Cell) (a : Nat) (bs : List Byte), Memory.wf m = true → Memory.wf (Memory.writes m a bs) = true)
    ∧ (∀ m m' : List Host.Cell, Memory.wf m = true → Memory.wf m' = true →
        (∀ a, Memory.read m a = Memory.read m' a) → m = m')

/-! Errors, acceptance, sessions. -/

/-- R270: what a `raise` writes, that it ends the command, and that nothing else changes; R261: the class of each cause. That
`grp` and `dbuf`, the model's latches for locals of the command that ends, are emptied is the model's choice
(notes/assumptions/4.md). -/
def Obligations.FatalPath : Prop :=
  ∀ (c : Cause) (e f : Word) (s : State),
    fatal c e f s =
      { s with
        err := some c.cls, errSub := some c, errExpected := e, errFound := f, errPos := s.pos, stage := .error,
        status := .failed c.cls, grp := [], dbuf := [] }
    ∧ (∀ (α β : Type) (k : α → State → Res β), (raise c e f s : Res α).bind k = .stop (fatal c e f s))
    ∧ errCode (fatal c e f s).err = (fatal c e f s).status.code
    ∧ c.cls.code =
        (if c.code = 9 ∨ c.code = 10 then 3
         else if c.code = 15 ∨ c.code = 16 then 5
         else if (11 ≤ c.code ∧ c.code ≤ 14) ∨ c.code = 18 then 4 else 2)

/-- R240 (a), (b): with ERR set, every command byte but `OPEN.*` and `CLOSE` returns ERR in STATUS and changes nothing. -/
def Obligations.StickyError : Prop :=
  ∀ (c : Byte) (e : ErrClass) (s : State), c ≠ 0x01 → c ≠ 0x02 → c ≠ 0x03 → s.err = some e →
    exec (decodeCommand c) s = .next { s with status := .failed e }

/-- R103, R241: every reserved command byte, and what it raises. -/
def Obligations.ReservedCommandRaises : Prop :=
  ∀ (c : Byte) (s : State),
    c.toNat = 0 ∨ (0x04 ≤ c.toNat ∧ c.toNat ≤ 0x0F) ∨ (0x13 ≤ c.toNat ∧ c.toNat ≤ 0x1F)
      ∨ (0x22 ≤ c.toNat ∧ c.toNat ≤ 0x27) ∨ c.toNat = 0x2F ∨ 0x31 ≤ c.toNat →
    s.err = none →
    decodeCommand c = .reservedCommand c
      ∧ exec (.reservedCommand c) s = .next (fatal .illegalCmd 0 (c.setWidth 32) s)

/-- R240: a command of the wrong personality; the mode is checked before the stage. -/
def Obligations.WrongModeRaises : Prop :=
  ∀ (i : Instr) (s : State), s.err = none →
    (i ∈ [Instr.bhxHdr, .bhxData, .bhxRsrc] → s.mode ≠ .bhx →
      exec i s = .next (fatal .badMode 1 (s.mode.code.setWidth 32) s))
    ∧ (i ∈ [Instr.sitHdr, .sitNext, .sitIsenc, .sitIsfst, .sitIsfend, .sitIsapp, .sitCsize, .sitUsize, .sitMtime] →
      s.mode ≠ .sit → exec i s = .next (fatal .badMode 2 (s.mode.code.setWidth 32) s))

/-- R198, R199, R240: a BinHex command in a stage it is not accepted in. -/
def Obligations.WrongStageRaises : Prop :=
  ∀ s : State, s.err = none → s.mode = .bhx →
    (s.stage ≠ .searching → exec .bhxHdr s = .next (fatal .badStage 0 (s.stage.code.setWidth 32) s))
    ∧ (s.stage ≠ .forkData → exec .bhxData s = .next (fatal .badStage 2 (s.stage.code.setWidth 32) s))
    ∧ (s.stage ≠ .forkRsrc → exec .bhxRsrc s = .next (fatal .badStage 3 (s.stage.code.setWidth 32) s))

/-- R242, R243: `OPEN.*`. It runs whether or not ERR is set. What it keeps is the host's side and the transliterator's
buffers (R60); nothing is said of the sinks after a failed open. -/
def Obligations.OpenStartsSession : Prop :=
  ∀ (s : State) (i : Instr) (m : Mode),
    (i = decodeCommand 0x01 ∧ m = .bhx) ∨ (i = decodeCommand 0x02 ∧ m = .sit) →
    (s.mode ≠ .closed → exec i s = .next (fatal .badMode 0 (s.mode.code.setWidth 32) s))
    ∧ (s.mode = .closed → s.openOk = false →
        ∃ t, exec i s = .next (fatal .openFailed 0 s.ioCause t)
          ∧ t = { State.reset with
              xl := s.xl, stream := s.stream, openOk := s.openOk, closeOk := s.closeOk, ioCause := s.ioCause,
              todo := s.todo, space := s.space, par := s.par, sinkD := t.sinkD, sinkR := t.sinkR })
    ∧ (s.mode = .closed → s.openOk = true →
        exec i s = .next { State.reset with
          mode := m, xl := s.xl, stream := s.stream, openOk := s.openOk, closeOk := s.closeOk, ioCause := s.ioCause,
          todo := s.todo, space := s.space, par := s.par })

/-- R244: `CLOSE`, executed in every state; R89: it discards the read buffer of the session it ends. That a discarded buffer
is all zero is the model's choice (notes/assumptions/25.md). -/
def Obligations.CloseEndsSession : Prop :=
  ∀ s : State,
    (s.mode = .closed → exec (decodeCommand 0x03) s = .next { s with status := .ok })
    ∧ (s.mode ≠ .closed → s.closeOk = true →
        exec (decodeCommand 0x03) s = .next { s with mode := .closed, buf := bufReset, status := .ok })
    ∧ (s.mode ≠ .closed → s.closeOk = false →
        exec (decodeCommand 0x03) s = .next (fatal .closeFailed 0 s.ioCause { s with mode := .closed, buf := bufReset }))

/-! The transliterator. -/

/-- R145: `XLIT`, in any MODE. -/
def Obligations.XlitWritesDestination : Prop :=
  ∀ (s : State) (out : List Byte), s.err = none →
    out = xltBuf s.par.xltHi s.xl.src s.xl.srcLen.toNat s.xl.dstCap.toNat →
    (s.xl.srcLen = 0 ∨ s.xl.dstCap = 0 → exec (decodeCommand 0x30) s = .next (fatal .badLength 1 0 s))
    ∧ (s.xl.srcLen ≠ 0 → s.xl.dstCap ≠ 0 → 64 < s.xl.srcLen.toNat ∨ 64 < s.xl.dstCap.toNat →
        exec (decodeCommand 0x30) s = .next (fatal .badLength 64 (BitVec.ofNat 32 (max s.xl.srcLen.toNat s.xl.dstCap.toNat)) s))
    ∧ (s.xl.srcLen ≠ 0 → s.xl.dstCap ≠ 0 → s.xl.srcLen.toNat ≤ 64 → s.xl.dstCap.toNat ≤ 64 →
        exec (decodeCommand 0x30) s = .next { s with
          xl := { s.xl with dst := out ++ List.replicate (64 - out.length) 0, dstLen := BitVec.ofNat 7 out.length }
          status := .ok })

/-- R147: what every table that meets R142 gives; R141: each byte of it. -/
def Obligations.XltBufProperties : Prop :=
  ∀ (hi src out : List Byte) (n cap : Nat), xltHiOk hi = true → n ≤ src.length → out = xltBuf hi src n cap →
    out.length ≤ min n cap
    ∧ (∀ b ∈ out, 0x20 ≤ b.toNat ∧ b.toNat ≤ 0x7F)
    ∧ (∀ k, k < out.length → src.getD k 0 ≠ 0) ∧ (out.length = min n cap ∨ src.getD out.length 0 = 0)
    ∧ ((∀ b ∈ src.take n, 0x20 ≤ b.toNat ∧ b.toNat ≤ 0x7E) → out = src.take (min n cap))
    ∧ (∀ (k : Nat) (b : Byte), k < out.length → src[k]? = some b →
        (b.toNat < 0x20 → out[k]? = some 0x5F) ∧ (0x20 ≤ b.toNat → b.toNat ≤ 0x7F → out[k]? = some b)
        ∧ (0x80 ≤ b.toNat → out[k]? = hi[b.toNat - 0x80]?))

/-! The stream reader and the header locator. -/

/-- R153: the buffered reader answers as the plain one does, call for call, with the same POS; the locator leaves the buffer
so that it does. -/
def Obligations.BufferedReadIsPlainRead : Prop :=
  (∀ (n : Nat) (s : State), streamOk s → bufferOk s → gets rawget n s = gets rawgetPlain n s)
    ∧ ∀ s : State, streamOk s → s.pos.toNat ≤ slen s → s.buf.bytes.length = rbufSize → bufferOk (locateMatched s)

/-- R154, R155: the locator stops at the first header start of the stream, or fails at its end. -/
def Obligations.LocateFindsFirstStart : Prop :=
  ∀ (s : State) (bs : List Byte), s.stream = Memory.ofBytes bs → bs.length < 2 ^ 63 → s.pos = 0 →
    (∀ a, startsAt bs a → (∀ b, b < a → ¬ startsAt bs b) →
      locate s = .ok () { s with
        pos := BitVec.ofNat 64 (a + 1), stage := .headerRead,
        buf := { s.buf with fpos := BitVec.ofNat 64 (a + 1), idx := 0, fill := 0, eof := false } })
    ∧ ((∀ a, ¬ startsAt bs a) →
      locate s = .stop (fatal .noStart 0x3A 0x100 { s with pos := BitVec.ofNat 64 bs.length }))

/-- R154: what the row `LOCATE.START` does, POS being at the alphabet character. That the row by itself has this effect is
the model's choice (notes/assumptions/2.md). -/
def Obligations.LocateStartRow : Prop :=
  ∀ (c : Byte) (s : State),
    exec (.locateStart c) s = .next { s with
      stage := .headerRead, buf := { s.buf with fpos := s.pos, idx := 0, fill := 0, eof := false } }

/-- R281: the bounds the model puts on its loops (notes/assumptions/15.md) are never reached: a larger bound gives the same
answer, and the loop of `SIT.LIST` ends with a STATUS other than `OK`. -/
def Obligations.LoopBoundsSuffice : Prop :=
  ∀ (s : State) (k : Nat), streamOk s →
    sextet (streamFuel s + k) s = sextet (streamFuel s) s
    ∧ (∀ bol, locateSearch (streamFuel s + k) bol s = locateSearch (streamFuel s) bol s)
    ∧ decbyteLoop (streamFuel s + 3 + k) s = decbyteLoop (streamFuel s + 3) s
    ∧ sitNextLoop (s.stream.length + 1 + k) s = sitNextLoop (s.stream.length + 1) s
    ∧ ∃ t, sitNextLoop (s.stream.length + 1) s = .next t ∧ t.status ≠ .ok

/-! Characters, groups, runs. -/

/-- R105, R161, R163: the 64 rows `CH.SEXTET_0` to `CH.SEXTET_63`, each at its value `v`. A symbol row by itself
(notes/assumptions/2.md) and the group latch it writes (4.md) are the model's choices. -/
def Obligations.SextetRows : Prop :=
  ∀ (v : Sextet) (s : State), exec (sextetInstr v) s = .next { s with grp := s.grp ++ [v] }

/-- R106, R130, R161, R163: the rows `CH.SKIP_LF`, `CH.SKIP_CR`, `CH.TERM`, `CH.INVALID`. That a symbol row by itself has
this effect is the model's choice (notes/assumptions/2.md). -/
def Obligations.OtherCharacterRows : Prop :=
  ∀ (c : Byte) (s : State),
    exec .chSkipLf s = .next s ∧ exec .chSkipCr s = .next s ∧ exec .chTerm s = .next { s with lend := true }
    ∧ exec (.chInvalid c) s = .next (fatal .badChar 0 (c.setWidth 32) s)

/-- R163: the row `GRP.PACK`, by how many sextets were read and whether the end was met. A symbol row by itself
(notes/assumptions/2.md) and the latch `grp` that says how many were read (4.md) are the model's choices; a latch of more
than four sextets, which no run has, is left out. -/
def Obligations.GroupRow : Prop :=
  ∀ (s0 s1 s2 s3 : Sextet) (s : State) (n : BitVec 2),
    (s.grp.length = 4 ∧ n = 3) ∨ (s.grp.length = 3 ∧ n = 2) ∨ (s.grp.length = 2 ∧ n = 1) ∨ (s.grp.length ≤ 1 ∧ n = 0) →
    exec (.grpPack s0 s1 s2 s3) s = .next { s with
      ring := { b0 := (pack s0 s1 s2 s3).1, b1 := (pack s0 s1 s2 s3).2.1, b2 := (pack s0 s1 s2 s3).2.2, cnt := n, rd := 0 }
      eofsev := if s.lend then 3 - n else s.eofsev
      grp := [] }

/-- R167: the raw bytes of a payload: their number, their bits (those of the sextets in order, whatever line ends stand
between), and then `STREAM_END`. And R161, R163, R165, where an INVALID character `c` stands before the end: the bytes of the
whole groups before it, and then `BAD_CHAR` with found `c`, POS the offset after it, the ring and the flags as the last whole
group left them, the sextets of the broken group lost. -/
def Obligations.PayloadRawBytes : Prop :=
  (∀ v : List Sextet, (rawOf v).length = v.length / 4 * 3 + (v.length % 4 - 1))
    ∧ (∀ (v : List Sextet) (i : Nat), i < 8 * (rawOf v).length →
      ((rawOf v).getD (i / 8) 0).getMsbD (i % 8) = (v.getD (i / 6) 0).getMsbD (i % 6))
    ∧ ∀ (s : State) (cs : List Byte), streamOk s → bufferOk s → s.ring.cnt ≤ s.ring.rd → s.lend = false →
      (∀ c ∈ cs, charClass c = .skip ∨ ∃ v, charClass c = .sextet v) →
      ((s.stream.map Prod.snd).drop s.pos.toNat = cs
          ∨ (∃ rest, (s.stream.map Prod.snd).drop s.pos.toNat = cs ++ 0x3A :: rest) →
        ∃ t u, calls rawbyte (rawOf (sextetsOf cs)).length s = .ok (rawOf (sextetsOf cs)) t
          ∧ rawbyte t = .stop (fatal .streamEnd 1 0 u))
      ∧ ∀ (c : Byte) (rest : List Byte) (whole : List Sextet), charClass c = .invalid →
        (s.stream.map Prod.snd).drop s.pos.toNat = cs ++ c :: rest →
        whole = (sextetsOf cs).take ((sextetsOf cs).length / 4 * 4) →
        ∃ t u, calls rawbyte (rawOf whole).length s = .ok (rawOf whole) t
          ∧ rawbyte t = .stop (fatal .badChar 0 (c.setWidth 32) u)
          ∧ u = { s with pos := s.pos + BitVec.ofNat 64 (cs.length + 1), ring := t.ring, buf := u.buf, grp := u.grp }

/-- R171 to R173: the rows `RLE.LITERAL`, `RLE.MARK_LITERAL`, `RLE.COUNT1`, `RLE.RUN`; the decoded byte goes to the record
parser. A symbol row by itself (notes/assumptions/2.md) and the queue `dbuf` its byte joins (4.md) are the model's choices;
the restart of `EMIT_ZERO` is DECBYTE's, not the row's. -/
def Obligations.RunLengthRows : Prop :=
  ∀ (b n : Byte) (s : State),
    exec (.rleLiteral b) s = .next { s with rptChar := b, dbuf := s.dbuf ++ [b] }
    ∧ exec .rleMarkLiteral s = .next { s with rptChar := 0x90, dbuf := s.dbuf ++ [0x90] }
    ∧ (2 ≤ n.toNat →
        exec (.rleRun n) s = .next { s with rptCnt := BitVec.ofNat 16 (n.toNat - 2), dbuf := s.dbuf ++ [s.rptChar] })
    ∧ (s.par.count1 = .emitOne →
        exec .rleCount1 s = .next { s with rptCnt := 0xFFFF, dbuf := s.dbuf ++ [s.rptChar] })
    ∧ (s.par.count1 = .emitZero → exec .rleCount1 s = .next { s with rptCnt := 0 })
    ∧ (s.par.count1 = .fault → exec .rleCount1 s = .next (fatal .rleCount1 2 1 s))

/-- R171 to R173: `DECBYTE`, by what is pending and what the raw bytes are; the pair 90 01 by `RLE_COUNT1_MODE`. -/
def Obligations.DecbyteReads : Prop :=
  ∀ (s t u : State) (b n : Byte),
    (0 < s.rptCnt.toInt → decbyte s = .ok s.rptChar { s with rptCnt := s.rptCnt - 1 })
    ∧ (s.rptCnt.toInt ≤ 0 → rawbyte s = .ok b t → b ≠ 0x90 → decbyte s = .ok b { t with rptChar := b })
    ∧ (s.rptCnt.toInt ≤ 0 → rawbyte s = .ok 0x90 t → rawbyte t = .ok 0 u →
        decbyte s = .ok 0x90 { u with rptChar := 0x90 })
    ∧ (s.rptCnt.toInt ≤ 0 → rawbyte s = .ok 0x90 t → rawbyte t = .ok 1 u →
        (s.par.count1 = .emitOne → decbyte s = .ok u.rptChar { u with rptCnt := -1 })
        ∧ (s.par.count1 = .emitZero → streamOk s → decbyte s = decbyte { u with rptCnt := 0 })
        ∧ (s.par.count1 = .fault → decbyte s = .stop (fatal .rleCount1 2 1 u)))
    ∧ (s.rptCnt.toInt ≤ 0 → rawbyte s = .stop t → decbyte s = .stop t)
    ∧ (s.rptCnt.toInt ≤ 0 → rawbyte s = .ok 0x90 t → rawbyte t = .stop u → decbyte s = .stop u)
    ∧ (s.rptCnt.toInt ≤ 0 → rawbyte s = .ok 0x90 t → rawbyte t = .ok n u → 2 ≤ n.toNat →
        decbyte s = .ok u.rptChar { u with rptCnt := BitVec.ofNat 16 (n.toNat - 2) })

/-- R177: what an encoder that obeys the rule writes, the decoder gives back, and it reads exactly those raw bytes. -/
def Obligations.RunLengthRoundTrip : Prop :=
  ∀ (s t : State) (x e : List Byte), RleEnc x e → copiesPending s.rptCnt = false → calls rawbyte e.length s = .ok e t →
    ∃ u, calls decbyte x.length s = .ok x u ∧ u = { t with rptChar := u.rptChar, rptCnt := u.rptCnt }
      ∧ copiesPending u.rptCnt = false

/-! The CRC. -/

/-- R186 (c): the checksum is linear. -/
def Obligations.CrcLinear : Prop :=
  ∀ a b : List Byte, a.length = b.length → crc16 (List.zipWith (· ^^^ ·) a b) = crc16 a ^^^ crc16 b

/-- R181: `CRCUPD` bit by bit, and the worked values of the rule; R186: its three values, the check value of (a), and (b),
(e): a span followed by its own checksum leaves zero, a run of zeros has checksum zero. -/
def Obligations.CrcStepAndResidue : Prop :=
  (∀ (c : Half) (b : Byte), crcByte c b = (List.range 8).foldl (fun (a : Half) (i : Nat) =>
      let shifted := (a <<< 1) ||| (if b.getLsbD (7 - i) then 1 else 0)
      if a.getLsbD 15 then shifted ^^^ 0x1021 else shifted) c)
    ∧ (∀ b : Byte, crcByte 0x0000 b = b.setWidth 16)
    ∧ crcByte 0x8001 0x80 = 0x9008 ∧ crcByte 0x8000 0x00 = 0x9188 ∧ crcByte 0xFFFF 0xFF = 0xE10F
    ∧ crcByte 0x0001 0x80 = 0x0180
    ∧ crc16 [0x41] = 0x58E5 ∧ crc16 [0x68, 0x65, 0x6C, 0x6C, 0x6F] = 0xC362
    ∧ acc [0x31, 0x32, 0x33, 0x34, 0x35, 0x36, 0x37, 0x38, 0x39] = 0xBEEF
    ∧ crc16 [0x31, 0x32, 0x33, 0x34, 0x35, 0x36, 0x37, 0x38, 0x39] = 0x31C3
    ∧ (∀ m : List Byte, acc (m ++ bytes16 (crc16 m)) = 0) ∧ ∀ n : Nat, crc16 (List.replicate n 0) = 0

/-- R186 (d), R196: a change of any one byte changes the checksum. -/
def Obligations.CrcSeesEveryByte : Prop :=
  ∀ (p q : List Byte) (b c : Byte), b ≠ c → crc16 (p ++ b :: q) ≠ crc16 (p ++ c :: q)

/-- R185: the check of a stored field whose two bytes come next. -/
def Obligations.CrcCheckCompares : Prop :=
  ∀ (s t : State) (hi lo : Byte) (c : Cause), calls nextDecoded 2 s = .ok [hi, lo] t →
    (crcByte (crcByte s.crc 0) 0 = be16 hi lo → crcCheck c s = .ok (be16 hi lo) { t with crc := be16 hi lo })
    ∧ (crcByte (crcByte s.crc 0) 0 ≠ be16 hi lo →
        crcCheck c s = .stop (fatal c ((crcByte (crcByte s.crc 0) 0).setWidth 32) ((be16 hi lo).setWidth 32)
          { t with crc := crcByte (crcByte s.crc 0) 0 }))

/-! BinHex records. -/

/-- R190 to R196: the row `REC.BHXHDR`: a good record, one whose checksum does not match, one whose name is too long. That
the row is `BHX.HDR` after LOCATE is the model's choice (notes/assumptions/20.md). -/
def Obligations.HeaderRow : Prop :=
  ∀ (r : BhxHeaderRec) (s : State) (body pn : List Byte) (regs : BinHexRegs),
    wellFormed (.recBhxhdr r) = true → body = (encode (.recBhxhdr r)).take (20 + r.len.toNat) →
    pn = (if r.len = 0 then [] else xltBuf s.par.xltHi r.name r.len.toNat 64) →
    regs = { s.bh with
      nameLen := r.len, name := padTo 64 (r.name ++ [r.tm]), pnameLen := BitVec.ofNat 8 pn.length, pname := padTo 64 pn,
      typ := r.typ, creator := r.creator, flags := r.flags, dlen := r.dlen, rlen := r.rlen } →
    (r.len.toNat ≤ 62 → crc16 body = r.hcrc →
      exec (.recBhxhdr r) s = .next { s with
        crc := r.hcrc, bh := { regs with hcrc := r.hcrc }, bhValid := true, stage := .forkData, status := .ok })
    ∧ (r.len.toNat ≤ 62 → crc16 body ≠ r.hcrc →
      exec (.recBhxhdr r) s = .next (fatal .badHdrCrc ((crc16 body).setWidth 32) (r.hcrc.setWidth 32)
        { s with crc := crc16 body, bh := regs, bhValid := false }))
    ∧ (63 ≤ r.len.toNat →
      exec (.recBhxhdr r) s = .next (fatal .nameTooLong 63 (BitVec.ofNat 32 (r.len.toNat + 1))
        { s with
          crc := crcByte 0 r.len, bhValid := false,
          bh := { s.bh with name := List.replicate 64 0, pname := List.replicate 64 0, pnameLen := 0 } }))

/-- R190 to R196: `BHX.HDR`, when the locator matches, by the decoded bytes that follow: a header record whose checksum
matches or does not; a length byte that is too large; and `got`, a header record cut short, where the decoder stops with an
error of its own (R271): the registers of the fields that were read hold them, the others what they held. -/
def Obligations.BhxHdrByItsBytes : Prop :=
  ∀ (s u v t : State), s.err = none → s.mode = .bhx → s.stage = .searching → locate s = .ok () u →
    (∀ (r : BhxHeaderRec) (body pn : List Byte) (regs : BinHexRegs),
      wellFormed (.recBhxhdr r) = true → r.len.toNat ≤ 62 →
      calls nextDecoded (22 + r.len.toNat) u = .ok (encode (.recBhxhdr r)) v →
      body = (encode (.recBhxhdr r)).take (20 + r.len.toNat) →
      pn = (if r.len = 0 then [] else xltBuf s.par.xltHi r.name r.len.toNat 64) →
      regs = { s.bh with
        nameLen := r.len, name := padTo 64 (r.name ++ [r.tm]), pnameLen := BitVec.ofNat 8 pn.length, pname := padTo 64 pn,
        typ := r.typ, creator := r.creator, flags := r.flags, dlen := r.dlen, rlen := r.rlen } →
      (crc16 body = r.hcrc → exec .bhxHdr s = .next { v with
        crc := r.hcrc, bh := { regs with hcrc := r.hcrc }, bhValid := true, stage := .forkData, status := .ok })
      ∧ (crc16 body ≠ r.hcrc → exec .bhxHdr s = .next (fatal .badHdrCrc ((crc16 body).setWidth 32) (r.hcrc.setWidth 32)
          { v with crc := crc16 body, bh := regs, bhValid := false })))
    ∧ (∀ l : Byte, nextDecoded u = .ok l v → 63 ≤ l.toNat →
      exec .bhxHdr s = .next (fatal .nameTooLong 63 (BitVec.ofNat 32 (l.toNat + 1))
        { v with
          crc := crcByte 0 l, bhValid := false,
          bh := { s.bh with name := List.replicate 64 0, pname := List.replicate 64 0, pnameLen := 0 } }))
    ∧ (∀ (got pn : List Byte) (n : Nat), calls nextDecoded got.length u = .ok got v → nextDecoded v = .stop t →
      n = (field8 got 0).toNat → n ≤ 62 → got.length < 22 + n →
      pn = (if n = 0 ∨ got.length < n + 2 then [] else xltBuf s.par.xltHi ((got.drop 1).take n) n 64) →
      ∃ (c : Cause) (e f : Word) (w : State), t = fatal c e f w ∧ decodeError c e f
        ∧ w.bh = s.bh ∧ w.sinkD = s.sinkD ∧ w.sinkR = s.sinkR
        ∧ exec .bhxHdr s = .next (fatal c e f { w with
          crc := acc (got.take (20 + n) ++ List.replicate (got.length - (20 + n)) 0)
          bhValid := false
          bh := { s.bh with
            nameLen := if n + 2 ≤ got.length then field8 got 0 else s.bh.nameLen
            name := padTo 64 ((got.drop 1).take (n + 1)), pnameLen := BitVec.ofNat 8 pn.length, pname := padTo 64 pn
            typ := if n + 6 ≤ got.length then field32 got (n + 2) else s.bh.typ
            creator := if n + 10 ≤ got.length then field32 got (n + 6) else s.bh.creator
            flags := if n + 12 ≤ got.length then field16 got (n + 10) else s.bh.flags
            dlen := if n + 16 ≤ got.length then field32 got (n + 12) else s.bh.dlen
            rlen := if n + 20 ≤ got.length then field32 got (n + 16) else s.bh.rlen } }))

/-- R154, R190: `BHX.HDR` of a stream without a header start. -/
def Obligations.BhxHdrNoStart : Prop :=
  ∀ (s : State) (bs : List Byte), s.err = none → s.mode = .bhx → s.stage = .searching → s.pos = 0 →
    s.stream = Memory.ofBytes bs → bs.length < 2 ^ 63 → (∀ a, ¬ startsAt bs a) →
    exec .bhxHdr s = .next (fatal .noStart 0x3A 0x100 { s with pos := BitVec.ofNat 64 bs.length })

/-- R198 to R201, R203: the fork commands, when the decoded bytes that follow are a body of the header's length and a stored
checksum `f`: the body goes to the sink either way (R76). And when they are `got`, fewer than that, and the decoder then
stops with an error of its own (R271): the body bytes among them stay in the sink and the register of the stored checksum is
not written. -/
def Obligations.ForkCommands : Prop :=
  (∀ (s v : State) (body : List Byte) (f : Half), s.err = none → s.mode = .bhx →
    calls nextDecoded (body.length + 2) s = .ok (body ++ bytes16 f) v →
    (s.stage = .forkData → 0 ≤ s.bh.dlen.toInt → body.length = s.bh.dlen.toNat →
      (crc16 body = f → exec .bhxData s = .next { v with
        crc := f, sinkD := s.sinkD ++ body, bh := { s.bh with dcrc := f }, stage := .forkRsrc, status := .ok })
      ∧ (crc16 body ≠ f → exec .bhxData s = .next (fatal .badForkCrc ((crc16 body).setWidth 32) (f.setWidth 32)
          { v with crc := crc16 body, sinkD := s.sinkD ++ body })))
    ∧ (s.stage = .forkRsrc → 0 ≤ s.bh.rlen.toInt → body.length = s.bh.rlen.toNat →
      (crc16 body = f → exec .bhxRsrc s = .next { v with
        crc := f, sinkR := s.sinkR ++ body, bh := { s.bh with rcrc := f }, stage := .done, status := .ok })
      ∧ (crc16 body ≠ f → exec .bhxRsrc s = .next (fatal .badForkCrc ((crc16 body).setWidth 32) (f.setWidth 32)
          { v with crc := crc16 body, sinkR := s.sinkR ++ body }))))
  ∧ ∀ (s v t : State) (got : List Byte) (n : Nat), s.err = none → s.mode = .bhx →
    calls nextDecoded got.length s = .ok got v → nextDecoded v = .stop t → got.length < n + 2 →
    ∃ (c : Cause) (e f : Word) (w : State), t = fatal c e f w ∧ decodeError c e f
      ∧ w.bh = s.bh ∧ w.sinkD = s.sinkD ∧ w.sinkR = s.sinkR
      ∧ (s.stage = .forkData → 0 ≤ s.bh.dlen.toInt → n = s.bh.dlen.toNat →
        exec .bhxData s = .next (fatal c e f { w with
          crc := acc (got.take n ++ List.replicate (got.length - n) 0), sinkD := s.sinkD ++ got.take n }))
      ∧ (s.stage = .forkRsrc → 0 ≤ s.bh.rlen.toInt → n = s.bh.rlen.toNat →
        exec .bhxRsrc s = .next (fatal c e f { w with
          crc := acc (got.take n ++ List.replicate (got.length - n) 0), sinkR := s.sinkR ++ got.take n }))

/-- R198 to R203: the row `REC.BHXFORK`, for the fork STAGE stands at; in another stage the model raises `BAD_STAGE`. That the
row follows STAGE, and that its length is its own body's, not compared with `BH_DLEN` or `BH_RLEN` (R112), is the model's
choice (notes/assumptions/20.md). -/
def Obligations.ForkRow : Prop :=
  ∀ (r : BhxForkRec) (s : State),
    (s.stage = .forkData → crc16 r.body = r.crc → exec (.recBhxfork r) s = .next { s with
      crc := r.crc, sinkD := s.sinkD ++ r.body, bh := { s.bh with dcrc := r.crc }, stage := .forkRsrc, status := .ok })
    ∧ (s.stage = .forkRsrc → crc16 r.body = r.crc → exec (.recBhxfork r) s = .next { s with
      crc := r.crc, sinkR := s.sinkR ++ r.body, bh := { s.bh with rcrc := r.crc }, stage := .done, status := .ok })
    ∧ (s.stage = .forkData → crc16 r.body ≠ r.crc →
      exec (.recBhxfork r) s = .next (fatal .badForkCrc ((crc16 r.body).setWidth 32) (r.crc.setWidth 32)
        { s with crc := crc16 r.body, sinkD := s.sinkD ++ r.body }))
    ∧ (s.stage = .forkRsrc → crc16 r.body ≠ r.crc →
      exec (.recBhxfork r) s = .next (fatal .badForkCrc ((crc16 r.body).setWidth 32) (r.crc.setWidth 32)
        { s with crc := crc16 r.body, sinkR := s.sinkR ++ r.body }))
    ∧ (s.stage ≠ .forkData → s.stage ≠ .forkRsrc →
      exec (.recBhxfork r) s = .next (fatal .badStage 2 (s.stage.code.setWidth 32) s))

/-- A negative length, before anything is read. It is the block's own answer to a field that has no meaning: the spec's
choice in R202 (U3), on which no other statement here rests. -/
def Obligations.NegativeLengthRaises : Prop :=
  ∀ s : State, s.err = none → s.mode = .bhx →
    (s.stage = .forkData → 0x80000000 ≤ s.bh.dlen.toNat → exec .bhxData s = .next (fatal .negLength 0 s.bh.dlen s))
    ∧ (s.stage = .forkRsrc → 0x80000000 ≤ s.bh.rlen.toNat → exec .bhxRsrc s = .next (fatal .negLength 0 s.bh.rlen s))

/-! StuffIt records. -/

/-- R211: what `BLOCKREAD(n)` gets, how far it moves POS, and what it leaves of REC. -/
def Obligations.BlockReadGets : Prop :=
  ∀ (n : Nat) (s : State) (got : List Byte), streamOk s → s.recb.length = 112 → n = 22 ∨ n = 112 →
    s.pos.toNat ≤ slen s + 2 ^ 33 → got = blockGot n s →
    got = ((s.stream.map Prod.snd).drop s.pos.toNat).take n
    ∧ blockRead n s = { s with
        recb := got ++ s.recb.drop got.length, pos := s.pos + BitVec.ofNat 64 (min n (slen s - s.pos.toNat)) }

/-- R212, R213, R214: `SIT.HDR`, by what the 22 bytes are. -/
def Obligations.SitHdrByItsBytes : Prop :=
  ∀ (s u : State) (got : List Byte), s.err = none → s.mode = .sit → s.recb.length = 112 → s.par.verOff < 22 →
    got = blockGot 22 s →
    u = { s with saValid := false, recb := got ++ s.recb.drop got.length, pos := s.pos + BitVec.ofNat 64 got.length } →
    (got.length < 22 → exec (decodeCommand 0x20) s = .next (fatal .shortBlock 22 (BitVec.ofNat 32 got.length) u))
    ∧ (got.length = 22 → field32 got 0 ∉ magic1Values →
        exec (decodeCommand 0x20) s = .next (fatal .badMagic1 0x53495421 (field32 got 0) u))
    ∧ (got.length = 22 → field32 got 0 ∈ magic1Values → field32 got 10 ≠ 0x724C6175 →
        exec (decodeCommand 0x20) s = .next (fatal .badMagic2 0x724C6175 (field32 got 10) u))
    ∧ (got.length = 22 → field32 got 0 ∈ magic1Values → field32 got 10 = 0x724C6175 →
        exec (decodeCommand 0x20) s = .next { u with
          sa := { magic1 := field32 got 0, count := field16 got 4, len := field32 got 6, magic2 := 0x724C6175,
                  ver := field8 got s.par.verOff }
          saValid := true, status := .ok })

/-- R216, R220, R221: `SIT.NEXT`, when a whole record is there. -/
def Obligations.SitNextCompletes : Prop :=
  ∀ (s : State) (got : List Byte) (e : EntryRegs), s.err = none → s.mode = .sit → s.recb.length = 112 →
    got = blockGot 112 s → got.length = 112 → e = entryOf s.par got →
    exec .sitNext s = .next { s with
      recb := got, se := e, seValid := true, status := .ok
      pos := if e.rmeth = 32 ∨ e.rmeth = 33 then s.pos + 112
             else s.pos + 112 + (e.crlen.setWidth 64 + e.cdlen.setWidth 64) }

/-- R217, R232 (c): the end of the entries: exactly when no byte is left at POS, and again after it; one to 111 bytes left
are an error. -/
def Obligations.SitNextEnd : Prop :=
  ∀ s : State, s.err = none → s.mode = .sit → streamOk s → s.pos.toNat ≤ slen s + 2 ^ 33 →
    ((∃ t, exec .sitNext s = .next t ∧ t.status = .endOfEntries) ↔ slen s ≤ s.pos.toNat)
    ∧ (slen s ≤ s.pos.toNat → exec .sitNext s = .next { s with seValid := false, status := .endOfEntries }
        ∧ exec .sitNext { s with seValid := false, status := .endOfEntries }
            = .next { s with seValid := false, status := .endOfEntries })
    ∧ (∀ (got : List Byte) (u : State), s.pos.toNat < slen s → slen s < s.pos.toNat + 112 → s.recb.length = 112 →
        got = (s.stream.map Prod.snd).drop s.pos.toNat →
        u = { s with
          seValid := false, recb := got ++ s.recb.drop got.length, pos := s.pos + BitVec.ofNat 64 got.length } →
        exec .sitNext s = .next (fatal .shortBlock 112 (BitVec.ofNat 32 got.length) u)
          ∧ got.length = slen s - s.pos.toNat ∧ u.pos.toNat = slen s)

/-- R216, R218, R144: the entry's fields, at the offsets of the parameter. -/
def Obligations.EntryFields : Prop :=
  ∀ (p : Params) (b : List Byte) (e : EntryRegs) (m : Nat), e = entryOf p b → m = min (field8 b p.entOff.namelen).toNat 63 →
    e.nameLen.toNat = m ∧ e.name.length = 63 ∧ e.pname.length = 63
    ∧ (∀ i, i < m → e.name.getD i 0 = b.getD (p.entOff.name + i) 0) ∧ (∀ i, m ≤ i → e.name.getD i 0 = 0)
    ∧ e.pname.take e.pnameLen.toNat = (if m = 0 then [] else xltBuf p.xltHi (e.name.take m) m 63)
    ∧ (∀ i, e.pnameLen.toNat ≤ i → e.pname.getD i 0 = 0)
    ∧ e.rmeth = b.getD p.entOff.rmeth 0 ∧ e.dmeth = b.getD p.entOff.dmeth 0
    ∧ e.typ = field32 b p.entOff.typ ∧ e.creator = field32 b p.entOff.creator ∧ e.flags = field16 b p.entOff.flags
    ∧ e.cdate = field32 b p.entOff.cdate ∧ e.mdate = field32 b p.entOff.mdate ∧ e.rlen = field32 b p.entOff.rlen
    ∧ e.dlen = field32 b p.entOff.dlen ∧ e.crlen = field32 b p.entOff.crlen ∧ e.cdlen = field32 b p.entOff.cdlen
    ∧ e.rcrc = field16 b p.entOff.rcrc ∧ e.dcrc = field16 b p.entOff.dcrc ∧ e.hcrc = field16 b p.entOff.hcrc

/-- R117, R121: at the default offsets the two records' own fields are what the rows load. That the rows are the commands
from the read of the record on, POS having been moved by the fetch, is the model's choice (notes/assumptions/20.md). -/
def Obligations.SitRecordRows : Prop :=
  (∀ (r : SitHeaderRec) (s u : State), wellFormed (.recSithdr22 r) = true → s.recb.length = 112 → s.par.verOff = 14 →
    u = { s with saValid := false, recb := encode (.recSithdr22 r) ++ s.recb.drop 22 } →
    (r.magic1 ∈ magic1Values → r.magic2 = 0x724C6175 →
      exec (.recSithdr22 r) s = .next { u with
        sa := { magic1 := r.magic1, count := r.count, len := r.len, magic2 := 0x724C6175, ver := r.ver }
        saValid := true, status := .ok })
    ∧ (r.magic1 ∉ magic1Values → exec (.recSithdr22 r) s = .next (fatal .badMagic1 0x53495421 r.magic1 u))
    ∧ (r.magic1 ∈ magic1Values → r.magic2 ≠ 0x724C6175 →
        exec (.recSithdr22 r) s = .next (fatal .badMagic2 0x724C6175 r.magic2 u)))
  ∧ ∀ (r : SitEntryRec) (s : State) (m : Nat) (pn : List Byte),
    wellFormed (.recSitent112 r) = true → s.recb.length = 112 → s.par.entOff = entOffDefault →
    m = min r.namelen.toNat 63 → pn = (if m = 0 then [] else xltBuf s.par.xltHi (r.name.take m) m 63) →
    exec (.recSitent112 r) s = .next { s with
      recb := encode (.recSitent112 r)
      se := { rmeth := r.rmeth, dmeth := r.dmeth, nameLen := BitVec.ofNat 8 m, name := padTo 63 (r.name.take m),
              pnameLen := BitVec.ofNat 8 pn.length, pname := padTo 63 pn, typ := r.typ, creator := r.creator,
              flags := r.flags, cdate := r.cdate, mdate := r.mdate, rlen := r.rlen, dlen := r.dlen, crlen := r.crlen,
              cdlen := r.cdlen, rcrc := r.rcrc, dcrc := r.dcrc, hcrc := r.hcrc }
      seValid := true, status := .ok
      pos := if r.rmeth = 32 ∨ r.rmeth = 33 then s.pos
             else s.pos + (r.crlen.setWidth 64 + r.cdlen.setWidth 64) }

/-- R118, R119, R213: the ten magic-1 rows and the magic-2 row. The row of a good magic-1 goes on to the check of magic-2
(the model's reading of the rows, notes/assumptions/19.md). -/
def Obligations.MagicRows : Prop :=
  ∀ (s : State) (i : Instr) (m : Word),
    ((i, m) ∈ [(Instr.magic1Sit, (0x53495421 : Word)), (.magic1St46, 0x53543436), (.magic1St50, 0x53543530),
        (.magic1St60, 0x53543630), (.magic1St65, 0x53543635), (.magic1Stin, 0x5354696E), (.magic1Sti2, 0x53546932),
        (.magic1Sti3, 0x53546933), (.magic1Sti4, 0x53546934)] →
      (field32 s.recb 10 = 0x724C6175 → exec i s = .next { s with
        sa := { magic1 := m, count := field16 s.recb 4, len := field32 s.recb 6, magic2 := 0x724C6175,
                ver := field8 s.recb s.par.verOff }
        saValid := true, status := .ok })
      ∧ (field32 s.recb 10 ≠ 0x724C6175 → exec i s = .next (fatal .badMagic2 0x724C6175 (field32 s.recb 10) s)))
    ∧ exec (.magic1Other m) s = .next (fatal .badMagic1 0x53495421 m s)
    ∧ exec .magic2Rlau s = .next { s with
        sa := { magic1 := field32 s.recb 0, count := field16 s.recb 4, len := field32 s.recb 6, magic2 := 0x724C6175,
                ver := field8 s.recb s.par.verOff }
        saValid := true, status := .ok }

/-- R221, R225 to R228: the rows of the method codes and of the type code: while the entry is being read the row decides the
payload skip, of a valid entry it is the predicate's answer (the model's reading, notes/assumptions/18.md). -/
def Obligations.MethodAndTypeRows : Prop :=
  ∀ (s : State) (m : Byte),
    (s.seValid = false → ∀ i ∈ [Instr.methEncrypted, .methOther m],
      exec i s = .next { s with
        pos := s.pos + (s.se.crlen.setWidth 64 + s.se.cdlen.setWidth 64), seValid := true, status := .ok })
    ∧ (s.seValid = false → ∀ i ∈ [Instr.methFolderStart, .methFolderEnd],
      exec i s = .next { s with seValid := true, status := .ok })
    ∧ (s.seValid = true → ∀ i ∈ [Instr.methEncrypted, .methFolderStart, .methFolderEnd, .typeAppl],
      exec i s = .next { s with result := 1, status := .ok })
    ∧ (s.seValid = true → exec (.methOther m) s = .next { s with result := 0, status := .ok })
    ∧ (s.seValid = false → exec .typeAppl s = .next (fatal .noEntry 1 0 s))

/-- R225 to R231: the seven accessor commands, by their codes. -/
def Obligations.Accessors : Prop :=
  ∀ s : State, s.err = none → s.mode = .sit → s.seValid = true →
    exec (decodeCommand 0x28) s = .next { s with result := if s.se.rmeth = 16 then 1 else 0, status := .ok }
    ∧ exec (decodeCommand 0x29) s = .next { s with result := if s.se.rmeth = 32 then 1 else 0, status := .ok }
    ∧ exec (decodeCommand 0x2A) s = .next { s with result := if s.se.rmeth = 33 then 1 else 0, status := .ok }
    ∧ exec (decodeCommand 0x2B) s = .next { s with result := if s.se.typ = 0x4150504C then 1 else 0, status := .ok }
    ∧ exec (decodeCommand 0x2C) s = .next { s with
        result := BitVec.ofNat 64 (s.se.crlen.toNat + s.se.cdlen.toNat), status := .ok }
    ∧ exec (decodeCommand 0x2D) s = .next { s with
        result := BitVec.ofNat 64 (s.se.rlen.toNat + s.se.dlen.toNat), status := .ok }
    ∧ exec (decodeCommand 0x2E) s = .next { s with result := BitVec.ofNat 64 s.se.mdate.toNat, status := .ok }

/-- 46_stuffit_records.md section 4: an accessor without a valid entry. -/
def Obligations.AccessorsWithoutEntry : Prop :=
  ∀ (s : State) (i : Instr), s.err = none → s.mode = .sit → s.seValid = false →
    i ∈ [Instr.sitIsenc, .sitIsfst, .sitIsfend, .sitIsapp, .sitCsize, .sitUsize, .sitMtime] →
    exec i s = .next (fatal .noEntry 1 0 s)

/-- R133: the pseudo-command `BHX.EXTRACT` stops at the first command whose STATUS is not `OK`; `SIT.LIST` is `SIT.HDR` and,
if that ends with `OK`, `SIT.NEXT` repeated until a STATUS other than `OK`. -/
def Obligations.PseudoCommandsStopAtFirstFailure : Prop :=
  (∀ s t u v : State, exec .bhxHdr s = .next t →
    (t.status ≠ .ok → bhxExtract s = .next t)
    ∧ (t.status = .ok → exec .bhxData t = .next u → u.status ≠ .ok → bhxExtract s = .next u)
    ∧ (t.status = .ok → exec .bhxData t = .next u → u.status = .ok → exec .bhxRsrc u = .next v → bhxExtract s = .next v))
  ∧ ∀ s t u : State, exec .sitHdr s = .next t →
    (t.status ≠ .ok → sitList s = .next t)
    ∧ (t.status = .ok → streamOk s → NextUntilNotOk t u → sitList s = .next u)
end

