-- ==== Sys2Proof/Laws/State.lean ====
section
/-! SUPPORT. For each named update of the state, what each field is after it. All true by computation. -/

namespace Sys2Proof.Machine

@[simp] theorem fatal_pos (c : Cause) (e f : Word) (s : State) : (fatal c e f s).pos = s.pos := rfl
@[simp] theorem fatal_crc (c : Cause) (e f : Word) (s : State) : (fatal c e f s).crc = s.crc := rfl
@[simp] theorem fatal_ring (c : Cause) (e f : Word) (s : State) : (fatal c e f s).ring = s.ring := rfl
@[simp] theorem fatal_rptChar (c : Cause) (e f : Word) (s : State) : (fatal c e f s).rptChar = s.rptChar := rfl
@[simp] theorem fatal_rptCnt (c : Cause) (e f : Word) (s : State) : (fatal c e f s).rptCnt = s.rptCnt := rfl
@[simp] theorem fatal_lend (c : Cause) (e f : Word) (s : State) : (fatal c e f s).lend = s.lend := rfl
@[simp] theorem fatal_eofsev (c : Cause) (e f : Word) (s : State) : (fatal c e f s).eofsev = s.eofsev := rfl
@[simp] theorem fatal_buf (c : Cause) (e f : Word) (s : State) : (fatal c e f s).buf = s.buf := rfl
@[simp] theorem fatal_bhValid (c : Cause) (e f : Word) (s : State) : (fatal c e f s).bhValid = s.bhValid := rfl
@[simp] theorem fatal_saValid (c : Cause) (e f : Word) (s : State) : (fatal c e f s).saValid = s.saValid := rfl
@[simp] theorem fatal_seValid (c : Cause) (e f : Word) (s : State) : (fatal c e f s).seValid = s.seValid := rfl
@[simp] theorem fatal_mode (c : Cause) (e f : Word) (s : State) : (fatal c e f s).mode = s.mode := rfl
@[simp] theorem fatal_stage (c : Cause) (e f : Word) (s : State) : (fatal c e f s).stage = .error := rfl
@[simp] theorem fatal_status (c : Cause) (e f : Word) (s : State) : (fatal c e f s).status = .failed c.cls := rfl
@[simp] theorem fatal_err (c : Cause) (e f : Word) (s : State) : (fatal c e f s).err = some c.cls := rfl
@[simp] theorem fatal_errSub (c : Cause) (e f : Word) (s : State) : (fatal c e f s).errSub = some c := rfl
@[simp] theorem fatal_errExpected (c : Cause) (e f : Word) (s : State) : (fatal c e f s).errExpected = e := rfl
@[simp] theorem fatal_errFound (c : Cause) (e f : Word) (s : State) : (fatal c e f s).errFound = f := rfl
@[simp] theorem fatal_errPos (c : Cause) (e f : Word) (s : State) : (fatal c e f s).errPos = s.pos := rfl
@[simp] theorem fatal_result (c : Cause) (e f : Word) (s : State) : (fatal c e f s).result = s.result := rfl
@[simp] theorem fatal_bh (c : Cause) (e f : Word) (s : State) : (fatal c e f s).bh = s.bh := rfl
@[simp] theorem fatal_sa (c : Cause) (e f : Word) (s : State) : (fatal c e f s).sa = s.sa := rfl
@[simp] theorem fatal_se (c : Cause) (e f : Word) (s : State) : (fatal c e f s).se = s.se := rfl
@[simp] theorem fatal_xl (c : Cause) (e f : Word) (s : State) : (fatal c e f s).xl = s.xl := rfl
@[simp] theorem fatal_recb (c : Cause) (e f : Word) (s : State) : (fatal c e f s).recb = s.recb := rfl
@[simp] theorem fatal_stream (c : Cause) (e f : Word) (s : State) : (fatal c e f s).stream = s.stream := rfl
@[simp] theorem fatal_sinkD (c : Cause) (e f : Word) (s : State) : (fatal c e f s).sinkD = s.sinkD := rfl
@[simp] theorem fatal_sinkR (c : Cause) (e f : Word) (s : State) : (fatal c e f s).sinkR = s.sinkR := rfl
@[simp] theorem fatal_openOk (c : Cause) (e f : Word) (s : State) : (fatal c e f s).openOk = s.openOk := rfl
@[simp] theorem fatal_closeOk (c : Cause) (e f : Word) (s : State) : (fatal c e f s).closeOk = s.closeOk := rfl
@[simp] theorem fatal_ioCause (c : Cause) (e f : Word) (s : State) : (fatal c e f s).ioCause = s.ioCause := rfl
@[simp] theorem fatal_todo (c : Cause) (e f : Word) (s : State) : (fatal c e f s).todo = s.todo := rfl
@[simp] theorem fatal_space (c : Cause) (e f : Word) (s : State) : (fatal c e f s).space = s.space := rfl
@[simp] theorem fatal_grp (c : Cause) (e f : Word) (s : State) : (fatal c e f s).grp = [] := rfl
@[simp] theorem fatal_dbuf (c : Cause) (e f : Word) (s : State) : (fatal c e f s).dbuf = [] := rfl
@[simp] theorem fatal_par (c : Cause) (e f : Word) (s : State) : (fatal c e f s).par = s.par := rfl

@[simp] theorem endOk_pos (s : State) : (endOk s).pos = s.pos := rfl
@[simp] theorem endOk_crc (s : State) : (endOk s).crc = s.crc := rfl
@[simp] theorem endOk_ring (s : State) : (endOk s).ring = s.ring := rfl
@[simp] theorem endOk_rptChar (s : State) : (endOk s).rptChar = s.rptChar := rfl
@[simp] theorem endOk_rptCnt (s : State) : (endOk s).rptCnt = s.rptCnt := rfl
@[simp] theorem endOk_lend (s : State) : (endOk s).lend = s.lend := rfl
@[simp] theorem endOk_eofsev (s : State) : (endOk s).eofsev = s.eofsev := rfl
@[simp] theorem endOk_buf (s : State) : (endOk s).buf = s.buf := rfl
@[simp] theorem endOk_bhValid (s : State) : (endOk s).bhValid = s.bhValid := rfl
@[simp] theorem endOk_saValid (s : State) : (endOk s).saValid = s.saValid := rfl
@[simp] theorem endOk_seValid (s : State) : (endOk s).seValid = s.seValid := rfl
@[simp] theorem endOk_mode (s : State) : (endOk s).mode = s.mode := rfl
@[simp] theorem endOk_stage (s : State) : (endOk s).stage = s.stage := rfl
@[simp] theorem endOk_status (s : State) : (endOk s).status = .ok := rfl
@[simp] theorem endOk_err (s : State) : (endOk s).err = s.err := rfl
@[simp] theorem endOk_errSub (s : State) : (endOk s).errSub = s.errSub := rfl
@[simp] theorem endOk_errExpected (s : State) : (endOk s).errExpected = s.errExpected := rfl
@[simp] theorem endOk_errFound (s : State) : (endOk s).errFound = s.errFound := rfl
@[simp] theorem endOk_errPos (s : State) : (endOk s).errPos = s.errPos := rfl
@[simp] theorem endOk_result (s : State) : (endOk s).result = s.result := rfl
@[simp] theorem endOk_bh (s : State) : (endOk s).bh = s.bh := rfl
@[simp] theorem endOk_sa (s : State) : (endOk s).sa = s.sa := rfl
@[simp] theorem endOk_se (s : State) : (endOk s).se = s.se := rfl
@[simp] theorem endOk_xl (s : State) : (endOk s).xl = s.xl := rfl
@[simp] theorem endOk_recb (s : State) : (endOk s).recb = s.recb := rfl
@[simp] theorem endOk_stream (s : State) : (endOk s).stream = s.stream := rfl
@[simp] theorem endOk_sinkD (s : State) : (endOk s).sinkD = s.sinkD := rfl
@[simp] theorem endOk_sinkR (s : State) : (endOk s).sinkR = s.sinkR := rfl
@[simp] theorem endOk_openOk (s : State) : (endOk s).openOk = s.openOk := rfl
@[simp] theorem endOk_closeOk (s : State) : (endOk s).closeOk = s.closeOk := rfl
@[simp] theorem endOk_ioCause (s : State) : (endOk s).ioCause = s.ioCause := rfl
@[simp] theorem endOk_todo (s : State) : (endOk s).todo = s.todo := rfl
@[simp] theorem endOk_space (s : State) : (endOk s).space = s.space := rfl
@[simp] theorem endOk_grp (s : State) : (endOk s).grp = s.grp := rfl
@[simp] theorem endOk_dbuf (s : State) : (endOk s).dbuf = s.dbuf := rfl
@[simp] theorem endOk_par (s : State) : (endOk s).par = s.par := rfl

@[simp] theorem appendSink_pos (k : Sink) (v : Byte) (s : State) : (appendSink k v s).pos = s.pos := by cases k <;> rfl
@[simp] theorem appendSink_crc (k : Sink) (v : Byte) (s : State) : (appendSink k v s).crc = s.crc := by cases k <;> rfl
@[simp] theorem appendSink_ring (k : Sink) (v : Byte) (s : State) : (appendSink k v s).ring = s.ring := by cases k <;> rfl
@[simp] theorem appendSink_rptChar (k : Sink) (v : Byte) (s : State) : (appendSink k v s).rptChar = s.rptChar := by cases k <;> rfl
@[simp] theorem appendSink_rptCnt (k : Sink) (v : Byte) (s : State) : (appendSink k v s).rptCnt = s.rptCnt := by cases k <;> rfl
@[simp] theorem appendSink_lend (k : Sink) (v : Byte) (s : State) : (appendSink k v s).lend = s.lend := by cases k <;> rfl
@[simp] theorem appendSink_eofsev (k : Sink) (v : Byte) (s : State) : (appendSink k v s).eofsev = s.eofsev := by cases k <;> rfl
@[simp] theorem appendSink_buf (k : Sink) (v : Byte) (s : State) : (appendSink k v s).buf = s.buf := by cases k <;> rfl
@[simp] theorem appendSink_bhValid (k : Sink) (v : Byte) (s : State) : (appendSink k v s).bhValid = s.bhValid := by cases k <;> rfl
@[simp] theorem appendSink_saValid (k : Sink) (v : Byte) (s : State) : (appendSink k v s).saValid = s.saValid := by cases k <;> rfl
@[simp] theorem appendSink_seValid (k : Sink) (v : Byte) (s : State) : (appendSink k v s).seValid = s.seValid := by cases k <;> rfl
@[simp] theorem appendSink_mode (k : Sink) (v : Byte) (s : State) : (appendSink k v s).mode = s.mode := by cases k <;> rfl
@[simp] theorem appendSink_stage (k : Sink) (v : Byte) (s : State) : (appendSink k v s).stage = s.stage := by cases k <;> rfl
@[simp] theorem appendSink_status (k : Sink) (v : Byte) (s : State) : (appendSink k v s).status = s.status := by cases k <;> rfl
@[simp] theorem appendSink_err (k : Sink) (v : Byte) (s : State) : (appendSink k v s).err = s.err := by cases k <;> rfl
@[simp] theorem appendSink_errSub (k : Sink) (v : Byte) (s : State) : (appendSink k v s).errSub = s.errSub := by cases k <;> rfl
@[simp] theorem appendSink_errExpected (k : Sink) (v : Byte) (s : State) : (appendSink k v s).errExpected = s.errExpected := by cases k <;> rfl
@[simp] theorem appendSink_errFound (k : Sink) (v : Byte) (s : State) : (appendSink k v s).errFound = s.errFound := by cases k <;> rfl
@[simp] theorem appendSink_errPos (k : Sink) (v : Byte) (s : State) : (appendSink k v s).errPos = s.errPos := by cases k <;> rfl
@[simp] theorem appendSink_result (k : Sink) (v : Byte) (s : State) : (appendSink k v s).result = s.result := by cases k <;> rfl
@[simp] theorem appendSink_bh (k : Sink) (v : Byte) (s : State) : (appendSink k v s).bh = s.bh := by cases k <;> rfl
@[simp] theorem appendSink_sa (k : Sink) (v : Byte) (s : State) : (appendSink k v s).sa = s.sa := by cases k <;> rfl
@[simp] theorem appendSink_se (k : Sink) (v : Byte) (s : State) : (appendSink k v s).se = s.se := by cases k <;> rfl
@[simp] theorem appendSink_xl (k : Sink) (v : Byte) (s : State) : (appendSink k v s).xl = s.xl := by cases k <;> rfl
@[simp] theorem appendSink_recb (k : Sink) (v : Byte) (s : State) : (appendSink k v s).recb = s.recb := by cases k <;> rfl
@[simp] theorem appendSink_stream (k : Sink) (v : Byte) (s : State) : (appendSink k v s).stream = s.stream := by cases k <;> rfl
@[simp] theorem appendSink_openOk (k : Sink) (v : Byte) (s : State) : (appendSink k v s).openOk = s.openOk := by cases k <;> rfl
@[simp] theorem appendSink_closeOk (k : Sink) (v : Byte) (s : State) : (appendSink k v s).closeOk = s.closeOk := by cases k <;> rfl
@[simp] theorem appendSink_ioCause (k : Sink) (v : Byte) (s : State) : (appendSink k v s).ioCause = s.ioCause := by cases k <;> rfl
@[simp] theorem appendSink_todo (k : Sink) (v : Byte) (s : State) : (appendSink k v s).todo = s.todo := by cases k <;> rfl
@[simp] theorem appendSink_space (k : Sink) (v : Byte) (s : State) : (appendSink k v s).space = s.space := by cases k <;> rfl
@[simp] theorem appendSink_grp (k : Sink) (v : Byte) (s : State) : (appendSink k v s).grp = s.grp := by cases k <;> rfl
@[simp] theorem appendSink_dbuf (k : Sink) (v : Byte) (s : State) : (appendSink k v s).dbuf = s.dbuf := by cases k <;> rfl
@[simp] theorem appendSink_par (k : Sink) (v : Byte) (s : State) : (appendSink k v s).par = s.par := by cases k <;> rfl

@[simp] theorem refill_pos (s : State) : (refill s).pos = s.pos := rfl
@[simp] theorem refill_crc (s : State) : (refill s).crc = s.crc := rfl
@[simp] theorem refill_ring (s : State) : (refill s).ring = s.ring := rfl
@[simp] theorem refill_rptChar (s : State) : (refill s).rptChar = s.rptChar := rfl
@[simp] theorem refill_rptCnt (s : State) : (refill s).rptCnt = s.rptCnt := rfl
@[simp] theorem refill_lend (s : State) : (refill s).lend = s.lend := rfl
@[simp] theorem refill_eofsev (s : State) : (refill s).eofsev = s.eofsev := rfl
@[simp] theorem refill_bhValid (s : State) : (refill s).bhValid = s.bhValid := rfl
@[simp] theorem refill_saValid (s : State) : (refill s).saValid = s.saValid := rfl
@[simp] theorem refill_seValid (s : State) : (refill s).seValid = s.seValid := rfl
@[simp] theorem refill_mode (s : State) : (refill s).mode = s.mode := rfl
@[simp] theorem refill_stage (s : State) : (refill s).stage = s.stage := rfl
@[simp] theorem refill_status (s : State) : (refill s).status = s.status := rfl
@[simp] theorem refill_err (s : State) : (refill s).err = s.err := rfl
@[simp] theorem refill_errSub (s : State) : (refill s).errSub = s.errSub := rfl
@[simp] theorem refill_errExpected (s : State) : (refill s).errExpected = s.errExpected := rfl
@[simp] theorem refill_errFound (s : State) : (refill s).errFound = s.errFound := rfl
@[simp] theorem refill_errPos (s : State) : (refill s).errPos = s.errPos := rfl
@[simp] theorem refill_result (s : State) : (refill s).result = s.result := rfl
@[simp] theorem refill_bh (s : State) : (refill s).bh = s.bh := rfl
@[simp] theorem refill_sa (s : State) : (refill s).sa = s.sa := rfl
@[simp] theorem refill_se (s : State) : (refill s).se = s.se := rfl
@[simp] theorem refill_xl (s : State) : (refill s).xl = s.xl := rfl
@[simp] theorem refill_recb (s : State) : (refill s).recb = s.recb := rfl
@[simp] theorem refill_stream (s : State) : (refill s).stream = s.stream := rfl
@[simp] theorem refill_sinkD (s : State) : (refill s).sinkD = s.sinkD := rfl
@[simp] theorem refill_sinkR (s : State) : (refill s).sinkR = s.sinkR := rfl
@[simp] theorem refill_openOk (s : State) : (refill s).openOk = s.openOk := rfl
@[simp] theorem refill_closeOk (s : State) : (refill s).closeOk = s.closeOk := rfl
@[simp] theorem refill_ioCause (s : State) : (refill s).ioCause = s.ioCause := rfl
@[simp] theorem refill_todo (s : State) : (refill s).todo = s.todo := rfl
@[simp] theorem refill_space (s : State) : (refill s).space = s.space := rfl
@[simp] theorem refill_grp (s : State) : (refill s).grp = s.grp := rfl
@[simp] theorem refill_dbuf (s : State) : (refill s).dbuf = s.dbuf := rfl
@[simp] theorem refill_par (s : State) : (refill s).par = s.par := rfl

@[simp] theorem takeBuf_pos (s : State) : (takeBuf s).2.pos = s.pos + 1 := rfl
@[simp] theorem takeBuf_crc (s : State) : (takeBuf s).2.crc = s.crc := rfl
@[simp] theorem takeBuf_ring (s : State) : (takeBuf s).2.ring = s.ring := rfl
@[simp] theorem takeBuf_rptChar (s : State) : (takeBuf s).2.rptChar = s.rptChar := rfl
@[simp] theorem takeBuf_rptCnt (s : State) : (takeBuf s).2.rptCnt = s.rptCnt := rfl
@[simp] theorem takeBuf_lend (s : State) : (takeBuf s).2.lend = s.lend := rfl
@[simp] theorem takeBuf_eofsev (s : State) : (takeBuf s).2.eofsev = s.eofsev := rfl
@[simp] theorem takeBuf_buf (s : State) : (takeBuf s).2.buf = { s.buf with idx := s.buf.idx + 1 } := rfl
@[simp] theorem takeBuf_bhValid (s : State) : (takeBuf s).2.bhValid = s.bhValid := rfl
@[simp] theorem takeBuf_saValid (s : State) : (takeBuf s).2.saValid = s.saValid := rfl
@[simp] theorem takeBuf_seValid (s : State) : (takeBuf s).2.seValid = s.seValid := rfl
@[simp] theorem takeBuf_mode (s : State) : (takeBuf s).2.mode = s.mode := rfl
@[simp] theorem takeBuf_stage (s : State) : (takeBuf s).2.stage = s.stage := rfl
@[simp] theorem takeBuf_status (s : State) : (takeBuf s).2.status = s.status := rfl
@[simp] theorem takeBuf_err (s : State) : (takeBuf s).2.err = s.err := rfl
@[simp] theorem takeBuf_errSub (s : State) : (takeBuf s).2.errSub = s.errSub := rfl
@[simp] theorem takeBuf_errExpected (s : State) : (takeBuf s).2.errExpected = s.errExpected := rfl
@[simp] theorem takeBuf_errFound (s : State) : (takeBuf s).2.errFound = s.errFound := rfl
@[simp] theorem takeBuf_errPos (s : State) : (takeBuf s).2.errPos = s.errPos := rfl
@[simp] theorem takeBuf_result (s : State) : (takeBuf s).2.result = s.result := rfl
@[simp] theorem takeBuf_bh (s : State) : (takeBuf s).2.bh = s.bh := rfl
@[simp] theorem takeBuf_sa (s : State) : (takeBuf s).2.sa = s.sa := rfl
@[simp] theorem takeBuf_se (s : State) : (takeBuf s).2.se = s.se := rfl
@[simp] theorem takeBuf_xl (s : State) : (takeBuf s).2.xl = s.xl := rfl
@[simp] theorem takeBuf_recb (s : State) : (takeBuf s).2.recb = s.recb := rfl
@[simp] theorem takeBuf_stream (s : State) : (takeBuf s).2.stream = s.stream := rfl
@[simp] theorem takeBuf_sinkD (s : State) : (takeBuf s).2.sinkD = s.sinkD := rfl
@[simp] theorem takeBuf_sinkR (s : State) : (takeBuf s).2.sinkR = s.sinkR := rfl
@[simp] theorem takeBuf_openOk (s : State) : (takeBuf s).2.openOk = s.openOk := rfl
@[simp] theorem takeBuf_closeOk (s : State) : (takeBuf s).2.closeOk = s.closeOk := rfl
@[simp] theorem takeBuf_ioCause (s : State) : (takeBuf s).2.ioCause = s.ioCause := rfl
@[simp] theorem takeBuf_todo (s : State) : (takeBuf s).2.todo = s.todo := rfl
@[simp] theorem takeBuf_space (s : State) : (takeBuf s).2.space = s.space := rfl
@[simp] theorem takeBuf_grp (s : State) : (takeBuf s).2.grp = s.grp := rfl
@[simp] theorem takeBuf_dbuf (s : State) : (takeBuf s).2.dbuf = s.dbuf := rfl
@[simp] theorem takeBuf_par (s : State) : (takeBuf s).2.par = s.par := rfl

@[simp] theorem locateMatched_pos (s : State) : (locateMatched s).pos = s.pos := rfl
@[simp] theorem locateMatched_crc (s : State) : (locateMatched s).crc = s.crc := rfl
@[simp] theorem locateMatched_ring (s : State) : (locateMatched s).ring = s.ring := rfl
@[simp] theorem locateMatched_rptChar (s : State) : (locateMatched s).rptChar = s.rptChar := rfl
@[simp] theorem locateMatched_rptCnt (s : State) : (locateMatched s).rptCnt = s.rptCnt := rfl
@[simp] theorem locateMatched_lend (s : State) : (locateMatched s).lend = s.lend := rfl
@[simp] theorem locateMatched_eofsev (s : State) : (locateMatched s).eofsev = s.eofsev := rfl
@[simp] theorem locateMatched_buf (s : State) : (locateMatched s).buf = { s.buf with fpos := s.pos, idx := 0, fill := 0, eof := false } := rfl
@[simp] theorem locateMatched_bhValid (s : State) : (locateMatched s).bhValid = s.bhValid := rfl
@[simp] theorem locateMatched_saValid (s : State) : (locateMatched s).saValid = s.saValid := rfl
@[simp] theorem locateMatched_seValid (s : State) : (locateMatched s).seValid = s.seValid := rfl
@[simp] theorem locateMatched_mode (s : State) : (locateMatched s).mode = s.mode := rfl
@[simp] theorem locateMatched_stage (s : State) : (locateMatched s).stage = .headerRead := rfl
@[simp] theorem locateMatched_status (s : State) : (locateMatched s).status = s.status := rfl
@[simp] theorem locateMatched_err (s : State) : (locateMatched s).err = s.err := rfl
@[simp] theorem locateMatched_errSub (s : State) : (locateMatched s).errSub = s.errSub := rfl
@[simp] theorem locateMatched_errExpected (s : State) : (locateMatched s).errExpected = s.errExpected := rfl
@[simp] theorem locateMatched_errFound (s : State) : (locateMatched s).errFound = s.errFound := rfl
@[simp] theorem locateMatched_errPos (s : State) : (locateMatched s).errPos = s.errPos := rfl
@[simp] theorem locateMatched_result (s : State) : (locateMatched s).result = s.result := rfl
@[simp] theorem locateMatched_bh (s : State) : (locateMatched s).bh = s.bh := rfl
@[simp] theorem locateMatched_sa (s : State) : (locateMatched s).sa = s.sa := rfl
@[simp] theorem locateMatched_se (s : State) : (locateMatched s).se = s.se := rfl
@[simp] theorem locateMatched_xl (s : State) : (locateMatched s).xl = s.xl := rfl
@[simp] theorem locateMatched_recb (s : State) : (locateMatched s).recb = s.recb := rfl
@[simp] theorem locateMatched_stream (s : State) : (locateMatched s).stream = s.stream := rfl
@[simp] theorem locateMatched_sinkD (s : State) : (locateMatched s).sinkD = s.sinkD := rfl
@[simp] theorem locateMatched_sinkR (s : State) : (locateMatched s).sinkR = s.sinkR := rfl
@[simp] theorem locateMatched_openOk (s : State) : (locateMatched s).openOk = s.openOk := rfl
@[simp] theorem locateMatched_closeOk (s : State) : (locateMatched s).closeOk = s.closeOk := rfl
@[simp] theorem locateMatched_ioCause (s : State) : (locateMatched s).ioCause = s.ioCause := rfl
@[simp] theorem locateMatched_todo (s : State) : (locateMatched s).todo = s.todo := rfl
@[simp] theorem locateMatched_space (s : State) : (locateMatched s).space = s.space := rfl
@[simp] theorem locateMatched_grp (s : State) : (locateMatched s).grp = s.grp := rfl
@[simp] theorem locateMatched_dbuf (s : State) : (locateMatched s).dbuf = s.dbuf := rfl
@[simp] theorem locateMatched_par (s : State) : (locateMatched s).par = s.par := rfl

@[simp] theorem pushSextet_pos (v : Sextet) (s : State) : (pushSextet v s).pos = s.pos := rfl
@[simp] theorem pushSextet_crc (v : Sextet) (s : State) : (pushSextet v s).crc = s.crc := rfl
@[simp] theorem pushSextet_ring (v : Sextet) (s : State) : (pushSextet v s).ring = s.ring := rfl
@[simp] theorem pushSextet_rptChar (v : Sextet) (s : State) : (pushSextet v s).rptChar = s.rptChar := rfl
@[simp] theorem pushSextet_rptCnt (v : Sextet) (s : State) : (pushSextet v s).rptCnt = s.rptCnt := rfl
@[simp] theorem pushSextet_lend (v : Sextet) (s : State) : (pushSextet v s).lend = s.lend := rfl
@[simp] theorem pushSextet_eofsev (v : Sextet) (s : State) : (pushSextet v s).eofsev = s.eofsev := rfl
@[simp] theorem pushSextet_buf (v : Sextet) (s : State) : (pushSextet v s).buf = s.buf := rfl
@[simp] theorem pushSextet_bhValid (v : Sextet) (s : State) : (pushSextet v s).bhValid = s.bhValid := rfl
@[simp] theorem pushSextet_saValid (v : Sextet) (s : State) : (pushSextet v s).saValid = s.saValid := rfl
@[simp] theorem pushSextet_seValid (v : Sextet) (s : State) : (pushSextet v s).seValid = s.seValid := rfl
@[simp] theorem pushSextet_mode (v : Sextet) (s : State) : (pushSextet v s).mode = s.mode := rfl
@[simp] theorem pushSextet_stage (v : Sextet) (s : State) : (pushSextet v s).stage = s.stage := rfl
@[simp] theorem pushSextet_status (v : Sextet) (s : State) : (pushSextet v s).status = s.status := rfl
@[simp] theorem pushSextet_err (v : Sextet) (s : State) : (pushSextet v s).err = s.err := rfl
@[simp] theorem pushSextet_errSub (v : Sextet) (s : State) : (pushSextet v s).errSub = s.errSub := rfl
@[simp] theorem pushSextet_errExpected (v : Sextet) (s : State) : (pushSextet v s).errExpected = s.errExpected := rfl
@[simp] theorem pushSextet_errFound (v : Sextet) (s : State) : (pushSextet v s).errFound = s.errFound := rfl
@[simp] theorem pushSextet_errPos (v : Sextet) (s : State) : (pushSextet v s).errPos = s.errPos := rfl
@[simp] theorem pushSextet_result (v : Sextet) (s : State) : (pushSextet v s).result = s.result := rfl
@[simp] theorem pushSextet_bh (v : Sextet) (s : State) : (pushSextet v s).bh = s.bh := rfl
@[simp] theorem pushSextet_sa (v : Sextet) (s : State) : (pushSextet v s).sa = s.sa := rfl
@[simp] theorem pushSextet_se (v : Sextet) (s : State) : (pushSextet v s).se = s.se := rfl
@[simp] theorem pushSextet_xl (v : Sextet) (s : State) : (pushSextet v s).xl = s.xl := rfl
@[simp] theorem pushSextet_recb (v : Sextet) (s : State) : (pushSextet v s).recb = s.recb := rfl
@[simp] theorem pushSextet_stream (v : Sextet) (s : State) : (pushSextet v s).stream = s.stream := rfl
@[simp] theorem pushSextet_sinkD (v : Sextet) (s : State) : (pushSextet v s).sinkD = s.sinkD := rfl
@[simp] theorem pushSextet_sinkR (v : Sextet) (s : State) : (pushSextet v s).sinkR = s.sinkR := rfl
@[simp] theorem pushSextet_openOk (v : Sextet) (s : State) : (pushSextet v s).openOk = s.openOk := rfl
@[simp] theorem pushSextet_closeOk (v : Sextet) (s : State) : (pushSextet v s).closeOk = s.closeOk := rfl
@[simp] theorem pushSextet_ioCause (v : Sextet) (s : State) : (pushSextet v s).ioCause = s.ioCause := rfl
@[simp] theorem pushSextet_todo (v : Sextet) (s : State) : (pushSextet v s).todo = s.todo := rfl
@[simp] theorem pushSextet_space (v : Sextet) (s : State) : (pushSextet v s).space = s.space := rfl
@[simp] theorem pushSextet_grp (v : Sextet) (s : State) : (pushSextet v s).grp = s.grp ++ [v] := rfl
@[simp] theorem pushSextet_dbuf (v : Sextet) (s : State) : (pushSextet v s).dbuf = s.dbuf := rfl
@[simp] theorem pushSextet_par (v : Sextet) (s : State) : (pushSextet v s).par = s.par := rfl

@[simp] theorem termChar_pos (s : State) : (termChar s).pos = s.pos := rfl
@[simp] theorem termChar_crc (s : State) : (termChar s).crc = s.crc := rfl
@[simp] theorem termChar_ring (s : State) : (termChar s).ring = s.ring := rfl
@[simp] theorem termChar_rptChar (s : State) : (termChar s).rptChar = s.rptChar := rfl
@[simp] theorem termChar_rptCnt (s : State) : (termChar s).rptCnt = s.rptCnt := rfl
@[simp] theorem termChar_lend (s : State) : (termChar s).lend = true := rfl
@[simp] theorem termChar_eofsev (s : State) : (termChar s).eofsev = s.eofsev := rfl
@[simp] theorem termChar_buf (s : State) : (termChar s).buf = s.buf := rfl
@[simp] theorem termChar_bhValid (s : State) : (termChar s).bhValid = s.bhValid := rfl
@[simp] theorem termChar_saValid (s : State) : (termChar s).saValid = s.saValid := rfl
@[simp] theorem termChar_seValid (s : State) : (termChar s).seValid = s.seValid := rfl
@[simp] theorem termChar_mode (s : State) : (termChar s).mode = s.mode := rfl
@[simp] theorem termChar_stage (s : State) : (termChar s).stage = s.stage := rfl
@[simp] theorem termChar_status (s : State) : (termChar s).status = s.status := rfl
@[simp] theorem termChar_err (s : State) : (termChar s).err = s.err := rfl
@[simp] theorem termChar_errSub (s : State) : (termChar s).errSub = s.errSub := rfl
@[simp] theorem termChar_errExpected (s : State) : (termChar s).errExpected = s.errExpected := rfl
@[simp] theorem termChar_errFound (s : State) : (termChar s).errFound = s.errFound := rfl
@[simp] theorem termChar_errPos (s : State) : (termChar s).errPos = s.errPos := rfl
@[simp] theorem termChar_result (s : State) : (termChar s).result = s.result := rfl
@[simp] theorem termChar_bh (s : State) : (termChar s).bh = s.bh := rfl
@[simp] theorem termChar_sa (s : State) : (termChar s).sa = s.sa := rfl
@[simp] theorem termChar_se (s : State) : (termChar s).se = s.se := rfl
@[simp] theorem termChar_xl (s : State) : (termChar s).xl = s.xl := rfl
@[simp] theorem termChar_recb (s : State) : (termChar s).recb = s.recb := rfl
@[simp] theorem termChar_stream (s : State) : (termChar s).stream = s.stream := rfl
@[simp] theorem termChar_sinkD (s : State) : (termChar s).sinkD = s.sinkD := rfl
@[simp] theorem termChar_sinkR (s : State) : (termChar s).sinkR = s.sinkR := rfl
@[simp] theorem termChar_openOk (s : State) : (termChar s).openOk = s.openOk := rfl
@[simp] theorem termChar_closeOk (s : State) : (termChar s).closeOk = s.closeOk := rfl
@[simp] theorem termChar_ioCause (s : State) : (termChar s).ioCause = s.ioCause := rfl
@[simp] theorem termChar_todo (s : State) : (termChar s).todo = s.todo := rfl
@[simp] theorem termChar_space (s : State) : (termChar s).space = s.space := rfl
@[simp] theorem termChar_grp (s : State) : (termChar s).grp = s.grp := rfl
@[simp] theorem termChar_dbuf (s : State) : (termChar s).dbuf = s.dbuf := rfl
@[simp] theorem termChar_par (s : State) : (termChar s).par = s.par := rfl

@[simp] theorem packGroup_pos (a b c d : Sextet) (s : State) : (packGroup a b c d s).pos = s.pos := rfl
@[simp] theorem packGroup_crc (a b c d : Sextet) (s : State) : (packGroup a b c d s).crc = s.crc := rfl
@[simp] theorem packGroup_ring (a b c d : Sextet) (s : State) : (packGroup a b c d s).ring = { b0 := (pack a b c d).1, b1 := (pack a b c d).2.1, b2 := (pack a b c d).2.2, cnt := ringCount s.grp.length, rd := 0 } := rfl
@[simp] theorem packGroup_rptChar (a b c d : Sextet) (s : State) : (packGroup a b c d s).rptChar = s.rptChar := rfl
@[simp] theorem packGroup_rptCnt (a b c d : Sextet) (s : State) : (packGroup a b c d s).rptCnt = s.rptCnt := rfl
@[simp] theorem packGroup_lend (a b c d : Sextet) (s : State) : (packGroup a b c d s).lend = s.lend := rfl
@[simp] theorem packGroup_eofsev (a b c d : Sextet) (s : State) : (packGroup a b c d s).eofsev = if s.lend then severity (ringCount s.grp.length) else s.eofsev := rfl
@[simp] theorem packGroup_buf (a b c d : Sextet) (s : State) : (packGroup a b c d s).buf = s.buf := rfl
@[simp] theorem packGroup_bhValid (a b c d : Sextet) (s : State) : (packGroup a b c d s).bhValid = s.bhValid := rfl
@[simp] theorem packGroup_saValid (a b c d : Sextet) (s : State) : (packGroup a b c d s).saValid = s.saValid := rfl
@[simp] theorem packGroup_seValid (a b c d : Sextet) (s : State) : (packGroup a b c d s).seValid = s.seValid := rfl
@[simp] theorem packGroup_mode (a b c d : Sextet) (s : State) : (packGroup a b c d s).mode = s.mode := rfl
@[simp] theorem packGroup_stage (a b c d : Sextet) (s : State) : (packGroup a b c d s).stage = s.stage := rfl
@[simp] theorem packGroup_status (a b c d : Sextet) (s : State) : (packGroup a b c d s).status = s.status := rfl
@[simp] theorem packGroup_err (a b c d : Sextet) (s : State) : (packGroup a b c d s).err = s.err := rfl
@[simp] theorem packGroup_errSub (a b c d : Sextet) (s : State) : (packGroup a b c d s).errSub = s.errSub := rfl
@[simp] theorem packGroup_errExpected (a b c d : Sextet) (s : State) : (packGroup a b c d s).errExpected = s.errExpected := rfl
@[simp] theorem packGroup_errFound (a b c d : Sextet) (s : State) : (packGroup a b c d s).errFound = s.errFound := rfl
@[simp] theorem packGroup_errPos (a b c d : Sextet) (s : State) : (packGroup a b c d s).errPos = s.errPos := rfl
@[simp] theorem packGroup_result (a b c d : Sextet) (s : State) : (packGroup a b c d s).result = s.result := rfl
@[simp] theorem packGroup_bh (a b c d : Sextet) (s : State) : (packGroup a b c d s).bh = s.bh := rfl
@[simp] theorem packGroup_sa (a b c d : Sextet) (s : State) : (packGroup a b c d s).sa = s.sa := rfl
@[simp] theorem packGroup_se (a b c d : Sextet) (s : State) : (packGroup a b c d s).se = s.se := rfl
@[simp] theorem packGroup_xl (a b c d : Sextet) (s : State) : (packGroup a b c d s).xl = s.xl := rfl
@[simp] theorem packGroup_recb (a b c d : Sextet) (s : State) : (packGroup a b c d s).recb = s.recb := rfl
@[simp] theorem packGroup_stream (a b c d : Sextet) (s : State) : (packGroup a b c d s).stream = s.stream := rfl
@[simp] theorem packGroup_sinkD (a b c d : Sextet) (s : State) : (packGroup a b c d s).sinkD = s.sinkD := rfl
@[simp] theorem packGroup_sinkR (a b c d : Sextet) (s : State) : (packGroup a b c d s).sinkR = s.sinkR := rfl
@[simp] theorem packGroup_openOk (a b c d : Sextet) (s : State) : (packGroup a b c d s).openOk = s.openOk := rfl
@[simp] theorem packGroup_closeOk (a b c d : Sextet) (s : State) : (packGroup a b c d s).closeOk = s.closeOk := rfl
@[simp] theorem packGroup_ioCause (a b c d : Sextet) (s : State) : (packGroup a b c d s).ioCause = s.ioCause := rfl
@[simp] theorem packGroup_todo (a b c d : Sextet) (s : State) : (packGroup a b c d s).todo = s.todo := rfl
@[simp] theorem packGroup_space (a b c d : Sextet) (s : State) : (packGroup a b c d s).space = s.space := rfl
@[simp] theorem packGroup_grp (a b c d : Sextet) (s : State) : (packGroup a b c d s).grp = [] := rfl
@[simp] theorem packGroup_dbuf (a b c d : Sextet) (s : State) : (packGroup a b c d s).dbuf = s.dbuf := rfl
@[simp] theorem packGroup_par (a b c d : Sextet) (s : State) : (packGroup a b c d s).par = s.par := rfl

@[simp] theorem packRead_pos (s : State) : (packRead s).pos = s.pos := rfl
@[simp] theorem packRead_crc (s : State) : (packRead s).crc = s.crc := rfl
@[simp] theorem packRead_rptChar (s : State) : (packRead s).rptChar = s.rptChar := rfl
@[simp] theorem packRead_rptCnt (s : State) : (packRead s).rptCnt = s.rptCnt := rfl
@[simp] theorem packRead_lend (s : State) : (packRead s).lend = s.lend := rfl
@[simp] theorem packRead_eofsev (s : State) : (packRead s).eofsev = if s.lend then severity (ringCount s.grp.length) else s.eofsev := rfl
@[simp] theorem packRead_buf (s : State) : (packRead s).buf = s.buf := rfl
@[simp] theorem packRead_bhValid (s : State) : (packRead s).bhValid = s.bhValid := rfl
@[simp] theorem packRead_saValid (s : State) : (packRead s).saValid = s.saValid := rfl
@[simp] theorem packRead_seValid (s : State) : (packRead s).seValid = s.seValid := rfl
@[simp] theorem packRead_mode (s : State) : (packRead s).mode = s.mode := rfl
@[simp] theorem packRead_stage (s : State) : (packRead s).stage = s.stage := rfl
@[simp] theorem packRead_status (s : State) : (packRead s).status = s.status := rfl
@[simp] theorem packRead_err (s : State) : (packRead s).err = s.err := rfl
@[simp] theorem packRead_errSub (s : State) : (packRead s).errSub = s.errSub := rfl
@[simp] theorem packRead_errExpected (s : State) : (packRead s).errExpected = s.errExpected := rfl
@[simp] theorem packRead_errFound (s : State) : (packRead s).errFound = s.errFound := rfl
@[simp] theorem packRead_errPos (s : State) : (packRead s).errPos = s.errPos := rfl
@[simp] theorem packRead_result (s : State) : (packRead s).result = s.result := rfl
@[simp] theorem packRead_bh (s : State) : (packRead s).bh = s.bh := rfl
@[simp] theorem packRead_sa (s : State) : (packRead s).sa = s.sa := rfl
@[simp] theorem packRead_se (s : State) : (packRead s).se = s.se := rfl
@[simp] theorem packRead_xl (s : State) : (packRead s).xl = s.xl := rfl
@[simp] theorem packRead_recb (s : State) : (packRead s).recb = s.recb := rfl
@[simp] theorem packRead_stream (s : State) : (packRead s).stream = s.stream := rfl
@[simp] theorem packRead_sinkD (s : State) : (packRead s).sinkD = s.sinkD := rfl
@[simp] theorem packRead_sinkR (s : State) : (packRead s).sinkR = s.sinkR := rfl
@[simp] theorem packRead_openOk (s : State) : (packRead s).openOk = s.openOk := rfl
@[simp] theorem packRead_closeOk (s : State) : (packRead s).closeOk = s.closeOk := rfl
@[simp] theorem packRead_ioCause (s : State) : (packRead s).ioCause = s.ioCause := rfl
@[simp] theorem packRead_todo (s : State) : (packRead s).todo = s.todo := rfl
@[simp] theorem packRead_space (s : State) : (packRead s).space = s.space := rfl
@[simp] theorem packRead_grp (s : State) : (packRead s).grp = [] := rfl
@[simp] theorem packRead_dbuf (s : State) : (packRead s).dbuf = s.dbuf := rfl
@[simp] theorem packRead_par (s : State) : (packRead s).par = s.par := rfl

@[simp] theorem crcUpd_pos (b : Byte) (s : State) : (crcUpd b s).pos = s.pos := rfl
@[simp] theorem crcUpd_crc (b : Byte) (s : State) : (crcUpd b s).crc = crcByte s.crc b := rfl
@[simp] theorem crcUpd_ring (b : Byte) (s : State) : (crcUpd b s).ring = s.ring := rfl
@[simp] theorem crcUpd_rptChar (b : Byte) (s : State) : (crcUpd b s).rptChar = s.rptChar := rfl
@[simp] theorem crcUpd_rptCnt (b : Byte) (s : State) : (crcUpd b s).rptCnt = s.rptCnt := rfl
@[simp] theorem crcUpd_lend (b : Byte) (s : State) : (crcUpd b s).lend = s.lend := rfl
@[simp] theorem crcUpd_eofsev (b : Byte) (s : State) : (crcUpd b s).eofsev = s.eofsev := rfl
@[simp] theorem crcUpd_buf (b : Byte) (s : State) : (crcUpd b s).buf = s.buf := rfl
@[simp] theorem crcUpd_bhValid (b : Byte) (s : State) : (crcUpd b s).bhValid = s.bhValid := rfl
@[simp] theorem crcUpd_saValid (b : Byte) (s : State) : (crcUpd b s).saValid = s.saValid := rfl
@[simp] theorem crcUpd_seValid (b : Byte) (s : State) : (crcUpd b s).seValid = s.seValid := rfl
@[simp] theorem crcUpd_mode (b : Byte) (s : State) : (crcUpd b s).mode = s.mode := rfl
@[simp] theorem crcUpd_stage (b : Byte) (s : State) : (crcUpd b s).stage = s.stage := rfl
@[simp] theorem crcUpd_status (b : Byte) (s : State) : (crcUpd b s).status = s.status := rfl
@[simp] theorem crcUpd_err (b : Byte) (s : State) : (crcUpd b s).err = s.err := rfl
@[simp] theorem crcUpd_errSub (b : Byte) (s : State) : (crcUpd b s).errSub = s.errSub := rfl
@[simp] theorem crcUpd_errExpected (b : Byte) (s : State) : (crcUpd b s).errExpected = s.errExpected := rfl
@[simp] theorem crcUpd_errFound (b : Byte) (s : State) : (crcUpd b s).errFound = s.errFound := rfl
@[simp] theorem crcUpd_errPos (b : Byte) (s : State) : (crcUpd b s).errPos = s.errPos := rfl
@[simp] theorem crcUpd_result (b : Byte) (s : State) : (crcUpd b s).result = s.result := rfl
@[simp] theorem crcUpd_bh (b : Byte) (s : State) : (crcUpd b s).bh = s.bh := rfl
@[simp] theorem crcUpd_sa (b : Byte) (s : State) : (crcUpd b s).sa = s.sa := rfl
@[simp] theorem crcUpd_se (b : Byte) (s : State) : (crcUpd b s).se = s.se := rfl
@[simp] theorem crcUpd_xl (b : Byte) (s : State) : (crcUpd b s).xl = s.xl := rfl
@[simp] theorem crcUpd_recb (b : Byte) (s : State) : (crcUpd b s).recb = s.recb := rfl
@[simp] theorem crcUpd_stream (b : Byte) (s : State) : (crcUpd b s).stream = s.stream := rfl
@[simp] theorem crcUpd_sinkD (b : Byte) (s : State) : (crcUpd b s).sinkD = s.sinkD := rfl
@[simp] theorem crcUpd_sinkR (b : Byte) (s : State) : (crcUpd b s).sinkR = s.sinkR := rfl
@[simp] theorem crcUpd_openOk (b : Byte) (s : State) : (crcUpd b s).openOk = s.openOk := rfl
@[simp] theorem crcUpd_closeOk (b : Byte) (s : State) : (crcUpd b s).closeOk = s.closeOk := rfl
@[simp] theorem crcUpd_ioCause (b : Byte) (s : State) : (crcUpd b s).ioCause = s.ioCause := rfl
@[simp] theorem crcUpd_todo (b : Byte) (s : State) : (crcUpd b s).todo = s.todo := rfl
@[simp] theorem crcUpd_space (b : Byte) (s : State) : (crcUpd b s).space = s.space := rfl
@[simp] theorem crcUpd_grp (b : Byte) (s : State) : (crcUpd b s).grp = s.grp := rfl
@[simp] theorem crcUpd_dbuf (b : Byte) (s : State) : (crcUpd b s).dbuf = s.dbuf := rfl
@[simp] theorem crcUpd_par (b : Byte) (s : State) : (crcUpd b s).par = s.par := rfl

@[simp] theorem spanStart_pos (s : State) : (spanStart s).pos = s.pos := rfl
@[simp] theorem spanStart_crc (s : State) : (spanStart s).crc = crcInit := rfl
@[simp] theorem spanStart_ring (s : State) : (spanStart s).ring = s.ring := rfl
@[simp] theorem spanStart_rptChar (s : State) : (spanStart s).rptChar = s.rptChar := rfl
@[simp] theorem spanStart_rptCnt (s : State) : (spanStart s).rptCnt = s.rptCnt := rfl
@[simp] theorem spanStart_lend (s : State) : (spanStart s).lend = s.lend := rfl
@[simp] theorem spanStart_eofsev (s : State) : (spanStart s).eofsev = s.eofsev := rfl
@[simp] theorem spanStart_buf (s : State) : (spanStart s).buf = s.buf := rfl
@[simp] theorem spanStart_bhValid (s : State) : (spanStart s).bhValid = s.bhValid := rfl
@[simp] theorem spanStart_saValid (s : State) : (spanStart s).saValid = s.saValid := rfl
@[simp] theorem spanStart_seValid (s : State) : (spanStart s).seValid = s.seValid := rfl
@[simp] theorem spanStart_mode (s : State) : (spanStart s).mode = s.mode := rfl
@[simp] theorem spanStart_stage (s : State) : (spanStart s).stage = s.stage := rfl
@[simp] theorem spanStart_status (s : State) : (spanStart s).status = s.status := rfl
@[simp] theorem spanStart_err (s : State) : (spanStart s).err = s.err := rfl
@[simp] theorem spanStart_errSub (s : State) : (spanStart s).errSub = s.errSub := rfl
@[simp] theorem spanStart_errExpected (s : State) : (spanStart s).errExpected = s.errExpected := rfl
@[simp] theorem spanStart_errFound (s : State) : (spanStart s).errFound = s.errFound := rfl
@[simp] theorem spanStart_errPos (s : State) : (spanStart s).errPos = s.errPos := rfl
@[simp] theorem spanStart_result (s : State) : (spanStart s).result = s.result := rfl
@[simp] theorem spanStart_bh (s : State) : (spanStart s).bh = s.bh := rfl
@[simp] theorem spanStart_sa (s : State) : (spanStart s).sa = s.sa := rfl
@[simp] theorem spanStart_se (s : State) : (spanStart s).se = s.se := rfl
@[simp] theorem spanStart_xl (s : State) : (spanStart s).xl = s.xl := rfl
@[simp] theorem spanStart_recb (s : State) : (spanStart s).recb = s.recb := rfl
@[simp] theorem spanStart_stream (s : State) : (spanStart s).stream = s.stream := rfl
@[simp] theorem spanStart_sinkD (s : State) : (spanStart s).sinkD = s.sinkD := rfl
@[simp] theorem spanStart_sinkR (s : State) : (spanStart s).sinkR = s.sinkR := rfl
@[simp] theorem spanStart_openOk (s : State) : (spanStart s).openOk = s.openOk := rfl
@[simp] theorem spanStart_closeOk (s : State) : (spanStart s).closeOk = s.closeOk := rfl
@[simp] theorem spanStart_ioCause (s : State) : (spanStart s).ioCause = s.ioCause := rfl
@[simp] theorem spanStart_todo (s : State) : (spanStart s).todo = s.todo := rfl
@[simp] theorem spanStart_space (s : State) : (spanStart s).space = s.space := rfl
@[simp] theorem spanStart_grp (s : State) : (spanStart s).grp = s.grp := rfl
@[simp] theorem spanStart_dbuf (s : State) : (spanStart s).dbuf = s.dbuf := rfl
@[simp] theorem spanStart_par (s : State) : (spanStart s).par = s.par := rfl

@[simp] theorem setBhName_pos (l : Byte) (s : State) : (setBhName l s).pos = s.pos := rfl
@[simp] theorem setBhName_crc (l : Byte) (s : State) : (setBhName l s).crc = s.crc := rfl
@[simp] theorem setBhName_ring (l : Byte) (s : State) : (setBhName l s).ring = s.ring := rfl
@[simp] theorem setBhName_rptChar (l : Byte) (s : State) : (setBhName l s).rptChar = s.rptChar := rfl
@[simp] theorem setBhName_rptCnt (l : Byte) (s : State) : (setBhName l s).rptCnt = s.rptCnt := rfl
@[simp] theorem setBhName_lend (l : Byte) (s : State) : (setBhName l s).lend = s.lend := rfl
@[simp] theorem setBhName_eofsev (l : Byte) (s : State) : (setBhName l s).eofsev = s.eofsev := rfl
@[simp] theorem setBhName_buf (l : Byte) (s : State) : (setBhName l s).buf = s.buf := rfl
@[simp] theorem setBhName_bhValid (l : Byte) (s : State) : (setBhName l s).bhValid = s.bhValid := rfl
@[simp] theorem setBhName_saValid (l : Byte) (s : State) : (setBhName l s).saValid = s.saValid := rfl
@[simp] theorem setBhName_seValid (l : Byte) (s : State) : (setBhName l s).seValid = s.seValid := rfl
@[simp] theorem setBhName_mode (l : Byte) (s : State) : (setBhName l s).mode = s.mode := rfl
@[simp] theorem setBhName_stage (l : Byte) (s : State) : (setBhName l s).stage = s.stage := rfl
@[simp] theorem setBhName_status (l : Byte) (s : State) : (setBhName l s).status = s.status := rfl
@[simp] theorem setBhName_err (l : Byte) (s : State) : (setBhName l s).err = s.err := rfl
@[simp] theorem setBhName_errSub (l : Byte) (s : State) : (setBhName l s).errSub = s.errSub := rfl
@[simp] theorem setBhName_errExpected (l : Byte) (s : State) : (setBhName l s).errExpected = s.errExpected := rfl
@[simp] theorem setBhName_errFound (l : Byte) (s : State) : (setBhName l s).errFound = s.errFound := rfl
@[simp] theorem setBhName_errPos (l : Byte) (s : State) : (setBhName l s).errPos = s.errPos := rfl
@[simp] theorem setBhName_result (l : Byte) (s : State) : (setBhName l s).result = s.result := rfl
@[simp] theorem setBhName_sa (l : Byte) (s : State) : (setBhName l s).sa = s.sa := rfl
@[simp] theorem setBhName_se (l : Byte) (s : State) : (setBhName l s).se = s.se := rfl
@[simp] theorem setBhName_xl (l : Byte) (s : State) : (setBhName l s).xl = s.xl := rfl
@[simp] theorem setBhName_recb (l : Byte) (s : State) : (setBhName l s).recb = s.recb := rfl
@[simp] theorem setBhName_stream (l : Byte) (s : State) : (setBhName l s).stream = s.stream := rfl
@[simp] theorem setBhName_sinkD (l : Byte) (s : State) : (setBhName l s).sinkD = s.sinkD := rfl
@[simp] theorem setBhName_sinkR (l : Byte) (s : State) : (setBhName l s).sinkR = s.sinkR := rfl
@[simp] theorem setBhName_openOk (l : Byte) (s : State) : (setBhName l s).openOk = s.openOk := rfl
@[simp] theorem setBhName_closeOk (l : Byte) (s : State) : (setBhName l s).closeOk = s.closeOk := rfl
@[simp] theorem setBhName_ioCause (l : Byte) (s : State) : (setBhName l s).ioCause = s.ioCause := rfl
@[simp] theorem setBhName_todo (l : Byte) (s : State) : (setBhName l s).todo = s.todo := rfl
@[simp] theorem setBhName_space (l : Byte) (s : State) : (setBhName l s).space = s.space := rfl
@[simp] theorem setBhName_grp (l : Byte) (s : State) : (setBhName l s).grp = s.grp := rfl
@[simp] theorem setBhName_dbuf (l : Byte) (s : State) : (setBhName l s).dbuf = s.dbuf := rfl
@[simp] theorem setBhName_par (l : Byte) (s : State) : (setBhName l s).par = s.par := rfl

@[simp] theorem forkDone_pos (k : Sink) (h : Half) (s : State) : (forkDone k h s).pos = s.pos := by cases k <;> rfl
@[simp] theorem forkDone_crc (k : Sink) (h : Half) (s : State) : (forkDone k h s).crc = s.crc := by cases k <;> rfl
@[simp] theorem forkDone_ring (k : Sink) (h : Half) (s : State) : (forkDone k h s).ring = s.ring := by cases k <;> rfl
@[simp] theorem forkDone_rptChar (k : Sink) (h : Half) (s : State) : (forkDone k h s).rptChar = s.rptChar := by cases k <;> rfl
@[simp] theorem forkDone_rptCnt (k : Sink) (h : Half) (s : State) : (forkDone k h s).rptCnt = s.rptCnt := by cases k <;> rfl
@[simp] theorem forkDone_lend (k : Sink) (h : Half) (s : State) : (forkDone k h s).lend = s.lend := by cases k <;> rfl
@[simp] theorem forkDone_eofsev (k : Sink) (h : Half) (s : State) : (forkDone k h s).eofsev = s.eofsev := by cases k <;> rfl
@[simp] theorem forkDone_buf (k : Sink) (h : Half) (s : State) : (forkDone k h s).buf = s.buf := by cases k <;> rfl
@[simp] theorem forkDone_bhValid (k : Sink) (h : Half) (s : State) : (forkDone k h s).bhValid = s.bhValid := by cases k <;> rfl
@[simp] theorem forkDone_saValid (k : Sink) (h : Half) (s : State) : (forkDone k h s).saValid = s.saValid := by cases k <;> rfl
@[simp] theorem forkDone_seValid (k : Sink) (h : Half) (s : State) : (forkDone k h s).seValid = s.seValid := by cases k <;> rfl
@[simp] theorem forkDone_mode (k : Sink) (h : Half) (s : State) : (forkDone k h s).mode = s.mode := by cases k <;> rfl
@[simp] theorem forkDone_status (k : Sink) (h : Half) (s : State) : (forkDone k h s).status = .ok := by cases k <;> rfl
@[simp] theorem forkDone_err (k : Sink) (h : Half) (s : State) : (forkDone k h s).err = s.err := by cases k <;> rfl
@[simp] theorem forkDone_errSub (k : Sink) (h : Half) (s : State) : (forkDone k h s).errSub = s.errSub := by cases k <;> rfl
@[simp] theorem forkDone_errExpected (k : Sink) (h : Half) (s : State) : (forkDone k h s).errExpected = s.errExpected := by cases k <;> rfl
@[simp] theorem forkDone_errFound (k : Sink) (h : Half) (s : State) : (forkDone k h s).errFound = s.errFound := by cases k <;> rfl
@[simp] theorem forkDone_errPos (k : Sink) (h : Half) (s : State) : (forkDone k h s).errPos = s.errPos := by cases k <;> rfl
@[simp] theorem forkDone_result (k : Sink) (h : Half) (s : State) : (forkDone k h s).result = s.result := by cases k <;> rfl
@[simp] theorem forkDone_sa (k : Sink) (h : Half) (s : State) : (forkDone k h s).sa = s.sa := by cases k <;> rfl
@[simp] theorem forkDone_se (k : Sink) (h : Half) (s : State) : (forkDone k h s).se = s.se := by cases k <;> rfl
@[simp] theorem forkDone_xl (k : Sink) (h : Half) (s : State) : (forkDone k h s).xl = s.xl := by cases k <;> rfl
@[simp] theorem forkDone_recb (k : Sink) (h : Half) (s : State) : (forkDone k h s).recb = s.recb := by cases k <;> rfl
@[simp] theorem forkDone_stream (k : Sink) (h : Half) (s : State) : (forkDone k h s).stream = s.stream := by cases k <;> rfl
@[simp] theorem forkDone_sinkD (k : Sink) (h : Half) (s : State) : (forkDone k h s).sinkD = s.sinkD := by cases k <;> rfl
@[simp] theorem forkDone_sinkR (k : Sink) (h : Half) (s : State) : (forkDone k h s).sinkR = s.sinkR := by cases k <;> rfl
@[simp] theorem forkDone_openOk (k : Sink) (h : Half) (s : State) : (forkDone k h s).openOk = s.openOk := by cases k <;> rfl
@[simp] theorem forkDone_closeOk (k : Sink) (h : Half) (s : State) : (forkDone k h s).closeOk = s.closeOk := by cases k <;> rfl
@[simp] theorem forkDone_ioCause (k : Sink) (h : Half) (s : State) : (forkDone k h s).ioCause = s.ioCause := by cases k <;> rfl
@[simp] theorem forkDone_todo (k : Sink) (h : Half) (s : State) : (forkDone k h s).todo = s.todo := by cases k <;> rfl
@[simp] theorem forkDone_space (k : Sink) (h : Half) (s : State) : (forkDone k h s).space = s.space := by cases k <;> rfl
@[simp] theorem forkDone_grp (k : Sink) (h : Half) (s : State) : (forkDone k h s).grp = s.grp := by cases k <;> rfl
@[simp] theorem forkDone_dbuf (k : Sink) (h : Half) (s : State) : (forkDone k h s).dbuf = s.dbuf := by cases k <;> rfl
@[simp] theorem forkDone_par (k : Sink) (h : Half) (s : State) : (forkDone k h s).par = s.par := by cases k <;> rfl

@[simp] theorem loadRec_pos (bs : List Byte) (s : State) : (loadRec bs s).pos = s.pos := rfl
@[simp] theorem loadRec_crc (bs : List Byte) (s : State) : (loadRec bs s).crc = s.crc := rfl
@[simp] theorem loadRec_ring (bs : List Byte) (s : State) : (loadRec bs s).ring = s.ring := rfl
@[simp] theorem loadRec_rptChar (bs : List Byte) (s : State) : (loadRec bs s).rptChar = s.rptChar := rfl
@[simp] theorem loadRec_rptCnt (bs : List Byte) (s : State) : (loadRec bs s).rptCnt = s.rptCnt := rfl
@[simp] theorem loadRec_lend (bs : List Byte) (s : State) : (loadRec bs s).lend = s.lend := rfl
@[simp] theorem loadRec_eofsev (bs : List Byte) (s : State) : (loadRec bs s).eofsev = s.eofsev := rfl
@[simp] theorem loadRec_buf (bs : List Byte) (s : State) : (loadRec bs s).buf = s.buf := rfl
@[simp] theorem loadRec_bhValid (bs : List Byte) (s : State) : (loadRec bs s).bhValid = s.bhValid := rfl
@[simp] theorem loadRec_saValid (bs : List Byte) (s : State) : (loadRec bs s).saValid = s.saValid := rfl
@[simp] theorem loadRec_seValid (bs : List Byte) (s : State) : (loadRec bs s).seValid = s.seValid := rfl
@[simp] theorem loadRec_mode (bs : List Byte) (s : State) : (loadRec bs s).mode = s.mode := rfl
@[simp] theorem loadRec_stage (bs : List Byte) (s : State) : (loadRec bs s).stage = s.stage := rfl
@[simp] theorem loadRec_status (bs : List Byte) (s : State) : (loadRec bs s).status = s.status := rfl
@[simp] theorem loadRec_err (bs : List Byte) (s : State) : (loadRec bs s).err = s.err := rfl
@[simp] theorem loadRec_errSub (bs : List Byte) (s : State) : (loadRec bs s).errSub = s.errSub := rfl
@[simp] theorem loadRec_errExpected (bs : List Byte) (s : State) : (loadRec bs s).errExpected = s.errExpected := rfl
@[simp] theorem loadRec_errFound (bs : List Byte) (s : State) : (loadRec bs s).errFound = s.errFound := rfl
@[simp] theorem loadRec_errPos (bs : List Byte) (s : State) : (loadRec bs s).errPos = s.errPos := rfl
@[simp] theorem loadRec_result (bs : List Byte) (s : State) : (loadRec bs s).result = s.result := rfl
@[simp] theorem loadRec_bh (bs : List Byte) (s : State) : (loadRec bs s).bh = s.bh := rfl
@[simp] theorem loadRec_sa (bs : List Byte) (s : State) : (loadRec bs s).sa = s.sa := rfl
@[simp] theorem loadRec_se (bs : List Byte) (s : State) : (loadRec bs s).se = s.se := rfl
@[simp] theorem loadRec_xl (bs : List Byte) (s : State) : (loadRec bs s).xl = s.xl := rfl
@[simp] theorem loadRec_recb (bs : List Byte) (s : State) : (loadRec bs s).recb = (overlay s.recb 0 bs).take sitEntSize := rfl
@[simp] theorem loadRec_stream (bs : List Byte) (s : State) : (loadRec bs s).stream = s.stream := rfl
@[simp] theorem loadRec_sinkD (bs : List Byte) (s : State) : (loadRec bs s).sinkD = s.sinkD := rfl
@[simp] theorem loadRec_sinkR (bs : List Byte) (s : State) : (loadRec bs s).sinkR = s.sinkR := rfl
@[simp] theorem loadRec_openOk (bs : List Byte) (s : State) : (loadRec bs s).openOk = s.openOk := rfl
@[simp] theorem loadRec_closeOk (bs : List Byte) (s : State) : (loadRec bs s).closeOk = s.closeOk := rfl
@[simp] theorem loadRec_ioCause (bs : List Byte) (s : State) : (loadRec bs s).ioCause = s.ioCause := rfl
@[simp] theorem loadRec_todo (bs : List Byte) (s : State) : (loadRec bs s).todo = s.todo := rfl
@[simp] theorem loadRec_space (bs : List Byte) (s : State) : (loadRec bs s).space = s.space := rfl
@[simp] theorem loadRec_grp (bs : List Byte) (s : State) : (loadRec bs s).grp = s.grp := rfl
@[simp] theorem loadRec_dbuf (bs : List Byte) (s : State) : (loadRec bs s).dbuf = s.dbuf := rfl
@[simp] theorem loadRec_par (bs : List Byte) (s : State) : (loadRec bs s).par = s.par := rfl

@[simp] theorem blockRead_pos (n : Nat) (s : State) : (blockRead n s).pos = s.pos + BitVec.ofNat 64 (blockGot n s).length := rfl
@[simp] theorem blockRead_crc (n : Nat) (s : State) : (blockRead n s).crc = s.crc := rfl
@[simp] theorem blockRead_ring (n : Nat) (s : State) : (blockRead n s).ring = s.ring := rfl
@[simp] theorem blockRead_rptChar (n : Nat) (s : State) : (blockRead n s).rptChar = s.rptChar := rfl
@[simp] theorem blockRead_rptCnt (n : Nat) (s : State) : (blockRead n s).rptCnt = s.rptCnt := rfl
@[simp] theorem blockRead_lend (n : Nat) (s : State) : (blockRead n s).lend = s.lend := rfl
@[simp] theorem blockRead_eofsev (n : Nat) (s : State) : (blockRead n s).eofsev = s.eofsev := rfl
@[simp] theorem blockRead_buf (n : Nat) (s : State) : (blockRead n s).buf = s.buf := rfl
@[simp] theorem blockRead_bhValid (n : Nat) (s : State) : (blockRead n s).bhValid = s.bhValid := rfl
@[simp] theorem blockRead_saValid (n : Nat) (s : State) : (blockRead n s).saValid = s.saValid := rfl
@[simp] theorem blockRead_seValid (n : Nat) (s : State) : (blockRead n s).seValid = s.seValid := rfl
@[simp] theorem blockRead_mode (n : Nat) (s : State) : (blockRead n s).mode = s.mode := rfl
@[simp] theorem blockRead_stage (n : Nat) (s : State) : (blockRead n s).stage = s.stage := rfl
@[simp] theorem blockRead_status (n : Nat) (s : State) : (blockRead n s).status = s.status := rfl
@[simp] theorem blockRead_err (n : Nat) (s : State) : (blockRead n s).err = s.err := rfl
@[simp] theorem blockRead_errSub (n : Nat) (s : State) : (blockRead n s).errSub = s.errSub := rfl
@[simp] theorem blockRead_errExpected (n : Nat) (s : State) : (blockRead n s).errExpected = s.errExpected := rfl
@[simp] theorem blockRead_errFound (n : Nat) (s : State) : (blockRead n s).errFound = s.errFound := rfl
@[simp] theorem blockRead_errPos (n : Nat) (s : State) : (blockRead n s).errPos = s.errPos := rfl
@[simp] theorem blockRead_result (n : Nat) (s : State) : (blockRead n s).result = s.result := rfl
@[simp] theorem blockRead_bh (n : Nat) (s : State) : (blockRead n s).bh = s.bh := rfl
@[simp] theorem blockRead_sa (n : Nat) (s : State) : (blockRead n s).sa = s.sa := rfl
@[simp] theorem blockRead_se (n : Nat) (s : State) : (blockRead n s).se = s.se := rfl
@[simp] theorem blockRead_xl (n : Nat) (s : State) : (blockRead n s).xl = s.xl := rfl
@[simp] theorem blockRead_recb (n : Nat) (s : State) : (blockRead n s).recb = (overlay s.recb 0 (blockGot n s)).take sitEntSize := rfl
@[simp] theorem blockRead_stream (n : Nat) (s : State) : (blockRead n s).stream = s.stream := rfl
@[simp] theorem blockRead_sinkD (n : Nat) (s : State) : (blockRead n s).sinkD = s.sinkD := rfl
@[simp] theorem blockRead_sinkR (n : Nat) (s : State) : (blockRead n s).sinkR = s.sinkR := rfl
@[simp] theorem blockRead_openOk (n : Nat) (s : State) : (blockRead n s).openOk = s.openOk := rfl
@[simp] theorem blockRead_closeOk (n : Nat) (s : State) : (blockRead n s).closeOk = s.closeOk := rfl
@[simp] theorem blockRead_ioCause (n : Nat) (s : State) : (blockRead n s).ioCause = s.ioCause := rfl
@[simp] theorem blockRead_todo (n : Nat) (s : State) : (blockRead n s).todo = s.todo := rfl
@[simp] theorem blockRead_space (n : Nat) (s : State) : (blockRead n s).space = s.space := rfl
@[simp] theorem blockRead_grp (n : Nat) (s : State) : (blockRead n s).grp = s.grp := rfl
@[simp] theorem blockRead_dbuf (n : Nat) (s : State) : (blockRead n s).dbuf = s.dbuf := rfl
@[simp] theorem blockRead_par (n : Nat) (s : State) : (blockRead n s).par = s.par := rfl

@[simp] theorem magic2Passed_pos (m : Word) (s : State) : (magic2Passed m s).pos = s.pos := rfl
@[simp] theorem magic2Passed_crc (m : Word) (s : State) : (magic2Passed m s).crc = s.crc := rfl
@[simp] theorem magic2Passed_ring (m : Word) (s : State) : (magic2Passed m s).ring = s.ring := rfl
@[simp] theorem magic2Passed_rptChar (m : Word) (s : State) : (magic2Passed m s).rptChar = s.rptChar := rfl
@[simp] theorem magic2Passed_rptCnt (m : Word) (s : State) : (magic2Passed m s).rptCnt = s.rptCnt := rfl
@[simp] theorem magic2Passed_lend (m : Word) (s : State) : (magic2Passed m s).lend = s.lend := rfl
@[simp] theorem magic2Passed_eofsev (m : Word) (s : State) : (magic2Passed m s).eofsev = s.eofsev := rfl
@[simp] theorem magic2Passed_buf (m : Word) (s : State) : (magic2Passed m s).buf = s.buf := rfl
@[simp] theorem magic2Passed_bhValid (m : Word) (s : State) : (magic2Passed m s).bhValid = s.bhValid := rfl
@[simp] theorem magic2Passed_saValid (m : Word) (s : State) : (magic2Passed m s).saValid = true := rfl
@[simp] theorem magic2Passed_seValid (m : Word) (s : State) : (magic2Passed m s).seValid = s.seValid := rfl
@[simp] theorem magic2Passed_mode (m : Word) (s : State) : (magic2Passed m s).mode = s.mode := rfl
@[simp] theorem magic2Passed_stage (m : Word) (s : State) : (magic2Passed m s).stage = s.stage := rfl
@[simp] theorem magic2Passed_status (m : Word) (s : State) : (magic2Passed m s).status = .ok := rfl
@[simp] theorem magic2Passed_err (m : Word) (s : State) : (magic2Passed m s).err = s.err := rfl
@[simp] theorem magic2Passed_errSub (m : Word) (s : State) : (magic2Passed m s).errSub = s.errSub := rfl
@[simp] theorem magic2Passed_errExpected (m : Word) (s : State) : (magic2Passed m s).errExpected = s.errExpected := rfl
@[simp] theorem magic2Passed_errFound (m : Word) (s : State) : (magic2Passed m s).errFound = s.errFound := rfl
@[simp] theorem magic2Passed_errPos (m : Word) (s : State) : (magic2Passed m s).errPos = s.errPos := rfl
@[simp] theorem magic2Passed_result (m : Word) (s : State) : (magic2Passed m s).result = s.result := rfl
@[simp] theorem magic2Passed_bh (m : Word) (s : State) : (magic2Passed m s).bh = s.bh := rfl
@[simp] theorem magic2Passed_se (m : Word) (s : State) : (magic2Passed m s).se = s.se := rfl
@[simp] theorem magic2Passed_xl (m : Word) (s : State) : (magic2Passed m s).xl = s.xl := rfl
@[simp] theorem magic2Passed_recb (m : Word) (s : State) : (magic2Passed m s).recb = s.recb := rfl
@[simp] theorem magic2Passed_stream (m : Word) (s : State) : (magic2Passed m s).stream = s.stream := rfl
@[simp] theorem magic2Passed_sinkD (m : Word) (s : State) : (magic2Passed m s).sinkD = s.sinkD := rfl
@[simp] theorem magic2Passed_sinkR (m : Word) (s : State) : (magic2Passed m s).sinkR = s.sinkR := rfl
@[simp] theorem magic2Passed_openOk (m : Word) (s : State) : (magic2Passed m s).openOk = s.openOk := rfl
@[simp] theorem magic2Passed_closeOk (m : Word) (s : State) : (magic2Passed m s).closeOk = s.closeOk := rfl
@[simp] theorem magic2Passed_ioCause (m : Word) (s : State) : (magic2Passed m s).ioCause = s.ioCause := rfl
@[simp] theorem magic2Passed_todo (m : Word) (s : State) : (magic2Passed m s).todo = s.todo := rfl
@[simp] theorem magic2Passed_space (m : Word) (s : State) : (magic2Passed m s).space = s.space := rfl
@[simp] theorem magic2Passed_grp (m : Word) (s : State) : (magic2Passed m s).grp = s.grp := rfl
@[simp] theorem magic2Passed_dbuf (m : Word) (s : State) : (magic2Passed m s).dbuf = s.dbuf := rfl
@[simp] theorem magic2Passed_par (m : Word) (s : State) : (magic2Passed m s).par = s.par := rfl

@[simp] theorem entrySkip_pos (s : State) : (entrySkip s).pos = s.pos + lengthSum s.se.crlen s.se.cdlen := rfl
@[simp] theorem entrySkip_crc (s : State) : (entrySkip s).crc = s.crc := rfl
@[simp] theorem entrySkip_ring (s : State) : (entrySkip s).ring = s.ring := rfl
@[simp] theorem entrySkip_rptChar (s : State) : (entrySkip s).rptChar = s.rptChar := rfl
@[simp] theorem entrySkip_rptCnt (s : State) : (entrySkip s).rptCnt = s.rptCnt := rfl
@[simp] theorem entrySkip_lend (s : State) : (entrySkip s).lend = s.lend := rfl
@[simp] theorem entrySkip_eofsev (s : State) : (entrySkip s).eofsev = s.eofsev := rfl
@[simp] theorem entrySkip_buf (s : State) : (entrySkip s).buf = s.buf := rfl
@[simp] theorem entrySkip_bhValid (s : State) : (entrySkip s).bhValid = s.bhValid := rfl
@[simp] theorem entrySkip_saValid (s : State) : (entrySkip s).saValid = s.saValid := rfl
@[simp] theorem entrySkip_seValid (s : State) : (entrySkip s).seValid = true := rfl
@[simp] theorem entrySkip_mode (s : State) : (entrySkip s).mode = s.mode := rfl
@[simp] theorem entrySkip_stage (s : State) : (entrySkip s).stage = s.stage := rfl
@[simp] theorem entrySkip_status (s : State) : (entrySkip s).status = .ok := rfl
@[simp] theorem entrySkip_err (s : State) : (entrySkip s).err = s.err := rfl
@[simp] theorem entrySkip_errSub (s : State) : (entrySkip s).errSub = s.errSub := rfl
@[simp] theorem entrySkip_errExpected (s : State) : (entrySkip s).errExpected = s.errExpected := rfl
@[simp] theorem entrySkip_errFound (s : State) : (entrySkip s).errFound = s.errFound := rfl
@[simp] theorem entrySkip_errPos (s : State) : (entrySkip s).errPos = s.errPos := rfl
@[simp] theorem entrySkip_result (s : State) : (entrySkip s).result = s.result := rfl
@[simp] theorem entrySkip_bh (s : State) : (entrySkip s).bh = s.bh := rfl
@[simp] theorem entrySkip_sa (s : State) : (entrySkip s).sa = s.sa := rfl
@[simp] theorem entrySkip_se (s : State) : (entrySkip s).se = s.se := rfl
@[simp] theorem entrySkip_xl (s : State) : (entrySkip s).xl = s.xl := rfl
@[simp] theorem entrySkip_recb (s : State) : (entrySkip s).recb = s.recb := rfl
@[simp] theorem entrySkip_stream (s : State) : (entrySkip s).stream = s.stream := rfl
@[simp] theorem entrySkip_sinkD (s : State) : (entrySkip s).sinkD = s.sinkD := rfl
@[simp] theorem entrySkip_sinkR (s : State) : (entrySkip s).sinkR = s.sinkR := rfl
@[simp] theorem entrySkip_openOk (s : State) : (entrySkip s).openOk = s.openOk := rfl
@[simp] theorem entrySkip_closeOk (s : State) : (entrySkip s).closeOk = s.closeOk := rfl
@[simp] theorem entrySkip_ioCause (s : State) : (entrySkip s).ioCause = s.ioCause := rfl
@[simp] theorem entrySkip_todo (s : State) : (entrySkip s).todo = s.todo := rfl
@[simp] theorem entrySkip_space (s : State) : (entrySkip s).space = s.space := rfl
@[simp] theorem entrySkip_grp (s : State) : (entrySkip s).grp = s.grp := rfl
@[simp] theorem entrySkip_dbuf (s : State) : (entrySkip s).dbuf = s.dbuf := rfl
@[simp] theorem entrySkip_par (s : State) : (entrySkip s).par = s.par := rfl

@[simp] theorem entryStay_pos (s : State) : (entryStay s).pos = s.pos := rfl
@[simp] theorem entryStay_crc (s : State) : (entryStay s).crc = s.crc := rfl
@[simp] theorem entryStay_ring (s : State) : (entryStay s).ring = s.ring := rfl
@[simp] theorem entryStay_rptChar (s : State) : (entryStay s).rptChar = s.rptChar := rfl
@[simp] theorem entryStay_rptCnt (s : State) : (entryStay s).rptCnt = s.rptCnt := rfl
@[simp] theorem entryStay_lend (s : State) : (entryStay s).lend = s.lend := rfl
@[simp] theorem entryStay_eofsev (s : State) : (entryStay s).eofsev = s.eofsev := rfl
@[simp] theorem entryStay_buf (s : State) : (entryStay s).buf = s.buf := rfl
@[simp] theorem entryStay_bhValid (s : State) : (entryStay s).bhValid = s.bhValid := rfl
@[simp] theorem entryStay_saValid (s : State) : (entryStay s).saValid = s.saValid := rfl
@[simp] theorem entryStay_seValid (s : State) : (entryStay s).seValid = true := rfl
@[simp] theorem entryStay_mode (s : State) : (entryStay s).mode = s.mode := rfl
@[simp] theorem entryStay_stage (s : State) : (entryStay s).stage = s.stage := rfl
@[simp] theorem entryStay_status (s : State) : (entryStay s).status = .ok := rfl
@[simp] theorem entryStay_err (s : State) : (entryStay s).err = s.err := rfl
@[simp] theorem entryStay_errSub (s : State) : (entryStay s).errSub = s.errSub := rfl
@[simp] theorem entryStay_errExpected (s : State) : (entryStay s).errExpected = s.errExpected := rfl
@[simp] theorem entryStay_errFound (s : State) : (entryStay s).errFound = s.errFound := rfl
@[simp] theorem entryStay_errPos (s : State) : (entryStay s).errPos = s.errPos := rfl
@[simp] theorem entryStay_result (s : State) : (entryStay s).result = s.result := rfl
@[simp] theorem entryStay_bh (s : State) : (entryStay s).bh = s.bh := rfl
@[simp] theorem entryStay_sa (s : State) : (entryStay s).sa = s.sa := rfl
@[simp] theorem entryStay_se (s : State) : (entryStay s).se = s.se := rfl
@[simp] theorem entryStay_xl (s : State) : (entryStay s).xl = s.xl := rfl
@[simp] theorem entryStay_recb (s : State) : (entryStay s).recb = s.recb := rfl
@[simp] theorem entryStay_stream (s : State) : (entryStay s).stream = s.stream := rfl
@[simp] theorem entryStay_sinkD (s : State) : (entryStay s).sinkD = s.sinkD := rfl
@[simp] theorem entryStay_sinkR (s : State) : (entryStay s).sinkR = s.sinkR := rfl
@[simp] theorem entryStay_openOk (s : State) : (entryStay s).openOk = s.openOk := rfl
@[simp] theorem entryStay_closeOk (s : State) : (entryStay s).closeOk = s.closeOk := rfl
@[simp] theorem entryStay_ioCause (s : State) : (entryStay s).ioCause = s.ioCause := rfl
@[simp] theorem entryStay_todo (s : State) : (entryStay s).todo = s.todo := rfl
@[simp] theorem entryStay_space (s : State) : (entryStay s).space = s.space := rfl
@[simp] theorem entryStay_grp (s : State) : (entryStay s).grp = s.grp := rfl
@[simp] theorem entryStay_dbuf (s : State) : (entryStay s).dbuf = s.dbuf := rfl
@[simp] theorem entryStay_par (s : State) : (entryStay s).par = s.par := rfl

@[simp] theorem answer_pos (r : Pos) (s : State) : (answer r s).pos = s.pos := rfl
@[simp] theorem answer_crc (r : Pos) (s : State) : (answer r s).crc = s.crc := rfl
@[simp] theorem answer_ring (r : Pos) (s : State) : (answer r s).ring = s.ring := rfl
@[simp] theorem answer_rptChar (r : Pos) (s : State) : (answer r s).rptChar = s.rptChar := rfl
@[simp] theorem answer_rptCnt (r : Pos) (s : State) : (answer r s).rptCnt = s.rptCnt := rfl
@[simp] theorem answer_lend (r : Pos) (s : State) : (answer r s).lend = s.lend := rfl
@[simp] theorem answer_eofsev (r : Pos) (s : State) : (answer r s).eofsev = s.eofsev := rfl
@[simp] theorem answer_buf (r : Pos) (s : State) : (answer r s).buf = s.buf := rfl
@[simp] theorem answer_bhValid (r : Pos) (s : State) : (answer r s).bhValid = s.bhValid := rfl
@[simp] theorem answer_saValid (r : Pos) (s : State) : (answer r s).saValid = s.saValid := rfl
@[simp] theorem answer_seValid (r : Pos) (s : State) : (answer r s).seValid = s.seValid := rfl
@[simp] theorem answer_mode (r : Pos) (s : State) : (answer r s).mode = s.mode := rfl
@[simp] theorem answer_stage (r : Pos) (s : State) : (answer r s).stage = s.stage := rfl
@[simp] theorem answer_status (r : Pos) (s : State) : (answer r s).status = .ok := rfl
@[simp] theorem answer_err (r : Pos) (s : State) : (answer r s).err = s.err := rfl
@[simp] theorem answer_errSub (r : Pos) (s : State) : (answer r s).errSub = s.errSub := rfl
@[simp] theorem answer_errExpected (r : Pos) (s : State) : (answer r s).errExpected = s.errExpected := rfl
@[simp] theorem answer_errFound (r : Pos) (s : State) : (answer r s).errFound = s.errFound := rfl
@[simp] theorem answer_errPos (r : Pos) (s : State) : (answer r s).errPos = s.errPos := rfl
@[simp] theorem answer_result (r : Pos) (s : State) : (answer r s).result = r := rfl
@[simp] theorem answer_bh (r : Pos) (s : State) : (answer r s).bh = s.bh := rfl
@[simp] theorem answer_sa (r : Pos) (s : State) : (answer r s).sa = s.sa := rfl
@[simp] theorem answer_se (r : Pos) (s : State) : (answer r s).se = s.se := rfl
@[simp] theorem answer_xl (r : Pos) (s : State) : (answer r s).xl = s.xl := rfl
@[simp] theorem answer_recb (r : Pos) (s : State) : (answer r s).recb = s.recb := rfl
@[simp] theorem answer_stream (r : Pos) (s : State) : (answer r s).stream = s.stream := rfl
@[simp] theorem answer_sinkD (r : Pos) (s : State) : (answer r s).sinkD = s.sinkD := rfl
@[simp] theorem answer_sinkR (r : Pos) (s : State) : (answer r s).sinkR = s.sinkR := rfl
@[simp] theorem answer_openOk (r : Pos) (s : State) : (answer r s).openOk = s.openOk := rfl
@[simp] theorem answer_closeOk (r : Pos) (s : State) : (answer r s).closeOk = s.closeOk := rfl
@[simp] theorem answer_ioCause (r : Pos) (s : State) : (answer r s).ioCause = s.ioCause := rfl
@[simp] theorem answer_todo (r : Pos) (s : State) : (answer r s).todo = s.todo := rfl
@[simp] theorem answer_space (r : Pos) (s : State) : (answer r s).space = s.space := rfl
@[simp] theorem answer_grp (r : Pos) (s : State) : (answer r s).grp = s.grp := rfl
@[simp] theorem answer_dbuf (r : Pos) (s : State) : (answer r s).dbuf = s.dbuf := rfl
@[simp] theorem answer_par (r : Pos) (s : State) : (answer r s).par = s.par := rfl

@[simp] theorem loadReset_pos (s : State) : (loadReset s).pos = 0 := rfl
@[simp] theorem loadReset_crc (s : State) : (loadReset s).crc = 0 := rfl
@[simp] theorem loadReset_ring (s : State) : (loadReset s).ring = ringReset := rfl
@[simp] theorem loadReset_rptChar (s : State) : (loadReset s).rptChar = 0 := rfl
@[simp] theorem loadReset_rptCnt (s : State) : (loadReset s).rptCnt = 0 := rfl
@[simp] theorem loadReset_lend (s : State) : (loadReset s).lend = false := rfl
@[simp] theorem loadReset_eofsev (s : State) : (loadReset s).eofsev = 0 := rfl
@[simp] theorem loadReset_buf (s : State) : (loadReset s).buf = bufReset := rfl
@[simp] theorem loadReset_bhValid (s : State) : (loadReset s).bhValid = false := rfl
@[simp] theorem loadReset_saValid (s : State) : (loadReset s).saValid = false := rfl
@[simp] theorem loadReset_seValid (s : State) : (loadReset s).seValid = false := rfl
@[simp] theorem loadReset_mode (s : State) : (loadReset s).mode = .closed := rfl
@[simp] theorem loadReset_stage (s : State) : (loadReset s).stage = .searching := rfl
@[simp] theorem loadReset_status (s : State) : (loadReset s).status = .ok := rfl
@[simp] theorem loadReset_err (s : State) : (loadReset s).err = none := rfl
@[simp] theorem loadReset_errSub (s : State) : (loadReset s).errSub = none := rfl
@[simp] theorem loadReset_errExpected (s : State) : (loadReset s).errExpected = 0 := rfl
@[simp] theorem loadReset_errFound (s : State) : (loadReset s).errFound = 0 := rfl
@[simp] theorem loadReset_errPos (s : State) : (loadReset s).errPos = 0 := rfl
@[simp] theorem loadReset_result (s : State) : (loadReset s).result = 0 := rfl
@[simp] theorem loadReset_bh (s : State) : (loadReset s).bh = bhReset := rfl
@[simp] theorem loadReset_sa (s : State) : (loadReset s).sa = saReset := rfl
@[simp] theorem loadReset_se (s : State) : (loadReset s).se = seReset := rfl
@[simp] theorem loadReset_xl (s : State) : (loadReset s).xl = s.xl := rfl
@[simp] theorem loadReset_recb (s : State) : (loadReset s).recb = List.replicate sitEntSize 0 := rfl
@[simp] theorem loadReset_stream (s : State) : (loadReset s).stream = s.stream := rfl
@[simp] theorem loadReset_sinkD (s : State) : (loadReset s).sinkD = [] := rfl
@[simp] theorem loadReset_sinkR (s : State) : (loadReset s).sinkR = [] := rfl
@[simp] theorem loadReset_openOk (s : State) : (loadReset s).openOk = s.openOk := rfl
@[simp] theorem loadReset_closeOk (s : State) : (loadReset s).closeOk = s.closeOk := rfl
@[simp] theorem loadReset_ioCause (s : State) : (loadReset s).ioCause = s.ioCause := rfl
@[simp] theorem loadReset_todo (s : State) : (loadReset s).todo = s.todo := rfl
@[simp] theorem loadReset_space (s : State) : (loadReset s).space = s.space := rfl
@[simp] theorem loadReset_grp (s : State) : (loadReset s).grp = [] := rfl
@[simp] theorem loadReset_dbuf (s : State) : (loadReset s).dbuf = [] := rfl
@[simp] theorem loadReset_par (s : State) : (loadReset s).par = s.par := rfl

@[simp] theorem resetEvent_pos (s : State) : (resetEvent s).pos = 0 := rfl
@[simp] theorem resetEvent_crc (s : State) : (resetEvent s).crc = 0 := rfl
@[simp] theorem resetEvent_ring (s : State) : (resetEvent s).ring = ringReset := rfl
@[simp] theorem resetEvent_rptChar (s : State) : (resetEvent s).rptChar = 0 := rfl
@[simp] theorem resetEvent_rptCnt (s : State) : (resetEvent s).rptCnt = 0 := rfl
@[simp] theorem resetEvent_lend (s : State) : (resetEvent s).lend = false := rfl
@[simp] theorem resetEvent_eofsev (s : State) : (resetEvent s).eofsev = 0 := rfl
@[simp] theorem resetEvent_buf (s : State) : (resetEvent s).buf = bufReset := rfl
@[simp] theorem resetEvent_bhValid (s : State) : (resetEvent s).bhValid = false := rfl
@[simp] theorem resetEvent_saValid (s : State) : (resetEvent s).saValid = false := rfl
@[simp] theorem resetEvent_seValid (s : State) : (resetEvent s).seValid = false := rfl
@[simp] theorem resetEvent_mode (s : State) : (resetEvent s).mode = .closed := rfl
@[simp] theorem resetEvent_stage (s : State) : (resetEvent s).stage = .searching := rfl
@[simp] theorem resetEvent_status (s : State) : (resetEvent s).status = .ok := rfl
@[simp] theorem resetEvent_err (s : State) : (resetEvent s).err = none := rfl
@[simp] theorem resetEvent_errSub (s : State) : (resetEvent s).errSub = none := rfl
@[simp] theorem resetEvent_errExpected (s : State) : (resetEvent s).errExpected = 0 := rfl
@[simp] theorem resetEvent_errFound (s : State) : (resetEvent s).errFound = 0 := rfl
@[simp] theorem resetEvent_errPos (s : State) : (resetEvent s).errPos = 0 := rfl
@[simp] theorem resetEvent_result (s : State) : (resetEvent s).result = 0 := rfl
@[simp] theorem resetEvent_bh (s : State) : (resetEvent s).bh = bhReset := rfl
@[simp] theorem resetEvent_sa (s : State) : (resetEvent s).sa = saReset := rfl
@[simp] theorem resetEvent_se (s : State) : (resetEvent s).se = seReset := rfl
@[simp] theorem resetEvent_xl (s : State) : (resetEvent s).xl = xlReset := rfl
@[simp] theorem resetEvent_recb (s : State) : (resetEvent s).recb = List.replicate sitEntSize 0 := rfl
@[simp] theorem resetEvent_stream (s : State) : (resetEvent s).stream = s.stream := rfl
@[simp] theorem resetEvent_sinkD (s : State) : (resetEvent s).sinkD = s.sinkD := rfl
@[simp] theorem resetEvent_sinkR (s : State) : (resetEvent s).sinkR = s.sinkR := rfl
@[simp] theorem resetEvent_openOk (s : State) : (resetEvent s).openOk = s.openOk := rfl
@[simp] theorem resetEvent_closeOk (s : State) : (resetEvent s).closeOk = s.closeOk := rfl
@[simp] theorem resetEvent_ioCause (s : State) : (resetEvent s).ioCause = s.ioCause := rfl
@[simp] theorem resetEvent_todo (s : State) : (resetEvent s).todo = s.todo := rfl
@[simp] theorem resetEvent_space (s : State) : (resetEvent s).space = .command := rfl
@[simp] theorem resetEvent_grp (s : State) : (resetEvent s).grp = [] := rfl
@[simp] theorem resetEvent_dbuf (s : State) : (resetEvent s).dbuf = [] := rfl
@[simp] theorem resetEvent_par (s : State) : (resetEvent s).par = s.par := rfl

@[simp] theorem skipChar_eq (s : State) : skipChar s = s := rfl

@[simp] theorem appendSink_data_sinkD (v : Byte) (s : State) : (appendSink .data v s).sinkD = s.sinkD ++ [v] := rfl
@[simp] theorem appendSink_data_sinkR (v : Byte) (s : State) : (appendSink .data v s).sinkR = s.sinkR := rfl
@[simp] theorem appendSink_rsrc_sinkD (v : Byte) (s : State) : (appendSink .rsrc v s).sinkD = s.sinkD := rfl
@[simp] theorem appendSink_rsrc_sinkR (v : Byte) (s : State) : (appendSink .rsrc v s).sinkR = s.sinkR ++ [v] := rfl

@[simp] theorem forkDone_data_stage (h : Half) (s : State) : (forkDone .data h s).stage = .forkRsrc := rfl
@[simp] theorem forkDone_rsrc_stage (h : Half) (s : State) : (forkDone .rsrc h s).stage = .done := rfl
@[simp] theorem forkDone_data_bh (h : Half) (s : State) : (forkDone .data h s).bh = { s.bh with dcrc := h } := rfl
@[simp] theorem forkDone_rsrc_bh (h : Half) (s : State) : (forkDone .rsrc h s).bh = { s.bh with rcrc := h } := rfl
@[simp] theorem magic2Passed_sa (m : Word) (s : State) : (magic2Passed m s).sa =
    { magic1 := m, count := field16 s.recb 4, len := field32 s.recb 6, magic2 := magic2Value,
      ver := field8 s.recb s.par.verOff } := rfl

end Sys2Proof.Machine
end

