-- ==== Sys2Proof/Laws/Memory.lean ====
section
/-! SUPPORT. The stream as cells: what a read gives after a write, and that every operation keeps the canonical form. -/

namespace Sys2Proof.Machine

theorem Memory.read_write_same (m : List Host.Cell) (a : Nat) (b : Byte) :
    Memory.read (Memory.write m a b) a = some b := by
  induction m with
  | nil => simp [Memory.write, Memory.read]
  | cons c r ih =>
    obtain ⟨k, d⟩ := c
    simp only [Memory.write]
    split
    · simp [Memory.read]
    · split
      · simp [Memory.read]
      · rename_i h1 h2
        have : k ≠ a := fun h => h2 h.symm
        simp [Memory.read, this, ih]

theorem Memory.read_write_other (m : List Host.Cell) (a a' : Nat) (b : Byte) (h : a' ≠ a) :
    Memory.read (Memory.write m a b) a' = Memory.read m a' := by
  induction m with
  | nil => simp [Memory.write, Memory.read, Ne.symm h]
  | cons c r ih =>
    obtain ⟨k, d⟩ := c
    simp only [Memory.write]
    split
    · simp [Memory.read, Ne.symm h]
    · split
      · rename_i h1 h2
        subst h2
        simp [Memory.read, Ne.symm h]
      · simp only [Memory.read, ih]

theorem Memory.risingFrom_write (m : List Host.Cell) (lo a : Nat) (b : Byte) (h : Memory.risingFrom lo m = true)
    (ha : lo ≤ a) : Memory.risingFrom lo (Memory.write m a b) = true := by
  induction m generalizing lo with
  | nil => simp [Memory.write, Memory.risingFrom, ha]
  | cons c r ih =>
    obtain ⟨k, d⟩ := c
    simp only [Memory.risingFrom, Bool.and_eq_true, decide_eq_true_eq] at h
    simp only [Memory.write]
    split
    · simp only [Memory.risingFrom, Bool.and_eq_true, decide_eq_true_eq]
      exact ⟨ha, by omega, h.2⟩
    · split
      · rename_i h1 h2
        subst h2
        simp only [Memory.risingFrom, Bool.and_eq_true, decide_eq_true_eq]
        exact h
      · simp only [Memory.risingFrom, Bool.and_eq_true, decide_eq_true_eq]
        exact ⟨h.1, ih (k + 1) h.2 (by omega)⟩

/-- A write keeps the canonical form. -/
theorem Memory.wf_write (m : List Host.Cell) (a : Nat) (b : Byte) (h : Memory.wf m = true) :
    Memory.wf (Memory.write m a b) = true := Memory.risingFrom_write m 0 a b h (Nat.zero_le a)

/-- A run of writes keeps the canonical form. -/
theorem Memory.wf_writes (m : List Host.Cell) (a : Nat) (bs : List Byte) (h : Memory.wf m = true) :
    Memory.wf (Memory.writes m a bs) = true := by
  induction bs generalizing m a with
  | nil => exact h
  | cons b r ih => exact ih _ _ (Memory.wf_write m a b h)

theorem Memory.risingFrom_ofBytesFrom (bs : List Byte) (lo a : Nat) (h : lo ≤ a) :
    Memory.risingFrom lo (Memory.ofBytesFrom a bs) = true := by
  induction bs generalizing lo a with
  | nil => rfl
  | cons b r ih =>
    simp only [Memory.ofBytesFrom, Memory.risingFrom, Bool.and_eq_true, decide_eq_true_eq]
    exact ⟨h, ih _ _ (Nat.le_refl _)⟩

/-- The cells of a byte sequence are in the canonical form. -/
theorem Memory.wf_ofBytes (bs : List Byte) : Memory.wf (Memory.ofBytes bs) = true :=
  Memory.risingFrom_ofBytesFrom bs 0 0 (Nat.le_refl 0)

theorem Memory.reset_wf : Memory.wf State.reset.stream = true := rfl

theorem Memory.read_ofBytesFrom_below (bs : List Byte) (a i : Nat) (h : i < a) :
    Memory.read (Memory.ofBytesFrom a bs) i = none := by
  induction bs generalizing a with
  | nil => rfl
  | cons b r ih =>
    have : a ≠ i := by omega
    simp [Memory.ofBytesFrom, Memory.read, this, ih (a + 1) (by omega)]

theorem Memory.read_ofBytesFrom (bs : List Byte) (a i : Nat) :
    Memory.read (Memory.ofBytesFrom a bs) (a + i) = bs[i]? := by
  induction bs generalizing a i with
  | nil => rfl
  | cons b r ih =>
    cases i with
    | zero => simp [Memory.ofBytesFrom, Memory.read]
    | succ i =>
      have : a ≠ a + (i + 1) := by omega
      simp only [Memory.ofBytesFrom, Memory.read, this, if_false, List.getElem?_cons_succ]
      rw [← ih (a + 1) i]
      congr 1
      omega

/-- Reading the stream of a byte sequence gives its bytes, and none at its end and beyond (20_memory.md R72). -/
theorem Memory.read_ofBytes (bs : List Byte) (i : Nat) : Memory.read (Memory.ofBytes bs) i = bs[i]? := by
  have := Memory.read_ofBytesFrom bs 0 i
  simpa [Memory.ofBytes] using this

theorem Memory.map_ofBytesFrom (bs : List Byte) (a : Nat) : (Memory.ofBytesFrom a bs).map Prod.snd = bs := by
  induction bs generalizing a with
  | nil => rfl
  | cons b r ih => simp [Memory.ofBytesFrom, ih]

theorem Memory.map_ofBytes (bs : List Byte) : (Memory.ofBytes bs).map Prod.snd = bs := Memory.map_ofBytesFrom bs 0

theorem Memory.length_ofBytes (bs : List Byte) : (Memory.ofBytes bs).length = bs.length := by
  have := congrArg List.length (Memory.map_ofBytes bs)
  simpa using this

/-- A stream that is a sequence is read at every offset as the sequence is. -/
theorem read_of_streamOk {s : State} (h : streamOk s) (i : Nat) :
    Memory.read s.stream i = (s.stream.map Prod.snd)[i]? := by
  have h1 := Memory.read_ofBytes (s.stream.map Prod.snd) i
  rw [← h.1] at h1
  exact h1

theorem read_none_of_streamOk {s : State} (h : streamOk s) (i : Nat) :
    Memory.read s.stream i = none ↔ slen s ≤ i := by
  rw [read_of_streamOk h]
  simp

/-- `readRun` gives at most `n` bytes (20_memory.md R73). -/
theorem readRun_length_le (m : List Host.Cell) (n : Nat) (a : Pos) : (readRun m n a).length ≤ n := by
  induction n generalizing a with
  | zero => simp [readRun]
  | succ n ih =>
    simp only [readRun]
    split
    · simp
    · simpa using ih (a + 1)

/-- Of a stream that is a sequence, `readRun` gives the bytes from the offset on, as many as there are up to `n`
(46_stuffit_records.md R211). -/
theorem readRun_of_streamOk {s : State} (h : streamOk s) (n : Nat) (a : Pos) (ha : a.toNat ≤ 2 ^ 63) (hn : n < 2 ^ 62) :
    readRun s.stream n a = ((s.stream.map Prod.snd).drop a.toNat).take n := by
  induction n generalizing a with
  | zero => simp [readRun]
  | succ n ih =>
    simp only [readRun, read_of_streamOk h]
    cases hc : (s.stream.map Prod.snd)[a.toNat]? with
    | none =>
      have hle : (s.stream.map Prod.snd).length ≤ a.toNat := by simpa using hc
      simp only [List.drop_eq_nil_of_le hle, List.take_nil]
    | some b =>
      have hlt := (List.getElem?_eq_some_iff.mp hc).1
      have hlen : slen s < 2 ^ 63 := h.2
      have hlt' : a.toNat < slen s := by simpa using hlt
      have e1 : (a + 1 : Pos).toNat = a.toNat + 1 := by
        rw [BitVec.toNat_add]
        have : ((1 : Pos)).toNat = 1 := rfl
        omega
      have hb : (s.stream.map Prod.snd)[a.toNat] = b := (List.getElem?_eq_some_iff.mp hc).2
      simp only [ih (a + 1) (by omega) (by omega), e1]
      rw [List.drop_eq_getElem_cons hlt, List.take_succ_cons, hb]

end Sys2Proof.Machine
end

