-- ==== Sys2Proof/Laws/Res.lean ====
section
/-! SUPPORT. Sequencing of micro-operations, and what an answer of one meets: one predicate for the answer that goes on, one
for the state in which a `raise` ended the command. -/

namespace Sys2Proof.Machine

@[simp] theorem Res.bind_ok {α β : Type} (a : α) (s : State) (f : α → State → Res β) : (Res.ok a s).bind f = f a s := rfl

@[simp] theorem Res.bind_stop {α β : Type} (s : State) (f : α → State → Res β) : (Res.stop s).bind f = .stop s := rfl

theorem Res.bind_assoc {α β γ : Type} (r : Res α) (f : α → State → Res β) (g : β → State → Res γ) :
    (r.bind f).bind g = r.bind fun a s => (f a s).bind g := by
  cases r <;> rfl

/-- A sequence that goes on went on at each of its two parts. -/
theorem Res.bind_eq_ok {α β : Type} {r : Res α} {f : α → State → Res β} {b : β} {t : State} :
    r.bind f = .ok b t ↔ ∃ a s, r = .ok a s ∧ f a s = .ok b t := by
  cases r with
  | ok a s =>
    constructor
    · intro h; exact ⟨a, s, rfl, h⟩
    · rintro ⟨a', s', h, h'⟩; cases h; exact h'
  | stop s =>
    constructor
    · intro h; cases h
    · rintro ⟨_, _, h, _⟩; cases h

/-- A sequence that stops stopped in its first part or in its second. -/
theorem Res.bind_eq_stop {α β : Type} {r : Res α} {f : α → State → Res β} {t : State} :
    r.bind f = .stop t ↔ r = .stop t ∨ ∃ a s, r = .ok a s ∧ f a s = .stop t := by
  cases r with
  | ok a s =>
    constructor
    · intro h; exact .inr ⟨a, s, rfl, h⟩
    · rintro (h | ⟨a', s', h, h'⟩)
      · cases h
      · cases h; exact h'
  | stop s =>
    constructor
    · intro h; cases h; exact .inl rfl
    · rintro (h | ⟨_, _, h, _⟩)
      · cases h; rfl
      · cases h

@[simp] theorem raise_eq {α : Type} (c : Cause) (e f : Word) (s : State) :
    (raise c e f s : Res α) = .stop (fatal c e f s) := rfl

@[simp] theorem finish_ok {α : Type} (a : α) (s : State) : finish (.ok a s) = .next s := rfl

@[simp] theorem finish_stop {α : Type} (s : State) : finish (.stop s : Res α) = .next s := rfl

/-- What a command's or symbol's end answers is a next state. -/
theorem finish_next {α : Type} (r : Res α) : ∃ t, finish r = .next t := by
  cases r <;> exact ⟨_, rfl⟩

/-- `P` of the value and the state if the operation goes on, `Q` of the state if it stops. -/
def Res.meets {α : Type} (P : α → State → Prop) (Q : State → Prop) : Res α → Prop
  | .ok a s => P a s
  | .stop s => Q s

@[simp] theorem Res.meets_ok {α : Type} (P : α → State → Prop) (Q : State → Prop) (a : α) (s : State) :
    (Res.ok a s).meets P Q = P a s := rfl

@[simp] theorem Res.meets_stop {α : Type} (P : α → State → Prop) (Q : State → Prop) (s : State) :
    (Res.stop s : Res α).meets P Q = Q s := rfl

theorem Res.meets_bind {α β : Type} {r : Res α} {f : α → State → Res β} {P' : α → State → Prop} {P : β → State → Prop}
    {Q : State → Prop} (h : r.meets P' Q) (hf : ∀ a s, P' a s → (f a s).meets P Q) : (r.bind f).meets P Q := by
  cases r with
  | ok a s => exact hf a s h
  | stop s => exact h

theorem Res.meets_mono {α : Type} {r : Res α} {P P' : α → State → Prop} {Q Q' : State → Prop} (h : r.meets P Q)
    (hP : ∀ a s, P a s → P' a s) (hQ : ∀ s, Q s → Q' s) : r.meets P' Q' := by
  cases r with
  | ok a s => exact hP a s h
  | stop s => exact hQ s h

theorem Res.meets_and {α : Type} {r : Res α} {P P' : α → State → Prop} {Q Q' : State → Prop} (h : r.meets P Q)
    (h' : r.meets P' Q') : r.meets (fun a s => P a s ∧ P' a s) (fun s => Q s ∧ Q' s) := by
  cases r with
  | ok a s => exact ⟨h, h'⟩
  | stop s => exact ⟨h, h'⟩

/-- `t` is a state in which one of the causes `cs` was raised from a state that meets `K`. -/
def raisedFrom (cs : List Cause) (K : State → Prop) (t : State) : Prop :=
  ∃ c e f u, t = fatal c e f u ∧ K u ∧ c ∈ cs

theorem raisedFrom_mono {cs cs' : List Cause} {K K' : State → Prop} {t : State} (h : raisedFrom cs K t)
    (hc : ∀ c ∈ cs, c ∈ cs') (hK : ∀ u, K u → K' u) : raisedFrom cs' K' t := by
  obtain ⟨c, e, f, u, h1, h2, h3⟩ := h
  exact ⟨c, e, f, u, h1, hK u h2, hc c h3⟩

end Sys2Proof.Machine
end

