-- ==== Sys2Proof/Laws/Stack.lean ====
section
/-! SUPPORT. What each layer of the decode stack (41_stream_locate.md R150) can do: which fields it can change, which causes
it can raise, and what it keeps. -/

namespace Sys2Proof.Machine

/-- `RAWGET_BUFFERED` (41_stream_locate.md R152), case by case. -/
theorem rawget_eq (s : State) : rawget s =
    if s.buf.idx = s.buf.fill then
      if s.buf.eof = true then (none, s)
      else if (refill s).buf.fill = 0 then (none, refill s) else takeBuf (refill s)
    else takeBuf s := rfl

/-- `RAWGET` changes only POS and the read buffer (41_stream_locate.md R151, R152). -/
theorem rawget_frame (s : State) : (rawget s).2 = { s with pos := (rawget s).2.pos, buf := (rawget s).2.buf } := by
  rw [rawget_eq]
  repeat' split
  all_goals rfl

/-- POS moves by one for a byte and stays at the end of the stream (41_stream_locate.md R151). -/
theorem rawget_pos (s : State) : (rawget s).2.pos = if (rawget s).1.isSome then s.pos + 1 else s.pos := by
  rw [rawget_eq]
  split
  · split
    · rfl
    · split <;> rfl
  · rfl

/-- The sizes and bounds of the read buffer (10_state.md R56). -/
abbrev bufWf (s : State) : Prop :=
  s.buf.bytes.length = 1024 ∧ s.buf.idx.toNat ≤ s.buf.fill.toNat ∧ s.buf.fill.toNat ≤ 1024

theorem overlay_length (buf bs : List Byte) (h : bs.length ≤ buf.length) : (overlay buf 0 bs).length = buf.length := by
  simp [overlay]
  omega

theorem refill_bufWf (s : State) (h : bufWf s) : bufWf (refill s) := by
  have hl := readRun_length_le s.stream rbufSize s.buf.fpos
  have hr : rbufSize = 1024 := rfl
  refine ⟨?_, ?_, ?_⟩
  · have : (refill s).buf.bytes = overlay s.buf.bytes 0 (readRun s.stream rbufSize s.buf.fpos) := rfl
    rw [this, overlay_length _ _ (by have := h.1; omega)]
    exact h.1
  · simp [refill]
  · simp only [refill, BitVec.toNat_ofNat]
    omega

theorem takeBuf_bufWf (s : State) (h : bufWf s) (hne : s.buf.idx ≠ s.buf.fill) : bufWf (takeBuf s).2 := by
  obtain ⟨h1, h2, h3⟩ := h
  have hne' : s.buf.idx.toNat ≠ s.buf.fill.toNat := fun h => hne (BitVec.eq_of_toNat_eq h)
  refine ⟨h1, ?_, h3⟩
  simp only [takeBuf_buf, BitVec.toNat_add]
  have : (1 : BitVec 11).toNat = 1 := rfl
  omega

theorem rawget_bufWf (s : State) (h : bufWf s) : bufWf (rawget s).2 := by
  rw [rawget_eq]
  split
  · split
    · exact h
    · split
      · exact refill_bufWf s h
      · rename_i hne
        refine takeBuf_bufWf _ (refill_bufWf s h) fun he => hne ?_
        rw [← he]; rfl
  · rename_i hne
    exact takeBuf_bufWf s h hne

/-- A predicate that the character layer and the ring keep: `RAWGET` keeps it, and it does not look at the ring, its flags
and the latch. -/
structure DecodeClosed (K : State → Prop) : Prop where
  raw : ∀ s, K s → K (rawget s).2
  free : ∀ s t : State, K s → t = { s with ring := t.ring, lend := t.lend, eofsev := t.eofsev, grp := t.grp } → K t

/-- One that every layer of the decode stack keeps: it does not look at the run-length registers and the CRC either, and
does not mind that a delivered byte is taken. -/
structure StackClosed (K : State → Prop) : Prop extends DecodeClosed K where
  upper : ∀ s t : State, K s → t = { s with crc := t.crc, rptChar := t.rptChar, rptCnt := t.rptCnt } → K t
  taken : ∀ s b r, K s → s.dbuf = b :: r → K { s with dbuf := r }

/-- `SEXTET` (42_sextet_unpacker.md R161) keeps what `RAWGET` keeps, and raises `BAD_CHAR` only. -/
theorem sextet_keeps {K : State → Prop} (hraw : ∀ s, K s → K (rawget s).2) (n : Nat) (s : State) (h : K s) :
    (sextet n s).meets (fun _ t => K t) (raisedFrom [.badChar] K) := by
  induction n generalizing s with
  | zero => exact h
  | succ n ih =>
    have hr := hraw s h
    simp only [sextet]
    generalize rawget s = p at hr ⊢
    obtain ⟨o, u⟩ := p
    cases o with
    | none => exact hr
    | some c =>
      simp only
      split
      · exact hr
      · exact ih _ hr
      · exact hr
      · exact ⟨_, _, _, _, rfl, hr, by simp⟩

/-- The loop of `FILLRING` (42_sextet_unpacker.md R163) keeps what `RAWGET` keeps, if it does not look at the sextets read
so far; it ends with four sextets or by setting LEND, and a `raise` in it finds LEND as it was. -/
theorem collect_keeps {K : State → Prop} (hraw : ∀ s, K s → K (rawget s).2) (hgrp : ∀ s g, K s → K { s with grp := g })
    (n : Nat) (s : State) (h : K s) :
    (collect n s).meets (fun _ t => K t ∨ ∃ u, K u ∧ t = termChar u) (raisedFrom [.badChar] K) := by
  induction n generalizing s with
  | zero => exact .inl h
  | succ n ih =>
    refine Res.meets_bind (sextet_keeps hraw _ s h) fun r t ht => ?_
    cases r with
    | none => exact .inr ⟨t, ht, rfl⟩
    | some v => exact ih _ (hgrp t _ ht)

theorem fillring_keeps {K : State → Prop} (hK : DecodeClosed K) (s : State) (h : K s) :
    (fillring s).meets (fun _ t => K t) (raisedFrom [.badChar] K) := by
  refine Res.meets_bind (collect_keeps hK.raw (fun u _ hu => hK.free u _ hu rfl) 4 _ (hK.free s _ h rfl)) fun _ t ht => ?_
  rcases ht with ht | ⟨u, hu, rfl⟩
  · exact hK.free t _ ht rfl
  · exact hK.free u _ hu rfl

theorem takeRing_keeps {K : State → Prop} (hK : DecodeClosed K) (s : State) (h : K s) (Q : State → Prop) :
    (takeRing s).meets (fun _ t => K t) Q := hK.free s _ h rfl

theorem rawbyte_keeps {K : State → Prop} (hK : DecodeClosed K) (s : State) (h : K s) :
    (rawbyte s).meets (fun _ t => K t) (raisedFrom [.badChar, .streamEnd] K) := by
  unfold rawbyte
  split
  · split
    · exact ⟨_, _, _, _, rfl, h, by simp⟩
    · refine Res.meets_bind
        (Res.meets_mono (fillring_keeps hK s h) (fun _ _ h => h) fun t ht => raisedFrom_mono ht (by simp) fun _ h => h)
        fun _ t ht => ?_
      split
      · exact ⟨_, _, _, _, rfl, ht, by simp⟩
      · exact takeRing_keeps hK t ht _
  · exact takeRing_keeps hK s h _

/-- A predicate `K` that everything from `RAWBYTE` up keeps, `K'` standing where a `raise` ended the command: what it must
allow of the ring's layer as a whole, and of each register the layers above write. -/
structure RawClosed (K K' : State → Prop) : Prop where
  raw : ∀ s, K s → (rawbyte s).meets (fun _ t => K t) (raisedFrom [.badChar, .streamEnd] K')
  le : ∀ s, K s → K' s
  char : ∀ s b, K s → K { s with rptChar := b }
  count : ∀ s n, K s → -1 ≤ n.toInt → n.toInt ≤ 253 → K { s with rptCnt := n }
  copy : ∀ s, K s → copiesPending s.rptCnt = true → K { s with rptCnt := s.rptCnt - 1 }
  crc : ∀ s c, K s → K { s with crc := c }
  taken : ∀ s b r, K s → s.dbuf = b :: r → K { s with dbuf := r }

/-- A predicate that does not look at the registers of the stack is one of those. -/
theorem StackClosed.rawClosed {K : State → Prop} (hK : StackClosed K) : RawClosed K K where
  raw := rawbyte_keeps hK.toDecodeClosed
  le _ h := h
  char s _ h := hK.upper s _ h rfl
  count s _ h _ _ := hK.upper s _ h rfl
  copy s h _ := hK.upper s _ h rfl
  crc s _ h := hK.upper s _ h rfl
  taken := hK.taken

/-- The counter a run starts with (43_run_length.md R176). -/
theorem run_count (n : Byte) (h : 2 ≤ n.toNat) : (BitVec.ofInt 16 ((n.toNat : Int) - 2)).toInt = (n.toNat : Int) - 2 := by
  have := n.isLt
  rw [BitVec.toInt_ofInt, Int.bmod_eq_of_le (by omega) (by omega)]

theorem two_le_of_ne {n : Byte} (h0 : ¬ n = 0) (h1 : ¬ n = 1) : 2 ≤ n.toNat := by
  have : n.toNat ≠ 0 := fun h => h0 (BitVec.eq_of_toNat_eq (by simpa using h))
  have : n.toNat ≠ 1 := fun h => h1 (BitVec.eq_of_toNat_eq (by simpa using h))
  omega

theorem decbyteLoop_keeps {K K' : State → Prop} (hK : RawClosed K K') (n : Nat) (s : State) (h : K s) :
    (decbyteLoop n s).meets (fun _ t => K t) (raisedFrom [.badChar, .streamEnd, .rleCount1] K') := by
  induction n generalizing s with
  | zero => exact ⟨_, _, _, _, rfl, hK.le s h, by simp⟩
  | succ n ih =>
    have hb : ∀ u, K u → (rawbyte u).meets (fun _ t => K t) (raisedFrom [.badChar, .streamEnd, .rleCount1] K') :=
      fun u hu => Res.meets_mono (hK.raw u hu) (fun _ _ h => h)
        fun t ht => raisedFrom_mono ht (by simp) fun _ h => h
    simp only [decbyteLoop]
    split
    · rename_i hp
      exact hK.copy s h hp
    · refine Res.meets_bind (hb s h) fun b t ht => ?_
      split
      · exact hK.char t _ ht
      · refine Res.meets_bind (hb t ht) fun m u hu => ?_
        split
        · exact hK.char u _ hu
        · split
          · unfold countOne
            split
            · exact hK.count u _ hu (by decide) (by decide)
            · exact ih _ (hK.count u _ hu (by decide) (by decide))
            · exact ⟨_, _, _, _, rfl, hK.le u hu, by simp⟩
          · rename_i h0 h1
            have h2 := two_le_of_ne h0 h1
            have := m.isLt
            refine hK.count u _ hu ?_ ?_ <;> rw [run_count m h2] <;> omega

/-- `DECBYTE` (43_run_length.md R171): it keeps what the stack keeps, and raises one of three causes. -/
theorem decbyte_keeps {K K' : State → Prop} (hK : RawClosed K K') (s : State) (h : K s) :
    (decbyte s).meets (fun _ t => K t) (raisedFrom [.badChar, .streamEnd, .rleCount1] K') :=
  decbyteLoop_keeps hK _ s h

theorem nextDecoded_keeps {K K' : State → Prop} (hK : RawClosed K K') (s : State) (h : K s) :
    (nextDecoded s).meets (fun _ t => K t) (raisedFrom [.badChar, .streamEnd, .rleCount1] K') := by
  unfold nextDecoded
  split
  · rename_i b r hd
    exact hK.taken s b r h hd
  · exact decbyte_keeps hK s h

theorem getc_keeps {K K' : State → Prop} (hK : RawClosed K K') (s : State) (h : K s) :
    (getc s).meets (fun _ t => K t) (raisedFrom [.badChar, .streamEnd, .rleCount1] K') :=
  Res.meets_bind (nextDecoded_keeps hK s h) fun _ t ht => hK.crc t _ ht

theorem getc0_keeps {K K' : State → Prop} (hK : RawClosed K K') (s : State) (h : K s) :
    (getc0 s).meets (fun _ t => K t) (raisedFrom [.badChar, .streamEnd, .rleCount1] K') :=
  Res.meets_bind (nextDecoded_keeps hK s h) fun _ t ht => hK.crc t _ ht

/-- `CRCCHECK` (44_crc16.md R185): besides the stack's causes it raises the one it is given. -/
theorem crcCheck_keeps {K K' : State → Prop} (hK : RawClosed K K') (c : Cause) (s : State) (h : K s) :
    (crcCheck c s).meets (fun _ t => K t) (raisedFrom [.badChar, .streamEnd, .rleCount1, c] K') := by
  have hb : ∀ u, K u → (getc0 u).meets (fun _ t => K t) (raisedFrom [.badChar, .streamEnd, .rleCount1, c] K') :=
    fun u hu => Res.meets_mono (getc0_keeps hK u hu) (fun _ _ h => h)
      fun t ht => raisedFrom_mono ht (by simp) fun _ h => h
  refine Res.meets_bind (hb s h) fun hi t ht => Res.meets_bind (hb t ht) fun lo u hu => ?_
  split
  · exact ⟨_, _, _, _, rfl, hK.le u hu, by simp⟩
  · exact hu

theorem getbeFrom_keeps {K K' : State → Prop} (hK : RawClosed K K') (n : Nat) (v : Word) (s : State) (h : K s) :
    (getbeFrom n v s).meets (fun _ t => K t) (raisedFrom [.badChar, .streamEnd, .rleCount1] K') := by
  induction n generalizing v s with
  | zero => exact h
  | succ n ih => exact Res.meets_bind (getc_keeps hK s h) fun b t ht => ih _ t ht

/-- `GETBE` (45_binhex_records.md R194). -/
theorem getbe_keeps {K K' : State → Prop} (hK : RawClosed K K') (n : Nat) (s : State) (h : K s) :
    (getbe n s).meets (fun _ t => K t) (raisedFrom [.badChar, .streamEnd, .rleCount1] K') := getbeFrom_keeps hK n 0 s h

/-- `FORKBODY`'s loop (45_binhex_records.md R200), for a predicate that the appends to its sink keep. -/
theorem forkBytes_keeps {K K' : State → Prop} (hK : RawClosed K K') (k : Sink)
    (hS : ∀ v s, K s → K (appendSink k v s)) (n : Nat) (s : State) (h : K s) :
    (forkBytes k n s).meets (fun _ t => K t) (raisedFrom [.badChar, .streamEnd, .rleCount1] K') := by
  induction n generalizing s with
  | zero => exact h
  | succ n ih => exact Res.meets_bind (getc_keeps hK s h) fun b t ht => ih _ (hS b t ht)

/-- The name's bytes (45_binhex_records.md R193), for a predicate that allows a name of the same length. -/
theorem readName_keeps {K K' : State → Prop} (hK : RawClosed K K')
    (hB : ∀ (s : State) (i : Nat) (b : Byte), K s → K { s with bh := { s.bh with name := s.bh.name.set i b } })
    (n i : Nat) (s : State) (h : K s) :
    (readName n i s).meets (fun _ t => K t) (raisedFrom [.badChar, .streamEnd, .rleCount1] K') := by
  induction n generalizing i s with
  | zero => exact h
  | succ n ih =>
    exact Res.meets_bind (getc_keeps hK s h) fun b t ht => ih _ _ (hB t _ _ ht)

/-- The fields the decode stack never writes. -/
def stackFrame (s t : State) : Prop :=
  t = { s with
    pos := t.pos, crc := t.crc, ring := t.ring, rptChar := t.rptChar, rptCnt := t.rptCnt, lend := t.lend,
    eofsev := t.eofsev, buf := t.buf, grp := t.grp, dbuf := t.dbuf }

/-- The stack changes only POS, the decode registers, the read buffer, and the two latches. -/
theorem stackFrame_closed (s : State) : StackClosed (stackFrame s) where
  raw t h := by
    unfold stackFrame at h ⊢
    rw [rawget_frame t]
    rw [h]
  free t u h hu := by
    unfold stackFrame at h ⊢
    rw [hu, h]
  upper t u h hu := by
    unfold stackFrame at h ⊢
    rw [hu, h]
  taken t b r h _ := by
    unfold stackFrame at h ⊢
    rw [h]

/-- `FILLRING` once more (42_sextet_unpacker.md R163): of the state it starts from it changes POS, the read buffer and the
latch, LEND, and the ring with its severity; the ring is unread. A `raise` in it leaves the ring and the flags. -/
theorem fillring_frame {K : State → Prop} (hK : DecodeClosed K) (s : State) (hb : bufWf s) (hk : K s) :
    (fillring s).meets
      (fun _ t => (bufWf t ∧ K t) ∧ ∃ l n, t = { s with
        pos := t.pos, buf := t.buf, grp := [], lend := l, ring := t.ring,
        eofsev := if l then severity t.ring.cnt else s.eofsev } ∧ (l = s.lend ∨ l = true) ∧ t.ring.rd = 0
          ∧ t.ring.cnt = ringCount n)
      (raisedFrom [.badChar] fun u => (bufWf u ∧ K u) ∧ u = { s with pos := u.pos, buf := u.buf, grp := u.grp }) := by
  refine Res.meets_bind
    (collect_keeps (K := fun u => (bufWf u ∧ K u) ∧ u = { s with pos := u.pos, buf := u.buf, grp := u.grp }) ?_ ?_ 4 _
      ⟨⟨hb, hK.free s _ hk rfl⟩, rfl⟩)
    fun _ t ht => ?_
  · intro u hu
    refine ⟨⟨rawget_bufWf u hu.1.1, hK.raw u hu.1.2⟩, ?_⟩
    rw [rawget_frame u, hu.2]
  · intro u g hu
    refine ⟨⟨hu.1.1, hK.free u _ hu.1.2 rfl⟩, ?_⟩
    rw [hu.2]
  · rcases ht with ⟨⟨hw, hk'⟩, ht⟩ | ⟨u, ⟨⟨hw, hk'⟩, hu⟩, rfl⟩
    · refine ⟨⟨hw, hK.free t _ hk' rfl⟩, s.lend, t.grp.length, ?_, .inl rfl, rfl, rfl⟩
      rw [ht]
      rfl
    · refine ⟨⟨hw, hK.free u _ hk' rfl⟩, true, u.grp.length, ?_, .inr rfl, rfl, rfl⟩
      rw [hu]
      rfl

/-- What stands between the micro-operations of a command: the bounds of the decode registers (10_state.md R26 to R29,
R56), and anything else. -/
abbrev boundK (K : State → Prop) (s : State) : Prop := (stackOk s ∧ bufWf s) ∧ K s

/-- The same with the group latch empty, as it is outside `FILLRING`. -/
abbrev restK (K : State → Prop) (s : State) : Prop := boundK K s ∧ s.grp = []

/-- `RAWBYTE` (42_sextet_unpacker.md R165) keeps the bounds of the decode registers. -/
theorem rawbyte_stackOk {K : State → Prop} (hK : DecodeClosed K) (s : State) (h : restK K s) :
    (rawbyte s).meets (fun _ t => restK K t) (raisedFrom [.badChar, .streamEnd] (boundK K)) := by
  obtain ⟨h, hg⟩ := h
  have take : ∀ u : State, restK K u → ¬ u.ring.cnt ≤ u.ring.rd → ∀ Q : State → Prop,
      (takeRing u).meets (fun _ t => restK K t) Q := by
    intro u hu hne Q
    refine ⟨⟨⟨⟨?_, hu.1.1.1.2⟩, hu.1.1.2⟩, hK.free u _ hu.1.2 rfl⟩, hu.2⟩
    have h1 := hu.1.1.1.1
    rw [BitVec.le_def] at hne h1 ⊢
    simp only [BitVec.toNat_add]
    have := u.ring.cnt.isLt
    have : ((1 : BitVec 2)).toNat = 1 := rfl
    omega
  unfold rawbyte
  split
  · split
    · exact ⟨_, _, _, _, rfl, h, by simp⟩
    · rename_i hlend
      have he := h.1.1.2.2.2.1
      rw [if_neg hlend] at he
      refine Res.meets_bind (P' := fun _ t => restK K t ∧ t.ring.rd = 0)
        (Res.meets_mono (fillring_frame hK s h.1.2 h.2) ?_ ?_) ?_
      · rintro a t ⟨⟨hw, hk⟩, l, n, ht, hl, hrd, hcnt⟩
        refine ⟨⟨⟨⟨⟨?_, ?_, ?_, ?_, hw.2.1, hw.2.2⟩, hw⟩, hk⟩, ?_⟩, hrd⟩
        · rw [hrd, BitVec.le_def]
          exact Nat.zero_le _
        · rw [ht]; exact h.1.1.2.1
        · rw [ht]; exact h.1.1.2.2.1
        · rw [ht]
          simp only
          rw [he]
        · rw [ht]
      · rintro t ⟨c, e, f, u, ht, ⟨⟨hw, hk⟩, hu⟩, hc⟩
        refine ⟨c, e, f, u, ht, ⟨⟨⟨?_, ?_, ?_, ?_, hw.2.1, hw.2.2⟩, hw⟩, hk⟩, by simp at hc ⊢; exact .inl hc⟩
        all_goals rw [hu]
        · exact h.1.1.1
        · exact h.1.1.2.1
        · exact h.1.1.2.2.1
        · exact h.1.1.2.2.2.1
      · rintro a t ⟨hs, hrd⟩
        split
        · exact ⟨_, _, _, _, rfl, hs.1, by simp⟩
        · rename_i hne
          refine take t hs ?_ _
          rw [hrd, BitVec.le_def]
          intro hle
          refine hne (BitVec.eq_of_toNat_eq ?_)
          have : ((0 : BitVec 2)).toNat = 0 := rfl
          omega
  · rename_i hne
    exact take s ⟨h, hg⟩ hne _

/-- The bounds of the decode registers are kept from `RAWBYTE` up (10_state.md R27, 43_run_length.md R176), beside anything
the stack keeps. -/
theorem stackOk_closed {K : State → Prop} (hK : StackClosed K) : RawClosed (restK K) (boundK K) where
  raw := rawbyte_stackOk hK.toDecodeClosed
  le _ h := h.1
  char s _ h := ⟨⟨h.1.1, hK.upper s _ h.1.2 rfl⟩, h.2⟩
  count s _ h h1 h2 := ⟨⟨⟨⟨h.1.1.1.1, h1, h2, h.1.1.1.2.2.2⟩, h.1.1.2⟩, hK.upper s _ h.1.2 rfl⟩, h.2⟩
  copy s h hp := by
    refine ⟨⟨⟨⟨h.1.1.1.1, ?_, ?_, h.1.1.1.2.2.2⟩, h.1.1.2⟩, hK.upper s _ h.1.2 rfl⟩, h.2⟩
    all_goals
      simp only [copiesPending, decide_eq_true_eq] at hp
      have h1 := h.1.1.1.2.2.1
      have e : (s.rptCnt - 1).toInt = s.rptCnt.toInt - 1 := by
        rw [BitVec.toInt_sub]
        have : ((1 : BitVec 16)).toInt = 1 := rfl
        rw [this, Int.bmod_eq_of_le (by omega) (by omega)]
      simp only
      rw [e]
      omega
  crc s _ h := ⟨⟨h.1.1, hK.upper s _ h.1.2 rfl⟩, h.2⟩
  taken s b r h hd := ⟨⟨h.1.1, hK.taken s b r h.1.2 hd⟩, h.2⟩

end Sys2Proof.Machine
end

