-- ==== Sys2Proof/Laws/Commands.lean ====
section
/-! SUPPORT. What the records and the commands can do: acceptance case by case, and for each record operation what it keeps,
how it ends, and the causes it can raise. -/

namespace Sys2Proof.Machine

/-- Acceptance (48_commands.md R240), with ERR set. -/
theorem accept_err {need : Mode} {g : Option Stage} {body : State → Res Unit} {s : State} {c : ErrClass}
    (h : s.err = some c) : accept need g body s = .next { s with status := .failed c } := by
  simp [accept, h]

/-- Acceptance, in another mode. -/
theorem accept_mode {need : Mode} {g : Option Stage} {body : State → Res Unit} {s : State} (h : s.err = none)
    (hm : s.mode ≠ need) :
    accept need g body s = .next (fatal .badMode (need.code.setWidth 32) (s.mode.code.setWidth 32) s) := by
  simp [accept, h, hm]

/-- Acceptance, in another stage. -/
theorem accept_stage {need : Mode} {g : Stage} {body : State → Res Unit} {s : State} (h : s.err = none)
    (hm : s.mode = need) (hg : s.stage ≠ g) :
    accept need (some g) body s = .next (fatal .badStage (g.code.setWidth 32) (s.stage.code.setWidth 32) s) := by
  simp [accept, h, hm, hg]

/-- An accepted command runs its own rule. -/
theorem accept_ok {need : Mode} {g : Option Stage} {body : State → Res Unit} {s : State} (h : s.err = none)
    (hm : s.mode = need) (hg : ∀ x, g = some x → s.stage = x) : accept need g body s = finish (body s) := by
  cases g with
  | none => simp [accept, h, hm]
  | some x => simp [accept, h, hm, hg x rfl]

/-- Everything acceptance can do. -/
theorem accept_cases (need : Mode) (g : Option Stage) (body : State → Res Unit) (s : State) :
    (∃ c, s.err = some c ∧ accept need g body s = .next { s with status := .failed c })
    ∨ (s.err = none ∧ ∃ c e f, (c = .badMode ∨ c = .badStage ∧ g ≠ none)
        ∧ accept need g body s = .next (fatal c e f s))
    ∨ (s.err = none ∧ s.mode = need ∧ (∀ x, g = some x → s.stage = x) ∧ accept need g body s = finish (body s)) := by
  rcases he : s.err with _ | c
  rotate_left
  · exact .inl ⟨c, rfl, he ▸ accept_err he⟩
  · by_cases hm : s.mode = need
    · by_cases hg : ∀ x, g = some x → s.stage = x
      · exact .inr (.inr ⟨rfl, hm, hg, accept_ok he hm hg⟩)
      · cases g with
        | none => exact absurd (fun x h => nomatch h) hg
        | some x =>
          refine .inr (.inl ⟨rfl, .badStage, _, _, .inr ⟨rfl, by simp⟩, accept_stage he hm fun h => hg ?_⟩)
          intro y hy
          cases hy
          exact h
    · exact .inr (.inl ⟨rfl, .badMode, _, _, .inl rfl, accept_mode he hm⟩)

theorem acceptAny_err {body : State → Res Unit} {s : State} {c : ErrClass} (h : s.err = some c) :
    acceptAny body s = .next { s with status := .failed c } := by
  simp [acceptAny, h]

theorem acceptAny_ok {body : State → Res Unit} {s : State} (h : s.err = none) :
    acceptAny body s = finish (body s) := by
  simp [acceptAny, h]

/-- The transliterator gives at most one byte for each of the source and of the capacity (40_transliterator.md R143). -/
theorem xltBuf_length_le (hi src : List Byte) (n cap : Nat) : (xltBuf hi src n cap).length ≤ min n cap := by
  have h1 := (List.takeWhile_sublist (fun b : Byte => b != 0x00) (l := src.take (min n cap))).length_le
  have h2 := List.length_take_le (min n cap) src
  simp only [xltBuf, List.length_map]
  omega

theorem padTo_length (n : Nat) (bs : List Byte) (h : bs.length ≤ n) : (padTo n bs).length = n := by
  simp [padTo]
  omega

/-- The search of the locator (41_stream_locate.md R154) changes POS only. -/
theorem locateSearch_frame (n : Nat) (b : Bool) (s : State) :
    (locateSearch n b s).meets (fun _ t => t = { s with pos := t.pos })
      (raisedFrom [.noStart] fun u => u = { s with pos := u.pos }) := by
  induction n generalizing b s with
  | zero => exact ⟨_, _, _, _, rfl, rfl, by simp⟩
  | succ n ih =>
    simp only [locateSearch]
    split
    · exact ⟨_, _, _, _, rfl, rfl, by simp⟩
    · split
      · rfl
      · refine Res.meets_mono (ih _ _) (fun _ t ht => by rw [ht]) fun t ht => ?_
        exact raisedFrom_mono ht (fun _ h => h) fun u hu => by rw [hu]

/-- The locator (41_stream_locate.md R154): a match, or `NO_START`. -/
theorem locate_frame (s : State) :
    (locate s).meets (fun _ t => ∃ p, t = locateMatched { s with pos := p })
      (raisedFrom [.noStart] fun u => u = { s with pos := u.pos }) :=
  Res.meets_bind (locateSearch_frame _ _ s) fun _ t ht => ⟨t.pos, by rw [ht]⟩

/-- The sizes of the name buffers. -/
abbrev namesOk (s : State) : Prop := s.bh.name.length = 64 ∧ s.bh.pname.length = 64

theorem setBhName_name (l : Byte) (s : State) : (setBhName l s).bh.name = s.bh.name := rfl

theorem setBhName_pname_length (l : Byte) (s : State) : (setBhName l s).bh.pname.length = 64 := by
  refine padTo_length 64 _ ?_
  split
  · simp
  · have := xltBuf_length_le s.par.xltHi (s.bh.name.take l.toNat) l.toNat 64
    omega

/-- The causes the header record can raise (60_exceptions.md R263). -/
def headerCauses : List Cause := [.badChar, .streamEnd, .rleCount1, .nameTooLong, .badHdrCrc]

/-- What stands while the header record is being read: what stands between micro-operations, the sizes of the name buffers,
BH_VALID clear, and anything else the stack and the record registers leave alone. -/
abbrev headerK (K : State → Prop) (s : State) : Prop := restK (fun u => K u ∧ namesOk u ∧ u.bhValid = false) s

/-- The same where a `raise` ended the command. -/
abbrev headerFailK (K : State → Prop) (s : State) : Prop := boundK (fun u => K u ∧ namesOk u ∧ u.bhValid = false) s

theorem headerK_closed {K : State → Prop} (hK : StackClosed K) : RawClosed (headerK K) (headerFailK K) :=
  stackOk_closed
    { raw := fun u hu => ⟨hK.raw u hu.1, by rw [rawget_frame u]; exact hu.2⟩
      free := fun u t hu ht => ⟨hK.free u t hu.1 ht, by rw [ht]; exact hu.2⟩
      upper := fun u t hu ht => ⟨hK.upper u t hu.1 ht, by rw [ht]; exact hu.2⟩
      taken := fun u b r hu hd => ⟨hK.taken u b r hu.1 hd, hu.2⟩ }

theorem Res.widen {α : Type} {r : Res α} {P : α → State → Prop} {cs cs' : List Cause} {K : State → Prop}
    (h : r.meets P (raisedFrom cs K)) (hc : ∀ c ∈ cs, c ∈ cs') : r.meets P (raisedFrom cs' K) :=
  Res.meets_mono h (fun _ _ h => h) fun _ ht => raisedFrom_mono ht hc fun _ h => h

/-- The state in which the header record's first byte is read (45_binhex_records.md R190). -/
def headerStart (s : State) : State :=
  spanStart { s with
    bhValid := false
    bh := { s.bh with name := List.replicate 64 0, pname := List.replicate 64 0, pnameLen := 0 } }

/-- The header record (45_binhex_records.md R190 to R196), for a predicate that the stack keeps and that allows record
registers with name buffers of the same sizes: it ends in `FORK_DATA` with BH_VALID set, or in one of its causes. -/
theorem headerRecord_keeps {K K' : State → Prop} (hK : RawClosed K K')
    (hB : ∀ s r, K s → r.name.length = s.bh.name.length →
      (r.pname.length = s.bh.pname.length ∨ r.pname.length = 64) → K { s with bh := r })
    (s : State) (h : K (headerStart s)) :
    (headerRecord s).meets (fun _ t => ∃ u, K u ∧ t = endOk { u with bhValid := true, stage := .forkData })
      (raisedFrom headerCauses K') := by
  have c3 : ∀ c ∈ [Cause.badChar, .streamEnd, .rleCount1], c ∈ headerCauses := by simp [headerCauses]
  have get : ∀ (n : Nat) (u : State), K u → (getbe n u).meets (fun _ t => K t) (raisedFrom headerCauses K') :=
    fun n u hu => Res.widen (getbe_keeps hK n u hu) c3
  refine Res.meets_bind (P' := fun _ u => K u) (Res.widen (getc_keeps hK (headerStart s) h) c3) fun l u hu => ?_
  simp only
  split
  · exact ⟨_, _, _, _, rfl, hK.le u hu, by simp [headerCauses]⟩
  · refine Res.meets_bind
      (Res.widen (readName_keeps hK (fun v i b hv => hB v _ hv (by simp) (.inl rfl)) _ _ u hu) c3) fun _ u hu => ?_
    refine Res.meets_bind (get 4 _ (hB u _ hu rfl (.inr (setBhName_pname_length l u)))) fun v u hu => ?_
    refine Res.meets_bind (get 4 _ (hB u _ hu rfl (.inl rfl))) fun v u hu => ?_
    refine Res.meets_bind (get 2 _ (hB u _ hu rfl (.inl rfl))) fun v u hu => ?_
    refine Res.meets_bind (get 4 _ (hB u _ hu rfl (.inl rfl))) fun v u hu => ?_
    refine Res.meets_bind (get 4 _ (hB u _ hu rfl (.inl rfl))) fun v u hu => ?_
    refine Res.meets_bind
      (Res.widen (crcCheck_keeps hK .badHdrCrc _ (hB u _ hu rfl (.inl rfl))) (by simp [headerCauses])) fun v u hu => ?_
    exact ⟨_, hB u { u.bh with hcrc := v } hu rfl (.inl rfl), rfl⟩

/-- The same with what the commands keep: the bounds of the decode registers, the sizes of the name buffers, and BH_VALID
clear until the end. -/
theorem headerRecord_meets {K : State → Prop} (hK : StackClosed K)
    (hB : ∀ s r v, K s → K { s with bh := r, bhValid := v }) (s : State) (h : restK K s) :
    (headerRecord s).meets
      (fun _ t => ∃ u, headerK K u ∧ t = endOk { u with bhValid := true, stage := .forkData })
      (raisedFrom headerCauses (headerFailK K)) := by
  refine headerRecord_keeps (headerK_closed hK) ?_ s
    ⟨⟨h.1.1, hK.upper _ _ (hB s _ false h.1.2) rfl, ⟨List.length_replicate, List.length_replicate⟩, rfl⟩, h.2⟩
  intro u r hu h1 h2
  have hn := hu.1.2.2.1
  exact ⟨⟨hu.1.1, hB u r u.bhValid hu.1.2.1, ⟨h1.trans hn.1, h2.elim (fun h => h.trans hn.2) id⟩, hu.1.2.2.2⟩, hu.2⟩

/-- The causes a fork record can raise (60_exceptions.md R263). -/
def forkCauses : List Cause := [.badChar, .streamEnd, .rleCount1, .badForkCrc]

/-- A fork record (45_binhex_records.md R198 to R201): it ends with the stored CRC kept and the next stage, or in one of its
causes; either way it has only appended to its sink. -/
theorem forkRecord_meets {K K' : State → Prop} (hK : RawClosed K K') (k : Sink) (hS : ∀ v s, K s → K (appendSink k v s))
    (n : Nat) (s : State) (h : K s) :
    (forkRecord k n s).meets (fun _ t => ∃ u c, K u ∧ t = forkDone k c u) (raisedFrom forkCauses K') := by
  refine Res.meets_bind
    (Res.widen (forkBytes_keeps hK k hS n _ (hK.crc s _ h)) (by simp [forkCauses])) fun _ u hu => ?_
  refine Res.meets_bind (Res.widen (crcCheck_keeps hK .badForkCrc u hu) (by simp [forkCauses])) fun c u hu => ?_
  exact ⟨u, c, hu, rfl⟩

/-- A fork command's body (45_binhex_records.md R198, R202). -/
theorem forkBody_meets {K K' : State → Prop} (hK : RawClosed K K') (k : Sink) (hS : ∀ v s, K s → K (appendSink k v s))
    (len : Word) (s : State) (h : K s) :
    (forkBody k len s).meets (fun _ t => ∃ u c, K u ∧ t = forkDone k c u) (raisedFrom (.negLength :: forkCauses) K') := by
  unfold forkBody
  split
  · exact ⟨_, _, _, _, rfl, hK.le s h, by simp⟩
  · exact Res.widen (forkRecord_meets hK k hS _ s h) fun c hc => List.mem_cons_of_mem _ hc

/-- `BLOCKREAD` gets at most what it asks for (46_stuffit_records.md R211). -/
theorem blockGot_length_le (n : Nat) (s : State) : (blockGot n s).length ≤ n := readRun_length_le _ _ _

theorem loadRec_length (bs : List Byte) (s : State) (h : s.recb.length = 112) (hb : bs.length ≤ 112) :
    (loadRec bs s).recb.length = 112 := by
  have : sitEntSize = 112 := rfl
  simp only [loadRec_recb, List.length_take, overlay_length s.recb bs (by omega)]
  omega

/-- The record buffer after bytes have been loaded at its front (46_stuffit_records.md R211). -/
theorem loadRec_eq (bs : List Byte) (s : State) (h : s.recb.length = 112) (hb : bs.length ≤ 112) :
    (loadRec bs s).recb = bs ++ s.recb.drop bs.length := by
  have : sitEntSize = 112 := rfl
  simp only [loadRec_recb, overlay, Nat.zero_add, List.take_zero, List.nil_append]
  refine List.take_of_length_le ?_
  simp
  omega

/-- `SIT.HDR` (46_stuffit_records.md R212, R213): it ends with SA_VALID set, or in one of its three causes. -/
theorem sitHdrBody_meets (s : State) :
    (sitHdrBody s).meets
      (fun _ t => ∃ m, t = magic2Passed m (blockRead sitHdrSize { s with saValid := false }))
      (raisedFrom [.shortBlock, .badMagic1, .badMagic2] fun u => u = blockRead sitHdrSize { s with saValid := false }) := by
  simp only [sitHdrBody]
  split
  · exact ⟨_, _, _, _, rfl, rfl, by simp⟩
  · simp only [checkMagic1]
    split
    · simp only [checkMagic2]
      split
      · exact ⟨_, _, _, _, rfl, rfl, by simp⟩
      · exact ⟨_, rfl⟩
    · exact ⟨_, _, _, _, rfl, rfl, by simp⟩

/-- `SIT.NEXT` (46_stuffit_records.md R216, R217): the end of the entries, a record, or `SHORT_BLOCK`. -/
theorem sitNextBody_meets (s : State) :
    (sitNextBody s).meets
      (fun _ t => (blockGot sitEntSize s = [] ∧ t = { s with seValid := false, status := .endOfEntries })
        ∨ ((blockGot sitEntSize s).length = sitEntSize
            ∧ t = entryRecord (blockRead sitEntSize { s with seValid := false })))
      (raisedFrom [.shortBlock] fun u => u = blockRead sitEntSize { s with seValid := false }) := by
  have hl := blockGot_length_le sitEntSize s
  simp only [sitNextBody]
  split
  · rename_i h0
    exact .inl ⟨List.length_eq_zero_iff.mp h0, rfl⟩
  · split
    · exact ⟨_, _, _, _, rfl, rfl, by simp⟩
    · rename_i h1
      exact .inr ⟨by omega, rfl⟩

/-- What an entry record leaves (46_stuffit_records.md R216, R221). -/
theorem entryRecord_eq (s : State) :
    entryRecord s = { s with
      se := entryOf s.par s.recb, seValid := true, status := .ok
      pos := if isFolder (entryOf s.par s.recb).rmeth then s.pos
             else s.pos + lengthSum (entryOf s.par s.recb).crlen (entryOf s.par s.recb).cdlen } := by
  simp only [entryRecord]
  split <;> simp [entryStay, entrySkip, endOk]

theorem capName_toNat (n : Byte) : (capName n).toNat = min n.toNat 63 := by
  have : nameMax = 63 := rfl
  unfold capName
  rw [this]
  split
  · simp
    omega
  · omega

theorem entryOf_name_length (p : Params) (b : List Byte) : (entryOf p b).name.length = 63 := by
  refine padTo_length 63 _ ?_
  simp only [List.length_map, List.length_range, capName_toNat]
  omega

theorem entryOf_pname_length (p : Params) (b : List Byte) : (entryOf p b).pname.length = 63 := by
  refine padTo_length 63 _ ?_
  split
  · simp
  · refine Nat.le_trans (xltBuf_length_le _ _ _ _) ?_
    omega

/-- An accessor (46_stuffit_records.md section 4). -/
theorem accessorBody_valid (f : EntryRegs → Pos) {s : State} (h : s.seValid = true) :
    accessorBody f s = .ok () (answer (f s.se) s) := by
  simp [accessorBody, h]

theorem accessorBody_invalid (f : EntryRegs → Pos) {s : State} (h : s.seValid = false) :
    accessorBody f s = .stop (fatal .noEntry 1 0 s) := by
  simp [accessorBody, h]

/-- `XLIT` (40_transliterator.md R145): it writes its destination, or raises `BAD_LENGTH`. -/
theorem xlitBody_meets (s : State) :
    (xlitBody s).meets
      (fun _ t => ∃ d n, d.length = 64 ∧ t = endOk { s with xl := { s.xl with dst := d, dstLen := n } })
      (raisedFrom [.badLength] fun u => u = s) := by
  unfold xlitBody
  simp only
  split
  · exact ⟨_, _, _, _, rfl, rfl, by simp⟩
  · split
    · exact ⟨_, _, _, _, rfl, rfl, by simp⟩
    · rename_i h
      refine ⟨_, _, ?_, rfl⟩
      refine padTo_length 64 _ (Nat.le_trans (xltBuf_length_le _ _ _ _) ?_)
      omega

/-- `OPEN.*` (48_commands.md R242). -/
theorem openSession_meets (m : Mode) (s : State) :
    (openSession m s).meets (fun _ t => s.mode = .closed ∧ t = { loadReset s with mode := m })
      (fun t => (s.mode ≠ .closed ∧ ∃ e f, t = fatal .badMode e f s)
        ∨ (s.mode = .closed ∧ ∃ e f, t = fatal .openFailed e f (loadReset s))) := by
  simp only [openSession]
  split
  · rename_i h
    exact .inl ⟨h, _, _, rfl⟩
  · rename_i h
    have h' : s.mode = .closed := by simpa using h
    split
    · exact ⟨h', rfl⟩
    · exact .inr ⟨h', _, _, rfl⟩

/-- `CLOSE` (48_commands.md R244). -/
theorem closeSession_meets (s : State) :
    (closeSession s).meets
      (fun _ t => s.mode = .closed ∧ t = endOk s ∨ s.mode ≠ .closed ∧ t = endOk { s with mode := .closed, buf := bufReset })
      (fun t => s.mode ≠ .closed ∧ ∃ e f, t = fatal .closeFailed e f { s with mode := .closed, buf := bufReset }) := by
  simp only [closeSession]
  split
  · rename_i h
    exact .inl ⟨h, rfl⟩
  · rename_i h
    split
    · exact .inr ⟨h, rfl⟩
    · exact ⟨h, _, _, rfl⟩

end Sys2Proof.Machine
end

