-- ==== Sys2Proof/Laws/Step.lean ====
section
/-! SUPPORT. The step at the command port, by the host's next action, and the fetch of the other spaces by their results. -/

namespace Sys2Proof.Machine

theorem step_of_run {s u : State} {i : Instr} (h : fetch s = .run i u) : step s = exec i u := by
  simp [step, h]

theorem step_of_quiet {s u : State} (h : fetch s = .quiet u) : step s = .next u := by
  simp [step, h]

/-- With no action to present the machine stays as it is. -/
theorem step_idle {s : State} (h : s.space = .command) (ht : s.todo = []) : step s = .next s := by
  refine step_of_quiet ?_
  simp [fetch, h, ht]

/-- At the command port a step takes the host's next action. -/
theorem fetch_todo {s : State} {a : HostAct} {r : List HostAct} (h : s.space = .command) (ht : s.todo = a :: r) :
    fetch s = hostAct a { s with todo := r } := by
  simp [fetch, h, ht]

/-- A command byte runs the instruction it decodes to (48_commands.md R240). -/
theorem step_command {s : State} {c : Byte} {r : List HostAct} (h : s.space = .command) (ht : s.todo = .command c :: r) :
    step s = exec (decodeCommand c) { s with todo := r } := step_of_run (fetch_todo h ht)

/-- Everything a step at the command port can do. -/
theorem step_cases {s : State} (h : s.space = .command) :
    (s.todo = [] ∧ step s = .next s)
    ∨ (∃ c r, s.todo = .command c :: r ∧ step s = exec (decodeCommand c) { s with todo := r })
    ∨ (∃ r, s.todo = .reset :: r ∧ step s = .next (resetEvent { s with todo := r }))
    ∨ (∃ bs r, s.todo = .attach bs :: r
        ∧ ((s.mode ≠ .closed ∧ step s = .refused .streamChangedInSession)
          ∨ (s.mode = .closed ∧ 2 ^ 63 ≤ bs.length ∧ step s = .fault .streamTooLong)
          ∨ (s.mode = .closed ∧ bs.length < 2 ^ 63
              ∧ step s = .next { s with todo := r, stream := Memory.ofBytes bs })))
    ∨ (∃ o c w r, s.todo = .answers o c w :: r
        ∧ step s = .next { s with todo := r, openOk := o, closeOk := c, ioCause := w })
    ∨ (∃ i b r, s.todo = .writeXsrc i b :: r
        ∧ step s = .next { s with todo := r, xl := { s.xl with src := s.xl.src.set i.toNat b } })
    ∨ (∃ n r, s.todo = .writeXsrcLen n :: r ∧ step s = .next { s with todo := r, xl := { s.xl with srcLen := n } })
    ∨ (∃ n r, s.todo = .writeXdstCap n :: r ∧ step s = .next { s with todo := r, xl := { s.xl with dstCap := n } }) := by
  rcases ht : s.todo with _ | ⟨a, r⟩
  · exact .inl ⟨rfl, step_idle h ht⟩
  · refine .inr ?_
    have hf := fetch_todo h ht
    rcases a with c | _ | bs | ⟨o, c, w⟩ | ⟨i, b⟩ | n | n
    · exact .inl ⟨c, r, rfl, step_of_run hf⟩
    · exact .inr (.inl ⟨r, rfl, step_of_quiet hf⟩)
    · refine .inr (.inr (.inl ⟨bs, r, rfl, ?_⟩))
      by_cases hm : s.mode = .closed
      · by_cases hl : 2 ^ 63 ≤ bs.length
        · refine .inr (.inl ⟨hm, hl, ?_⟩)
          simp only [step, hf, hostAct, hm, ne_eq, not_true_eq_false, if_false, hl, if_true]
        · refine .inr (.inr ⟨hm, by omega, ?_⟩)
          simp only [step, hf, hostAct, hm, ne_eq, not_true_eq_false, if_false, hl]
      · refine .inl ⟨hm, ?_⟩
        simp [step, hf, hostAct, hm]
    · exact .inr (.inr (.inr (.inl ⟨o, c, w, r, rfl, step_of_quiet hf⟩)))
    · exact .inr (.inr (.inr (.inr (.inl ⟨i, b, r, rfl, step_of_quiet hf⟩))))
    · exact .inr (.inr (.inr (.inr (.inr (.inl ⟨n, r, rfl, step_of_quiet hf⟩)))))
    · exact .inr (.inr (.inr (.inr (.inr (.inr ⟨n, r, rfl, step_of_quiet hf⟩)))))

/-- A command byte decodes to a row of the command space (30_encoding.md R102, R103). -/
theorem spaceOf_decodeCommand (c : Byte) : spaceOf (decodeCommand c) = .command := by
  have pick : ∀ (p : Prop) [Decidable p] (a b : Instr), spaceOf a = .command → spaceOf b = .command →
      spaceOf (if p then a else b) = .command := by
    intro p _ a b ha hb
    by_cases h : p
    · rw [if_pos h, ha]
    · rw [if_neg h, hb]
  unfold decodeCommand
  repeat refine pick _ _ _ rfl ?_
  rfl

/-- The meanings of the command rows, with what acceptance asks of each (48_commands.md R240, R257). -/
theorem exec_command {i : Instr} (h : spaceOf i = .command) (s : State) :
    (i = .openBhx ∧ exec i s = finish (openSession .bhx s)) ∨ (i = .openSit ∧ exec i s = finish (openSession .sit s))
    ∨ (i = .close ∧ exec i s = finish (closeSession s))
    ∨ (i = .bhxHdr ∧ exec i s = accept .bhx (some .searching) hdrBody s)
    ∨ (i = .bhxData ∧ exec i s = accept .bhx (some .forkData) (forkBody .data s.bh.dlen) s)
    ∨ (i = .bhxRsrc ∧ exec i s = accept .bhx (some .forkRsrc) (forkBody .rsrc s.bh.rlen) s)
    ∨ (i = .sitHdr ∧ exec i s = accept .sit none sitHdrBody s)
    ∨ (i = .sitNext ∧ exec i s = accept .sit none sitNextBody s)
    ∨ (i ∈ [Instr.sitIsenc, .sitIsfst, .sitIsfend, .sitIsapp, .sitCsize, .sitUsize, .sitMtime]
        ∧ ∃ f, exec i s = accept .sit none (accessorBody f) s)
    ∨ (i = .xlit ∧ exec i s = acceptAny xlitBody s)
    ∨ ∃ c, i = .reservedCommand c ∧ exec i s = acceptAny (raise .illegalCmd 0 (c.setWidth 32)) s := by
  cases i
  all_goals first
    | (simp [spaceOf] at h; done)
    | exact .inl ⟨rfl, rfl⟩
    | exact .inr (.inl ⟨rfl, rfl⟩)
    | exact .inr (.inr (.inl ⟨rfl, rfl⟩))
    | exact .inr (.inr (.inr (.inl ⟨rfl, rfl⟩)))
    | exact .inr (.inr (.inr (.inr (.inl ⟨rfl, rfl⟩))))
    | exact .inr (.inr (.inr (.inr (.inr (.inl ⟨rfl, rfl⟩)))))
    | exact .inr (.inr (.inr (.inr (.inr (.inr (.inl ⟨rfl, rfl⟩))))))
    | exact .inr (.inr (.inr (.inr (.inr (.inr (.inr (.inl ⟨rfl, rfl⟩)))))))
    | exact .inr (.inr (.inr (.inr (.inr (.inr (.inr (.inr (.inl ⟨by simp, _, rfl⟩))))))))
    | exact .inr (.inr (.inr (.inr (.inr (.inr (.inr (.inr (.inr (.inl ⟨rfl, rfl⟩)))))))))
    | exact .inr (.inr (.inr (.inr (.inr (.inr (.inr (.inr (.inr (.inr ⟨_, rfl, rfl⟩)))))))))

/-- Sizes of the buffers right after reset (10_state.md R60). -/
theorem bufReset_length : bufReset.bytes.length = 1024 := List.length_replicate

theorem recbReset_length : (List.replicate sitEntSize (0 : Byte)).length = 112 := List.length_replicate

end Sys2Proof.Machine
end

