-- ==== Sys2Proof/Laws/Buffer.lean ====
section
/-! SUPPORT. One call of the buffered reader under the buffer's invariant: the byte at POS, and the invariant again. -/

namespace Sys2Proof.Machine

theorem pos_succ {p : Pos} (h : p.toNat < 2 ^ 63) : (p + 1).toNat = p.toNat + 1 := by
  rw [BitVec.toNat_add]
  have : ((1 : Pos)).toNat = 1 := rfl
  omega

theorem getElem?_getD_of_eq_some {l : List Byte} {i : Nat} {b : Byte} (h : l[i]? = some b) : l.getD i 0 = b := by
  simp [List.getD, h]

/-- A refill of an empty buffer leaves it agreeing with the stream (41_stream_locate.md R152). -/
theorem refill_bufferOk (s : State) (hs : streamOk s) (h : bufferOk s) (he : s.buf.idx = s.buf.fill) :
    bufferOk (refill s) := by
  obtain ⟨hl, -, -, hfp, hpos, -, heof0⟩ := h
  have hr : rbufSize = 1024 := rfl
  have hidx : s.buf.fill.toNat - s.buf.idx.toNat = 0 := by rw [he]; omega
  have hp : s.pos.toNat = s.buf.fpos.toNat := by omega
  have hlen : slen s < 2 ^ 63 := hs.2
  have hsl : slen s = s.stream.length := rfl
  have hrun := readRun_of_streamOk hs rbufSize s.buf.fpos (by omega) (by omega)
  have hgot : (readRun s.stream rbufSize s.buf.fpos).length = min 1024 (slen s - s.buf.fpos.toNat) := by
    rw [hrun]
    simp [hr]
  have hn := readRun_length_le s.stream rbufSize s.buf.fpos
  have hov : overlay s.buf.bytes 0 (readRun s.stream rbufSize s.buf.fpos)
      = readRun s.stream rbufSize s.buf.fpos ++ s.buf.bytes.drop (readRun s.stream rbufSize s.buf.fpos).length := by
    simp [overlay]
  have hfill : (refill s).buf.fill.toNat = (readRun s.stream rbufSize s.buf.fpos).length := by
    simp only [refill, BitVec.toNat_ofNat]
    omega
  have hfpos : (refill s).buf.fpos.toNat = s.buf.fpos.toNat + (readRun s.stream rbufSize s.buf.fpos).length := by
    simp only [refill, BitVec.toNat_add, BitVec.toNat_ofNat]
    omega
  have hi0 : (refill s).buf.idx.toNat = 0 := rfl
  refine ⟨?_, ?_, ?_, ?_, ?_, ?_, ?_⟩
  · show (overlay s.buf.bytes 0 _).length = rbufSize
    rw [overlay_length _ _ (by omega)]
    exact hl
  · omega
  · omega
  · show (refill s).buf.fpos.toNat ≤ slen s
    omega
  · rw [refill_pos]
    omega
  · intro i hi
    rw [hi0, Nat.zero_add, refill_stream, refill_pos, hp]
    have hi' : i < (readRun s.stream rbufSize s.buf.fpos).length := by omega
    have e1 : (refill s).buf.bytes = overlay s.buf.bytes 0 (readRun s.stream rbufSize s.buf.fpos) := rfl
    rw [e1, hov, read_of_streamOk hs, List.getD_eq_getElem?_getD, List.getElem?_append_left hi', hrun,
      List.getElem?_take_of_lt (by omega), List.getElem?_drop]
    have hlt : s.buf.fpos.toNat + i < (s.stream.map Prod.snd).length := by simp; omega
    rw [List.getElem?_eq_getElem hlt]
    rfl
  · intro heof
    rw [hfpos]
    show _ = slen s
    by_cases hlt : (readRun s.stream rbufSize s.buf.fpos).length < rbufSize
    · omega
    · have e2 : (refill s).buf.eof = s.buf.eof := by simp only [refill, if_neg hlt]
      rw [e2] at heof
      have hfe := heof0 heof
      omega

/-- Handing out a byte of a buffer that agrees with the stream (41_stream_locate.md R152). -/
theorem takeBuf_bufferOk (s : State) (hs : streamOk s) (h : bufferOk s) (hne : s.buf.idx ≠ s.buf.fill) :
    (takeBuf s).1 = Memory.read s.stream s.pos.toNat ∧ bufferOk (takeBuf s).2
      ∧ (takeBuf s).2.pos.toNat = s.pos.toNat + 1 ∧ s.pos.toNat < slen s := by
  obtain ⟨hl, hif, hf, hfp, hpos, hb, heof⟩ := h
  have hne' : s.buf.idx.toNat ≠ s.buf.fill.toNat := fun h => hne (BitVec.eq_of_toNat_eq h)
  have hlen : slen s < 2 ^ 63 := hs.2
  have hr : rbufSize = 1024 := rfl
  have hp1 : (s.pos + 1).toNat = s.pos.toNat + 1 := pos_succ (by omega)
  have hi1 : (s.buf.idx + 1).toNat = s.buf.idx.toNat + 1 := by
    rw [BitVec.toNat_add]
    have : ((1 : BitVec 11)).toNat = 1 := rfl
    omega
  have h0 := hb 0 (by omega)
  simp only [Nat.add_zero] at h0
  refine ⟨h0.symm, ⟨hl, ?_, hf, hfp, ?_, ?_, heof⟩, hp1, by omega⟩
  · show (s.buf.idx + 1).toNat ≤ s.buf.fill.toNat
    omega
  · show (s.pos + 1).toNat + (s.buf.fill.toNat - (s.buf.idx + 1).toNat) = s.buf.fpos.toNat
    omega
  · intro i hi
    have hi' : i < s.buf.fill.toNat - (s.buf.idx + 1).toNat := hi
    have hx := hb (i + 1) (by omega)
    show Memory.read s.stream ((s.pos + 1).toNat + i) = some (s.buf.bytes.getD ((s.buf.idx + 1).toNat + i) 0)
    rw [hp1, hi1]
    rw [show s.pos.toNat + 1 + i = s.pos.toNat + (i + 1) by omega,
      show s.buf.idx.toNat + 1 + i = s.buf.idx.toNat + (i + 1) by omega]
    exact hx

/-- One call of the buffered reader (41_stream_locate.md R152, R153): the byte of the stream at POS, POS moved by one for a
byte, and a buffer that agrees with the stream again. -/
theorem rawget_bufferOk (s : State) (hs : streamOk s) (h : bufferOk s) :
    (rawget s).1 = Memory.read s.stream s.pos.toNat ∧ bufferOk (rawget s).2
      ∧ (rawget s).2.pos.toNat = s.pos.toNat + (if (rawget s).1.isSome then 1 else 0) ∧ s.pos.toNat ≤ slen s := by
  have hle : s.pos.toNat ≤ slen s := by have := h.2.2.2.2.1; have := h.2.2.2.1; omega
  rw [rawget_eq]
  split
  · rename_i he
    have hidx : s.buf.fill.toNat - s.buf.idx.toNat = 0 := by rw [he]; omega
    have hp : s.pos.toNat = s.buf.fpos.toNat := by have := h.2.2.2.2.1; omega
    split
    · rename_i heof
      have hfe := h.2.2.2.2.2.2 heof
      refine ⟨?_, h, by simp, hle⟩
      exact ((read_none_of_streamOk hs _).mpr (by omega)).symm
    · have hro := refill_bufferOk s hs h he
      split
      · rename_i hz
        refine ⟨?_, hro, by simp, hle⟩
        refine ((read_none_of_streamOk hs _).mpr ?_).symm
        have hlen : slen s < 2 ^ 63 := hs.2
        have hsl : slen s = s.stream.length := rfl
        have hrun := readRun_of_streamOk hs rbufSize s.buf.fpos (by omega) (by decide)
        have hn := readRun_length_le s.stream rbufSize s.buf.fpos
        have hr : rbufSize = 1024 := rfl
        have hfill : (refill s).buf.fill.toNat = (readRun s.stream rbufSize s.buf.fpos).length := by
          simp only [refill, BitVec.toNat_ofNat]
          omega
        rw [hz, hrun] at hfill
        simp [hr] at hfill
        omega
      · rename_i hz
        have ht := takeBuf_bufferOk (refill s) hs hro fun hx => hz (by rw [← hx]; rfl)
        refine ⟨ht.1, ht.2.1, ?_, hle⟩
        rw [ht.2.2.1]
        simp [takeBuf]
  · rename_i hne
    have ht := takeBuf_bufferOk s hs h hne
    refine ⟨ht.1, ht.2.1, ?_, hle⟩
    rw [ht.2.2.1]
    simp [takeBuf]

/-- What a decode keeps of the stream's side: the stream, a buffer that agrees with it, and POS from some offset on. -/
def readK (p : Nat) (s : State) : Prop := streamOk s ∧ bufferOk s ∧ p ≤ s.pos.toNat

theorem readK_closed (p : Nat) : DecodeClosed (readK p) where
  raw s h := by
    obtain ⟨hs, hb, hp⟩ := h
    have hr := rawget_bufferOk s hs hb
    refine ⟨?_, hr.2.1, by rw [hr.2.2.1]; omega⟩
    rw [rawget_frame s]
    exact hs
  free s t h ht := by
    rw [ht]
    exact h

/-- How many raw characters the buffered reader can still hand out, in any state of the buffer (60_exceptions.md R281). -/
def charsLeft (s : State) : Nat :=
  (s.buf.fill - s.buf.idx).toNat + if s.buf.eof then 0 else slen s - s.buf.fpos.toNat

/-- It is within the bound the model puts on its loops. -/
theorem charsLeft_lt_streamFuel (s : State) : charsLeft s < streamFuel s - 1 := by
  have h := (s.buf.fill - s.buf.idx).isLt
  unfold charsLeft streamFuel
  have hl : slen s = s.stream.length := rfl
  split <;> omega

/-- A block of the stream read from an offset on, in any state: as long as the stream gives bytes. -/
theorem readRun_length (s : State) (hs : streamOk s) (n : Nat) (a : Pos) (hn : n < 2 ^ 62) :
    (readRun s.stream n a).length = min n (slen s - a.toNat) := by
  have hlen : slen s < 2 ^ 63 := hs.2
  by_cases ha : a.toNat ≤ 2 ^ 63
  · rw [readRun_of_streamOk hs n a ha hn]
    simp
  · have hz : slen s - a.toNat = 0 := by omega
    rw [hz, Nat.min_zero]
    cases n with
    | zero => rfl
    | succ n =>
      have hr : Memory.read s.stream a.toNat = none := (read_none_of_streamOk hs _).mpr (by omega)
      simp [readRun, hr]

/-- A byte handed out is one fewer to come. -/
theorem rawget_charsLeft (s : State) (hs : streamOk s) (h : (rawget s).1.isSome = true) :
    charsLeft (rawget s).2 < charsLeft s := by
  have take : ∀ u : State, u.buf.idx ≠ u.buf.fill → charsLeft (takeBuf u).2 < charsLeft u := by
    intro u hu
    have hd : (u.buf.fill - (u.buf.idx + 1)).toNat + 1 = (u.buf.fill - u.buf.idx).toNat := by bv_omega
    show (u.buf.fill - (u.buf.idx + 1)).toNat + (if u.buf.eof then 0 else slen u - u.buf.fpos.toNat) < charsLeft u
    unfold charsLeft
    omega
  rw [rawget_eq] at h ⊢
  split at h
  · rename_i he
    split at h
    · simp at h
    · rename_i heof
      split at h
      · simp at h
      · rename_i hz
        rw [if_pos he, if_neg heof, if_neg hz]
        refine Nat.lt_of_lt_of_le (take (refill s) fun hx => hz (by rw [← hx]; rfl)) ?_
        have hlen : slen s < 2 ^ 63 := hs.2
        have hrun := readRun_length s hs rbufSize s.buf.fpos (by decide)
        have hr : rbufSize = 1024 := rfl
        have hfill : ((refill s).buf.fill - (refill s).buf.idx).toNat = (readRun s.stream rbufSize s.buf.fpos).length := by
          show (BitVec.ofNat 11 _ - 0#11).toNat = _
          rw [BitVec.sub_zero, BitVec.toNat_ofNat]
          omega
        have hfp : (refill s).buf.fpos.toNat
            = (s.buf.fpos.toNat + (readRun s.stream rbufSize s.buf.fpos).length) % 2 ^ 64 := by
          simp only [refill, BitVec.toNat_add, BitVec.toNat_ofNat]
          omega
        have hb := s.buf.fpos.isLt
        have he0 : s.buf.eof = false := by simpa using heof
        unfold charsLeft
        rw [hfill, he0]
        show _ + (if (refill s).buf.eof then 0 else slen s - _) ≤ _
        split
        · simp
          omega
        · rw [hfp]
          simp
          omega
  · rename_i hne
    rw [if_neg hne]
    exact take s hne

end Sys2Proof.Machine
end

