-- ==== Sys2Proof/Laws/Parser.lean ====
section
/-! SUPPORT. What the record parser and the decode stack (41_stream_locate.md R150) do not share: the stack does not read the
CRC, the sinks, the `BH_*` registers and BH_VALID, so a call of it answers the same with other values there. And how a call
of the stack stops, and calls in a row. -/

namespace Sys2Proof.Machine

/-- The registers the record parser writes and the decode stack does not read. -/
structure ParserRegs where
  crc : Half
  sinkD : List Byte
  sinkR : List Byte
  bh : BinHexRegs
  bhValid : Bool
deriving DecidableEq, Repr

/-- A state with other values in them. -/
def State.withParser (k : ParserRegs) (s : State) : State :=
  { s with crc := k.crc, sinkD := k.sinkD, sinkR := k.sinkR, bh := k.bh, bhValid := k.bhValid }

/-- Every state has its own. -/
theorem State.withParser_self (s : State) : s = s.withParser ⟨s.crc, s.sinkD, s.sinkR, s.bh, s.bhValid⟩ := rfl

/-- An answer, its state changed. -/
def Res.onState {α : Type} (g : State → State) : Res α → Res α
  | .ok a s => .ok a (g s)
  | .stop s => .stop (g s)

theorem Res.onState_bind {α β : Type} {g : State → State} (r : Res α) (f : α → State → Res β)
    (h : ∀ a s, f a (g s) = (f a s).onState g) : (r.onState g).bind f = (r.bind f).onState g := by
  cases r with
  | ok a s => exact h a s
  | stop s => rfl

theorem rawget_withParser (k : ParserRegs) (s : State) :
    rawget (s.withParser k) = ((rawget s).1, (rawget s).2.withParser k) := by
  have hb : (s.withParser k).buf = s.buf := rfl
  have hr : refill (s.withParser k) = (refill s).withParser k := rfl
  have ht : ∀ u : State, takeBuf (u.withParser k) = ((takeBuf u).1, (takeBuf u).2.withParser k) := fun _ => rfl
  have hf : ((refill s).withParser k).buf = (refill s).buf := rfl
  rw [rawget_eq, rawget_eq, hb, hr, ht, ht, hf]
  split
  · split
    · rfl
    · split <;> rfl
  · rfl

theorem sextet_withParser (k : ParserRegs) (n : Nat) (s : State) :
    sextet n (s.withParser k) = (sextet n s).onState (State.withParser k) := by
  induction n generalizing s with
  | zero => rfl
  | succ n ih =>
    simp only [sextet, rawget_withParser]
    generalize rawget s = p
    obtain ⟨o, u⟩ := p
    cases o with
    | none => rfl
    | some c =>
      simp only
      split
      · rfl
      · exact ih u
      · rfl
      · rfl

theorem collect_withParser (k : ParserRegs) (n : Nat) (s : State) :
    collect n (s.withParser k) = (collect n s).onState (State.withParser k) := by
  induction n generalizing s with
  | zero => rfl
  | succ n ih =>
    have hf : streamFuel (s.withParser k) = streamFuel s := rfl
    simp only [collect, hf, sextet_withParser]
    refine Res.onState_bind _ _ fun a s => ?_
    cases a with
    | none => rfl
    | some v => exact ih (pushSextet v s)

theorem fillring_withParser (k : ParserRegs) (s : State) :
    fillring (s.withParser k) = (fillring s).onState (State.withParser k) := by
  have hg : ({ s.withParser k with grp := [] } : State) = State.withParser k { s with grp := [] } := rfl
  simp only [fillring]
  rw [hg, collect_withParser]
  exact Res.onState_bind _ _ fun _ _ => rfl

theorem rawbyte_withParser (k : ParserRegs) (s : State) :
    rawbyte (s.withParser k) = (rawbyte s).onState (State.withParser k) := by
  have hr : ∀ u : State, (u.withParser k).ring = u.ring := fun _ => rfl
  have hl : (s.withParser k).lend = s.lend := rfl
  unfold rawbyte
  rw [hr, hl, fillring_withParser]
  split
  · split
    · rfl
    · refine Res.onState_bind _ _ fun _ u => ?_
      rw [hr]
      split <;> rfl
  · rfl

theorem countOne_withParser (k : ParserRegs) (s : State) :
    countOne (s.withParser k) = (countOne s).onState (State.withParser k) := by
  have hp : (s.withParser k).par = s.par := rfl
  unfold countOne
  rw [hp]
  split <;> rfl

theorem decbyteLoop_withParser (k : ParserRegs) (n : Nat) (s : State) :
    decbyteLoop n (s.withParser k) = (decbyteLoop n s).onState (State.withParser k) := by
  induction n generalizing s with
  | zero => rfl
  | succ n ih =>
    have hp : (s.withParser k).rptCnt = s.rptCnt := rfl
    simp only [decbyteLoop, hp]
    split
    · rfl
    · rw [rawbyte_withParser]
      refine Res.onState_bind _ _ fun b u => ?_
      split
      · rfl
      · rw [rawbyte_withParser]
        refine Res.onState_bind _ _ fun m u => ?_
        split
        · rfl
        · split
          · rw [countOne_withParser]
            refine Res.onState_bind _ _ fun r u => ?_
            cases r with
            | none => exact ih u
            | some c => rfl
          · rfl

/-- The next decoded byte does not depend on what the record parser holds. -/
theorem nextDecoded_withParser (k : ParserRegs) (s : State) :
    nextDecoded (s.withParser k) = (nextDecoded s).onState (State.withParser k) := by
  have hd : (s.withParser k).dbuf = s.dbuf := rfl
  unfold nextDecoded
  rw [hd]
  split
  · rfl
  · exact decbyteLoop_withParser k _ s

/-- `GETC` (44_crc16.md R182), with the parser's registers named. -/
theorem getc_withParser (k : ParserRegs) {s v : State} {b : Byte} (h : nextDecoded s = .ok b v) :
    getc (s.withParser k) = .ok b (v.withParser { k with crc := crcByte k.crc b }) := by
  unfold getc
  rw [nextDecoded_withParser, h]
  rfl

theorem getc_withParser_stop (k : ParserRegs) {s t : State} (h : nextDecoded s = .stop t) :
    getc (s.withParser k) = .stop (t.withParser k) := by
  unfold getc
  rw [nextDecoded_withParser, h]
  rfl

/-- `GETC0` (44_crc16.md R183), with the parser's registers named. -/
theorem getc0_withParser (k : ParserRegs) {s v : State} {b : Byte} (h : nextDecoded s = .ok b v) :
    getc0 (s.withParser k) = .ok b (v.withParser { k with crc := crcByte k.crc 0 }) := by
  unfold getc0
  rw [nextDecoded_withParser, h]
  rfl

theorem getc0_withParser_stop (k : ParserRegs) {s t : State} (h : nextDecoded s = .stop t) :
    getc0 (s.withParser k) = .stop (t.withParser k) := by
  unfold getc0
  rw [nextDecoded_withParser, h]
  rfl

theorem stackFrame_trans {s t u : State} (h : stackFrame s t) (h' : stackFrame t u) : stackFrame s u := by
  unfold stackFrame at *
  rw [h', h]

/-- A call of the decode stack from `s` stopped at `t`, by an error of its own. -/
def stackStops (s t : State) : Prop := ∃ c e f w, t = fatal c e f w ∧ decodeError c e f ∧ stackFrame s w

theorem stackStops_of {s u t : State} (hu : stackFrame s u) (h : stackStops u t) : stackStops s t := by
  obtain ⟨c, e, f, w, h1, h2, h3⟩ := h
  exact ⟨c, e, f, w, h1, h2, stackFrame_trans hu h3⟩

theorem stackStops_end {s : State} : stackStops s (fatal .streamEnd 1 0 s) := ⟨_, _, _, _, rfl, .inl ⟨rfl, rfl, rfl⟩, rfl⟩

/-- What every call of the decode stack does: it goes on within the stack's frame, or stops by an error of its own. -/
abbrev stackDoes {α : Type} (s : State) (r : Res α) : Prop := r.meets (fun _ t => stackFrame s t) (stackStops s)

theorem stackDoes_of {α : Type} {s u : State} {r : Res α} (hu : stackFrame s u) (h : stackDoes u r) : stackDoes s r :=
  Res.meets_mono h (fun _ _ h => stackFrame_trans hu h) fun _ h => stackStops_of hu h

theorem stackDoes_bind {α β : Type} {s : State} {r : Res α} {f : α → State → Res β} (h : stackDoes s r)
    (hf : ∀ a t, stackFrame s t → stackDoes t (f a t)) : stackDoes s (r.bind f) :=
  Res.meets_bind h fun a t ht => stackDoes_of ht (hf a t ht)

theorem sextet_does (n : Nat) (s : State) : stackDoes s (sextet n s) := by
  induction n generalizing s with
  | zero => exact rfl
  | succ n ih =>
    have hr := (stackFrame_closed s).raw s rfl
    simp only [sextet]
    generalize rawget s = p at hr ⊢
    obtain ⟨o, u⟩ := p
    cases o with
    | none => exact hr
    | some c =>
      simp only
      split
      · exact hr
      · exact stackDoes_of hr (ih u)
      · exact hr
      · rename_i hx
        exact ⟨_, _, _, _, rfl, .inr (.inl ⟨rfl, rfl, c, hx, rfl⟩), hr⟩

theorem collect_does (n : Nat) (s : State) : stackDoes s (collect n s) := by
  induction n generalizing s with
  | zero => exact rfl
  | succ n ih =>
    refine stackDoes_bind (sextet_does _ s) fun r t _ => ?_
    cases r with
    | none => exact rfl
    | some v => exact stackDoes_of (show stackFrame t (pushSextet v t) from rfl) (ih _)

theorem fillring_does (s : State) : stackDoes s (fillring s) :=
  stackDoes_bind (stackDoes_of (show stackFrame s { s with grp := [] } from rfl) (collect_does 4 _)) fun _ _ _ => rfl

theorem rawbyte_does (s : State) : stackDoes s (rawbyte s) := by
  unfold rawbyte
  split
  · split
    · exact stackStops_end
    · refine stackDoes_bind (fillring_does s) fun _ t _ => ?_
      split
      · exact stackStops_end
      · exact rfl
  · exact rfl

theorem decbyteLoop_does (n : Nat) (s : State) : stackDoes s (decbyteLoop n s) := by
  induction n generalizing s with
  | zero => exact stackStops_end
  | succ n ih =>
    simp only [decbyteLoop]
    split
    · exact rfl
    · refine stackDoes_bind (rawbyte_does s) fun b t _ => ?_
      split
      · exact rfl
      · refine stackDoes_bind (rawbyte_does t) fun m u _ => ?_
        split
        · exact rfl
        · split
          · unfold countOne
            split
            · exact rfl
            · exact stackDoes_of (show stackFrame u { u with rptCnt := 0 } from rfl) (ih _)
            · exact ⟨_, _, _, _, rfl, .inr (.inr ⟨rfl, rfl, rfl⟩), rfl⟩
          · exact rfl

/-- The next decoded byte: within the stack's frame, or an error of the stack's own. -/
theorem nextDecoded_does (s : State) : stackDoes s (nextDecoded s) := by
  unfold nextDecoded
  split
  · exact rfl
  · exact decbyteLoop_does _ s

/-- Calls in a row, cut in two. -/
theorem calls_append (op : State → Res Byte) (xs ys : List Byte) (s v : State)
    (h : calls op (xs.length + ys.length) s = .ok (xs ++ ys) v) :
    ∃ u, calls op xs.length s = .ok xs u ∧ calls op ys.length u = .ok ys v := by
  induction xs generalizing s with
  | nil => exact ⟨s, rfl, by simpa using h⟩
  | cons b r ih =>
    have e : (b :: r).length + ys.length = (r.length + ys.length) + 1 := by
      rw [List.length_cons]
      omega
    rw [e] at h
    simp only [calls] at h
    obtain ⟨b', s1, h1, h2⟩ := Res.bind_eq_ok.mp h
    obtain ⟨r', s2, h3, h4⟩ := Res.bind_eq_ok.mp h2
    cases h4
    obtain ⟨u, hx, hy⟩ := ih s1 h3
    exact ⟨u, by simp [calls, h1, hx], hy⟩

/-- Decoded bytes in a row stay within the stack's frame. -/
theorem calls_nextDecoded_frame (n : Nat) (s v : State) (g : List Byte) (h : calls nextDecoded n s = .ok g v) :
    stackFrame s v := by
  induction n generalizing s g with
  | zero => cases h; exact rfl
  | succ n ih =>
    simp only [calls] at h
    obtain ⟨b, s1, h1, h2⟩ := Res.bind_eq_ok.mp h
    obtain ⟨r, s2, h3, h4⟩ := Res.bind_eq_ok.mp h2
    cases h4
    have h5 := nextDecoded_does s
    rw [h1] at h5
    exact stackFrame_trans h5 (ih _ _ h3)

end Sys2Proof.Machine
end

