-- ==== Sys2Proof/Laws/PerInstr.lean ====
section
/-! SUPPORT. A family of statements over every instruction, one lemma per constructor: the encoder writes as many bytes
as the row's format has. -/

namespace Sys2Proof.Laws.EncodedLength

/-- The number of bytes of a row (30_encoding.md R100, R108, R109, R111, R112, R117 to R122). -/
def rowBytes (i : Instr) : Nat :=
  match spaceOf i with
  | .command | .rawChar | .method => 1
  | .locate => 2
  | .group => 3
  | .rawByte => if i = .rleLiteral ((encode i).headD 0) then 1 else 2
  | .bhxHeader => 22 + ((encode i).headD 0).toNat
  | .bhxFork n => n + 2
  | .sitHeader => 22
  | .sitEntry => 112
  | .magic1 | .magic2 | .typeCode => 4

/-- A well-formed instruction is written in its row's number of bytes. -/
def Statement (i : Instr) : Prop := wellFormed i = true → (encode i).length = rowBytes i

theorem openBhx : Statement .openBhx := fun _ => rfl

theorem openSit : Statement .openSit := fun _ => rfl

theorem close : Statement .close := fun _ => rfl

theorem bhxHdr : Statement .bhxHdr := fun _ => rfl

theorem bhxData : Statement .bhxData := fun _ => rfl

theorem bhxRsrc : Statement .bhxRsrc := fun _ => rfl

theorem sitHdr : Statement .sitHdr := fun _ => rfl

theorem sitNext : Statement .sitNext := fun _ => rfl

theorem sitIsenc : Statement .sitIsenc := fun _ => rfl

theorem sitIsfst : Statement .sitIsfst := fun _ => rfl

theorem sitIsfend : Statement .sitIsfend := fun _ => rfl

theorem sitIsapp : Statement .sitIsapp := fun _ => rfl

theorem sitCsize : Statement .sitCsize := fun _ => rfl

theorem sitUsize : Statement .sitUsize := fun _ => rfl

theorem sitMtime : Statement .sitMtime := fun _ => rfl

theorem xlit : Statement .xlit := fun _ => rfl

theorem reservedCommand (c : Byte) : Statement (.reservedCommand c) := fun _ => rfl

theorem chSextet0 : Statement .chSextet0 := fun _ => rfl

theorem chSextet1 : Statement .chSextet1 := fun _ => rfl

theorem chSextet2 : Statement .chSextet2 := fun _ => rfl

theorem chSextet3 : Statement .chSextet3 := fun _ => rfl

theorem chSextet4 : Statement .chSextet4 := fun _ => rfl

theorem chSextet5 : Statement .chSextet5 := fun _ => rfl

theorem chSextet6 : Statement .chSextet6 := fun _ => rfl

theorem chSextet7 : Statement .chSextet7 := fun _ => rfl

theorem chSextet8 : Statement .chSextet8 := fun _ => rfl

theorem chSextet9 : Statement .chSextet9 := fun _ => rfl

theorem chSextet10 : Statement .chSextet10 := fun _ => rfl

theorem chSextet11 : Statement .chSextet11 := fun _ => rfl

theorem chSextet12 : Statement .chSextet12 := fun _ => rfl

theorem chSextet13 : Statement .chSextet13 := fun _ => rfl

theorem chSextet14 : Statement .chSextet14 := fun _ => rfl

theorem chSextet15 : Statement .chSextet15 := fun _ => rfl

theorem chSextet16 : Statement .chSextet16 := fun _ => rfl

theorem chSextet17 : Statement .chSextet17 := fun _ => rfl

theorem chSextet18 : Statement .chSextet18 := fun _ => rfl

theorem chSextet19 : Statement .chSextet19 := fun _ => rfl

theorem chSextet20 : Statement .chSextet20 := fun _ => rfl

theorem chSextet21 : Statement .chSextet21 := fun _ => rfl

theorem chSextet22 : Statement .chSextet22 := fun _ => rfl

theorem chSextet23 : Statement .chSextet23 := fun _ => rfl

theorem chSextet24 : Statement .chSextet24 := fun _ => rfl

theorem chSextet25 : Statement .chSextet25 := fun _ => rfl

theorem chSextet26 : Statement .chSextet26 := fun _ => rfl

theorem chSextet27 : Statement .chSextet27 := fun _ => rfl

theorem chSextet28 : Statement .chSextet28 := fun _ => rfl

theorem chSextet29 : Statement .chSextet29 := fun _ => rfl

theorem chSextet30 : Statement .chSextet30 := fun _ => rfl

theorem chSextet31 : Statement .chSextet31 := fun _ => rfl

theorem chSextet32 : Statement .chSextet32 := fun _ => rfl

theorem chSextet33 : Statement .chSextet33 := fun _ => rfl

theorem chSextet34 : Statement .chSextet34 := fun _ => rfl

theorem chSextet35 : Statement .chSextet35 := fun _ => rfl

theorem chSextet36 : Statement .chSextet36 := fun _ => rfl

theorem chSextet37 : Statement .chSextet37 := fun _ => rfl

theorem chSextet38 : Statement .chSextet38 := fun _ => rfl

theorem chSextet39 : Statement .chSextet39 := fun _ => rfl

theorem chSextet40 : Statement .chSextet40 := fun _ => rfl

theorem chSextet41 : Statement .chSextet41 := fun _ => rfl

theorem chSextet42 : Statement .chSextet42 := fun _ => rfl

theorem chSextet43 : Statement .chSextet43 := fun _ => rfl

theorem chSextet44 : Statement .chSextet44 := fun _ => rfl

theorem chSextet45 : Statement .chSextet45 := fun _ => rfl

theorem chSextet46 : Statement .chSextet46 := fun _ => rfl

theorem chSextet47 : Statement .chSextet47 := fun _ => rfl

theorem chSextet48 : Statement .chSextet48 := fun _ => rfl

theorem chSextet49 : Statement .chSextet49 := fun _ => rfl

theorem chSextet50 : Statement .chSextet50 := fun _ => rfl

theorem chSextet51 : Statement .chSextet51 := fun _ => rfl

theorem chSextet52 : Statement .chSextet52 := fun _ => rfl

theorem chSextet53 : Statement .chSextet53 := fun _ => rfl

theorem chSextet54 : Statement .chSextet54 := fun _ => rfl

theorem chSextet55 : Statement .chSextet55 := fun _ => rfl

theorem chSextet56 : Statement .chSextet56 := fun _ => rfl

theorem chSextet57 : Statement .chSextet57 := fun _ => rfl

theorem chSextet58 : Statement .chSextet58 := fun _ => rfl

theorem chSextet59 : Statement .chSextet59 := fun _ => rfl

theorem chSextet60 : Statement .chSextet60 := fun _ => rfl

theorem chSextet61 : Statement .chSextet61 := fun _ => rfl

theorem chSextet62 : Statement .chSextet62 := fun _ => rfl

theorem chSextet63 : Statement .chSextet63 := fun _ => rfl

theorem chSkipLf : Statement .chSkipLf := fun _ => rfl

theorem chSkipCr : Statement .chSkipCr := fun _ => rfl

theorem chTerm : Statement .chTerm := fun _ => rfl

theorem chInvalid (c : Byte) : Statement (.chInvalid c) := fun _ => rfl

theorem locateStart (c : Byte) : Statement (.locateStart c) := fun _ => rfl

theorem grpPack (s0 s1 s2 s3 : Sextet) : Statement (.grpPack s0 s1 s2 s3) := fun _ => rfl

theorem rleLiteral (b : Byte) : Statement (.rleLiteral b) := by
  simp [Statement, rowBytes, spaceOf, encode]

theorem rleMarkLiteral : Statement .rleMarkLiteral := by
  simp [Statement, rowBytes, spaceOf, encode]

theorem rleCount1 : Statement .rleCount1 := by
  simp [Statement, rowBytes, spaceOf, encode]

theorem rleRun (n : Byte) : Statement (.rleRun n) := by
  simp [Statement, rowBytes, spaceOf, encode]

theorem recBhxhdr (r : BhxHeaderRec) : Statement (.recBhxhdr r) := by
  intro h
  simp only [wellFormed, beq_iff_eq] at h
  simp [rowBytes, spaceOf, encode, bytes16, bytes32, h]
  omega

theorem recBhxfork (r : BhxForkRec) : Statement (.recBhxfork r) := by
  simp [Statement, rowBytes, spaceOf, encode, bytes16]

theorem recSithdr22 (r : SitHeaderRec) : Statement (.recSithdr22 r) := by
  intro h
  simp only [wellFormed, beq_iff_eq] at h
  simp [rowBytes, spaceOf, encode, bytes16, bytes32, h]

theorem magic1Sit : Statement .magic1Sit := fun _ => rfl

theorem magic1St46 : Statement .magic1St46 := fun _ => rfl

theorem magic1St50 : Statement .magic1St50 := fun _ => rfl

theorem magic1St60 : Statement .magic1St60 := fun _ => rfl

theorem magic1St65 : Statement .magic1St65 := fun _ => rfl

theorem magic1Stin : Statement .magic1Stin := fun _ => rfl

theorem magic1Sti2 : Statement .magic1Sti2 := fun _ => rfl

theorem magic1Sti3 : Statement .magic1Sti3 := fun _ => rfl

theorem magic1Sti4 : Statement .magic1Sti4 := fun _ => rfl

theorem magic1Other (m : Word) : Statement (.magic1Other m) := fun _ => rfl

theorem magic2Rlau : Statement .magic2Rlau := fun _ => rfl

theorem recSitent112 (r : SitEntryRec) : Statement (.recSitent112 r) := by
  intro h
  simp only [wellFormed, Bool.and_eq_true, beq_iff_eq] at h
  simp [rowBytes, spaceOf, encode, bytes16, bytes32, h]

theorem methEncrypted : Statement .methEncrypted := fun _ => rfl

theorem methFolderStart : Statement .methFolderStart := fun _ => rfl

theorem methFolderEnd : Statement .methFolderEnd := fun _ => rfl

theorem methOther (m : Byte) : Statement (.methOther m) := fun _ => rfl

theorem typeAppl : Statement .typeAppl := fun _ => rfl

end Sys2Proof.Laws.EncodedLength
end

