-- ==== Sys2Proof/Tests/Slice0.lean ====
section
/-! SUPPORT. Tests on fixed values: ill-formed terms, words written out from the encodings of 30_encoding.md, the vectors of
95_test_vectors.md, and for every statement with hypotheses a state and operands that meet them. -/

namespace Sys2Proof.Tests

set_option Elab.async false

open Sys2Proof Sys2Proof.Machine

/-! Well-formedness: one ill-formed term for each check. -/

theorem test_ill_reserved_named_code : wellFormed (.reservedCommand 0x10) = false := by decide

theorem test_ill_invalid_sextet : wellFormed (.chInvalid 0x21) = false := by decide

theorem test_ill_start_before_no_alphabet : wellFormed (.locateStart 0x37) = false := by decide

theorem test_ill_literal_marker : wellFormed (.rleLiteral 0x90) = false := by decide

theorem test_ill_run_of_one : wellFormed (.rleRun 1) = false := by decide

/-- A name of one byte. -/
def header1 : BhxHeaderRec :=
  { len := 1, name := [0x6E], tm := 0, typ := 0x54595045, creator := 0x43524541, flags := 0x1234, dlen := 0, rlen := 0,
    hcrc := 0 }

theorem test_ill_header_name : wellFormed (.recBhxhdr { header1 with len := 2 }) = false := by decide

theorem test_ill_fork_body : wellFormed (.recBhxfork { body := List.replicate (2 ^ 31) 0, crc := 0 }) = false := by
  simp only [wellFormed, List.length_replicate]
  decide

/-- Vector A1 of 95_test_vectors.md section 2.8, cut into its fields. -/
def archive1 : SitHeaderRec :=
  { magic1 := 0x53495421, count := 1, len := 134, magic2 := 0x724C6175, ver := 1, unused := [0, 0, 0, 0, 0, 0, 0] }

theorem test_ill_archive_unused : wellFormed (.recSithdr22 { archive1 with unused := [] }) = false := by decide

/-- An entry record, every field another value. -/
def entry1 : SitEntryRec :=
  { rmeth := 13, dmeth := 14, namelen := 2, name := 0x52 :: 0x87 :: List.replicate 61 0, typ := 0x4150504C,
    creator := 0x522A6368, flags := 0x2100, cdate := 0xB1234567, mdate := 0xB89ABCDE, rlen := 300, dlen := 700, crlen := 5,
    cdlen := 8, rcrc := 0x1111, dcrc := 0x2222, unused := [1, 2, 3, 4, 5, 6], hcrc := 0x3333 }

theorem test_ill_entry_name : wellFormed (.recSitent112 { entry1 with name := [] }) = false := by decide

theorem test_ill_entry_unused : wellFormed (.recSitent112 { entry1 with unused := [] }) = false := by decide

theorem test_ill_other_magic : wellFormed (.magic1Other 0x53546934) = false := by decide

theorem test_ill_other_method : [0x10, 0x20, 0x21].map (fun m => wellFormed (.methOther m)) = [false, false, false] := by
  decide

/-! Decoding: the words are written out from R102, R105, R106, R108, R109, R111, R112, R117 to R122. -/

theorem test_decode_commands :
    [0x01, 0x02, 0x03, 0x10, 0x11, 0x12, 0x20, 0x21, 0x28, 0x29, 0x2A, 0x2B, 0x2C, 0x2D, 0x2E, 0x30].map decodeCommand
      = [.openBhx, .openSit, .close, .bhxHdr, .bhxData, .bhxRsrc, .sitHdr, .sitNext, .sitIsenc, .sitIsfst, .sitIsfend,
          .sitIsapp, .sitCsize, .sitUsize, .sitMtime, .xlit] := by decide

/-- R103: both ends of every reserved range. -/
theorem test_decode_reserved :
    [0x00, 0x04, 0x0F, 0x13, 0x1F, 0x22, 0x27, 0x2F, 0x31, 0xFF].map decodeCommand
      = [.reservedCommand 0x00, .reservedCommand 0x04, .reservedCommand 0x0F, .reservedCommand 0x13, .reservedCommand 0x1F,
          .reservedCommand 0x22, .reservedCommand 0x27, .reservedCommand 0x2F, .reservedCommand 0x31,
          .reservedCommand 0xFF] := by decide

/-- R105, values 0 to 15. -/
theorem test_decode_sextets_0 :
    [0x21, 0x22, 0x23, 0x24, 0x25, 0x26, 0x27, 0x28, 0x29, 0x2A, 0x2B, 0x2C, 0x2D, 0x30, 0x31, 0x32].map decodeChar
      = [.chSextet0, .chSextet1, .chSextet2, .chSextet3, .chSextet4, .chSextet5, .chSextet6, .chSextet7, .chSextet8,
          .chSextet9, .chSextet10, .chSextet11, .chSextet12, .chSextet13, .chSextet14, .chSextet15] := by decide

/-- R105, values 16 to 31. -/
theorem test_decode_sextets_16 :
    [0x33, 0x34, 0x35, 0x36, 0x38, 0x39, 0x40, 0x41, 0x42, 0x43, 0x44, 0x45, 0x46, 0x47, 0x48, 0x49].map decodeChar
      = [.chSextet16, .chSextet17, .chSextet18, .chSextet19, .chSextet20, .chSextet21, .chSextet22, .chSextet23, .chSextet24,
          .chSextet25, .chSextet26, .chSextet27, .chSextet28, .chSextet29, .chSextet30, .chSextet31] := by decide

/-- R105, values 32 to 47. -/
theorem test_decode_sextets_32 :
    [0x4A, 0x4B, 0x4C, 0x4D, 0x4E, 0x50, 0x51, 0x52, 0x53, 0x54, 0x55, 0x56, 0x58, 0x59, 0x5A, 0x5B].map decodeChar
      = [.chSextet32, .chSextet33, .chSextet34, .chSextet35, .chSextet36, .chSextet37, .chSextet38, .chSextet39, .chSextet40,
          .chSextet41, .chSextet42, .chSextet43, .chSextet44, .chSextet45, .chSextet46, .chSextet47] := by decide

/-- R105, values 48 to 63. -/
theorem test_decode_sextets_48 :
    [0x60, 0x61, 0x62, 0x63, 0x64, 0x65, 0x66, 0x68, 0x69, 0x6A, 0x6B, 0x6C, 0x6D, 0x70, 0x71, 0x72].map decodeChar
      = [.chSextet48, .chSextet49, .chSextet50, .chSextet51, .chSextet52, .chSextet53, .chSextet54, .chSextet55, .chSextet56,
          .chSextet57, .chSextet58, .chSextet59, .chSextet60, .chSextet61, .chSextet62, .chSextet63] := by decide

/-- R106: the examples of 95_test_vectors.md section 2.2. -/
theorem test_decode_other_characters :
    [0x0A, 0x0D, 0x3A, 0x20, 0x09, 0x00, 0x37, 0x4F, 0x73, 0x7F, 0x80, 0xFF].map decodeChar
      = [.chSkipLf, .chSkipCr, .chTerm, .chInvalid 0x20, .chInvalid 0x09, .chInvalid 0x00, .chInvalid 0x37,
          .chInvalid 0x4F, .chInvalid 0x73, .chInvalid 0x7F, .chInvalid 0x80, .chInvalid 0xFF] := by decide

/-- R155: `:` then `!`; then `:` then `7`. -/
theorem test_decode_start :
    decode .locate [0x3A, 0x21] = .ok (.locateStart 0x21, []) ∧ decode .locate [0x3A, 0x37] = .error .notStart :=
  ⟨rfl, rfl⟩

/-- R108: sextets 1, 7, 17, 37 are the bytes 04 74 65 (95_test_vectors.md section 2.2). -/
theorem test_decode_group : decode .group [0x04, 0x74, 0x65] = .ok (.grpPack 1 7 17 37, []) := rfl

/-- R109. -/
theorem test_decode_raw_bytes :
    decode .rawByte [0x41, 0x90] = .ok (.rleLiteral 0x41, [0x90]) ∧ decode .rawByte [0x90, 0x00] = .ok (.rleMarkLiteral, [])
      ∧ decode .rawByte [0x90, 0x01] = .ok (.rleCount1, []) ∧ decode .rawByte [0x90, 0xFF] = .ok (.rleRun 0xFF, [])
      ∧ decode .rawByte [0x90] = .error .tooShort :=
  ⟨rfl, rfl, rfl, rfl, rfl⟩

/-- The 26 header bytes of program P1 (95_test_vectors.md section 3). -/
def bytesP1 : List Byte :=
  [0x04, 0x74, 0x65, 0x73, 0x74, 0x00, 0x54, 0x45, 0x58, 0x54, 0x74, 0x74, 0x78, 0x74, 0x00, 0x00, 0x00, 0x00, 0x00, 0x05,
   0x00, 0x00, 0x00, 0x00, 0xB0, 0x64]

/-- The header of program P1. -/
def headerP1 : BhxHeaderRec :=
  { len := 4, name := [0x74, 0x65, 0x73, 0x74], tm := 0x00, typ := 0x54455854, creator := 0x74747874, flags := 0, dlen := 5,
    rlen := 0, hcrc := 0xB064 }

theorem test_decode_header : decode .bhxHeader (bytesP1 ++ [0x68]) = .ok (.recBhxhdr headerP1, [0x68]) := rfl

/-- The data fork of program P1. -/
theorem test_decode_fork :
    decode (.bhxFork 5) [0x68, 0x65, 0x6C, 0x6C, 0x6F, 0xC3, 0x62]
      = .ok (.recBhxfork { body := [0x68, 0x65, 0x6C, 0x6C, 0x6F], crc := 0xC362 }, []) := rfl

/-- Vector A1 (95_test_vectors.md section 2.8). -/
def bytesA1 : List Byte :=
  [0x53, 0x49, 0x54, 0x21, 0x00, 0x01, 0x00, 0x00, 0x00, 0x86, 0x72, 0x4C, 0x61, 0x75, 0x01, 0x00, 0x00, 0x00, 0x00, 0x00,
   0x00, 0x00]

theorem test_decode_archive : decode .sitHeader bytesA1 = .ok (.recSithdr22 archive1, []) := rfl

/-- R118: `SIT!`, `ST46`, `ST50`, `ST60`, `ST65`, `STin`, `STi2`, `STi3`, `STi4`, and `SIT?`. -/
theorem test_decode_magic1 :
    [0x53495421, 0x53543436, 0x53543530, 0x53543630, 0x53543635, 0x5354696E, 0x53546932, 0x53546933, 0x53546934,
        0x5349543F].map decodeMagic1
      = [.magic1Sit, .magic1St46, .magic1St50, .magic1St60, .magic1St65, .magic1Stin, .magic1Sti2, .magic1Sti3, .magic1Sti4,
          .magic1Other 0x5349543F] := by decide

theorem test_decode_magic2 :
    decode .magic2 [0x72, 0x4C, 0x61, 0x75] = .ok (.magic2Rlau, [])
      ∧ decode .magic2 [0x72, 0x4C, 0x41, 0x75] = .error .notMagic2 :=
  ⟨rfl, rfl⟩

/-- R121: the fields of `entry1` at their offsets. -/
def bytesEntry1 : List Byte :=
  [0x0D, 0x0E, 0x02, 0x52, 0x87] ++ List.replicate 61 0
    ++ [0x41, 0x50, 0x50, 0x4C, 0x52, 0x2A, 0x63, 0x68, 0x21, 0x00, 0xB1, 0x23, 0x45, 0x67, 0xB8, 0x9A, 0xBC, 0xDE, 0x00, 0x00,
        0x01, 0x2C, 0x00, 0x00, 0x02, 0xBC, 0x00, 0x00, 0x00, 0x05, 0x00, 0x00, 0x00, 0x08, 0x11, 0x11, 0x22, 0x22]
    ++ [0x01, 0x02, 0x03, 0x04, 0x05, 0x06, 0x33, 0x33]

theorem test_decode_entry : decode .sitEntry bytesEntry1 = .ok (.recSitent112 entry1, []) := rfl

theorem test_decode_methods :
    [0x10, 0x20, 0x21, 0x00, 0xFF].map decodeMethod
      = [.methEncrypted, .methFolderStart, .methFolderEnd, .methOther 0x00, .methOther 0xFF] := by decide

theorem test_decode_type :
    decode .typeCode [0x41, 0x50, 0x50, 0x4C] = .ok (.typeAppl, [])
      ∧ decode .typeCode [0x54, 0x45, 0x58, 0x54] = .error .notAppl :=
  ⟨rfl, rfl⟩

/-- A table word of each length, numbered as the table numbers it (20_memory.md R78). -/
theorem test_table_words :
    decodeTableWord 8 0x2E = some .sitMtime ∧ decodeTableWord 8 0x72 = some .chSextet63
      ∧ decodeTableWord 16 0x3A21 = some (.locateStart 0x21) ∧ decodeTableWord 16 0x9002 = some (.rleRun 2)
      ∧ decodeTableWord 24 0x0474C5 = some (.grpPack 1 7 19 5) ∧ decodeTableWord 32 0x5354696E = some .magic1Stin
      ∧ decodeTableWord 32 0x724C6175 = some .magic2Rlau ∧ decodeTableWord 32 0x4150504C = some .typeAppl := by decide

/-! One step or one instruction each. Expected values: 95_test_vectors.md, or by hand from the rule named. -/

/-- The next state, if the outcome is one. -/
def next? (r : Host.Outcome State Fault Refusal) : Option State :=
  match r with
  | .next s => some s
  | _ => none

/-- The value of a micro-operation that did not raise. -/
def value? {α : Type} (r : Res α) : Option α :=
  match r with
  | .ok a _ => some a
  | .stop _ => none

theorem ok_of_value {α : Type} {r : Res α} {a : α} (h : value? r = some a) : ∃ s, r = .ok a s := by
  cases r with
  | ok b s => exact ⟨s, by simp_all [value?]⟩
  | stop s => simp [value?] at h

/-- The cause and the words of an error, and its position. -/
def errorOf (s : State) : Option Cause × Word × Word × Pos := (s.errSub, s.errExpected, s.errFound, s.errPos)

/-- The 46 bytes of program P1. -/
def streamP1 : List Byte :=
  [0x3A, 0x22, 0x28, 0x34, 0x50, 0x46, 0x68, 0x33, 0x21, 0x39, 0x25, 0x39, 0x42, 0x39, 0x28, 0x34, 0x64, 0x48, 0x28, 0x33,
   0x21, 0x4E, 0x21, 0x38, 0x26, 0x21, 0x2A, 0x21, 0x25, 0x58, 0x27, 0x34, 0x53, 0x43, 0x40, 0x61, 0x58, 0x45, 0x6D, 0x30,
   0x4C, 0x21, 0x21, 0x21, 0x3A, 0x0A]

/-- A BinHex session before its header. -/
def bhx0 (bs : List Byte) : State := { State.reset with mode := .bhx, stream := Memory.ofBytes bs }

/-- Program P1 after its header (its table, line 10), the read buffer empty at POS. -/
def p1Data : State :=
  { bhx0 streamP1 with
    pos := 33, stage := .forkData, ring := { b0 := 0xB0, b1 := 0x64, b2 := 0x68, cnt := 3, rd := 2 }, rptChar := 0x64,
    buf := { bufReset with fpos := 33 }, bh := { bhReset with dlen := 5 }, bhValid := true }

/-- Program P1 after its data fork (its table, line 11). -/
def p1Rsrc : State :=
  { bhx0 streamP1 with
    pos := 41, stage := .forkRsrc, ring := { b0 := 0x6F, b1 := 0xC3, b2 := 0x62, cnt := 3, rd := 3 }, rptChar := 0x62,
    buf := { bufReset with fpos := 41 }, bh := { bhReset with dlen := 5 }, bhValid := true }

/-- A state whose read buffer holds three bytes of the stream, one of them handed out. -/
def buffered3 : State :=
  { bhx0 [0x21, 0x22, 0x23] with
    pos := 1
    buf := { bytes := [0x21, 0x22, 0x23] ++ List.replicate 1021 0, idx := 1, fill := 3, eof := true, fpos := 3 } }

/-- A StuffIt session on a stream, POS at `a`. -/
def sit0 (a : Pos) (bs : List Byte) : State := { State.reset with mode := .sit, stream := Memory.ofBytes bs, pos := a }

/-- A StuffIt session with a valid entry. -/
def sitEntry (e : EntryRegs) : State := { sit0 134 [] with se := e, seValid := true }

theorem test_open_bhx :
    (next? (step (State.reset.withFetchWord 8 0x01))).map (fun s => (s.mode, s.stage, s.status)) = some (.bhx, .searching, .ok) := by
  decide +kernel

/-- Section 2.10, step 3. -/
theorem test_open_fails :
    (next? (exec .openBhx { State.reset with openOk := false, ioCause := 13 })).map (fun s => (s.mode, errorOf s))
      = some (.closed, some .openFailed, 0, 13, 0) := by decide +kernel

/-- Section 2.10, step 9. -/
theorem test_open_twice :
    (next? (exec .openSit (sit0 0 []))).map (fun s => (s.mode, errorOf s)) = some (.sit, some .badMode, 0, 2, 0) := by
  decide +kernel

/-- Section 2.10, step 7. -/
theorem test_close_fails :
    (next? (exec .close { bhx0 [] with closeOk := false, ioCause := 5, err := some .sequencing, errSub := some .badMode })).map
        (fun s => (s.mode, s.status, errorOf s)) = some (.closed, .failed .resource, some .closeFailed, 0, 5, 0) := by
  decide +kernel

/-- R89: the read buffer of the session is discarded. -/
theorem test_close_discards_buffer :
    (next? (exec .close buffered3)).map (fun s => (s.mode, s.status, s.buf.idx, s.buf.fill)) = some (.closed, .ok, 0, 0) := by
  decide +kernel

/-- Program P1, line 10. -/
theorem test_bhx_hdr :
    (next? (exec .bhxHdr (bhx0 streamP1))).map (fun s =>
        ((s.pos, s.stage, s.crc, s.ring.rd), s.bh.typ, s.bh.dlen, s.bh.pname.take 5))
      = some ((33, .forkData, 0xB064, 2), 0x54455854, 5, [0x74, 0x65, 0x73, 0x74, 0x00]) := by decide +kernel

/-- Vector H3: a name of 63 bytes. -/
theorem test_bhx_hdr_name_too_long :
    (next? (exec .bhxHdr (bhx0 [0x3A, 0x32, 0x66, 0x27, 0x33, 0x32, 0x60, 0x22]))).map (fun s => (s.bhValid, s.crc, errorOf s))
      = some (false, 0x003F, some .nameTooLong, 63, 64, 5) := by decide +kernel

/-- Program P1, line 11. -/
theorem test_bhx_data :
    (next? (exec .bhxData p1Data)).map (fun s => (s.pos, s.stage, s.sinkD, s.bh.dcrc, s.ring.rd))
      = some (41, .forkRsrc, [0x68, 0x65, 0x6C, 0x6C, 0x6F], 0xC362, 3) := by decide +kernel

/-- Vector H8: a data fork of length -1. -/
theorem test_bhx_data_negative :
    (next? (exec .bhxData { p1Data with bh := { bhReset with dlen := 0xFFFFFFFF } })).map (fun s => (s.pos, errorOf s))
      = some (33, some .negLength, 0, 0xFFFFFFFF, 33) := by decide +kernel

/-- Program P1, line 12: an empty fork still reads its checksum. -/
theorem test_bhx_rsrc :
    (next? (exec .bhxRsrc p1Rsrc)).map (fun s => ((s.pos, s.stage, s.sinkR, s.bh.rcrc), s.lend, s.eofsev, s.rptChar))
      = some ((45, .done, [], 0x0000), true, 1, 0x00) := by decide +kernel

/-- Program P6, step 3. -/
theorem test_bhx_rsrc_first :
    (next? (exec .bhxRsrc p1Data)).map errorOf = some (some .badStage, 3, 2, 33) := by decide +kernel

/-- Vector A1. -/
theorem test_sit_hdr :
    (next? (exec .sitHdr (sit0 0 bytesA1))).map (fun s => (s.pos, s.saValid, s.sa))
      = some (22, true, { magic1 := 0x53495421, count := 1, len := 134, magic2 := 0x724C6175, ver := 1 }) := by decide +kernel

/-- Vector A6: the first 21 bytes of A1. -/
theorem test_sit_hdr_short :
    (next? (exec .sitHdr (sit0 0 (bytesA1.take 21)))).map (fun s => (s.status, errorOf s))
      = some (.failed .shortRead, some .shortBlock, 22, 21, 21) := by decide +kernel

/-- Vector N8: 112 bytes, the two payload lengths FFFFFFFF. -/
theorem test_sit_next_long_payload :
    (next? (exec .sitNext (sit0 22 (List.replicate 114 0 ++ List.replicate 8 0xFF ++ List.replicate 12 0)))).map
        (fun s => (s.pos, s.status, s.seValid)) = some (8589934724, .ok, true) := by decide +kernel

/-- Vector N3: 111 bytes. -/
theorem test_sit_next_short :
    (next? (exec .sitNext (sit0 22 (List.replicate 133 0)))).map errorOf = some (some .shortBlock, 112, 111, 133) := by
  decide +kernel

/-- Program P5, the first, third and fourth entry: the predicates by the resource method. -/
theorem test_sit_predicates :
    [16, 32, 33].map (fun m => (next? (exec .sitIsenc (sitEntry { seReset with rmeth := m }))).map State.result)
        = [some 1, some 0, some 0]
      ∧ [16, 32, 33].map (fun m => (next? (exec .sitIsfst (sitEntry { seReset with rmeth := m }))).map State.result)
        = [some 0, some 1, some 0]
      ∧ [16, 32, 33].map (fun m => (next? (exec .sitIsfend (sitEntry { seReset with rmeth := m }))).map State.result)
        = [some 0, some 0, some 1] := by decide +kernel

/-- Program P5: the second entry is an application, the third is not. -/
theorem test_sit_isapp :
    [0x4150504C, 0x54455854].map (fun c => (next? (exec .sitIsapp (sitEntry { seReset with typ := c }))).map State.result)
      = [some 1, some 0] := by decide +kernel

/-- Vector N8 and program P5, third entry: the sums are not truncated. -/
theorem test_sit_sizes :
    (next? (exec .sitCsize (sitEntry { seReset with crlen := 0xFFFFFFFF, cdlen := 0xFFFFFFFF }))).map State.result
        = some 0x1FFFFFFFE
      ∧ (next? (exec .sitUsize (sitEntry { seReset with rlen := 0xFFFFFFFF, dlen := 1 }))).map State.result
        = some 0x100000000 := by decide +kernel

/-- Program P5, third entry: the time is unsigned. -/
theorem test_sit_mtime :
    (next? (exec .sitMtime (sitEntry { seReset with mdate := 0xFFFFFFFF, cdate := 1 }))).map State.result = some 0xFFFFFFFF := by
  decide +kernel

/-- Vector X1, program P8. -/
theorem test_xlit :
    (next? (exec .xlit { State.reset with
        xl := { xlReset with src := [0x87, 0xD9, 0x41, 0x00] ++ List.replicate 60 0, srcLen := 4, dstCap := 64 } })).map
        (fun s => (s.xl.dst.take 4, s.xl.dstLen, s.status)) = some ([0x61, 0x59, 0x41, 0x00], 3, .ok) := by decide +kernel

/-- Vector X11. -/
theorem test_xlit_over_length :
    (next? (exec .xlit { State.reset with xl := { xlReset with srcLen := 65, dstCap := 64 } })).map
        (fun s => (s.mode, s.stage, errorOf s)) = some (.closed, .error, some .badLength, 64, 65, 0) := by decide +kernel

/-- Section 2.10, step 21; program P6, step 5. -/
theorem test_reserved_command :
    (next? (exec (decodeCommand 0xFF) (bhx0 []))).map errorOf = some (some .illegalCmd, 0, 0xFF, 0)
      ∧ (next? (exec (decodeCommand 0x13) { bhx0 [] with err := some .format })).map (fun s => (s.status, s.errSub))
        = some (.failed .format, none) := by decide +kernel

/-- R105, R163: `r` is sextet 63. -/
theorem test_character_step :
    (next? (step (State.reset.withFetchWord 8 0x72))).map (fun s => (s.grp, s.pos, s.lend)) = some ([63], 1, false)
      ∧ (next? (step (State.reset.withFetchWord 8 0x0D))).map (fun s => (s.grp, s.pos, s.lend)) = some ([], 1, false)
      ∧ (next? (step (State.reset.withFetchWord 8 0x3A))).map (fun s => (s.grp, s.pos, s.lend)) = some ([], 1, true) := by
  decide +kernel

/-- Vector F13: a space. -/
theorem test_invalid_character :
    (next? (exec (.chInvalid 0x20) { bhx0 [] with pos := 4, grp := [0, 0] })).map errorOf
      = some (some .badChar, 0, 0x20, 4) := by decide +kernel

/-- Vector K1. -/
theorem test_start_step :
    (next? (step (State.reset.withFetchWord 16 0x3A21))).map (fun s => (s.stage, s.pos, s.buf.fpos))
      = some (.headerRead, 1, 1) := by decide +kernel

/-- 42_sextet_unpacker.md R162: the last example; a whole group, and vector F3 with two sextets. -/
theorem test_group_step :
    (next? (step (State.reset.withFetchWord 24 0x0420C4))).map (fun s => (s.ring, s.eofsev))
        = some ({ b0 := 0x04, b1 := 0x20, b2 := 0xC4, cnt := 3, rd := 0 }, 0)
      ∧ (next? (exec (.grpPack 0 12 0 0) { State.reset with grp := [0, 12], lend := true })).map (fun s => (s.ring, s.eofsev))
        = some ({ b0 := 0x00, b1 := 0xC0, b2 := 0x00, cnt := 1, rd := 0 }, 2) := by decide +kernel

/-- Vectors L1, L6, L11: a literal, the pair 90 00, the pair 90 90. -/
theorem test_raw_byte_steps :
    (next? (exec (.rleLiteral 0x41) State.reset)).map (fun s => (s.dbuf, s.rptChar, s.rptCnt)) = some ([0x41], 0x41, 0)
      ∧ (next? (step (State.reset.withFetchWord 16 0x9000))).map (fun s => (s.dbuf, s.rptChar, s.rptCnt))
        = some ([0x90], 0x90, 0)
      ∧ (next? (exec (.rleRun 0x90) { State.reset with rptChar := 0x41 })).map (fun s => (s.dbuf, s.rptChar, s.rptCnt))
        = some ([0x41], 0x41, 142) := by decide +kernel

/-- Vectors L17, L19, L21: the pair 90 01 in the three modes. -/
theorem test_count_one :
    [Count1Mode.emitOne, .emitZero, .fault].map (fun m =>
        (next? (exec .rleCount1 { State.reset with rptChar := 0x41, par := { paramsDefault with count1 := m } })).map
          (fun s => ((s.dbuf, s.rptCnt), s.errSub, s.errExpected, s.errFound)))
      = [some (([0x41], 0xFFFF), none, 0, 0), some (([], 0), none, 0, 0), some (([], 0), some .rleCount1, 2, 1)] := by decide +kernel

/-- Program P1's header record, and program P4 line b: one byte of the type flipped. -/
theorem test_header_row :
    (next? (exec (.recBhxhdr headerP1) State.reset)).map (fun s => (s.crc, s.bhValid, s.stage)) = some (0xB064, true, .forkData)
      ∧ (next? (exec (.recBhxhdr { headerP1 with typ := 0x55455854 }) State.reset)).map (fun s => (s.bhValid, s.errSub, s.errFound))
        = some (false, some .badHdrCrc, 0xB064) := by decide +kernel

/-- Section 2.1, CRCCHECK: body `hello` with the field C2 62. -/
theorem test_fork_row :
    (next? (exec (.recBhxfork { body := [0x68, 0x65, 0x6C, 0x6C, 0x6F], crc := 0xC262 }) { State.reset with stage := .forkRsrc })).map
        (fun s => (s.sinkR, errorOf s)) = some ([0x68, 0x65, 0x6C, 0x6C, 0x6F], some .badForkCrc, 0xC362, 0xC262, 0) := by
  decide +kernel

/-- Vectors A8 and A4. -/
theorem test_archive_row :
    (next? (exec (.recSithdr22 { archive1 with count := 0xFFFF, len := 0, ver := 255 }) State.reset)).map
        (fun s => (s.saValid, s.sa.count, s.sa.ver)) = some (true, 0xFFFF, 255)
      ∧ (next? (exec (.recSithdr22 { archive1 with magic2 := 0x724C4175 }) State.reset)).map errorOf
        = some (some .badMagic2, 0x724C6175, 0x724C4175, 0) := by decide +kernel

/-- Vectors A2 and A5: the magic words as rows. -/
theorem test_magic_rows :
    [Instr.magic1Sit, .magic1St46, .magic1St50, .magic1St60, .magic1St65, .magic1Stin, .magic1Sti2, .magic1Sti3,
        .magic1Sti4].map (fun i => (next? (exec i { State.reset with recb := bytesA1 })).map fun s => s.sa.magic1)
      = [some 0x53495421, some 0x53543436, some 0x53543530, some 0x53543630, some 0x53543635, some 0x5354696E,
          some 0x53546932, some 0x53546933, some 0x53546934]
      ∧ (next? (exec (.magic1Other 0x58585858) State.reset)).map errorOf = some (some .badMagic1, 0x53495421, 0x58585858, 0)
      ∧ (next? (exec .magic2Rlau { State.reset with recb := bytesA1 })).map (fun s => s.sa.count) = some 1 := by decide +kernel

/-- Program P5, second entry: name, lengths, skip of 13 bytes. -/
theorem test_entry_row :
    (next? (exec (.recSitent112 entry1) State.reset)).map
        (fun s => (s.se.nameLen, s.se.pname.take 3, s.se.crlen, s.se.hcrc, s.pos))
      = some (2, [0x52, 0x61, 0x00], 5, 0x3333, 13) := by decide +kernel

/-- Vectors N9, N10: a folder is not skipped, another entry is; of a valid entry the row is the predicate. -/
theorem test_method_rows :
    [Instr.methEncrypted, .methFolderStart, .methFolderEnd, .methOther 0].map (fun i =>
        (next? (exec i { State.reset with se := { seReset with crlen := 5, cdlen := 5 } })).map fun s => s.pos)
      = [some 10, some 0, some 0, some 10]
      ∧ [Instr.methEncrypted, .methFolderStart, .methFolderEnd, .methOther 0, .typeAppl].map (fun i =>
        (next? (exec i { State.reset with seValid := true })).map fun s => s.result)
      = [some 1, some 1, some 1, some 0, some 1] := by decide +kernel

/-- Section 2.1: whole messages, and a step on which the polynomial is applied. -/
theorem test_crc :
    crc16 [0x41] = 0x58E5 ∧ crc16 [0x31, 0x32, 0x33, 0x34, 0x35, 0x36, 0x37, 0x38, 0x39] = 0x31C3
      ∧ acc [0x68, 0x65, 0x6C, 0x6C, 0x6F] = 0x0750 ∧ crcByte 0x8000 0x00 = 0x9188 ∧ crcByte 0xB064 0xB0 = 0xC36B := by
  decide +kernel

/-- The defaults meet the constraints of R9. -/
theorem test_defaults_ok : paramsOk paramsDefault = true := by decide +kernel

/-- R120, R121: data before resource method, a gap before the name, lengths and CRCs that overlap are no layout; another order
of the lengths and of the CRCs is one. -/
theorem test_entry_layouts :
    [{ entOffDefault with rmeth := 1, dmeth := 0 }, { entOffDefault with namelen := 2, name := 4, typ := 67, creator := 71 },
        { entOffDefault with dlen := 84, crlen := 84, cdlen := 84 }, { entOffDefault with dcrc := 101 },
        { entOffDefault with hcrc := 111 }].map entOffOk = [false, false, false, false, false]
      ∧ entOffOk { entOffDefault with rlen := 96, cdlen := 84, rcrc := 110, hcrc := 100 } = true := by decide +kernel

/-! Witnesses: for each statement with hypotheses, values that meet them together; for a statement of several clauses, one
for each clause, at the bounds of its range. -/

/-- The state a micro-operation leaves. -/
def stateOf {α : Type} (r : Res α) : State :=
  match r with
  | .ok _ s => s
  | .stop s => s

theorem ok_eq {α : Type} {r : Res α} {a : α} (h : value? r = some a) : r = .ok a (stateOf r) := by
  cases r with
  | ok b s => simp_all [value?, stateOf]
  | stop s => simp [value?] at h

theorem stop_eq {α : Type} {r : Res α} (h : (value? r).isNone = true) : r = .stop (stateOf r) := by
  cases r with
  | ok b s => simp [value?] at h
  | stop s => rfl

theorem next_eq {r : Host.Outcome State Fault Refusal} (h : (next? r).isSome = true) :
    r = .next ((next? r).getD State.reset) := by
  cases r <;> simp_all [next?]

theorem exists_next {r : Host.Outcome State Fault Refusal} (h : (next? r).isSome = true) : ∃ t, r = .next t :=
  ⟨_, next_eq h⟩

/-- The header of vector H2: a name of 62 bytes. -/
def headerH2 : BhxHeaderRec :=
  { len := 62, name := List.replicate 62 0x61, tm := 0, typ := 0x54595045, creator := 0x43524541, flags := 0x1234, dlen := 0,
    rlen := 0, hcrc := 0x50F7 }

/-- The stream of vector H2. -/
def streamH2 : List Byte :=
  [0x3A, 0x32, 0x51, 0x27, 0x33, 0x32, 0x4A, 0x22, 0x38, 0x40, 0x39, 0x22, 0x26, 0x33, 0x65, 0x2A, 0x26, 0x33, 0x34, 0x29,
   0x64, 0x21, 0x2A, 0x21, 0x29, 0x38, 0x32, 0x46, 0x21, 0x4E, 0x21, 0x33, 0x3A, 0x0A]

theorem witness_decode_of_encode :
    [Instr.openBhx, .reservedCommand 0x00, .reservedCommand 0xFF, .chSextet63, .chInvalid 0x00, .chInvalid 0xFF,
        .locateStart 0x21, .grpPack 63 0 63 0, .rleLiteral 0x8F, .rleLiteral 0x91, .rleRun 2, .rleRun 255, .recBhxhdr headerP1,
        .recBhxhdr { headerP1 with len := 255, name := List.replicate 255 0x61 }, .recBhxfork { body := [], crc := 0 },
        .recSithdr22 archive1, .magic1Other 0, .recSitent112 entry1, .methOther 0x0F, .methOther 0x22].all wellFormed = true := by
  decide +kernel

theorem witness_encode_of_decode :
    (∀ n, Space.bhxFork 0 = .bhxFork n → n < 2 ^ 31)
      ∧ decode (.bhxFork 0) [0x12, 0x34, 0x56] = .ok (.recBhxfork { body := [], crc := 0x1234 }, [0x56])
      ∧ (∀ n, Space.bhxHeader = .bhxFork n → n < 2 ^ 31)
      ∧ decode .bhxHeader bytesP1 = .ok (.recBhxhdr headerP1, []) :=
  ⟨fun n h => by injection h with h; omega, rfl, nofun, rfl⟩

theorem witness_step_runs_command :
    { State.reset with todo := [.command 0x10] }.space = .command
      ∧ { State.reset with todo := [.command 0x10] }.todo = .command 0x10 :: [] := ⟨rfl, rfl⟩

theorem witness_step_runs_character :
    ({ bhx0 [0x21] with space := .rawChar }.lend = false ∧ { bhx0 [0x21] with space := .rawChar }.grp.length < 4
        ∧ { bhx0 [0x21] with space := .rawChar, lend := true }.lend = true
        ∧ 4 ≤ { bhx0 [0x21] with space := .rawChar, grp := [1, 2, 3, 4] }.grp.length)
      ∧
    rawget { bhx0 [0x21] with space := .rawChar } = (some 0x21, (rawget { bhx0 [0x21] with space := .rawChar }).2)
      ∧ rawget { bhx0 [] with space := .rawChar } = (none, (rawget { bhx0 [] with space := .rawChar }).2) := by
  decide +kernel

theorem witness_step_runs_start :
    ∃ u, locateSearch (streamFuel { bhx0 streamP1 with space := .locate }) true { bhx0 streamP1 with space := .locate }
      = .ok 0x22 u := ok_of_value (by decide +kernel)

theorem witness_step_runs_group :
    groupReady { State.reset with space := .group, grp := [1, 2, 3, 4] } = true
      ∧ groupReady { State.reset with space := .group, grp := [], lend := true } = true := by decide +kernel

/-- A ring with three raw bytes, in the space of raw bytes. -/
def ring3 (b0 b1 b2 : Byte) : State :=
  { State.reset with space := .rawByte, ring := { b0 := b0, b1 := b1, b2 := b2, cnt := 3, rd := 0 } }

theorem witness_step_runs_raw_bytes :
    copiesPending (ring3 0x41 0 0).rptCnt = false ∧ (∃ u, rawbyte (ring3 0x41 0 0) = .ok 0x41 u)
      ∧ ∃ u v, rawbyte (ring3 0x90 0x05 0) = .ok rleMark u ∧ rawbyte u = .ok 0x05 v :=
  ⟨by decide, ok_of_value (by decide), _, _, ok_eq (by decide), ok_eq (by decide)⟩

theorem witness_step_runs_records :
    decode .bhxHeader { State.reset with space := .bhxHeader, dbuf := bytesP1 }.dbuf = .ok (.recBhxhdr headerP1, [])
      ∧ decode (.bhxFork 0) { State.reset with space := .bhxFork 0, dbuf := [0, 0] }.dbuf
        = .ok (.recBhxfork { body := [], crc := 0 }, []) := ⟨rfl, rfl⟩

theorem witness_step_runs_archive :
    (blockGot sitHdrSize (sit0 0 bytesA1)).length = sitHdrSize
      ∧ (blockRead sitHdrSize { sit0 0 bytesA1 with saValid := false }).recb.take sitHdrSize = bytesA1
      ∧ decode .sitHeader bytesA1 = .ok (.recSithdr22 archive1, []) :=
  ⟨by decide +kernel, by decide +kernel, rfl⟩

theorem witness_step_runs_entry :
    (blockGot sitEntSize (sit0 0 bytesEntry1)).length = sitEntSize
      ∧ (blockRead sitEntSize { sit0 0 bytesEntry1 with seValid := false }).recb.take sitEntSize = bytesEntry1
      ∧ decode .sitEntry bytesEntry1 = .ok (.recSitent112 entry1, []) :=
  ⟨by decide +kernel, by decide +kernel, rfl⟩

theorem witness_step_runs_words :
    decode .magic1 (bytesA1.take 4) = .ok (.magic1Sit, []) ∧ decode .magic2 ((bytesA1.drop 10).take 4) = .ok (.magic2Rlau, [])
      ∧ { seReset with typ := 0x4150504C }.typ = applType := ⟨rfl, rfl, rfl⟩

theorem witness_host_actions :
    State.reset.space = .command ∧ State.reset.todo = [] ∧ State.reset.mode = .closed ∧ (bhx0 []).mode ≠ .closed
      ∧ (List.replicate (2 ^ 63 - 1) (0 : Byte)).length < 2 ^ 63 ∧ 2 ^ 63 ≤ (List.replicate (2 ^ 63) (0 : Byte)).length := by
  refine ⟨rfl, rfl, rfl, by decide, ?_, ?_⟩ <;> rw [List.length_replicate] <;> decide

/-- Every value of the enumerated registers is some state's; the two states the reset clauses speak of. -/
theorem witness_result_port :
    (∀ m, { State.reset with mode := m }.mode = m) ∧ (∀ g, { State.reset with stage := g }.stage = g)
      ∧ (∀ c, { State.reset with status := c }.status = c) ∧ (∀ c, { State.reset with err := c }.err = c)
      ∧ (∀ c, { State.reset with errSub := c }.errSub = c)
      ∧ ∃ s, State.reset = State.reset ∧ resetEvent (bhx0 []) = resetEvent s :=
  ⟨fun _ => rfl, fun _ => rfl, fun _ => rfl, fun _ => rfl, fun _ => rfl, bhx0 [], rfl, rfl⟩

/-- Program P1 after its header, the data fork asked for. -/
def p1Asked : State := { p1Data with todo := [.command 0x11] }

theorem witness_step_keeps_inv : Inv p1Asked ∧ ∃ t, step p1Asked = .next t :=
  ⟨⟨by decide +kernel, by decide +kernel, by decide +kernel,
    ⟨by decide +kernel, by decide +kernel, fun _ h => Status.noConfusion h, by decide +kernel, by decide +kernel⟩,
    by decide +kernel⟩, exists_next (by decide +kernel)⟩

theorem witness_step_keeps_pos_inv : PosInv p1Asked ∧ ∃ t, step p1Asked = .next t :=
  ⟨by decide +kernel, exists_next (by decide +kernel)⟩

theorem witness_pos_never_moves_back :
    PosInv p1Data ∧ spaceOf .bhxData = .command ∧ opens .bhxData = false ∧ ∃ t, exec .bhxData p1Data = .next t :=
  ⟨by decide +kernel, rfl, rfl, exists_next (by decide +kernel)⟩

/-- For the statements about every command or every instruction that answers a next state. -/
theorem witness_next_states :
    (∃ t, exec .bhxData p1Data = .next t) ∧ (∃ t, exec .sitHdr (sit0 0 bytesA1) = .next t)
      ∧ ∃ t, exec .openBhx State.reset = .next t :=
  ⟨exists_next (by decide +kernel), exists_next (by decide +kernel), exists_next (by decide +kernel)⟩

theorem witness_personalities :
    (∃ t, exec .bhxHdr (bhx0 streamP1) = .next t) ∧ (∃ t, exec .bhxRsrc p1Rsrc = .next t)
      ∧ (∃ t, exec .sitNext (sit0 22 bytesA1) = .next t) ∧ (∃ t, exec .sitMtime (sitEntry seReset) = .next t)
      ∧ spaceOf .xlit = .command ∧ opens .xlit = false ∧ ∃ t, exec .xlit State.reset = .next t :=
  ⟨exists_next (by decide +kernel), exists_next (by decide +kernel), exists_next (by decide +kernel),
    exists_next (by decide +kernel), rfl, rfl, exists_next (by decide +kernel)⟩

theorem witness_sinks :
    opens .bhxData = false ∧ opens .openBhx = true ∧ State.reset.mode = .closed ∧ Instr.bhxRsrc ≠ .bhxData
      ∧ Instr.bhxData ≠ .bhxRsrc ∧ ∀ r, Instr.bhxHdr ≠ .recBhxfork r :=
  ⟨rfl, rfl, rfl, by decide, by decide, nofun⟩

theorem witness_memory_laws :
    Memory.wf (Memory.ofBytes streamP1) = true ∧ Memory.wf (Memory.write (Memory.ofBytes streamP1) 0 0x3A) = true
      ∧ Memory.write (Memory.ofBytes streamP1) 0 0x3A = Memory.ofBytes streamP1 := by decide +kernel

theorem witness_sticky_error :
    { bhx0 [] with err := some .format }.err = some .format ∧ (0x04 : Byte) ≠ 0x01 ∧ (0x04 : Byte) ≠ 0x02
      ∧ (0x04 : Byte) ≠ 0x03 := by decide

/-- Both ends of each range of R103. -/
theorem witness_reserved_command :
    [0x00, 0x04, 0x0F, 0x13, 0x1F, 0x22, 0x27, 0x2F, 0x31, 0xFF].all (fun (c : Byte) =>
      decide (c.toNat = 0 ∨ (0x04 ≤ c.toNat ∧ c.toNat ≤ 0x0F) ∨ (0x13 ≤ c.toNat ∧ c.toNat ≤ 0x1F)
        ∨ (0x22 ≤ c.toNat ∧ c.toNat ≤ 0x27) ∨ c.toNat = 0x2F ∨ 0x31 ≤ c.toNat)) = true ∧ State.reset.err = none := by decide

theorem witness_wrong_mode :
    (sit0 0 []).err = none ∧ (sit0 0 []).mode ≠ .bhx ∧ (bhx0 []).err = none ∧ (bhx0 []).mode ≠ .sit := by decide

theorem witness_wrong_stage :
    p1Data.err = none ∧ p1Data.mode = .bhx ∧ p1Data.stage ≠ .searching ∧ p1Rsrc.err = none ∧ p1Rsrc.mode = .bhx
      ∧ p1Rsrc.stage ≠ .forkData ∧ p1Data.stage ≠ .forkRsrc := by decide

theorem witness_open :
    (bhx0 []).mode ≠ .closed ∧ State.reset.mode = .closed ∧ { State.reset with openOk := false }.openOk = false
      ∧ State.reset.openOk = true := by decide

theorem witness_close :
    State.reset.mode = .closed ∧ (bhx0 []).mode ≠ .closed ∧ (bhx0 []).closeOk = true
      ∧ { bhx0 [] with closeOk := false }.closeOk = false := by decide

/-- The transliterator's buffers with two lengths. -/
def xlWith (n c : BitVec 7) : State := { State.reset with xl := { xlReset with srcLen := n, dstCap := c } }

theorem witness_xlit :
    (xlWith 0 64).err = none ∧ (xlWith 0 64).xl.srcLen = 0 ∧ (xlWith 64 0).xl.dstCap = 0
      ∧ [xlWith 65 64, xlWith 64 65, xlWith 127 127].all (fun s => decide (s.err = none ∧ s.xl.srcLen ≠ 0 ∧ s.xl.dstCap ≠ 0
          ∧ (64 < s.xl.srcLen.toNat ∨ 64 < s.xl.dstCap.toNat))) = true
      ∧ [xlWith 64 64, xlWith 1 1].all (fun s => decide (s.err = none ∧ s.xl.srcLen ≠ 0 ∧ s.xl.dstCap ≠ 0
          ∧ s.xl.srcLen.toNat ≤ 64 ∧ s.xl.dstCap.toNat ≤ 64)) = true := by decide +kernel

theorem witness_xlt_buf :
    xltHiOk paramsDefault.xltHi = true ∧ 3 ≤ ([0x41, 0x87, 0x00] : List Byte).length
      ∧ xltBuf paramsDefault.xltHi [0x41, 0x87, 0x00] 3 64 = [0x41, 0x61]
      ∧ xltBuf paramsDefault.xltHi [0x1F, 0x20, 0x7F, 0x80, 0xFF] 5 64 = [0x5F, 0x20, 0x7F, 0x41, 0x5F]
      ∧ (∀ b ∈ ([0x20, 0x7E] : List Byte).take 2, 0x20 ≤ b.toNat ∧ b.toNat ≤ 0x7E) := by decide +kernel

theorem witness_buffered_read :
    streamOk buffered3 ∧ bufferOk buffered3 ∧ buffered3.pos.toNat ≤ slen buffered3
      ∧ buffered3.buf.bytes.length = rbufSize := by decide +kernel

/-- Vector K2. -/
theorem witness_locate :
    startsAt [0x78, 0x0A, 0x3A, 0x21] 2 ∧ (∀ b, b < 2 → ¬ startsAt [0x78, 0x0A, 0x3A, 0x21] b)
      ∧ startsAt [0x3A, 0x21] 0 ∧ (bhx0 [0x3A, 0x21]).pos = 0 := by
  refine ⟨⟨rfl, .inr (.inl rfl), 0x21, rfl, by decide⟩, ?_, ⟨rfl, .inl rfl, 0x21, rfl, by decide⟩, rfl⟩
  rintro b hb ⟨h, -⟩
  rcases b with _ | _ | b
  · simp at h
  · simp at h
  · omega

/-- Vector K10, and the empty stream. -/
theorem witness_locate_no_start :
    (∀ a, ¬ startsAt [0x20, 0x3A, 0x21, 0x0A] a) ∧ ∀ a, ¬ startsAt [] a := by
  refine ⟨?_, fun a h => by simp [startsAt] at h⟩
  rintro a ⟨h, h', -⟩
  rcases a with _ | _ | _ | _ | a <;> simp at h h'

theorem witness_stream_ok : streamOk (bhx0 streamP1) ∧ streamOk (bhx0 []) := by decide +kernel

theorem witness_group :
    ({ State.reset with grp := [1, 2, 3, 4] }.grp.length = 4) ∧ ({ State.reset with grp := [1, 2, 3] }.grp.length = 3)
      ∧ ({ State.reset with grp := [1, 2] }.grp.length = 2) ∧ ({ State.reset with grp := [1] }.grp.length ≤ 1)
      ∧ State.reset.grp.length ≤ 1 := by decide

/-- The stream of vector F9, POS after the start mark, with and without what follows the payload. -/
theorem witness_payload :
    let cs : List Byte := [0x21, 0x0D, 0x0A, 0x21, 0x0A, 0x21, 0x0D, 0x21]
    let s := { bhx0 (0x3A :: cs ++ [0x3A]) with pos := 1, buf := { bufReset with fpos := 1 } }
    let t := { bhx0 (0x3A :: cs) with pos := 1, buf := { bufReset with fpos := 1 } }
    (streamOk s ∧ bufferOk s ∧ s.ring.cnt ≤ s.ring.rd ∧ s.lend = false
        ∧ (s.stream.map Prod.snd).drop s.pos.toNat = cs ++ 0x3A :: [])
      ∧ (streamOk t ∧ bufferOk t ∧ t.ring.cnt ≤ t.ring.rd ∧ t.lend = false ∧ (t.stream.map Prod.snd).drop t.pos.toNat = cs)
      ∧ cs.map charClass
        = [.sextet 0, .skip, .skip, .sextet 0, .skip, .sextet 0, .skip, .sextet 0] := by decide +kernel

/-- Vectors F13 and F14: an INVALID character after two sextets; and one after a whole group. -/
theorem witness_payload_invalid :
    [[0x21, 0x21], [0x21, 0x21, 0x0A, 0x21, 0x21, 0x0D]].all (fun (cs : List Byte) => [0x20, 0x37].all fun (c : Byte) =>
      let s := { bhx0 (0x3A :: cs ++ c :: [0x21, 0x3A]) with pos := 1, buf := { bufReset with fpos := 1 } }
      decide (streamOk s ∧ bufferOk s ∧ s.ring.cnt ≤ s.ring.rd ∧ s.lend = false ∧ charClass c = .invalid
        ∧ (s.stream.map Prod.snd).drop s.pos.toNat = cs ++ c :: [0x21, 0x3A])) = true
      ∧ [0x21, 0x0A, 0x0D].map charClass = [.sextet 0, .skip, .skip] := by decide +kernel

theorem witness_run_length_rows :
    2 ≤ (2 : Byte).toNat ∧ 2 ≤ (255 : Byte).toNat ∧ paramsDefault.count1 = .emitOne
      ∧ { paramsDefault with count1 := .emitZero }.count1 = .emitZero
      ∧ { paramsDefault with count1 := .fault }.count1 = .fault := by decide

/-- A ring with three raw bytes, the repeat counter and the mode of count 1. -/
def ringWith (b0 b1 : Byte) (n : BitVec 16) (m : Count1Mode) : State :=
  { ring3 b0 b1 0 with rptCnt := n, par := { paramsDefault with count1 := m } }

theorem witness_decbyte :
    0 < (ringWith 0 0 1 .fault).rptCnt.toInt ∧ 0 < (ringWith 0 0 253 .fault).rptCnt.toInt
      ∧ (ringWith 0x41 0 0xFFFF .fault).rptCnt.toInt ≤ 0 ∧ (ringWith 0x41 0 0 .fault).rptCnt.toInt ≤ 0
      ∧ (∃ t, rawbyte (ringWith 0x41 0 0 .fault) = .ok 0x41 t)
      ∧ (∃ t u, rawbyte (ringWith 0x90 0 0 .fault) = .ok 0x90 t ∧ rawbyte t = .ok 0 u)
      ∧ (∀ m, ∃ t u, rawbyte (ringWith 0x90 1 0 m) = .ok 0x90 t ∧ rawbyte t = .ok 1 u ∧ streamOk (ringWith 0x90 1 0 m))
      ∧ (∃ t u, rawbyte (ringWith 0x90 2 0 .fault) = .ok 0x90 t ∧ rawbyte t = .ok 2 u)
      ∧ (∃ t, rawbyte { State.reset with lend := true } = .stop t)
      ∧ ∃ t u, rawbyte { State.reset with lend := true, ring := { ringReset with b0 := 0x90, cnt := 1 } } = .ok 0x90 t
        ∧ rawbyte t = .stop u :=
  ⟨by decide, by decide, by decide, by decide, ok_of_value (by decide), ⟨_, _, ok_eq (by decide), ok_eq (by decide)⟩,
    fun m => by cases m <;> exact ⟨_, _, ok_eq (by decide), ok_eq (by decide), by decide +kernel⟩,
    ⟨_, _, ok_eq (by decide), ok_eq (by decide)⟩, ⟨_, rfl⟩, ⟨_, _, ok_eq (by decide), rfl⟩⟩

/-- Vector L3: the raw bytes 41 90 05 42, as the characters `3C!&3J`. -/
theorem witness_run_length_round_trip :
    RleEnc [0x41, 0x41, 0x41, 0x41, 0x41, 0x42] [0x41, 0x90, 0x05, 0x42]
      ∧ ∃ t, calls rawbyte 4 { bhx0 [0x33, 0x43, 0x21, 0x26, 0x33, 0x4A] with rptCnt := 0xFFFF }
        = .ok [0x41, 0x90, 0x05, 0x42] t :=
  ⟨.run 0x41 5 (by decide) (by decide) (.literal 0x42 (by decide) .nil), ok_of_value (by decide +kernel)⟩

theorem witness_crc_linear : ([0x12, 0x34] : List Byte).length = ([0x56, 0x78] : List Byte).length := rfl

theorem witness_crc_sees : (0x00 : Byte) ≠ 0x80 := by decide

theorem witness_crc_check :
    (∃ t, calls nextDecoded 2 p1Rsrc = .ok [0x00, 0x00] t) ∧ crcByte (crcByte p1Rsrc.crc 0) 0 = be16 0x00 0x00
      ∧ crcByte (crcByte { p1Rsrc with crc := 1 }.crc 0) 0 ≠ be16 0x00 0x00 :=
  ⟨ok_of_value (by decide +kernel), by decide +kernel, by decide +kernel⟩

set_option maxRecDepth 4000 in
theorem witness_header_row :
    [headerP1, headerH2].all (fun r => wellFormed (.recBhxhdr r) && decide (r.len.toNat ≤ 62
        ∧ crc16 ((encode (.recBhxhdr r)).take (20 + r.len.toNat)) = r.hcrc)) = true
      ∧ crc16 ((encode (.recBhxhdr { headerP1 with tm := 1 })).take 24) ≠ headerP1.hcrc
      ∧ [63, 255].all (fun n => wellFormed (.recBhxhdr { headerH2 with len := n, name := List.replicate n.toNat 0x61 })
        && decide (63 ≤ n.toNat)) = true := by decide +kernel

/-- Program P1 and vector H2: names of 4 and of 62 bytes. -/
theorem witness_bhx_hdr_completes :
    (bhx0 streamP1).err = none ∧ (bhx0 streamP1).mode = .bhx ∧ (bhx0 streamP1).stage = .searching
      ∧ (∃ u v, locate (bhx0 streamP1) = .ok () u
        ∧ calls nextDecoded (22 + headerP1.len.toNat) u = .ok (encode (.recBhxhdr headerP1)) v)
      ∧ ∃ u v, locate (bhx0 streamH2) = .ok () u
        ∧ calls nextDecoded (22 + headerH2.len.toNat) u = .ok (encode (.recBhxhdr headerH2)) v :=
  ⟨rfl, rfl, rfl, ⟨_, _, ok_eq (by decide +kernel), ok_eq (by decide +kernel)⟩,
    ⟨_, _, ok_eq (by decide +kernel), ok_eq (by decide +kernel)⟩⟩

/-- Program P4 a, the stored checksum changed; vector H3, a name of 63 bytes. -/
theorem witness_bhx_hdr_fails :
    (∃ u v, locate (bhx0 (streamP1.set 31 0x39)) = .ok () u
        ∧ calls nextDecoded 26 u = .ok (encode (.recBhxhdr { headerP1 with hcrc := 0xB065 })) v)
      ∧ crc16 ((encode (.recBhxhdr { headerP1 with hcrc := 0xB065 })).take 24) ≠ 0xB065
      ∧ ∃ u v, locate (bhx0 [0x3A, 0x32, 0x66, 0x27, 0x33, 0x32, 0x60, 0x22]) = .ok () u ∧ nextDecoded u = .ok 63 v :=
  ⟨⟨_, _, ok_eq (by decide +kernel), ok_eq (by decide +kernel)⟩, by decide +kernel,
    _, _, ok_eq (by decide +kernel), ok_eq (by decide +kernel)⟩

/-- A header cut short before its first byte, in the name, in the fields (program P7) and in the checksum, by the end of
the stream and by an INVALID character. -/
theorem witness_bhx_hdr_cut :
    (∃ u t, locate (bhx0 [0x3A, 0x21]) = .ok () u ∧ nextDecoded u = .stop t)
      ∧ (∃ u v t, locate (bhx0 (streamP1.set 6 0x20)) = .ok () u ∧ calls nextDecoded 3 u = .ok (bytesP1.take 3) v
        ∧ nextDecoded v = .stop t)
      ∧ (∃ u v t, locate (bhx0 (streamP1.take 20)) = .ok () u ∧ calls nextDecoded 14 u = .ok (bytesP1.take 14) v
        ∧ nextDecoded v = .stop t)
      ∧ ∃ u v t, locate (bhx0 (streamP1.take 31)) = .ok () u ∧ calls nextDecoded 25 u = .ok (bytesP1.take 25) v
        ∧ nextDecoded v = .stop t :=
  ⟨⟨_, _, ok_eq (by decide +kernel), stop_eq (by decide +kernel)⟩,
    ⟨_, _, _, ok_eq (by decide +kernel), ok_eq (by decide +kernel), stop_eq (by decide +kernel)⟩,
    ⟨_, _, _, ok_eq (by decide +kernel), ok_eq (by decide +kernel), stop_eq (by decide +kernel)⟩,
    ⟨_, _, _, ok_eq (by decide +kernel), ok_eq (by decide +kernel), stop_eq (by decide +kernel)⟩⟩

/-- Program P7: the data fork cut in its body and in its field by the end of the stream; in its body by an INVALID
character; the resource fork in its field, of which nothing is read. -/
theorem witness_fork_cut :
    (∃ v t, calls nextDecoded 3 { p1Data with stream := Memory.ofBytes (streamP1.take 36) } = .ok [0x68, 0x65, 0x6C] v
        ∧ nextDecoded v = .stop t)
      ∧ (∃ v t, calls nextDecoded 6 { p1Data with stream := Memory.ofBytes (streamP1.take 40) }
        = .ok [0x68, 0x65, 0x6C, 0x6C, 0x6F, 0xC3] v ∧ nextDecoded v = .stop t)
      ∧ (∃ v t, calls nextDecoded 4 { p1Data with stream := Memory.ofBytes (streamP1.set 38 0x20) }
        = .ok [0x68, 0x65, 0x6C, 0x6C] v ∧ nextDecoded v = .stop t)
      ∧ (∃ t, nextDecoded { p1Rsrc with stream := Memory.ofBytes (streamP1.set 42 0x20) } = .stop t)
      ∧ p1Data.bh.dlen.toNat = 5 ∧ p1Rsrc.bh.rlen.toNat = 0 :=
  ⟨⟨_, _, ok_eq (by decide +kernel), stop_eq (by decide +kernel)⟩,
    ⟨_, _, ok_eq (by decide +kernel), stop_eq (by decide +kernel)⟩,
    ⟨_, _, ok_eq (by decide +kernel), stop_eq (by decide +kernel)⟩,
    ⟨_, stop_eq (by decide +kernel)⟩, rfl, rfl⟩

/-- Programs P1, P4 d and P4 e: both forks, their stored checksums good and bad. -/
theorem witness_fork_commands :
    (p1Data.err = none ∧ p1Data.mode = .bhx ∧ p1Data.stage = .forkData ∧ 0 ≤ p1Data.bh.dlen.toInt ∧ p1Data.bh.dlen.toNat = 5
        ∧ p1Rsrc.stage = .forkRsrc ∧ 0 ≤ p1Rsrc.bh.rlen.toInt ∧ p1Rsrc.bh.rlen.toNat = 0)
      ∧ (∃ v, calls nextDecoded 7 p1Data = .ok ([0x68, 0x65, 0x6C, 0x6C, 0x6F] ++ bytes16 0xC362) v)
      ∧ (∃ v, calls nextDecoded 7 { p1Data with stream := Memory.ofBytes (streamP1.set 39 0x2A) }
        = .ok ([0x68, 0x65, 0x6C, 0x6C, 0x6F] ++ bytes16 0xC262) v)
      ∧ (∃ v, calls nextDecoded 2 p1Rsrc = .ok ([] ++ bytes16 0x0000) v)
      ∧ (∃ v, calls nextDecoded 2 { p1Rsrc with stream := Memory.ofBytes (streamP1.set 43 0x25) }
        = .ok ([] ++ bytes16 0x0001) v)
      ∧ crc16 [0x68, 0x65, 0x6C, 0x6C, 0x6F] = 0xC362 ∧ crc16 [] = 0x0000 :=
  ⟨by decide +kernel, ok_of_value (by decide +kernel), ok_of_value (by decide +kernel), ok_of_value (by decide +kernel),
    ok_of_value (by decide +kernel), by decide +kernel, by decide +kernel⟩

theorem witness_fork_row :
    p1Data.stage = .forkData ∧ p1Rsrc.stage = .forkRsrc ∧ crc16 [] = 0 ∧ crc16 [] ≠ 1 ∧ State.reset.stage ≠ .forkData
      ∧ State.reset.stage ≠ .forkRsrc := by decide +kernel

theorem witness_negative_length :
    [0x80000000, 0xFFFFFFFF].all (fun (n : Word) => decide (0x80000000 ≤ n.toNat)) = true
      ∧ { p1Data with bh := { bhReset with dlen := 0x80000000 } }.bh.dlen = 0x80000000
      ∧ { p1Rsrc with bh := { bhReset with rlen := 0x80000000 } }.bh.rlen = 0x80000000 := by decide

theorem witness_block_read :
    streamOk (sit0 0 bytesA1) ∧ (sit0 0 bytesA1).recb.length = 112 ∧ (sit0 0 bytesA1).pos.toNat ≤ slen (sit0 0 bytesA1) + 2 ^ 33
      ∧ (sit0 (22 + 2 ^ 33) bytesA1).pos.toNat ≤ slen (sit0 (22 + 2 ^ 33) bytesA1) + 2 ^ 33 := by decide +kernel

/-- Vectors A6, A3, A4, A1. -/
theorem witness_sit_hdr :
    State.reset.par.verOff < 22 ∧ (sit0 0 bytesA1).recb.length = 112
      ∧ (blockGot 22 (sit0 0 (bytesA1.take 21))).length < 22 ∧ (blockGot 22 (sit0 0 bytesA1)).length = 22
      ∧ field32 (blockGot 22 (sit0 0 (bytesA1.set 3 0x3F))) 0 ∉ magic1Values
      ∧ field32 (blockGot 22 (sit0 0 (bytesA1.set 12 0x41))) 0 ∈ magic1Values
      ∧ field32 (blockGot 22 (sit0 0 (bytesA1.set 12 0x41))) 10 ≠ 0x724C6175
      ∧ field32 (blockGot 22 (sit0 0 bytesA1)) 10 = 0x724C6175 := by decide +kernel

theorem witness_sit_next :
    (sit0 0 bytesEntry1).err = none ∧ (sit0 0 bytesEntry1).mode = .sit ∧ (sit0 0 bytesEntry1).recb.length = 112
      ∧ (blockGot 112 (sit0 0 bytesEntry1)).length = 112
      ∧ (entryOf paramsDefault (bytesEntry1.set 0 32)).rmeth = 32 ∧ (entryOf paramsDefault bytesEntry1).rmeth = 13 := by
  decide +kernel

/-- The end exactly at POS; one byte left; 111 bytes left. -/
theorem witness_sit_next_end :
    streamOk (sit0 22 bytesA1) ∧ slen (sit0 22 bytesA1) ≤ (sit0 22 bytesA1).pos.toNat
      ∧ (sit0 21 bytesA1).pos.toNat < slen (sit0 21 bytesA1)
      ∧ (let s := sit0 1 bytesEntry1; s.pos.toNat < slen s ∧ slen s < s.pos.toNat + 112)
      ∧ (sit0 1 bytesEntry1).recb.length = 112 := by decide +kernel

theorem witness_entry_fields :
    min (field8 (bytesEntry1.set 2 64) paramsDefault.entOff.namelen).toNat 63 = 63
      ∧ min (field8 (bytesEntry1.set 2 0) paramsDefault.entOff.namelen).toNat 63 = 0 := by decide

theorem witness_sit_record_rows :
    wellFormed (.recSithdr22 archive1) = true ∧ State.reset.recb.length = 112 ∧ State.reset.par.verOff = 14
      ∧ archive1.magic1 ∈ magic1Values ∧ archive1.magic2 = 0x724C6175 ∧ (0x5349543F : Word) ∉ magic1Values
      ∧ wellFormed (.recSitent112 entry1) = true ∧ State.reset.par.entOff = entOffDefault := by decide

theorem witness_magic_rows :
    field32 { State.reset with recb := bytesA1 }.recb 10 = 0x724C6175 ∧ field32 State.reset.recb 10 ≠ 0x724C6175 := by
  decide +kernel

theorem witness_entry_valid :
    State.reset.seValid = false ∧ (sitEntry seReset).seValid = true ∧ (sitEntry seReset).err = none
      ∧ (sitEntry seReset).mode = .sit ∧ (sit0 22 []).err = none ∧ (sit0 22 []).mode = .sit ∧ (sit0 22 []).seValid = false := by
  decide

/-- No header start; program P4 d; program P1. -/
theorem witness_extract :
    (∃ t, exec .bhxHdr (bhx0 []) = .next t ∧ t.status ≠ .ok)
      ∧ (∃ t u, exec .bhxHdr (bhx0 (streamP1.set 39 0x2A)) = .next t ∧ t.status = .ok ∧ exec .bhxData t = .next u
        ∧ u.status ≠ .ok)
      ∧ ∃ t u v, exec .bhxHdr (bhx0 streamP1) = .next t ∧ t.status = .ok ∧ exec .bhxData t = .next u ∧ u.status = .ok
        ∧ exec .bhxRsrc u = .next v :=
  ⟨⟨_, next_eq (by decide +kernel), by decide +kernel⟩,
    ⟨_, _, next_eq (by decide +kernel), by decide +kernel, next_eq (by decide +kernel), by decide +kernel⟩,
    ⟨_, _, _, next_eq (by decide +kernel), by decide +kernel, next_eq (by decide +kernel), by decide +kernel,
      next_eq (by decide +kernel)⟩⟩

/-- An empty stream; an archive of one folder marker: a record, then the end. -/
theorem witness_list :
    (∃ t, exec .sitHdr (sit0 0 []) = .next t ∧ t.status ≠ .ok)
      ∧ streamOk (sit0 0 (bytesA1 ++ bytesEntry1.set 0 0x21))
      ∧ ∃ t u, exec .sitHdr (sit0 0 (bytesA1 ++ bytesEntry1.set 0 0x21)) = .next t ∧ t.status = .ok ∧ NextUntilNotOk t u :=
  ⟨⟨_, next_eq (by decide +kernel), by decide +kernel⟩, by decide +kernel,
    _, _, next_eq (by decide +kernel), by decide +kernel,
    .more (next_eq (by decide +kernel)) (by decide +kernel) (.last (next_eq (by decide +kernel)) (by decide +kernel))⟩

end Sys2Proof.Tests
end

section
/-! SUPPORT. The reset event meets both invariants over any well-formed stream, and the machine right after reset is the
reset event's own result; the defaults meet the constraints of 00_scope.md R9. -/

namespace Sys2Proof.Machine

/-- A reset of the reset machine changes nothing: what holds after every reset event holds of it. -/
theorem resetEvent_reset : resetEvent State.reset = State.reset := rfl

/-- The buffers right after a reset are filled with zeros to their full size (10_state.md R60). -/
theorem resetEvent_sizesOk (s : State) : sizesOk (resetEvent s) :=
  ⟨List.length_replicate, List.length_replicate, List.length_replicate, List.length_replicate, List.length_replicate,
    List.length_replicate, bufReset_length, recbReset_length⟩

/-- The ring and the buffer are empty, no copy is pending and the end has not been met (10_state.md R26 to R29, R56). -/
theorem resetEvent_stackOk (s : State) : stackOk (resetEvent s) := by
  refine ⟨?ring, ?copiesLow, ?copiesHigh, ?severity, ?bufferIdx, ?bufferFill⟩
  case severity => simp
  all_goals
    simp only [resetEvent_ring, resetEvent_rptCnt, resetEvent_buf]
    decide

/-- No error is latched, and STAGE is `SEARCHING` (10_state.md R33, R35; 60_exceptions.md R261). -/
theorem resetEvent_controlOk (s : State) : controlOk (resetEvent s) := by
  refine ⟨?errInStageError, rfl, ?statusIsErr, ?notHeaderRead, ?sitStage⟩
  case errInStageError => simp
  case statusIsErr => simp
  case notHeaderRead => simp
  case sitStage => simp

theorem resetEvent_idleOk (s : State) : idleOk (resetEvent s) := ⟨rfl, rfl, rfl⟩

/-- A reset establishes the registers' invariant from any state: of the old one only the stream's form matters, as the
stream belongs to the host (70_reset_and_hazards.md R290, R292). -/
theorem resetEvent_inv {s : State} (h : Memory.wf s.stream = true) : Inv (resetEvent s) :=
  ⟨h, resetEvent_sizesOk s, resetEvent_stackOk s, resetEvent_controlOk s, resetEvent_idleOk s⟩

/-- A reset establishes the invariant of POS over every stream: it ends the session, and what is asked of POS and of the
read buffer is asked inside a session. -/
theorem resetEvent_posInv {s : State} (h : streamOk s) : PosInv (resetEvent s) := by
  have closed : ∀ m : Mode, m ≠ .closed → (resetEvent s).mode ≠ m := fun _ hm hr => hm hr.symm
  exact ⟨h, rfl, rfl, fun hm => absurd hm (closed .bhx (by decide)), fun hm => absurd hm (closed .sit (by decide)),
    bufReset_length, fun hm => absurd hm (closed .bhx (by decide))⟩

/-- The empty stream is a sequence. -/
theorem reset_streamOk : streamOk State.reset := ⟨rfl, by decide⟩

/-- The table of 40_transliterator.md R146 meets R142. -/
theorem xltHiOk_default : xltHiOk paramsDefault.xltHi = true := by decide +kernel

/-- The offsets of 30_encoding.md R121 meet R120 and R123. -/
theorem entOffOk_default : entOffOk paramsDefault.entOff = true := by decide

/-- The spec's defaults meet the constraints of 00_scope.md R9. -/
theorem paramsOk_default : paramsOk paramsDefault = true := by
  rw [paramsOk, xltHiOk_default, entOffOk_default]
  decide

/-- Settles O9: the machine right after reset is the result of a reset event, on the empty stream and the defaults. -/
theorem resetMeetsInvariants : Obligations.ResetMeetsInvariants := by
  unfold Obligations.ResetMeetsInvariants
  refine ⟨?inv, ?posInv, paramsOk_default⟩
  case inv =>
    rw [← resetEvent_reset]
    exact resetEvent_inv Memory.reset_wf
  case posInv =>
    rw [← resetEvent_reset]
    exact resetEvent_posInv reset_streamOk

end Sys2Proof.Machine
end

section
/-! SUPPORT. The canonical form of a stream (20_memory.md R70) is unique: what its offsets read as determines the cells. -/

namespace Sys2Proof.Machine

theorem Memory.read_write (m : List Host.Cell) (a a' : Nat) (b : Byte) :
    Memory.read (Memory.write m a b) a' = if a' = a then some b else Memory.read m a' := by
  split
  case isTrue h => rw [h, Memory.read_write_same]
  case isFalse h => exact Memory.read_write_other m a a' b h

theorem Memory.risingFrom_cons {lo k : Nat} {b : Byte} {r : List Host.Cell} :
    Memory.risingFrom lo ((k, b) :: r) = true ↔ lo ≤ k ∧ Memory.risingFrom (k + 1) r = true := by
  simp [Memory.risingFrom]

theorem Memory.read_cons_same (k : Nat) (b : Byte) (r : List Host.Cell) : Memory.read ((k, b) :: r) k = some b :=
  if_pos rfl

/-- Cells in the canonical form hold nothing below their first offset. -/
theorem Memory.read_below {lo : Nat} {m : List Host.Cell} (h : Memory.risingFrom lo m = true) {a : Nat} (ha : a < lo) :
    Memory.read m a = none := by
  induction m generalizing lo with
  | nil => rfl
  | cons c r ih =>
    obtain ⟨hk, hr⟩ := Memory.risingFrom_cons.mp h
    have hne : c.1 ≠ a := by omega
    simp only [Memory.read, hne, if_false]
    exact ih hr (by omega)

/-- Two canonical lists that read alike begin at the same offset: neither holds anything below its own first one. -/
theorem Memory.head_le_of_read_eq {k k' : Nat} {b b' : Byte} {r r' : List Host.Cell}
    (h' : Memory.risingFrom (k' + 1) r' = true)
    (hr : ∀ a, Memory.read ((k, b) :: r) a = Memory.read ((k', b') :: r') a) : k' ≤ k := by
  refine Nat.le_of_not_lt fun hlt => ?_
  have hbelow : Memory.read ((k', b') :: r') k = none :=
    Memory.read_below (lo := k') (Memory.risingFrom_cons.mpr ⟨Nat.le_refl k', h'⟩) (by omega)
  rw [← hr k, Memory.read_cons_same] at hbelow
  cases hbelow

/-- Behind a common first cell, two canonical lists that read alike still do. -/
theorem Memory.tail_read_eq {k : Nat} {b : Byte} {r r' : List Host.Cell} (h : Memory.risingFrom (k + 1) r = true)
    (h' : Memory.risingFrom (k + 1) r' = true)
    (hr : ∀ a, Memory.read ((k, b) :: r) a = Memory.read ((k, b) :: r') a) (a : Nat) :
    Memory.read r a = Memory.read r' a := by
  by_cases hka : k = a
  · rw [Memory.read_below h (by omega), Memory.read_below h' (by omega)]
  · simpa only [Memory.read, if_neg hka] using hr a

/-- Canonical cells are determined by what they read as. -/
theorem Memory.eq_of_read_eq {lo lo' : Nat} {m m' : List Host.Cell} (h : Memory.risingFrom lo m = true)
    (h' : Memory.risingFrom lo' m' = true) (hr : ∀ a, Memory.read m a = Memory.read m' a) : m = m' := by
  induction m generalizing lo lo' m' with
  | nil =>
    cases m' with
    | nil => rfl
    | cons c' r' =>
      have hc := hr c'.1
      rw [Memory.read_cons_same] at hc
      cases hc
  | cons c r ih =>
    obtain ⟨k, b⟩ := c
    cases m' with
    | nil =>
      have hc := hr k
      rw [Memory.read_cons_same] at hc
      cases hc
    | cons c' r' =>
      obtain ⟨k', b'⟩ := c'
      have ht := (Memory.risingFrom_cons.mp h).2
      have ht' := (Memory.risingFrom_cons.mp h').2
      have hk : k = k' :=
        Nat.le_antisymm (Memory.head_le_of_read_eq ht fun a => (hr a).symm) (Memory.head_le_of_read_eq ht' hr)
      subst hk
      have hb := hr k
      rw [Memory.read_cons_same, Memory.read_cons_same] at hb
      cases hb
      rw [ih ht ht' (Memory.tail_read_eq ht ht' hr)]

/-- Settles O19: the laws of reads and writes, and the uniqueness of the canonical form. -/
theorem memoryLaws : Obligations.MemoryLaws := by
  unfold Obligations.MemoryLaws
  exact ⟨Memory.read_ofBytes, Memory.read_write, Memory.wf_writes, fun _ _ h h' hr => Memory.eq_of_read_eq h h' hr⟩

end Sys2Proof.Machine
end

section
/-! SUPPORT. The sinks (20_memory.md R75, R76): what is said of them alone is kept by the decode stack, by a `raise` and by
every row but the fork record's, and the fork record only appends to its own sink. -/

namespace Sys2Proof.Machine

/-- `P` of the two sinks of a state. -/
def onSinks (P : List Byte → List Byte → Prop) (s : State) : Prop := P s.sinkD s.sinkR

/-- The decode stack does not look at the sinks. -/
theorem onSinks_closed (P : List Byte → List Byte → Prop) : StackClosed (onSinks P) where
  raw s h := by
    rw [rawget_frame s]
    exact h
  free s t h ht := by
    rw [ht]
    exact h
  upper s t h ht := by
    rw [ht]
    exact h
  taken _ _ _ h _ := h

/-- A `raise` leaves the sinks. -/
theorem onSinks_of_raised {P : List Byte → List Byte → Prop} {cs : List Cause} {t : State}
    (h : raisedFrom cs (onSinks P) t) : onSinks P t := by
  obtain ⟨c, e, f, u, rfl, hu, -⟩ := h
  exact hu

/-- What holds of the two sinks however an operation ends. -/
abbrev sinksMeet {α : Type} (P : List Byte → List Byte → Prop) (r : Res α) : Prop :=
  r.meets (fun _ => onSinks P) (onSinks P)

/-- An operation that keeps `P` of the sinks where it goes on, and raises from states that meet it. -/
theorem sinksMeet_of {α : Type} {P : List Byte → List Byte → Prop} {Q : α → State → Prop} {cs : List Cause}
    {K : State → Prop} {r : Res α} (h : r.meets Q (raisedFrom cs K)) (hQ : ∀ a t, Q a t → onSinks P t)
    (hK : ∀ u, K u → onSinks P u) : sinksMeet P r :=
  Res.meets_mono h hQ fun _ ht => onSinks_of_raised (raisedFrom_mono ht (fun _ hc => hc) hK)

theorem onSinks_of_finish {α : Type} {P : List Byte → List Byte → Prop} {r : Res α} {t : State} (h : sinksMeet P r)
    (ht : finish r = .next t) : onSinks P t := by
  cases r with
  | ok a u => cases ht; exact h
  | stop u => cases ht; exact h

/-- Acceptance (48_commands.md R240) leaves the sinks to the command's own rule. -/
theorem onSinks_of_accept {P : List Byte → List Byte → Prop} {need : Mode} {g : Option Stage} {body : State → Res Unit}
    {s t : State} (hs : onSinks P s) (hb : sinksMeet P (body s)) (ht : accept need g body s = .next t) : onSinks P t := by
  rcases accept_cases need g body s with ⟨c, -, ha⟩ | ⟨-, c, e, f, -, ha⟩ | ⟨-, -, -, ha⟩
  · cases ha.symm.trans ht
    exact hs
  · cases ha.symm.trans ht
    exact hs
  · exact onSinks_of_finish hb (ha.symm.trans ht)

theorem onSinks_of_acceptAny {P : List Byte → List Byte → Prop} {body : State → Res Unit} {s t : State} (hs : onSinks P s)
    (hb : sinksMeet P (body s)) (ht : acceptAny body s = .next t) : onSinks P t := by
  cases he : s.err with
  | none => exact onSinks_of_finish hb ((acceptAny_ok he).symm.trans ht)
  | some c =>
    cases (acceptAny_err he).symm.trans ht
    exact hs

/-! What the records keep of the sinks. -/

theorem headerRecord_sinks {P : List Byte → List Byte → Prop} {s : State} (h : onSinks P s) :
    sinksMeet P (headerRecord s) := by
  refine sinksMeet_of (headerRecord_keeps (onSinks_closed P).rawClosed (fun _ _ hu _ _ => hu) s h) ?_ fun _ hu => hu
  rintro - t ⟨u, hu, rfl⟩
  exact hu

/-- `BHX.HDR` writes no sink. -/
theorem hdrBody_sinks {P : List Byte → List Byte → Prop} {s : State} (h : onSinks P s) : sinksMeet P (hdrBody s) := by
  have hl : (locate s).meets (fun _ => onSinks P) (onSinks P) := by
    refine sinksMeet_of (locate_frame s) ?_ ?_
    · rintro - t ⟨p, rfl⟩
      exact h
    · intro u hu
      rw [hu]
      exact h
  exact Res.meets_bind hl fun _ t ht => headerRecord_sinks ht

/-- A fork record keeps what the appends to its sink keep. -/
theorem forkRecord_sinks {P : List Byte → List Byte → Prop} {k : Sink}
    (hk : ∀ v u, onSinks P u → onSinks P (appendSink k v u)) {n : Nat} {s : State} (h : onSinks P s) :
    sinksMeet P (forkRecord k n s) := by
  refine sinksMeet_of (forkRecord_meets (onSinks_closed P).rawClosed k hk n s h) ?_ fun _ hu => hu
  rintro - t ⟨u, c, hu, rfl⟩
  simpa only [onSinks, forkDone_sinkD, forkDone_sinkR] using hu

theorem forkBody_sinks {P : List Byte → List Byte → Prop} {k : Sink}
    (hk : ∀ v u, onSinks P u → onSinks P (appendSink k v u)) {len : Word} {s : State} (h : onSinks P s) :
    sinksMeet P (forkBody k len s) := by
  unfold forkBody
  split
  · exact h
  · exact forkRecord_sinks hk h

theorem sitHdrBody_sinks {P : List Byte → List Byte → Prop} {s : State} (h : onSinks P s) :
    sinksMeet P (sitHdrBody s) := by
  refine sinksMeet_of (sitHdrBody_meets s) ?_ ?_
  · rintro - t ⟨m, rfl⟩
    exact h
  · rintro u rfl
    exact h

theorem entryRecord_sinks {P : List Byte → List Byte → Prop} {s : State} (h : onSinks P s) :
    onSinks P (entryRecord s) := by
  rw [entryRecord_eq]
  exact h

theorem sitNextBody_sinks {P : List Byte → List Byte → Prop} {s : State} (h : onSinks P s) :
    sinksMeet P (sitNextBody s) := by
  refine sinksMeet_of (sitNextBody_meets s) ?_ ?_
  · rintro - t (⟨-, rfl⟩ | ⟨-, rfl⟩)
    · exact h
    · exact entryRecord_sinks h
  · rintro u rfl
    exact h

theorem accessorBody_sinks {P : List Byte → List Byte → Prop} {f : EntryRegs → Pos} {s : State} (h : onSinks P s) :
    sinksMeet P (accessorBody f s) := by
  unfold accessorBody
  split <;> exact h

theorem xlitBody_sinks {P : List Byte → List Byte → Prop} {s : State} (h : onSinks P s) : sinksMeet P (xlitBody s) := by
  refine sinksMeet_of (xlitBody_meets s) ?_ ?_
  · rintro - t ⟨d, n, -, rfl⟩
    exact h
  · rintro u rfl
    exact h

theorem closeSession_sinks {P : List Byte → List Byte → Prop} {s : State} (h : onSinks P s) :
    sinksMeet P (closeSession s) := by
  refine Res.meets_mono (closeSession_meets s) ?_ ?_
  · rintro - t (⟨-, rfl⟩ | ⟨-, rfl⟩) <;> exact h
  · rintro t ⟨-, e, f, rfl⟩
    exact h

theorem checkMagic2_sinks {P : List Byte → List Byte → Prop} {m : Word} {s : State} (h : onSinks P s) :
    sinksMeet P (checkMagic2 m s) := by
  simp only [checkMagic2]
  split <;> exact h

theorem checkMagic1_sinks {P : List Byte → List Byte → Prop} {s : State} (h : onSinks P s) :
    sinksMeet P (checkMagic1 s) := by
  simp only [checkMagic1]
  split
  · exact checkMagic2_sinks h
  · exact h

theorem deliverSome_countOne_sinks {P : List Byte → List Byte → Prop} {s : State} (h : onSinks P s) :
    sinksMeet P (deliverSome (countOne s)) := by
  have hc : sinksMeet P (countOne s) := by
    unfold countOne
    split <;> exact h
  exact Res.meets_bind hc fun _ _ ht => ht

/-! What the instructions keep of the sinks. -/

/-- Whether the instruction is one of those that decode a fork into the sink `k` (45_binhex_records.md R198, R199): the
command, or the fork record's row. -/
def writesSink (k : Sink) (i : Instr) : Prop :=
  (i = match k with | .data => .bhxData | .rsrc => .bhxRsrc) ∨ ∃ r, i = .recBhxfork r

/-- `P` allows every byte that the instruction appends. -/
def allowsAppends (P : List Byte → List Byte → Prop) (i : Instr) : Prop :=
  ∀ k, writesSink k i → ∀ v u, onSinks P u → onSinks P (appendSink k v u)

/-- A command that opens no session changes the sinks by its own appends only. -/
theorem exec_command_sinks {P : List Byte → List Byte → Prop} {i : Instr} (hi : spaceOf i = .command)
    (hP : allowsAppends P i) (ho : opens i = false) {s t : State} (h : onSinks P s) (ht : exec i s = .next t) :
    onSinks P t := by
  rcases exec_command hi s with ⟨rfl, -⟩ | ⟨rfl, -⟩ | ⟨-, he⟩ | ⟨-, he⟩ | ⟨rfl, he⟩ | ⟨rfl, he⟩ | ⟨-, he⟩ | ⟨-, he⟩
    | ⟨-, f, he⟩ | ⟨-, he⟩ | ⟨c, -, he⟩
  · cases ho
  · cases ho
  all_goals rw [he] at ht
  · exact onSinks_of_finish (closeSession_sinks h) ht
  · exact onSinks_of_accept h (hdrBody_sinks h) ht
  · exact onSinks_of_accept h (forkBody_sinks (hP .data (.inl rfl)) h) ht
  · exact onSinks_of_accept h (forkBody_sinks (hP .rsrc (.inl rfl)) h) ht
  · exact onSinks_of_accept h (sitHdrBody_sinks h) ht
  · exact onSinks_of_accept h (sitNextBody_sinks h) ht
  · exact onSinks_of_accept h (accessorBody_sinks h) ht
  · exact onSinks_of_acceptAny h (xlitBody_sinks h) ht
  · exact onSinks_of_acceptAny h (show sinksMeet P (raise .illegalCmd 0 (c.setWidth 32) s) from h) ht

/-- The fork record's row appends to the sink of the fork STAGE stands at. -/
theorem exec_recBhxfork_sinks {P : List Byte → List Byte → Prop} {r : BhxForkRec} (hP : allowsAppends P (.recBhxfork r))
    {s t : State} (h : onSinks P s) (ht : exec (.recBhxfork r) s = .next t) : onSinks P t := by
  have hk : ∀ k v u, onSinks P u → onSinks P (appendSink k v u) := fun k => hP k (.inr ⟨r, rfl⟩)
  have hd : onSinks P { s with dbuf := encode (.recBhxfork r) ++ s.dbuf } := h
  simp only [exec, execRecBhxfork] at ht
  split at ht
  · exact onSinks_of_finish (forkRecord_sinks (hk .data) hd) ht
  · split at ht
    · exact onSinks_of_finish (forkRecord_sinks (hk .rsrc) hd) ht
    · cases ht
      exact h

/-- A row outside the command space changes the sinks by its own appends only. -/
theorem exec_row_sinks {P : List Byte → List Byte → Prop} {i : Instr} (hi : spaceOf i ≠ .command)
    (hP : allowsAppends P i) {s t : State} (h : onSinks P s) (ht : exec i s = .next t) : onSinks P t := by
  cases i
  case recBhxfork r => exact exec_recBhxfork_sinks hP h ht
  case recBhxhdr r =>
    have hd : onSinks P { s with dbuf := encode (.recBhxhdr r) ++ s.dbuf } := h
    exact onSinks_of_finish (headerRecord_sinks hd) ht
  case rleCount1 => exact onSinks_of_finish (deliverSome_countOne_sinks h) ht
  case recSithdr22 r =>
    have hl : onSinks P (loadRec (encode (.recSithdr22 r)) { s with saValid := false }) := h
    exact onSinks_of_finish (checkMagic1_sinks hl) ht
  case magic1Sit | magic1St46 | magic1St50 | magic1St60 | magic1St65 | magic1Stin | magic1Sti2 | magic1Sti3
    | magic1Sti4 => exact onSinks_of_finish (checkMagic2_sinks h) ht
  case recSitent112 r =>
    have hl : onSinks P (loadRec (encode (.recSitent112 r)) { s with seValid := false }) := h
    cases ht
    exact entryRecord_sinks hl
  case methEncrypted | methFolderStart | methFolderEnd | methOther =>
    cases ht
    split <;> exact h
  case typeAppl => exact onSinks_of_finish (accessorBody_sinks h) ht
  case openBhx | openSit | close | bhxHdr | bhxData | bhxRsrc | sitHdr | sitNext | sitIsenc | sitIsfst | sitIsfend
    | sitIsapp | sitCsize | sitUsize | sitMtime | xlit | reservedCommand => exact absurd rfl hi
  all_goals
    cases ht
    exact h

/-- Every instruction but `OPEN.*` changes the sinks by its own appends only. -/
theorem exec_sinks {P : List Byte → List Byte → Prop} {i : Instr} (hP : allowsAppends P i) (ho : opens i = false)
    {s t : State} (h : onSinks P s) (ht : exec i s = .next t) : onSinks P t := by
  by_cases hi : spaceOf i = .command
  · exact exec_command_sinks hi hP ho h ht
  · exact exec_row_sinks hi hP h ht

/-- `OPEN.*` of a closed block leaves both sinks empty, also when the open fails (48_commands.md R242). -/
theorem openSession_sinks (m : Mode) {s : State} (hm : s.mode = .closed) :
    sinksMeet (fun d r => d = [] ∧ r = []) (openSession m s) := by
  refine Res.meets_mono (openSession_meets m s) ?_ ?_
  · rintro - t ⟨-, rfl⟩
    exact ⟨rfl, rfl⟩
  · rintro t (⟨hne, -⟩ | ⟨-, e, f, rfl⟩)
    · exact absurd hm hne
    · exact ⟨rfl, rfl⟩

theorem exec_open_sinks {i : Instr} (ho : opens i = true) {s t : State} (hm : s.mode = .closed)
    (ht : exec i s = .next t) : t.sinkD = [] ∧ t.sinkR = [] := by
  cases i
  case openBhx => exact onSinks_of_finish (openSession_sinks .bhx hm) ht
  case openSit => exact onSinks_of_finish (openSession_sinks .sit hm) ht
  all_goals cases ho

theorem allowsAppends_prefix (d r : List Byte) (i : Instr) :
    allowsAppends (fun d' r' => d <+: d' ∧ r <+: r') i := by
  rintro (_ | _) - v u ⟨hd, hr⟩
  · exact ⟨hd.trans (List.prefix_append _ _), hr⟩
  · exact ⟨hd, hr.trans (List.prefix_append _ _)⟩

theorem allowsAppends_sinkD (d : List Byte) {i : Instr} (hi : ¬ writesSink .data i) :
    allowsAppends (fun d' _ => d' = d) i := by
  rintro (_ | _) hw v u hu
  · exact absurd hw hi
  · exact hu

theorem allowsAppends_sinkR (r : List Byte) {i : Instr} (hi : ¬ writesSink .rsrc i) :
    allowsAppends (fun _ r' => r' = r) i := by
  rintro (_ | _) hw v u hu
  · exact hu
  · exact absurd hw hi

/-- Settles O17: `exec_sinks` at "an extension of what it was" for both sinks, and at "what it was" for each. -/
theorem sinksAppendOnly : Obligations.SinksAppendOnly := by
  unfold Obligations.SinksAppendOnly
  intro i s t ht
  refine ⟨fun ho => ?grow, fun ho hc hr => ?sinkD, fun ho hc hr => ?sinkR, fun ho hm => exec_open_sinks ho hm ht⟩
  case grow =>
    exact exec_sinks (allowsAppends_prefix s.sinkD s.sinkR i) ho ⟨List.prefix_refl _, List.prefix_refl _⟩ ht
  case sinkD =>
    have hw : ¬ writesSink .data i := by
      rintro (h | ⟨r, h⟩)
      · exact hc h
      · exact hr r h
    exact exec_sinks (allowsAppends_sinkD s.sinkD hw) ho rfl ht
  case sinkR =>
    have hw : ¬ writesSink .rsrc i := by
      rintro (h | ⟨r, h⟩)
      · exact hc h
      · exact hr r h
    exact exec_sinks (allowsAppends_sinkR s.sinkR hw) ho rfl ht

end Sys2Proof.Machine
end

section
/-! SUPPORT. A fork record run on the decoded bytes that follow (45_binhex_records.md R198 to R203): as a function of the
bytes the decode stack delivers, when they are the whole record and when the stack stops before its end. -/

namespace Sys2Proof.Machine

/-- The two bytes of a half word, put together again (00_scope.md R14). -/
theorem be16_bytes (f : Half) : be16 ((f >>> 8).setWidth 8) (f.setWidth 8) = f := by
  apply BitVec.eq_of_getLsbD_eq
  intro i hi
  simp only [be16, BitVec.getLsbD_or, BitVec.getLsbD_shiftLeft, BitVec.getLsbD_setWidth, BitVec.getLsbD_ushiftRight]
  by_cases h8 : i < 8
  · simp [h8, hi]
  · have hsum : 8 + (i - 8) = i := by omega
    have hlt : i - 8 < 8 := by omega
    simp [h8, hi, hsum, hlt, show i - 8 < 16 by omega]

theorem crcFrom_append (c : Half) (m m' : List Byte) : crcFrom c (m ++ m') = crcFrom (crcFrom c m) m' :=
  List.foldl_append

/-! The record parser's registers while a fork is read. -/

/-- What the record parser holds of a state at a span start (44_crc16.md R184). -/
def spanRegs (s : State) : ParserRegs := ⟨crcInit, s.sinkD, s.sinkR, s.bh, s.bhValid⟩

theorem spanStart_eq_withParser (s : State) : spanStart s = s.withParser (spanRegs s) := rfl

/-- The decode stack leaves what the parser holds. -/
theorem stackFrame_parser {s v : State} (h : stackFrame s v) :
    v.sinkD = s.sinkD ∧ v.sinkR = s.sinkR ∧ v.bh = s.bh ∧ spanRegs v = spanRegs s := by
  unfold stackFrame at h
  rw [h]
  exact ⟨rfl, rfl, rfl, rfl⟩

/-- Bytes counted in the checksum. -/
def ParserRegs.counted (bs : List Byte) (r : ParserRegs) : ParserRegs := { r with crc := crcFrom r.crc bs }

/-- Body bytes counted in the checksum and appended to the sink `k` (45_binhex_records.md R200). -/
def ParserRegs.copied (k : Sink) (bs : List Byte) (r : ParserRegs) : ParserRegs :=
  match k with
  | .data => { r.counted bs with sinkD := r.sinkD ++ bs }
  | .rsrc => { r.counted bs with sinkR := r.sinkR ++ bs }

theorem ParserRegs.copied_nil (k : Sink) (r : ParserRegs) : r.copied k [] = r := by
  cases k <;> simp [copied, counted, crcFrom]

theorem ParserRegs.copied_cons (k : Sink) (b : Byte) (bs : List Byte) (r : ParserRegs) :
    r.copied k (b :: bs) = (r.copied k [b]).copied k bs := by
  cases k <;> simp [copied, counted, crcFrom]

theorem ParserRegs.copied_crc (k : Sink) (bs : List Byte) (r : ParserRegs) : (r.copied k bs).crc = crcFrom r.crc bs := by
  cases k <;> rfl

/-- One turn of the copying loop, after its byte has been decoded. -/
theorem appendSink_withParser (k : Sink) (b : Byte) (r : ParserRegs) (s : State) :
    appendSink k b (s.withParser { r with crc := crcByte r.crc b }) = s.withParser (r.copied k [b]) := by
  cases k <;> rfl

/-! The loop and the check, by the bytes decoded. -/

/-- The copying loop over bytes the stack delivers: they are counted and appended, and the loop goes on behind them. -/
theorem forkBytes_of_calls (k : Sink) (m : Nat) (got : List Byte) (r : ParserRegs) {s v : State}
    (h : calls nextDecoded got.length s = .ok got v) :
    forkBytes k (got.length + m) (s.withParser r) = forkBytes k m (v.withParser (r.copied k got)) := by
  induction got generalizing s r with
  | nil =>
    cases h
    rw [List.length_nil, Nat.zero_add, ParserRegs.copied_nil]
  | cons b bs ih =>
    simp only [List.length_cons, calls] at h
    obtain ⟨b', u, hb, h⟩ := Res.bind_eq_ok.mp h
    obtain ⟨bs', v', hbs, h⟩ := Res.bind_eq_ok.mp h
    cases h
    rw [List.length_cons, Nat.add_right_comm, forkBytes, getc_withParser r hb, Res.bind_ok, appendSink_withParser,
      ih _ hbs, ← ParserRegs.copied_cons]

/-- The loop where the stack stops before the body's end: what was decoded is counted and appended. -/
theorem forkBytes_of_stop (k : Sink) {n : Nat} {got : List Byte} (r : ParserRegs) {s v t : State}
    (h : calls nextDecoded got.length s = .ok got v) (ht : nextDecoded v = .stop t) (hn : got.length < n) :
    forkBytes k n (s.withParser r) = .stop (t.withParser (r.copied k got)) := by
  obtain ⟨m, rfl⟩ : ∃ m, n = got.length + (m + 1) := ⟨n - got.length - 1, by omega⟩
  rw [forkBytes_of_calls k _ got r h, forkBytes, getc_withParser_stop _ ht]
  rfl

/-- `CRCCHECK` (44_crc16.md R185) over a stored field the stack delivers: two zeros are counted in place of the field, and
the accumulator is compared with it. -/
theorem crcCheck_of_calls (c : Cause) {hi lo : Byte} (r : ParserRegs) {s v : State}
    (h : calls nextDecoded 2 s = .ok [hi, lo] v) :
    crcCheck c (s.withParser r) =
      if (r.counted [0, 0]).crc = be16 hi lo then .ok (be16 hi lo) (v.withParser (r.counted [0, 0]))
      else .stop (fatal c ((r.counted [0, 0]).crc.setWidth 32) ((be16 hi lo).setWidth 32)
        (v.withParser (r.counted [0, 0]))) := by
  simp only [calls] at h
  obtain ⟨hi', u, hhi, h⟩ := Res.bind_eq_ok.mp h
  obtain ⟨bs, v', hlo, h⟩ := Res.bind_eq_ok.mp h
  obtain ⟨lo', w, hlo, hb⟩ := Res.bind_eq_ok.mp hlo
  cases hb
  cases h
  rw [crcCheck, getc0_withParser r hhi, Res.bind_ok, getc0_withParser _ hlo, Res.bind_ok]
  exact ite_not ..

/-- `CRCCHECK` where the stack stops in the field: a zero was counted for each byte of it that was decoded. -/
theorem crcCheck_of_stop (c : Cause) {field : List Byte} (r : ParserRegs) {s v t : State}
    (h : calls nextDecoded field.length s = .ok field v) (ht : nextDecoded v = .stop t) (hf : field.length < 2) :
    crcCheck c (s.withParser r) = .stop (t.withParser (r.counted (List.replicate field.length 0))) := by
  match field with
  | [] =>
    cases h
    rw [crcCheck, getc0_withParser_stop _ ht]
    rfl
  | [hi] =>
    simp only [List.length_singleton, calls] at h
    obtain ⟨b, u, hhi, h⟩ := Res.bind_eq_ok.mp h
    cases h
    rw [crcCheck, getc0_withParser r hhi, Res.bind_ok, getc0_withParser_stop _ ht]
    rfl
  | _ :: _ :: _ =>
    simp only [List.length_cons] at hf
    omega

/-! The record. -/

/-- A whole fork record (45_binhex_records.md R200, R201): the body in the sink, and the checksum of the body compared with
the stored one. -/
theorem forkRecord_of_calls (k : Sink) {body : List Byte} {f : Half} {s v : State}
    (h : calls nextDecoded (body.length + 2) s = .ok (body ++ bytes16 f) v) :
    forkRecord k body.length s =
      if crc16 body = f then
        .ok () (forkDone k f (v.withParser { (spanRegs v).copied k body with crc := crc16 body }))
      else .stop (fatal .badForkCrc ((crc16 body).setWidth 32) (f.setWidth 32)
        (v.withParser { (spanRegs v).copied k body with crc := crc16 body })) := by
  have hregs : spanRegs v = spanRegs s := (stackFrame_parser (calls_nextDecoded_frame _ _ _ _ h)).2.2.2
  obtain ⟨u, hbody, hfield⟩ := calls_append nextDecoded body (bytes16 f) s v h
  have hcopy := forkBytes_of_calls k 0 body (spanRegs s) hbody
  have hcrc : (((spanRegs s).copied k body).counted [0, 0]).crc = crc16 body := by
    rw [ParserRegs.counted, ParserRegs.copied_crc, crc16, acc, crcFrom_append]
    rfl
  have hcount : ((spanRegs s).copied k body).counted [0, 0] = { (spanRegs s).copied k body with crc := crc16 body } := by
    rw [← hcrc]
    rfl
  rw [forkRecord, spanStart_eq_withParser, ← Nat.add_zero body.length, hcopy, forkBytes, Res.bind_ok,
    crcCheck_of_calls .badForkCrc _ hfield, be16_bytes, hcrc, hcount, hregs]
  split <;> rfl

/-- A fork record where the stack stops before its end, in the body or in the stored checksum (60_exceptions.md R271): the
body bytes decoded are in the sink, and the field's bytes decoded have been counted as zeros. -/
theorem forkRecord_of_stop (k : Sink) {n : Nat} {got : List Byte} {s v t : State}
    (h : calls nextDecoded got.length s = .ok got v) (ht : nextDecoded v = .stop t) (hn : got.length < n + 2) :
    forkRecord k n s = .stop (t.withParser
      (((spanRegs s).copied k (got.take n)).counted (List.replicate (got.length - n) 0))) := by
  rw [forkRecord, spanStart_eq_withParser]
  by_cases hbody : got.length < n
  · rw [forkBytes_of_stop k _ h ht hbody, List.take_of_length_le (by omega), Nat.sub_eq_zero_of_le (by omega)]
    rfl
  · have htake : (got.take n).length = n := by
      rw [List.length_take]
      omega
    have hdrop : (got.drop n).length = got.length - n := List.length_drop
    obtain ⟨u, hb, hf⟩ := calls_append nextDecoded (got.take n) (got.drop n) s v (by
      rw [List.take_append_drop, htake, hdrop, Nat.add_sub_cancel' (by omega)]
      exact h)
    have hcopy := forkBytes_of_calls k 0 (got.take n) (spanRegs s) hb
    rw [htake, Nat.add_zero] at hcopy
    rw [hcopy, forkBytes, Res.bind_ok, crcCheck_of_stop .badForkCrc _ hf ht (by omega), hdrop]
    rfl

/-- The checksum a record that was cut short leaves. -/
theorem crc_of_stop (k : Sink) (body : List Byte) (j : Nat) (s : State) :
    (((spanRegs s).copied k body).counted (List.replicate j 0)).crc = acc (body ++ List.replicate j 0) := by
  rw [ParserRegs.counted, ParserRegs.copied_crc, acc, crcFrom_append]
  rfl

/-! The commands. -/

/-- A fork command's body with a length that is not negative (45_binhex_records.md R202). -/
theorem forkBody_of_nonneg (k : Sink) {len : Word} (h : 0 ≤ len.toInt) (s : State) :
    forkBody k len s = forkRecord k len.toNat s := by
  simp [forkBody, isNegative, Int.not_lt.mpr h]

/-- An accepted `BHX.DATA` reads the data fork's record. -/
theorem exec_bhxData {s : State} (he : s.err = none) (hm : s.mode = .bhx) (hg : s.stage = .forkData)
    (hl : 0 ≤ s.bh.dlen.toInt) : exec .bhxData s = finish (forkRecord .data s.bh.dlen.toNat s) := by
  rw [← forkBody_of_nonneg .data hl]
  exact accept_ok he hm fun x hx => hg.trans (Option.some.inj hx)

/-- An accepted `BHX.RSRC` reads the resource fork's record. -/
theorem exec_bhxRsrc {s : State} (he : s.err = none) (hm : s.mode = .bhx) (hg : s.stage = .forkRsrc)
    (hl : 0 ≤ s.bh.rlen.toInt) : exec .bhxRsrc s = finish (forkRecord .rsrc s.bh.rlen.toNat s) := by
  rw [← forkBody_of_nonneg .rsrc hl]
  exact accept_ok he hm fun x hx => hg.trans (Option.some.inj hx)

/-- Settles O47: the commands run the fork record, which is known by the decoded bytes. -/
theorem forkCommands : Obligations.ForkCommands := by
  unfold Obligations.ForkCommands
  refine ⟨?whole, ?cut⟩
  case whole =>
    intro s v body f he hm h
    obtain ⟨hD, hR, hbh, -⟩ := stackFrame_parser (calls_nextDecoded_frame _ _ _ _ h)
    refine ⟨fun hg hl hn => ?data, fun hg hl hn => ?rsrc⟩
    case data =>
      rw [exec_bhxData he hm hg hl, ← hn, forkRecord_of_calls .data h, ← hD, ← hbh]
      exact ⟨fun hc => by subst hc; rw [if_pos rfl]; rfl, fun hc => by rw [if_neg hc]; rfl⟩
    case rsrc =>
      rw [exec_bhxRsrc he hm hg hl, ← hn, forkRecord_of_calls .rsrc h, ← hR, ← hbh]
      exact ⟨fun hc => by subst hc; rw [if_pos rfl]; rfl, fun hc => by rw [if_neg hc]; rfl⟩
  case cut =>
    intro s v t got n he hm h ht hn
    have hstop := nextDecoded_does v
    rw [ht] at hstop
    obtain ⟨c, e, f, w, rfl, hc, hw⟩ := hstop
    obtain ⟨hD, hR, hbh, hregs⟩ := stackFrame_parser (stackFrame_trans (calls_nextDecoded_frame _ _ _ _ h) hw)
    refine ⟨c, e, f, w, rfl, hc, hbh, hD, hR, fun hg hl hlen => ?data, fun hg hl hlen => ?rsrc⟩
    case data =>
      rw [exec_bhxData he hm hg hl, ← hlen, forkRecord_of_stop .data h ht hn, ← hregs, ← hD,
        ← crc_of_stop .data (got.take n) (got.length - n) w]
      rfl
    case rsrc =>
      rw [exec_bhxRsrc he hm hg hl, ← hlen, forkRecord_of_stop .rsrc h ht hn, ← hregs, ← hR,
        ← crc_of_stop .rsrc (got.take n) (got.length - n) w]
      rfl

end Sys2Proof.Machine
end

section
/-! SUPPORT. Operands and their bytes (30_encoding.md R108, R125; 00_scope.md R14): the bytes of a field put together again,
the fields of a byte sequence written out again, groups packed and unpacked. -/

namespace Sys2Proof

/-- The four bytes of a word, put together again, bit by bit. -/
theorem be32_bytes (w : Word) :
    be32 ((w >>> 24).setWidth 8) ((w >>> 16).setWidth 8) ((w >>> 8).setWidth 8) (w.setWidth 8) = w := by
  refine BitVec.eq_of_getLsbD_eq ?_
  simp only [Nat.forall_lt_succ_right]
  simp [be32]

/-- The word of four bytes, taken apart again. -/
theorem bytes32_be32 (b0 b1 b2 b3 : Byte) : bytes32 (be32 b0 b1 b2 b3) = [b0, b1, b2, b3] := by
  simp only [bytes32, be32, List.cons.injEq, and_true]
  refine ⟨?_, ?_, ?_, ?_⟩
  all_goals
    refine BitVec.eq_of_getLsbD_eq ?_
    simp only [Nat.forall_lt_succ_right]
    simp

/-- The half word of two bytes, taken apart again. -/
theorem bytes16_be16 (b0 b1 : Byte) : bytes16 (be16 b0 b1) = [b0, b1] := by
  simp only [bytes16, be16, List.cons.injEq, and_true]
  refine ⟨?_, ?_⟩
  all_goals
    refine BitVec.eq_of_getLsbD_eq ?_
    simp only [Nat.forall_lt_succ_right]
    simp

/-- A field of two bytes at the front of a sequence is the half word they are written from. -/
theorem field16_bytes16 (h : Half) (r : List Byte) : field16 (bytes16 h ++ r) 0 = h := Machine.be16_bytes h

/-- A field is found by the bytes from its offset on. -/
theorem field16_eq_drop (b : List Byte) (off : Nat) : field16 b off = field16 (b.drop off) 0 := by
  simp [field16, field8, List.getD_eq_getElem?_getD]

/-- A byte of a sequence, written out again before those after it. -/
theorem field8_cons_drop {b : List Byte} {off : Nat} (h : off < b.length) :
    field8 b off :: b.drop (off + 1) = b.drop off := by
  rw [List.drop_eq_getElem_cons h, field8, List.getD_eq_getElem?_getD, List.getElem?_eq_getElem h, Option.getD_some]

/-- A field of two bytes, written out again before the bytes after it. -/
theorem bytes16_field16_append_drop {b : List Byte} {off : Nat} (h : off + 2 ≤ b.length) :
    bytes16 (field16 b off) ++ b.drop (off + 2) = b.drop off := by
  rw [field16, bytes16_be16, List.cons_append, List.cons_append, List.nil_append, field8_cons_drop (by omega),
    field8_cons_drop (by omega)]

/-- A field of four bytes, written out again before the bytes after it. -/
theorem bytes32_field32_append_drop {b : List Byte} {off : Nat} (h : off + 4 ≤ b.length) :
    bytes32 (field32 b off) ++ b.drop (off + 4) = b.drop off := by
  rw [field32, bytes32_be32]
  simp only [List.cons_append, List.nil_append]
  rw [field8_cons_drop (by omega), field8_cons_drop (by omega), field8_cons_drop (by omega),
    field8_cons_drop (by omega)]

/-- A run of bytes of a sequence, written out again before the bytes after it. -/
theorem take_drop_append_drop (b : List Byte) (off n : Nat) :
    (b.drop off).take n ++ b.drop (off + n) = b.drop off := by
  rw [← List.drop_drop, List.take_append_drop]

/-- Four sextets, packed and unpacked (R108), bit by bit. -/
theorem unpack_pack (s0 s1 s2 s3 : Sextet) :
    unpack (pack s0 s1 s2 s3).1 (pack s0 s1 s2 s3).2.1 (pack s0 s1 s2 s3).2.2 = (s0, s1, s2, s3) := by
  simp only [pack, unpack, Prod.mk.injEq]
  refine ⟨?_, ?_, ?_, ?_⟩
  all_goals
    refine BitVec.eq_of_getLsbD_eq ?_
    simp only [Nat.forall_lt_succ_right]
    simp

/-- Three bytes, unpacked and packed (R108), bit by bit. -/
theorem pack_unpack (b0 b1 b2 : Byte) :
    pack (unpack b0 b1 b2).1 (unpack b0 b1 b2).2.1 (unpack b0 b1 b2).2.2.1 (unpack b0 b1 b2).2.2.2 = (b0, b1, b2) := by
  simp only [pack, unpack, Prod.mk.injEq]
  refine ⟨?_, ?_, ?_⟩
  all_goals
    refine BitVec.eq_of_getLsbD_eq ?_
    simp only [Nat.forall_lt_succ_right]
    simp

end Sys2Proof
end

section
/-! SUPPORT. The four classes of a raw character (30_encoding.md R104 to R107), by its place in the alphabet. -/

namespace Sys2Proof

theorem indexIn_eq_some {c : Byte} {l : List Byte} {n : Nat} {v : Sextet} (h : indexIn c l n = some v) :
    ∃ i, l[i]? = some c ∧ v = BitVec.ofNat 6 (n + i) := by
  induction l generalizing n with
  | nil => cases h
  | cons d r ih =>
    rw [indexIn] at h
    split at h
    case isTrue hc =>
      cases h
      exact ⟨0, by rw [hc]; rfl, rfl⟩
    case isFalse =>
      obtain ⟨i, hi, hv⟩ := ih h
      exact ⟨i + 1, hi, by rw [hv, Nat.add_assoc, Nat.add_comm 1]⟩

theorem indexIn_of_getElem? {c : Byte} {l : List Byte} (hl : l.Nodup) {i : Nat} (h : l[i]? = some c) (n : Nat) :
    indexIn c l n = some (BitVec.ofNat 6 (n + i)) := by
  induction l generalizing i n with
  | nil => cases h
  | cons d r ih =>
    obtain ⟨hd, hr⟩ := List.nodup_cons.mp hl
    cases i with
    | zero =>
      cases h
      simp [indexIn]
    | succ i =>
      have hi : r[i]? = some c := h
      have hne : c ≠ d := fun hc => hd (hc ▸ List.mem_of_getElem? hi)
      rw [indexIn, if_neg hne, ih hr hi, Nat.add_assoc, Nat.add_comm 1]

theorem alphabet_length : alphabet.length = 64 := rfl

theorem alphabet_nodup : alphabet.Nodup := by decide

/-- `ALPHA_VAL` (R105) is the place in the alphabet. -/
theorem alphaVal_eq_some {c : Byte} {v : Sextet} : alphaVal c = some v ↔ alphabet[v.toNat]? = some c := by
  constructor
  · intro h
    obtain ⟨i, hi, hv⟩ := indexIn_eq_some h
    have hlt : i < 64 := (List.getElem?_eq_some_iff.mp hi).1
    rw [hv, Nat.zero_add, BitVec.toNat_ofNat, Nat.mod_eq_of_lt hlt]
    exact hi
  · intro h
    rw [alphaVal, indexIn_of_getElem? alphabet_nodup h, Nat.zero_add, BitVec.ofNat_toNat, BitVec.setWidth_eq]

theorem alphaVal_eq_none {c : Byte} : alphaVal c = none ↔ c ∉ alphabet := by
  rw [Option.eq_none_iff_forall_ne_some]
  constructor
  · intro h hc
    obtain ⟨i, hi, rfl⟩ := List.getElem_of_mem hc
    have hlt : i % 2 ^ 6 = i := Nat.mod_eq_of_lt hi
    refine h (BitVec.ofNat 6 i) (alphaVal_eq_some.mpr ?_)
    rw [BitVec.toNat_ofNat, hlt, List.getElem?_eq_getElem hi]
  · intro h v hv
    exact h (List.mem_of_getElem? (alphaVal_eq_some.mp hv))

/-- The line ends and the terminator are no alphabet characters (R104, R106). -/
theorem alphaVal_eq_none_of_control {c : Byte} (h : c = 0x0A ∨ c = 0x0D ∨ c = 0x3A) : alphaVal c = none := by
  rcases h with rfl | rfl | rfl <;> rfl

theorem charClass_eq_skip {c : Byte} : charClass c = .skip ↔ c = 0x0A ∨ c = 0x0D := by
  unfold charClass
  repeat' split
  all_goals simp_all

theorem charClass_eq_term {c : Byte} : charClass c = .term ↔ c = 0x3A := by
  unfold charClass
  repeat' split
  case isTrue h => rcases h with rfl | rfl <;> simp
  all_goals simp_all

theorem charClass_eq_sextet {c : Byte} {v : Sextet} : charClass c = .sextet v ↔ alphaVal c = some v := by
  unfold charClass
  split
  case isTrue h => simp [alphaVal_eq_none_of_control (h.elim .inl fun h => .inr (.inl h))]
  case isFalse =>
    split
    case isTrue h => simp [alphaVal_eq_none_of_control (.inr (.inr h))]
    case isFalse => split <;> simp_all

/-- 192 bytes are no alphabet characters, and three of them are the line ends and the terminator (decision D7). -/
theorem invalid_count : ((List.range 256).filter fun n => charClass (BitVec.ofNat 8 n) == .invalid).length = 189 := by
  decide +kernel

/-- Settles O4: the class is read off the character, a sextet's off its place in the alphabet. -/
theorem characterClasses : Obligations.CharacterClasses := by
  unfold Obligations.CharacterClasses
  exact ⟨fun _ => charClass_eq_skip, fun _ => charClass_eq_term,
    fun _ _ => charClass_eq_sextet.trans alphaVal_eq_some, invalid_count⟩

end Sys2Proof
end

section
/-! SUPPORT. What is decoded is a row of its space (30_encoding.md): well formed, of that space, with the bytes that were
read. One lemma per space. -/

namespace Sys2Proof

/-- `i` is a well-formed row of the space `sp` whose bytes are `bs`. -/
abbrev isRow (sp : Space) (bs : List Byte) (i : Instr) : Prop := wellFormed i = true ∧ spaceOf i = sp ∧ encode i = bs

/-- `i` is a well-formed row of the space `sp`, read from the front of `bs` with `rest` left over. -/
abbrev readsRow (sp : Space) (bs rest : List Byte) (i : Instr) : Prop :=
  wellFormed i = true ∧ spaceOf i = sp ∧ encode i ++ rest = bs

theorem isRow.reads {sp : Space} {bs : List Byte} {i : Instr} (h : isRow sp bs i) (rest : List Byte) :
    readsRow sp (bs ++ rest) rest i := by
  obtain ⟨hw, hs, he⟩ := h
  exact ⟨hw, hs, by rw [he]⟩

/-- A byte that is none of the 16 codes is reserved (R103). -/
theorem decodeCommand_reserved {c : Byte} (h : c ∉ commandCodes) : decodeCommand c = .reservedCommand c := by
  simp only [commandCodes, List.mem_cons, List.not_mem_nil, or_false, not_or] at h
  simp only [decodeCommand, h, if_false]

theorem decodeCommand_named : ∀ c ∈ commandCodes, isRow .command [c] (decodeCommand c) := by decide

theorem decodeCommand_isRow (c : Byte) : isRow .command [c] (decodeCommand c) := by
  by_cases h : c ∈ commandCodes
  · exact decodeCommand_named c h
  · rw [decodeCommand_reserved h]
    exact ⟨by simpa [wellFormed] using h, rfl, rfl⟩

/-- The 64 rows of R105, each with its place in the alphabet. -/
theorem sextetInstr_isRow : ∀ v : Sextet, isRow .rawChar [alphabet.getD v.toNat 0] (sextetInstr v) := by decide

theorem decodeChar_isRow (c : Byte) : isRow .rawChar [c] (decodeChar c) := by
  unfold decodeChar
  split
  case h_1 v h =>
    have hc : alphabet.getD v.toNat 0 = c := by
      rw [List.getD_eq_getElem?_getD, alphaVal_eq_some.mp (charClass_eq_sextet.mp h), Option.getD_some]
    simpa only [hc] using sextetInstr_isRow v
  case h_2 h =>
    rcases charClass_eq_skip.mp h with rfl | rfl <;> decide
  case h_3 h =>
    cases charClass_eq_term.mp h
    decide
  case h_4 h => exact ⟨by simp [wellFormed, h], rfl, rfl⟩

/-- A word that is none of the nine (R118). -/
theorem decodeMagic1_other {m : Word} (h : m ∉ magic1Values) : decodeMagic1 m = .magic1Other m := by
  simp only [magic1Values, List.mem_cons, List.not_mem_nil, or_false, not_or] at h
  simp only [decodeMagic1, h, if_false]

theorem decodeMagic1_named : ∀ m ∈ magic1Values, isRow .magic1 (bytes32 m) (decodeMagic1 m) := by
  intro m hm
  simp only [magic1Values, List.mem_cons, List.not_mem_nil, or_false] at hm
  obtain rfl | rfl | rfl | rfl | rfl | rfl | rfl | rfl | rfl := hm
  all_goals exact ⟨rfl, rfl, rfl⟩

theorem decodeMagic1_isRow (m : Word) : isRow .magic1 (bytes32 m) (decodeMagic1 m) := by
  by_cases h : m ∈ magic1Values
  · exact decodeMagic1_named m h
  · rw [decodeMagic1_other h]
    exact ⟨by simpa [wellFormed] using h, rfl, rfl⟩

/-- A method code that is none of the three (R122). -/
theorem decodeMethod_other {m : Byte} (h : m ∉ [sitEncrypted, sitFolderStart, sitFolderEnd]) :
    decodeMethod m = .methOther m := by
  simp only [List.mem_cons, List.not_mem_nil, or_false, not_or] at h
  simp only [decodeMethod, h, if_false]

theorem decodeMethod_named :
    ∀ m ∈ [sitEncrypted, sitFolderStart, sitFolderEnd], isRow .method [m] (decodeMethod m) := by decide

theorem decodeMethod_isRow (m : Byte) : isRow .method [m] (decodeMethod m) := by
  by_cases h : m ∈ [sitEncrypted, sitFolderStart, sitFolderEnd]
  · exact decodeMethod_named m h
  · rw [decodeMethod_other h]
    exact ⟨by simpa [wellFormed, and_assoc] using h, rfl, rfl⟩

/-- A count of 2 or more (R109). -/
theorem decodePair_run {n : Byte} (h : 2 ≤ n.toNat) : decodePair n = .rleRun n := by
  have h0 : n ≠ 0 := by rintro rfl; simp at h
  have h1 : n ≠ 1 := by rintro rfl; simp at h
  rw [decodePair, if_neg h0, if_neg h1]

theorem decodePair_isRow (n : Byte) : isRow .rawByte [rleMark, n] (decodePair n) := by
  by_cases h0 : n = 0
  · subst h0; decide
  · by_cases h1 : n = 1
    · subst h1; decide
    · have h2 := Machine.two_le_of_ne h0 h1
      rw [decodePair_run h2]
      exact ⟨by simpa [wellFormed] using h2, rfl, rfl⟩

theorem bhxHeaderOf_reads (l : Byte) {r : List Byte} (h : 21 + l.toNat ≤ r.length) :
    readsRow .bhxHeader (l :: r) (r.drop (21 + l.toNat)) (.recBhxhdr (bhxHeaderOf l r)) := by
  have ht : 21 ≤ (r.drop l.toNat).length := by rw [List.length_drop]; omega
  refine ⟨?wf, rfl, ?bytes⟩
  case wf =>
    simp [wellFormed, bhxHeaderOf]
    omega
  case bytes =>
    simp only [encode, bhxHeaderOf, List.cons_append, List.append_assoc]
    rw [Nat.add_comm 21, ← List.drop_drop, bytes16_field16_append_drop (off := 19) (by omega),
      bytes32_field32_append_drop (off := 15) (by omega),
      bytes32_field32_append_drop (off := 11) (by omega), bytes16_field16_append_drop (off := 9) (by omega),
      bytes32_field32_append_drop (off := 5) (by omega), bytes32_field32_append_drop (off := 1) (by omega),
      field8_cons_drop (by omega), List.drop_zero, List.take_append_drop]

theorem bhxFork_reads {b : List Byte} {len : Nat} (hl : len < 2 ^ 31) (h : len + 2 ≤ b.length) :
    readsRow (.bhxFork len) b (b.drop (len + 2)) (.recBhxfork { body := b.take len, crc := field16 b len }) := by
  have hb : (b.take len).length = len := by rw [List.length_take]; omega
  refine ⟨by simpa only [wellFormed, hb, decide_eq_true_eq] using hl, by rw [spaceOf, hb], ?_⟩
  rw [encode, List.append_assoc, bytes16_field16_append_drop h, List.take_append_drop]

theorem sitHeaderOf_reads {b : List Byte} (h : 22 ≤ b.length) :
    readsRow .sitHeader b (b.drop 22) (.recSithdr22 (sitHeaderOf b)) := by
  refine ⟨?wf, rfl, ?bytes⟩
  case wf =>
    simp [wellFormed, sitHeaderOf]
    omega
  case bytes =>
    simp only [encode, sitHeaderOf, List.cons_append, List.append_assoc]
    rw [take_drop_append_drop b 15 7, field8_cons_drop (by omega), bytes32_field32_append_drop (off := 10) (by omega),
      bytes32_field32_append_drop (off := 6) (by omega), bytes16_field16_append_drop (off := 4) (by omega),
      bytes32_field32_append_drop (off := 0) (by omega), List.drop_zero]

theorem sitEntryOf_reads {b : List Byte} (h : 112 ≤ b.length) :
    readsRow .sitEntry b (b.drop 112) (.recSitent112 (sitEntryOf b)) := by
  refine ⟨?wf, rfl, ?bytes⟩
  case wf =>
    simp [wellFormed, sitEntryOf]
    omega
  case bytes =>
    simp only [encode, sitEntryOf, List.cons_append, List.append_assoc]
    rw [bytes16_field16_append_drop (off := 110) (by omega), take_drop_append_drop b 104 6,
      bytes16_field16_append_drop (off := 102) (by omega), bytes16_field16_append_drop (off := 100) (by omega),
      bytes32_field32_append_drop (off := 96) (by omega), bytes32_field32_append_drop (off := 92) (by omega),
      bytes32_field32_append_drop (off := 88) (by omega), bytes32_field32_append_drop (off := 84) (by omega),
      bytes32_field32_append_drop (off := 80) (by omega), bytes32_field32_append_drop (off := 76) (by omega),
      bytes16_field16_append_drop (off := 74) (by omega), bytes32_field32_append_drop (off := 70) (by omega),
      bytes32_field32_append_drop (off := 66) (by omega), take_drop_append_drop b 3 63, field8_cons_drop (by omega),
      field8_cons_drop (by omega), field8_cons_drop (by omega), List.drop_zero]

/-- What a decoder that asks for `p` has read. -/
theorem ok_of_ite {p : Prop} [Decidable p] {e : DecodeError} {x y : Instr × List Byte}
    (h : (if p then Except.ok x else .error e) = .ok y) : p ∧ x = y := by
  split at h
  case isTrue hp => exact ⟨hp, Except.ok.inj h⟩
  case isFalse => cases h

/-- What a decoder that refuses sequences below `n` bytes has read. -/
theorem ok_of_length {n : Nat} {bs : List Byte} {e : DecodeError} {x y : Instr × List Byte}
    (h : (if bs.length < n then Except.error e else .ok x) = .ok y) : n ≤ bs.length ∧ x = y := by
  split at h
  case isTrue => cases h
  case isFalse hn => exact ⟨Nat.le_of_not_lt hn, Except.ok.inj h⟩

/-- Settles O2: space by space, by the lemma about its decoder. -/
theorem encodeOfDecode : Obligations.EncodeOfDecode := by
  unfold Obligations.EncodeOfDecode
  intro sp bs rest i hfork h
  cases sp
  case command =>
    match bs, h with
    | c :: r, rfl => exact (decodeCommand_isRow c).reads r
  case rawChar =>
    match bs, h with
    | c :: r, rfl => exact (decodeChar_isRow c).reads r
  case locate =>
    match bs, h with
    | c :: d :: r, h =>
      obtain ⟨⟨rfl, hd⟩, hi⟩ := ok_of_ite h
      cases hi
      exact ⟨hd, rfl, rfl⟩
  case group =>
    match bs, h with
    | b0 :: b1 :: b2 :: r, rfl => exact ⟨rfl, rfl, by simp [encode, pack_unpack]⟩
  case rawByte =>
    match bs, h with
    | b :: r, h =>
      by_cases hb : b = rleMark
      · subst hb
        match r, h with
        | n :: r, rfl => exact (decodePair_isRow n).reads r
      · have hi : Except.ok (Instr.rleLiteral b, r) = .ok (i, rest) := (if_pos hb).symm.trans h
        cases hi
        exact ⟨by simpa [wellFormed] using hb, rfl, rfl⟩
  case bhxHeader =>
    match bs, h with
    | l :: r, h =>
      obtain ⟨hl, hi⟩ := ok_of_length h
      cases hi
      exact bhxHeaderOf_reads l hl
  case bhxFork len =>
    obtain ⟨hl, hi⟩ := ok_of_length h
    cases hi
    exact bhxFork_reads (hfork len rfl) hl
  case sitHeader =>
    obtain ⟨hl, hi⟩ := ok_of_length h
    cases hi
    exact sitHeaderOf_reads hl
  case magic1 =>
    match bs, h with
    | b0 :: b1 :: b2 :: b3 :: r, rfl =>
      have hr := (decodeMagic1_isRow (be32 b0 b1 b2 b3)).reads r
      rwa [bytes32_be32] at hr
  case magic2 =>
    match bs, h with
    | b0 :: b1 :: b2 :: b3 :: r, h =>
      obtain ⟨hm, hi⟩ := ok_of_ite h
      cases hi
      have hb := bytes32_be32 b0 b1 b2 b3
      rw [hm] at hb
      exact isRow.reads (i := .magic2Rlau) ⟨rfl, rfl, hb⟩ rest
  case sitEntry =>
    obtain ⟨hl, hi⟩ := ok_of_length h
    cases hi
    exact sitEntryOf_reads hl
  case method =>
    match bs, h with
    | m :: r, rfl => exact (decodeMethod_isRow m).reads r
  case typeCode =>
    match bs, h with
    | b0 :: b1 :: b2 :: b3 :: r, h =>
      obtain ⟨hm, hi⟩ := ok_of_ite h
      cases hi
      have hb := bytes32_be32 b0 b1 b2 b3
      rw [hm] at hb
      exact isRow.reads (i := .typeAppl) ⟨rfl, rfl, hb⟩ rest

end Sys2Proof
end

section
/-! SUPPORT. A well-formed row's bytes decode to it (30_encoding.md): the records' fields, then the two round trips over
every row. -/

namespace Sys2Proof

/-- Behind a part of known length, offsets count from its end. -/
theorem getD_append_of_length {l : List Byte} {n : Nat} (h : l.length = n) (t : List Byte) (k : Nat) :
    (l ++ t).getD (k + n) 0 = t.getD k 0 := by
  rw [List.getD_eq_getElem?_getD, List.getElem?_append_right (by omega), h, Nat.add_sub_cancel,
    ← List.getD_eq_getElem?_getD]

theorem drop_append_of_length {l : List Byte} {n : Nat} (h : l.length = n) (t : List Byte) (k : Nat) :
    (l ++ t).drop (k + n) = t.drop k := by
  rw [Nat.add_comm, ← List.drop_drop, List.drop_left' h]

theorem wellFormed_recBhxhdr {r : BhxHeaderRec} : wellFormed (.recBhxhdr r) = true ↔ r.name.length = r.len.toNat :=
  beq_iff_eq

theorem wellFormed_recSithdr22 {r : SitHeaderRec} : wellFormed (.recSithdr22 r) = true ↔ r.unused.length = 7 :=
  beq_iff_eq

theorem wellFormed_recSitent112 {r : SitEntryRec} :
    wellFormed (.recSitent112 r) = true ↔ r.name.length = 63 ∧ r.unused.length = 6 := by
  rw [wellFormed, Bool.and_eq_true, beq_iff_eq, beq_iff_eq]

/-- The fields of a header record's bytes, after the length byte, are the record's (R111). -/
theorem bhxHeaderOf_encode {r : BhxHeaderRec} (hwf : wellFormed (.recBhxhdr r) = true) (rest : List Byte) :
    ∃ t, encode (.recBhxhdr r) ++ rest = r.len :: t ∧ 21 + r.len.toNat ≤ t.length ∧ bhxHeaderOf r.len t = r
      ∧ t.drop (21 + r.len.toNat) = rest := by
  have h := wellFormed_recBhxhdr.mp hwf
  refine ⟨r.name ++ (r.tm :: bytes32 r.typ ++ bytes32 r.creator ++ bytes16 r.flags ++ bytes32 r.dlen
    ++ bytes32 r.rlen ++ bytes16 r.hcrc ++ rest), by simp [encode], ?len, ?fields, ?rest⟩
  case len =>
    simp [bytes16, bytes32, h]
    omega
  case fields =>
    rw [bhxHeaderOf, List.drop_left' h, List.take_left' h]
    simp only [field8, field16, field32, bytes16, bytes32, List.cons_append, List.nil_append, List.getD_cons_zero,
      List.getD_cons_succ, be32_bytes, Machine.be16_bytes]
  case rest =>
    rw [drop_append_of_length h]
    rfl

/-- The fields of an archive header's bytes are the record's (R117). -/
theorem sitHeaderOf_encode {r : SitHeaderRec} (h : wellFormed (.recSithdr22 r) = true) (rest : List Byte) :
    sitHeaderOf (encode (.recSithdr22 r) ++ rest) = r := by
  simp only [encode, sitHeaderOf, bytes16, bytes32, field8, field16, field32, List.cons_append, List.nil_append,
    List.getD_cons_zero, List.getD_cons_succ, be32_bytes, Machine.be16_bytes, List.drop_succ_cons, List.drop_zero,
    List.take_left' (wellFormed_recSithdr22.mp h)]

/-- The fields of an entry's bytes are the record's (R121). -/
theorem sitEntryOf_encode {r : SitEntryRec} (h : wellFormed (.recSitent112 r) = true) (rest : List Byte) :
    sitEntryOf (encode (.recSitent112 r) ++ rest) = r := by
  obtain ⟨hn, hu⟩ := wellFormed_recSitent112.mp h
  simp only [encode, sitEntryOf, bytes16, bytes32, field8, field16, field32, List.cons_append, List.nil_append,
    List.append_assoc, List.getD_cons_zero, List.getD_cons_succ, be32_bytes, Machine.be16_bytes, List.drop_succ_cons,
    List.drop_zero, getD_append_of_length hn, getD_append_of_length hu, drop_append_of_length hn, List.take_left' hn,
    List.take_left' hu]

theorem decode_recBhxhdr {r : BhxHeaderRec} (h : wellFormed (.recBhxhdr r) = true) (rest : List Byte) :
    decode .bhxHeader (encode (.recBhxhdr r) ++ rest) = .ok (.recBhxhdr r, rest) := by
  obtain ⟨t, ht, hlen, hof, hrest⟩ := bhxHeaderOf_encode h rest
  simp [decode, ht, Nat.not_lt.mpr hlen, hof, hrest]

theorem decode_recBhxfork (r : BhxForkRec) (rest : List Byte) :
    decode (.bhxFork r.body.length) (encode (.recBhxfork r) ++ rest) = .ok (.recBhxfork r, rest) := by
  have hcrc : field16 (r.body ++ (bytes16 r.crc ++ rest)) r.body.length = r.crc := by
    rw [field16_eq_drop, List.drop_left, field16_bytes16]
  have hrest : (r.body ++ (bytes16 r.crc ++ rest)).drop (2 + r.body.length) = rest := by
    rw [drop_append_of_length rfl]
    rfl
  have hlen : ¬ (r.body ++ (bytes16 r.crc ++ rest)).length < r.body.length + 2 := by
    simp [bytes16]
  rw [decode, encode, List.append_assoc, if_neg hlen, List.take_left, hcrc, Nat.add_comm, hrest]

theorem decode_recSithdr22 {r : SitHeaderRec} (h : wellFormed (.recSithdr22 r) = true) (rest : List Byte) :
    decode .sitHeader (encode (.recSithdr22 r) ++ rest) = .ok (.recSithdr22 r, rest) := by
  have hl : (encode (.recSithdr22 r)).length = sitHdrSize := Laws.EncodedLength.recSithdr22 r h
  rw [decode, if_neg (by rw [List.length_append]; omega), sitHeaderOf_encode h, List.drop_left' hl]

theorem decode_recSitent112 {r : SitEntryRec} (h : wellFormed (.recSitent112 r) = true) (rest : List Byte) :
    decode .sitEntry (encode (.recSitent112 r) ++ rest) = .ok (.recSitent112 r, rest) := by
  have hl : (encode (.recSitent112 r)).length = sitEntSize := Laws.EncodedLength.recSitent112 r h
  rw [decode, if_neg (by rw [List.length_append]; omega), sitEntryOf_encode h, List.drop_left' hl]

theorem decode_grpPack (s0 s1 s2 s3 : Sextet) (rest : List Byte) :
    decode .group (encode (.grpPack s0 s1 s2 s3) ++ rest) = .ok (.grpPack s0 s1 s2 s3, rest) := by
  simp [decode, encode, unpack_pack]

/-- Settles O1: a row without operands is its own word; a row with operands is one of the lemmas above. -/
theorem decodeOfEncode : Obligations.DecodeOfEncode := by
  unfold Obligations.DecodeOfEncode
  intro i rest h
  cases i
  case reservedCommand c =>
    have hc : c ∉ commandCodes := by simpa [wellFormed] using h
    simp [decode, encode, spaceOf, decodeCommand_reserved hc]
  case chInvalid c =>
    have hc : charClass c = .invalid := by simpa [wellFormed] using h
    simp [decode, encode, spaceOf, decodeChar, hc]
  case locateStart c =>
    have hc : isAlphabet c = true := h
    simp [decode, encode, spaceOf, hc]
  case grpPack s0 s1 s2 s3 => exact decode_grpPack s0 s1 s2 s3 rest
  case rleLiteral b =>
    have hb : b ≠ rleMark := by simpa [wellFormed] using h
    simp [decode, encode, spaceOf, hb]
  case rleRun n =>
    have hn : 2 ≤ n.toNat := by simpa [wellFormed] using h
    show Except.ok (decodePair n, rest) = _
    rw [decodePair_run hn]
  case recBhxhdr r => exact decode_recBhxhdr h rest
  case recBhxfork r => exact decode_recBhxfork r rest
  case recSithdr22 r => exact decode_recSithdr22 h rest
  case magic1Other m =>
    have hm : m ∉ magic1Values := by simpa [wellFormed] using h
    show Except.ok (decodeMagic1 (be32 _ _ _ _), rest) = _
    rw [be32_bytes, decodeMagic1_other hm]
  case recSitent112 r => exact decode_recSitent112 h rest
  case methOther m =>
    have hm : m ∉ [sitEncrypted, sitFolderStart, sitFolderEnd] := by simpa [wellFormed, and_assoc] using h
    simp [decode, encode, spaceOf, decodeMethod_other hm]
  all_goals rfl

/-- Settles O3: six instances of the round trip. -/
theorem specWordsDecode : Obligations.SpecWordsDecode := by
  unfold Obligations.SpecWordsDecode
  exact ⟨decodeOfEncode .sitCsize [] rfl, decodeOfEncode .chSextet18 [] rfl, decodeOfEncode .chSkipCr [] rfl,
    decodeOfEncode (.rleRun 5) [] rfl, decodeOfEncode .magic1Stin [] rfl, decodeOfEncode .methFolderEnd [] rfl⟩

end Sys2Proof
end

section
/-! SUPPORT. The rows of the characters, of the magic words, of the method codes and of the type code: what each does
(42_sextet_unpacker.md R161, R163; 46_stuffit_records.md R212, R213, R221 to R228). -/

namespace Sys2Proof.Machine

/-- The 64 rows of R105, one for each value a sextet has. -/
theorem exec_sextetInstr (v : Sextet) (s : State) : exec (sextetInstr v) s = .next (pushSextet v s) := by
  have rows : ∀ k, k < 64 → exec (sextetInstr (BitVec.ofNat 6 k)) s = .next (pushSextet (BitVec.ofNat 6 k) s) := by
    simp only [Nat.forall_lt_succ_right]
    and_intros
    · exact fun _ hk => absurd hk (Nat.not_lt_zero _)
    all_goals rfl
  have hv := rows v.toNat v.isLt
  rwa [BitVec.ofNat_toNat, BitVec.setWidth_eq] at hv

/-- Settles O33: a sextet's row pushes it. -/
theorem sextetRows : Obligations.SextetRows := by
  unfold Obligations.SextetRows
  exact exec_sextetInstr

/-- Settles O34: the four rows are calls of the operations that `SEXTET` ends with. -/
theorem otherCharacterRows : Obligations.OtherCharacterRows := by
  unfold Obligations.OtherCharacterRows
  exact fun c s => ⟨rfl, rfl, rfl, rfl⟩

theorem checkMagic2_good (m : Word) {s : State} (h : field32 s.recb 10 = 0x724C6175) :
    checkMagic2 m s = .ok () (magic2Passed m s) := by
  rw [checkMagic2]
  exact if_neg fun hne => hne h

theorem checkMagic2_bad (m : Word) {s : State} (h : field32 s.recb 10 ≠ 0x724C6175) :
    checkMagic2 m s = .stop (fatal .badMagic2 0x724C6175 (field32 s.recb 10) s) := by
  rw [checkMagic2]
  exact if_pos h

/-- The nine rows of a good magic-1 go on to the check of magic-2 with their own word. -/
theorem exec_magic1 {i : Instr} {m : Word}
    (h : (i, m) ∈ [(Instr.magic1Sit, (0x53495421 : Word)), (.magic1St46, 0x53543436), (.magic1St50, 0x53543530),
      (.magic1St60, 0x53543630), (.magic1St65, 0x53543635), (.magic1Stin, 0x5354696E), (.magic1Sti2, 0x53546932),
      (.magic1Sti3, 0x53546933), (.magic1Sti4, 0x53546934)]) (s : State) :
    exec i s = finish (checkMagic2 m s) := by
  simp only [List.mem_cons, Prod.mk.injEq, List.not_mem_nil, or_false] at h
  rcases h with ⟨rfl, rfl⟩ | ⟨rfl, rfl⟩ | ⟨rfl, rfl⟩ | ⟨rfl, rfl⟩ | ⟨rfl, rfl⟩ | ⟨rfl, rfl⟩ | ⟨rfl, rfl⟩ | ⟨rfl, rfl⟩
    | ⟨rfl, rfl⟩
  all_goals rfl

/-- Settles O56: the rows of magic-1 by the check of magic-2. -/
theorem magicRows : Obligations.MagicRows := by
  unfold Obligations.MagicRows
  intro s i m
  refine ⟨fun h => ⟨fun hg => ?good, fun hb => ?bad⟩, rfl, rfl⟩
  case good =>
    rw [exec_magic1 h, checkMagic2_good m hg]
    rfl
  case bad => rw [exec_magic1 h, checkMagic2_bad m hb, finish_stop]

/-- A row that asks whether the entry is valid (46_stuffit_records.md R220), of one that is still being read. -/
theorem next_of_reading {s t u : State} (h : s.seValid = false) :
    (.next (if s.seValid then t else u) : Host.Outcome State Fault Refusal) = .next u := by
  rw [h]
  rfl

theorem next_of_valid {s t u : State} (h : s.seValid = true) :
    (.next (if s.seValid then t else u) : Host.Outcome State Fault Refusal) = .next t := by
  rw [h]
  rfl

/-- Settles O57: each row by SE_VALID. -/
theorem methodAndTypeRows : Obligations.MethodAndTypeRows := by
  unfold Obligations.MethodAndTypeRows
  intro s m
  refine ⟨fun h i hi => ?skip, fun h i hi => ?stay, fun h i hi => ?holds, next_of_valid, fun h => ?noEntry⟩
  case skip =>
    simp only [List.mem_cons, List.not_mem_nil, or_false] at hi
    obtain rfl | rfl := hi
    · exact next_of_reading h
    · exact next_of_reading h
  case stay =>
    simp only [List.mem_cons, List.not_mem_nil, or_false] at hi
    obtain rfl | rfl := hi
    · exact next_of_reading h
    · exact next_of_reading h
  case holds =>
    simp only [List.mem_cons, List.not_mem_nil, or_false] at hi
    obtain rfl | rfl | rfl | rfl := hi
    · exact next_of_valid h
    · exact next_of_valid h
    · exact next_of_valid h
    · exact congrArg finish (accessorBody_valid _ h)
  case noEntry => exact congrArg finish (accessorBody_invalid _ h)

end Sys2Proof.Machine
end

section
/-! SUPPORT. The rows of the StuffIt records at the default offsets (30_encoding.md R117, R121): the fields the record
parser takes from a record's bytes are the record's own. -/

namespace Sys2Proof.Machine

/-- The state once a record's bytes are at the front of REC (46_stuffit_records.md R211). -/
theorem loadRec_state {bs : List Byte} {s : State} (h : s.recb.length = 112) (hb : bs.length ≤ 112) :
    loadRec bs s = { s with recb := bs ++ s.recb.drop bs.length } :=
  congrArg (fun b => { s with recb := b }) (loadRec_eq bs s h hb)

/-! The archive header. -/

theorem checkMagic1_good {s : State} (h : field32 s.recb 0 ∈ magic1Values) :
    checkMagic1 s = checkMagic2 (field32 s.recb 0) s := by
  rw [checkMagic1]
  exact if_pos (List.contains_iff_mem.mpr h)

theorem checkMagic1_bad {s : State} (h : field32 s.recb 0 ∉ magic1Values) :
    checkMagic1 s = .stop (fatal .badMagic1 0x53495421 (field32 s.recb 0) s) := by
  rw [checkMagic1]
  exact if_neg fun hc => h (List.contains_iff_mem.mp hc)

/-- The row of an archive header is the check of the magic words over its bytes (46_stuffit_records.md R212). -/
theorem exec_recSithdr22 {r : SitHeaderRec} {s : State} (hr : wellFormed (.recSithdr22 r) = true)
    (hs : s.recb.length = 112) :
    exec (.recSithdr22 r) s
      = finish (checkMagic1 { s with saValid := false, recb := encode (.recSithdr22 r) ++ s.recb.drop 22 }) := by
  have hl : (encode (.recSithdr22 r)).length = 22 := Laws.EncodedLength.recSithdr22 r hr
  have hload := loadRec_state (s := { s with saValid := false }) hs (by omega : (encode (.recSithdr22 r)).length ≤ 112)
  rw [hl] at hload
  exact congrArg (fun u => finish (checkMagic1 u)) hload

/-! The entry. -/

/-- The bytes of a record from an offset on, read one by one (46_stuffit_records.md R218). -/
theorem map_field8_range {b : List Byte} {off m : Nat} (h : off + m ≤ b.length) :
    ((List.range m).map fun i => field8 b (off + i)) = (b.drop off).take m := by
  refine List.ext_getElem (by simp; omega) fun i h1 h2 => ?_
  have hi : i < m := by simpa using h1
  rw [List.getElem_map, List.getElem_range, List.getElem_take, List.getElem_drop, field8,
    List.getD_eq_getElem?_getD, List.getElem?_eq_getElem (by omega), Option.getD_some]

theorem capName_eq (n : Byte) : capName n = BitVec.ofNat 8 (min n.toNat 63) := by
  rw [← capName_toNat, BitVec.ofNat_toNat, BitVec.setWidth_eq]

/-- The entry registers of a record with a name of `m` bytes, `pn` in portable form (46_stuffit_records.md R216, R218). -/
def entryRegsOf (r : SitEntryRec) (m : Nat) (pn : List Byte) : EntryRegs :=
  { rmeth := r.rmeth, dmeth := r.dmeth, nameLen := BitVec.ofNat 8 m, name := padTo 63 (r.name.take m),
    pnameLen := BitVec.ofNat 8 pn.length, pname := padTo 63 pn, typ := r.typ, creator := r.creator,
    flags := r.flags, cdate := r.cdate, mdate := r.mdate, rlen := r.rlen, dlen := r.dlen, crlen := r.crlen,
    cdlen := r.cdlen, rcrc := r.rcrc, dcrc := r.dcrc, hcrc := r.hcrc }

/-- At the default offsets the record parser takes the fields that the decoder takes. -/
theorem entryOf_default {p : Params} {b : List Byte} (hp : p.entOff = entOffDefault) (hb : 66 ≤ b.length) {m : Nat}
    (hm : m = min (sitEntryOf b).namelen.toNat 63) {pn : List Byte}
    (hpn : pn = if m = 0 then [] else xltBuf p.xltHi ((sitEntryOf b).name.take m) m 63) :
    entryOf p b = entryRegsOf (sitEntryOf b) m pn := by
  have hcap : capName (field8 b 2) = BitVec.ofNat 8 m := by rw [capName_eq, hm]; rfl
  have hnat : (capName (field8 b 2)).toNat = m := by rw [capName_toNat, hm]; rfl
  have hzero : capName (field8 b 2) = 0 ↔ m = 0 := by
    rw [← hnat, ← BitVec.toNat_inj]
    rfl
  have hname : ((List.range m).map fun i => field8 b (3 + i)) = (sitEntryOf b).name.take m := by
    rw [map_field8_range (by omega), sitEntryOf, List.take_take, Nat.min_eq_left (by omega)]
  simp only [entryOf, hp, entOffDefault, hnat, hname, hzero, ← hpn]
  rw [hcap]
  rfl

/-- The row of an entry record is what `SIT.NEXT` does with its bytes (46_stuffit_records.md R216). -/
theorem exec_recSitent112 {r : SitEntryRec} {s : State} (hr : wellFormed (.recSitent112 r) = true)
    (hs : s.recb.length = 112) :
    exec (.recSitent112 r) s = .next (entryRecord { s with seValid := false, recb := encode (.recSitent112 r) }) := by
  have hl : (encode (.recSitent112 r)).length = 112 := Laws.EncodedLength.recSitent112 r hr
  have hload := loadRec_state (s := { s with seValid := false }) hs (Nat.le_of_eq hl)
  rw [hl, List.drop_eq_nil_of_le (Nat.le_of_eq hs), List.append_nil] at hload
  exact congrArg (fun u => Host.Outcome.next (entryRecord u)) hload

theorem isFolder_iff {m : Byte} : isFolder m = true ↔ m = 32 ∨ m = 33 := by
  simp [isFolder, sitFolderStart, sitFolderEnd]

/-- Settles O55: both rows load their bytes into REC, whose fields are the record's. -/
theorem sitRecordRows : Obligations.SitRecordRows := by
  unfold Obligations.SitRecordRows
  refine ⟨?header, ?entry⟩
  case header =>
    intro r s u hr hs hver hu
    have hf : sitHeaderOf u.recb = r := by
      rw [hu]
      exact sitHeaderOf_encode hr (s.recb.drop 22)
    have h1 : field32 u.recb 0 = r.magic1 := congrArg SitHeaderRec.magic1 hf
    have h2 : field32 u.recb 10 = r.magic2 := congrArg SitHeaderRec.magic2 hf
    rw [exec_recSithdr22 hr hs, ← hu]
    refine ⟨fun hg1 hg2 => ?good, fun hb1 => ?bad1, fun hg1 hb2 => ?bad2⟩
    case good =>
      have hc : field16 u.recb 4 = r.count := congrArg SitHeaderRec.count hf
      have hl : field32 u.recb 6 = r.len := congrArg SitHeaderRec.len hf
      have hv : field8 u.recb 14 = r.ver := congrArg SitHeaderRec.ver hf
      have hp : u.par.verOff = 14 := hu ▸ hver
      rw [checkMagic1_good (h1 ▸ hg1), checkMagic2_good _ (h2.trans hg2), finish_ok, magic2Passed, h1, hc, hl, hp, hv]
      rfl
    case bad1 => rw [checkMagic1_bad (h1 ▸ hb1), finish_stop, h1]
    case bad2 => rw [checkMagic1_good (h1 ▸ hg1), checkMagic2_bad _ (h2 ▸ hb2), finish_stop, h2]
  case entry =>
    intro r s m pn hr hs hoff hm hpn
    have hof : sitEntryOf (encode (.recSitent112 r)) = r := by
      simpa only [List.append_nil] using sitEntryOf_encode hr []
    have hse : entryOf s.par (encode (.recSitent112 r)) = entryRegsOf r m pn := by
      have hl : (encode (.recSitent112 r)).length = 112 := Laws.EncodedLength.recSitent112 r hr
      have h := entryOf_default hoff (by omega) (hof.symm ▸ hm) (hof.symm ▸ hpn)
      rwa [hof] at h
    rw [exec_recSitent112 hr hs, entryRecord_eq]
    simp only [hse, isFolder_iff]
    rfl

end Sys2Proof.Machine
end

section
/-! SUPPORT. The bounds of the decode stack's loops are not reached (60_exceptions.md R281): each turn takes a raw character
or a raw byte, and fewer are left than the bound. -/

namespace Sys2Proof.Machine

/-- Two continuations that agree on what an operation can answer. -/
theorem Res.bind_congr {α β : Type} {r : Res α} {f g : α → State → Res β} {P : α → State → Prop} {Q : State → Prop}
    (h : r.meets P Q) (hfg : ∀ a s, P a s → f a s = g a s) : r.bind f = r.bind g := by
  cases r with
  | ok a s => exact hfg a s h
  | stop s => rfl

theorem rawget_streamOk {s : State} (hs : streamOk s) : streamOk (rawget s).2 := by
  rw [rawget_frame s]
  exact hs

/-- A refill moves characters from the stream into the buffer (41_stream_locate.md R152); what is left to come of an empty
buffer does not grow. -/
theorem refill_charsLeft_le {s : State} (hs : streamOk s) (he : s.buf.eof = false) :
    charsLeft (refill s) ≤ charsLeft s := by
  have hrun := readRun_length s hs rbufSize s.buf.fpos (by decide)
  have hsize : rbufSize = 1024 := rfl
  have hfill : ((refill s).buf.fill - (refill s).buf.idx).toNat = (readRun s.stream rbufSize s.buf.fpos).length := by
    show (BitVec.ofNat 11 _ - 0#11).toNat = _
    rw [BitVec.sub_zero, BitVec.toNat_ofNat]
    omega
  have hfpos : (refill s).buf.fpos = s.buf.fpos + BitVec.ofNat 64 (readRun s.stream rbufSize s.buf.fpos).length := rfl
  have hleft : slen s - (refill s).buf.fpos.toNat + (readRun s.stream rbufSize s.buf.fpos).length
      ≤ slen s - s.buf.fpos.toNat := by
    have hlen : slen s < 2 ^ 63 := hs.2
    rw [hfpos, BitVec.toNat_add, BitVec.toNat_ofNat]
    omega
  have hstream : slen (refill s) = slen s := rfl
  unfold charsLeft
  rw [hfill, he, hstream]
  split
  · simp only [Bool.false_eq_true, if_false]
    omega
  · simp only [Bool.false_eq_true, if_false]
    omega

/-- At the end of the stream the reader leaves the state, or has tried a refill (41_stream_locate.md R152). -/
theorem rawget_none {s : State} (h : (rawget s).1 = none) :
    (rawget s).2 = s ∨ s.buf.eof = false ∧ (rawget s).2 = refill s := by
  rw [rawget_eq] at h ⊢
  split at h
  case isFalse => cases h
  case isTrue hi =>
    rw [if_pos hi]
    split at h
    case isTrue he =>
      rw [if_pos he]
      exact .inl rfl
    case isFalse he =>
      rw [if_neg he]
      split at h
      case isFalse => cases h
      case isTrue hf =>
        rw [if_pos hf]
        exact .inr ⟨Bool.eq_false_iff.mpr he, rfl⟩

/-- A call of the reader leaves no more characters to come than there were, also at the end of the stream. -/
theorem rawget_charsLeft_le (s : State) (hs : streamOk s) : charsLeft (rawget s).2 ≤ charsLeft s := by
  cases ho : (rawget s).1 with
  | some c => exact Nat.le_of_lt (rawget_charsLeft s hs (Option.isSome_of_eq_some ho))
  | none =>
    obtain hsame | ⟨he, hrefill⟩ := rawget_none ho
    · exact Nat.le_of_eq (congrArg charsLeft hsame)
    · exact Nat.le_trans (Nat.le_of_eq (congrArg charsLeft hrefill)) (refill_charsLeft_le hs he)

/-- `SEXTET` (42_sextet_unpacker.md R161) with a bound above the characters left answers the same with any other. -/
theorem sextet_bound {n m : Nat} {s : State} (hs : streamOk s) (hn : charsLeft s < n) (hm : charsLeft s < m) :
    sextet n s = sextet m s := by
  induction n generalizing m s with
  | zero => omega
  | succ n ih =>
    obtain ⟨m, rfl⟩ : ∃ k, m = k + 1 := ⟨m - 1, by omega⟩
    have hok := rawget_streamOk hs
    have hlt := rawget_charsLeft s hs
    rcases hr : rawget s with ⟨_ | c, u⟩
    · simp only [sextet, hr]
    · rw [hr] at hok hlt
      have hu : charsLeft u < charsLeft s := hlt rfl
      simp only [sextet, hr]
      cases charClass c with
      | skip => exact ih (s := u) hok (by omega) (by omega)
      | sextet v => rfl
      | term => rfl
      | invalid => rfl

/-- A sextet takes a character; the end takes none or more. -/
theorem sextet_charsLeft (n : Nat) {s : State} (hs : streamOk s) :
    (sextet n s).meets (fun r t => streamOk t ∧ t.grp = s.grp ∧ charsLeft t + r.toList.length ≤ charsLeft s)
      fun _ => True := by
  induction n generalizing s with
  | zero => exact ⟨hs, rfl, Nat.le_refl _⟩
  | succ n ih =>
    have hok := rawget_streamOk hs
    have hle := rawget_charsLeft_le s hs
    have hlt := rawget_charsLeft s hs
    have hg : (rawget s).2.grp = s.grp := by rw [rawget_frame s]
    rcases hr : rawget s with ⟨_ | c, u⟩
    · rw [hr] at hok hle hg
      simp only [sextet, hr]
      exact ⟨hok, hg, hle⟩
    · rw [hr] at hok hle hlt hg
      have hu : charsLeft u < charsLeft s := hlt rfl
      simp only [sextet, hr]
      cases charClass c with
      | skip =>
        refine Res.meets_mono (ih hok) ?_ fun _ h => h
        rintro r t ⟨ht, htg, htl⟩
        exact ⟨ht, htg.trans hg, Nat.le_trans htl hle⟩
      | sextet v => exact ⟨hok, hg, hu⟩
      | term => exact ⟨hok, hg, hle⟩
      | invalid => trivial

/-- The loop of `FILLRING` (42_sextet_unpacker.md R163): every sextet of the group has taken a character. -/
theorem collect_charsLeft (n : Nat) {s : State} (hs : streamOk s) :
    (collect n s).meets (fun _ t => streamOk t ∧ charsLeft t + t.grp.length ≤ charsLeft s + s.grp.length)
      fun _ => True := by
  induction n generalizing s with
  | zero => exact ⟨hs, Nat.le_refl _⟩
  | succ n ih =>
    refine Res.meets_bind (sextet_charsLeft (streamFuel s) hs) fun r t ht => ?_
    obtain ⟨ht, hg, hl⟩ := ht
    cases r with
    | none => exact ⟨ht, by rw [termChar_grp, hg]; exact Nat.add_le_add_right hl _⟩
    | some v =>
      refine Res.meets_mono (ih (s := pushSextet v t) ht) ?_ fun _ h => h
      rintro - u ⟨hu, hul⟩
      have hc : charsLeft (pushSextet v t) = charsLeft t := rfl
      simp only [pushSextet_grp, List.length_append, List.length_singleton, hg, hc, Option.toList_some] at hul hl
      exact ⟨hu, by omega⟩

/-- How many raw bytes `RAWBYTE` can still hand out at most: those in the ring, and one for each character to come. -/
def bytesLeft (s : State) : Nat := charsLeft s + (s.ring.cnt.toNat - s.ring.rd.toNat)

theorem bytesLeft_lt (s : State) : bytesLeft s < streamFuel s + 3 := by
  have := charsLeft_lt_streamFuel s
  have := s.ring.cnt.isLt
  unfold bytesLeft
  omega

/-- A group of at least two sextets gives one byte less than it has sextets (42_sextet_unpacker.md R163). -/
theorem ringCount_lt {j : Nat} (h : ringCount j ≠ 0) : (ringCount j).toNat < j := by
  unfold ringCount at h ⊢
  split at h
  case isTrue h4 => subst h4; decide
  case isFalse =>
    split at h
    case isTrue h3 => subst h3; decide
    case isFalse =>
      split at h
      case isTrue h2 => subst h2; decide
      case isFalse => exact absurd rfl h

/-- A group packed into the ring (42_sextet_unpacker.md R163): its bytes and one more have taken characters. -/
theorem fillring_charsLeft {s : State} (hs : streamOk s) :
    (fillring s).meets
      (fun _ t => streamOk t ∧ t.ring.rd = 0 ∧ (t.ring.cnt ≠ 0 → charsLeft t + t.ring.cnt.toNat < charsLeft s))
      fun _ => True := by
  refine Res.meets_bind (collect_charsLeft 4 (s := { s with grp := [] }) hs) ?_
  rintro - t ⟨ht, hl⟩
  refine ⟨ht, rfl, fun hne => ?_⟩
  have hcnt : (ringCount t.grp.length).toNat < t.grp.length := ringCount_lt hne
  have hle : charsLeft t + t.grp.length ≤ charsLeft s := hl
  show charsLeft t + (ringCount t.grp.length).toNat < charsLeft s
  omega

theorem takeRing_bytesLeft {s : State} (hs : streamOk s) (h : s.ring.rd.toNat < s.ring.cnt.toNat) :
    (takeRing s).meets (fun _ t => streamOk t ∧ bytesLeft t < bytesLeft s) fun _ => True := by
  refine ⟨hs, ?_⟩
  have hrd : (s.ring.rd + 1).toNat = s.ring.rd.toNat + 1 := by bv_omega
  show charsLeft s + (s.ring.cnt.toNat - (s.ring.rd + 1).toNat) < charsLeft s + (s.ring.cnt.toNat - s.ring.rd.toNat)
  omega

/-- A raw byte handed out is one fewer to come (42_sextet_unpacker.md R165). -/
theorem rawbyte_bytesLeft {s : State} (hs : streamOk s) :
    (rawbyte s).meets (fun _ t => streamOk t ∧ bytesLeft t < bytesLeft s) fun _ => True := by
  unfold rawbyte
  split
  case isFalse h => exact takeRing_bytesLeft hs (by bv_omega)
  case isTrue h =>
    split
    case isTrue => trivial
    case isFalse =>
      refine Res.meets_bind (fillring_charsLeft hs) ?_
      rintro - t ⟨ht, hrd, hl⟩
      split
      case isTrue => trivial
      case isFalse hne =>
        have hpos : t.ring.rd.toNat < t.ring.cnt.toNat := by bv_omega
        refine Res.meets_mono (takeRing_bytesLeft ht hpos) ?_ fun _ h => h
        rintro - u ⟨hu, hul⟩
        have hlt := hl hne
        unfold bytesLeft at hul ⊢
        exact ⟨hu, by omega⟩

/-- `DECBYTE` (43_run_length.md R171, R172) with a bound above the raw bytes left answers the same with any other: a restart
has taken two. -/
theorem decbyteLoop_bound {n m : Nat} {s : State} (hs : streamOk s) (hn : bytesLeft s < n) (hm : bytesLeft s < m) :
    decbyteLoop n s = decbyteLoop m s := by
  induction n generalizing m s with
  | zero => omega
  | succ n ih =>
    obtain ⟨m, rfl⟩ : ∃ k, m = k + 1 := ⟨m - 1, by omega⟩
    simp only [decbyteLoop]
    split
    · rfl
    · refine Res.bind_congr (rawbyte_bytesLeft hs) fun b t ht => ?_
      split
      · rfl
      · refine Res.bind_congr (rawbyte_bytesLeft ht.1) fun k u hu => ?_
        split
        · rfl
        · split
          · have hc : (countOne u).meets (fun _ v => streamOk v ∧ bytesLeft v = bytesLeft u) fun _ => True := by
              unfold countOne
              split
              · exact ⟨hu.1, rfl⟩
              · exact ⟨hu.1, rfl⟩
              · trivial
            refine Res.bind_congr hc fun r v hv => ?_
            cases r with
            | some c => rfl
            | none => exact ih hv.1 (by omega) (by omega)
          · rfl

/-- The search of `LOCATE` (41_stream_locate.md R154), with a bound above the characters from POS on. -/
theorem locateSearch_bound {n m : Nat} {bol : Bool} {s : State} (hs : streamOk s) (hn : slen s - s.pos.toNat < n)
    (hm : slen s - s.pos.toNat < m) : locateSearch n bol s = locateSearch m bol s := by
  induction n generalizing m bol s with
  | zero => omega
  | succ n ih =>
    obtain ⟨m, rfl⟩ : ∃ k, m = k + 1 := ⟨m - 1, by omega⟩
    simp only [locateSearch]
    cases hc : memRead s s.pos with
    | none => rfl
    | some c =>
      have hlt : s.pos.toNat < slen s := by
        refine Nat.lt_of_not_le fun hle => ?_
        rw [memRead, (read_none_of_streamOk hs _).mpr hle] at hc
        cases hc
      have hlen : slen s < 2 ^ 63 := hs.2
      have hp := pos_succ (p := s.pos) (by omega)
      simp only
      split
      · rfl
      · refine ih hs ?_ ?_
        all_goals
          show slen s - (s.pos + 1).toNat < _
          omega

end Sys2Proof.Machine
end

section
/-! SUPPORT. The pseudo-commands (30_encoding.md R133) as runs of their commands: `whileOk` by the STATUS it finds, and the
loop of `SIT.LIST`, each turn of which takes 112 bytes of the stream or ends. -/

namespace Sys2Proof.Machine

theorem whileOk_stops {i : Instr} {k : State → Host.Outcome State Fault Refusal} {s t : State} (h : exec i s = .next t)
    (ht : t.status ≠ .ok) : whileOk i k s = .next t := by
  simp [whileOk, h, ht]

theorem whileOk_goes {i : Instr} {k : State → Host.Outcome State Fault Refusal} {s t : State} (h : exec i s = .next t)
    (ht : t.status = .ok) : whileOk i k s = k t := by
  simp [whileOk, h, ht]

/-- A payload's two lengths together (30_encoding.md R125). -/
theorem lengthSum_lt (a b : Word) : (lengthSum a b).toNat < 2 ^ 33 := by
  unfold lengthSum
  bv_omega

/-- An entry's payload moves POS on (46_stuffit_records.md R221): the skip does not wrap round. -/
theorem entryRecord_pos_le {s : State} (hp : s.pos.toNat < 2 ^ 63) : s.pos.toNat ≤ (entryRecord s).pos.toNat := by
  rw [entryRecord_eq]
  simp only
  split
  · exact Nat.le_refl _
  · have hlt := lengthSum_lt (entryOf s.par s.recb).crlen (entryOf s.par s.recb).cdlen
    rw [BitVec.toNat_add]
    omega

theorem entryRecord_stream (s : State) : (entryRecord s).stream = s.stream := by
  rw [entryRecord_eq]

theorem streamOk_of_stream_eq {s t : State} (h : t.stream = s.stream) (hs : streamOk s) : streamOk t := by
  unfold streamOk
  rw [h]
  exact hs

/-- `BLOCKREAD` of bytes that are all there moves POS on by their number (46_stuffit_records.md R211). -/
theorem blockRead_pos_of_full {s : State} (hs : streamOk s) {n : Nat} (hn : n < 2 ^ 62) (h : (blockGot n s).length = n)
    (h0 : 0 < n) : (blockRead n s).pos.toNat = s.pos.toNat + n ∧ s.pos.toNat + n ≤ slen s := by
  have hlen : slen s < 2 ^ 63 := hs.2
  have hgot := readRun_length s hs n s.pos hn
  rw [blockGot] at h
  have hle : s.pos.toNat + n ≤ slen s := by omega
  refine ⟨?_, hle⟩
  rw [blockRead_pos, blockGot, h, BitVec.toNat_add, BitVec.toNat_ofNat]
  omega

/-- What a command's body meets, of the state the command answers. -/
theorem Res.meets_of_finish {α : Type} {r : Res α} {P : α → State → Prop} {Q : State → Prop} {t : State}
    (h : r.meets P Q) (ht : finish r = .next t) : (∃ a, P a t) ∨ Q t := by
  cases r with
  | ok a u => cases ht; exact .inl ⟨a, h⟩
  | stop u => cases ht; exact .inr h

/-- `SIT.NEXT` answers a state; if its STATUS is `OK`, fewer bytes of the stream are left behind POS. -/
theorem exec_sitNext_cases {s : State} (hs : streamOk s) :
    ∃ t, exec .sitNext s = .next t
      ∧ (t.status = .ok → streamOk t ∧ slen t - t.pos.toNat < slen s - s.pos.toNat) := by
  rcases accept_cases .sit none sitNextBody s with ⟨c, -, he⟩ | ⟨-, c, e, f, -, he⟩ | ⟨-, -, -, he⟩
  · exact ⟨_, he, fun h => nomatch h⟩
  · exact ⟨_, he, fun h => nomatch h⟩
  · obtain ⟨t, ht⟩ := finish_next (sitNextBody s)
    refine ⟨t, he.trans ht, fun hok => ?_⟩
    rcases Res.meets_of_finish (sitNextBody_meets s) ht with ⟨-, ⟨-, rfl⟩ | ⟨hgot, rfl⟩⟩ | ⟨c, e, f, u, rfl, -, -⟩
    · cases hok
    · have hstream := entryRecord_stream (blockRead sitEntSize { s with seValid := false })
      obtain ⟨hread, hle⟩ : (blockRead sitEntSize { s with seValid := false }).pos.toNat = s.pos.toNat + sitEntSize
          ∧ s.pos.toNat + sitEntSize ≤ slen s :=
        blockRead_pos_of_full (s := { s with seValid := false }) hs (by decide) hgot (by decide)
      have hlen : slen s < 2 ^ 63 := hs.2
      have h112 : sitEntSize = 112 := rfl
      have hpos := entryRecord_pos_le (s := blockRead sitEntSize { s with seValid := false }) (by omega)
      refine ⟨streamOk_of_stream_eq hstream hs, ?_⟩
      rw [slen, hstream, blockRead_stream]
      show slen s - _ < slen s - _
      omega
    · cases hok

theorem nextUntilNotOk_exists {s : State} (hs : streamOk s) : ∃ u, NextUntilNotOk s u := by
  induction hn : slen s - s.pos.toNat using Nat.strongRecOn generalizing s with
  | ind n ih =>
    obtain ⟨t, he, hok⟩ := exec_sitNext_cases hs
    by_cases ht : t.status = .ok
    · obtain ⟨hst, hlt⟩ := hok ht
      obtain ⟨u, hu⟩ := ih _ (hn ▸ hlt) hst rfl
      exact ⟨u, .more he ht hu⟩
    · exact ⟨t, .last he ht⟩

theorem nextUntilNotOk_status {s u : State} (h : NextUntilNotOk s u) : u.status ≠ .ok := by
  induction h with
  | last _ hs => exact hs
  | more _ _ _ ih => exact ih

/-- The loop of `SIT.LIST` with a bound above the bytes from POS on is `SIT.NEXT` repeated. -/
theorem sitNextLoop_of_until {s u : State} (h : NextUntilNotOk s u) (hs : streamOk s) {n : Nat}
    (hn : slen s - s.pos.toNat < n) : sitNextLoop n s = .next u := by
  induction h generalizing n with
  | @last s t he ht =>
    obtain ⟨n, rfl⟩ : ∃ k, n = k + 1 := ⟨n - 1, by omega⟩
    exact whileOk_stops he ht
  | @more s t u he ht _ ih =>
    obtain ⟨n, rfl⟩ : ∃ k, n = k + 1 := ⟨n - 1, by omega⟩
    obtain ⟨t', he', hok⟩ := exec_sitNext_cases hs
    cases he.symm.trans he'
    obtain ⟨hst, hlt⟩ := hok ht
    exact (whileOk_goes he ht).trans (ih hst (by omega))

/-- Settles O32: each loop has more turns than characters, raw bytes or stream bytes are left. -/
theorem loopBoundsSuffice : Obligations.LoopBoundsSuffice := by
  unfold Obligations.LoopBoundsSuffice
  intro s k hs
  have hc := charsLeft_lt_streamFuel s
  have hb := bytesLeft_lt s
  have hp : slen s - s.pos.toNat < s.stream.length + 1 := by unfold slen; omega
  have hf : s.stream.length < streamFuel s := by unfold streamFuel; omega
  obtain ⟨u, hu⟩ := nextUntilNotOk_exists hs
  have hloop := sitNextLoop_of_until hu hs hp
  refine ⟨?sextet, fun bol => ?locate, ?decbyte, ?list, u, hloop, nextUntilNotOk_status hu⟩
  case sextet => exact sextet_bound hs (by omega) (by omega)
  case locate => exact locateSearch_bound hs (by omega) (by omega)
  case decbyte => exact decbyteLoop_bound hs (by omega) hb
  case list => rw [hloop, sitNextLoop_of_until hu hs (by omega)]

theorem exec_sitHdr_stream {s t : State} (h : exec .sitHdr s = .next t) : t.stream = s.stream := by
  rcases accept_cases .sit none sitHdrBody s with ⟨c, -, he⟩ | ⟨-, c, e, f, -, he⟩ | ⟨-, -, -, he⟩
  · cases he.symm.trans h
    rfl
  · cases he.symm.trans h
    rfl
  · rcases Res.meets_of_finish (sitHdrBody_meets s) (he.symm.trans h) with ⟨-, m, rfl⟩ | ⟨c, e, f, u, rfl, rfl, -⟩
    · rfl
    · rfl

/-- Settles O60: both pseudo-commands by the STATUS of each command in turn. -/
theorem pseudoCommandsStopAtFirstFailure : Obligations.PseudoCommandsStopAtFirstFailure := by
  unfold Obligations.PseudoCommandsStopAtFirstFailure
  refine ⟨fun s t u v hhdr => ?extract, fun s t u hhdr => ?list⟩
  case extract =>
    refine ⟨whileOk_stops hhdr, fun ht hdata hu => ?data, fun ht hdata hu hrsrc => ?rsrc⟩
    case data => exact (whileOk_goes hhdr ht).trans (whileOk_stops hdata hu)
    case rsrc => exact (whileOk_goes hhdr ht).trans ((whileOk_goes hdata hu).trans hrsrc)
  case list =>
    refine ⟨whileOk_stops hhdr, fun ht hs hnext => (whileOk_goes hhdr ht).trans ?_⟩
    have hstream := exec_sitHdr_stream hhdr
    have hlen : s.stream.length = slen t := by rw [slen, hstream]
    exact sitNextLoop_of_until hnext (streamOk_of_stream_eq hstream hs) (by omega)

end Sys2Proof.Machine
end

section
/-! SUPPORT. The transliterator (40_transliterator.md): what one byte becomes, how far a source is read, what `XLIT` does
with its two lengths, and the names of an entry (46_stuffit_records.md R218). -/

namespace Sys2Proof.Machine

/-! One byte (R141). -/

theorem xltByte_control {hi : List Byte} {b : Byte} (h : b.toNat < 0x20) : xltByte hi b = 0x5F := if_pos h

theorem xltByte_ascii {hi : List Byte} {b : Byte} (h1 : 0x20 ≤ b.toNat) (h2 : b.toNat ≤ 0x7F) : xltByte hi b = b := by
  rw [xltByte, if_neg (by omega)]
  split
  · rfl
  next h3 =>
    have hb : b = 0x7F := BitVec.eq_of_toNat_eq (Nat.le_antisymm h2 (Nat.lt_of_not_le h3))
    rw [if_pos hb, hb]

theorem xltByte_high {hi : List Byte} {b : Byte} (h : 0x80 ≤ b.toNat) : xltByte hi b = hi.getD (b.toNat - 0x80) 0x5F := by
  have hb : b ≠ 0x7F := fun hb => absurd h (hb ▸ by decide)
  rw [xltByte, if_neg (by omega), if_neg (by omega), if_neg hb]

/-- R142 gives 128 entries, each an ASCII letter, punctuation or `_`. -/
theorem xltHiOk_entries {hi : List Byte} (h : xltHiOk hi = true) :
    hi.length = 128 ∧ ∀ c ∈ hi, 0x20 ≤ c.toNat ∧ c.toNat ≤ 0x7F := by
  simp only [xltHiOk, Bool.and_eq_true, beq_iff_eq, List.all_eq_true] at h
  obtain ⟨⟨⟨hlen, hall⟩, -⟩, -⟩ := h
  refine ⟨hlen, fun c hc => ?_⟩
  have hl := hall c hc
  simp only [letterOrPunct, Bool.or_eq_true, Bool.and_eq_true, decide_eq_true_eq] at hl
  omega

/-- A table of 128 entries has one for every byte of 80 and above. -/
theorem xltByte_getElem? {hi : List Byte} {b : Byte} (h : hi.length = 128) (hb : 0x80 ≤ b.toNat) :
    hi[b.toNat - 0x80]? = some (xltByte hi b) := by
  have hidx : b.toNat - 0x80 < hi.length := by omega
  rw [xltByte_high hb, List.getElem?_eq_getElem hidx, List.getElem_eq_getD 0x5F]

theorem xltByte_range {hi : List Byte} (h : xltHiOk hi = true) (b : Byte) :
    0x20 ≤ (xltByte hi b).toNat ∧ (xltByte hi b).toNat ≤ 0x7F := by
  obtain ⟨hlen, hall⟩ := xltHiOk_entries h
  rcases Nat.lt_or_ge b.toNat 0x20 with hlow | hlow
  · rw [xltByte_control hlow]
    decide
  · rcases Nat.lt_or_ge b.toNat 0x80 with hmid | hhigh
    · rw [xltByte_ascii hlow (by omega)]
      omega
    · exact hall _ (List.mem_of_getElem? (xltByte_getElem? hlen hhigh))

/-! The buffer (R143): the bytes before the first zero byte, at most `min srcLen dstCap` of them. -/

/-- Where the transliterator stops: at the first zero byte of what it may read. -/
theorem xltBuf_length (hi src : List Byte) (n cap : Nat) :
    (xltBuf hi src n cap).length = (src.take (min n cap)).findIdx (· == 0x00) := by
  rw [xltBuf, List.length_map, List.takeWhile_eq_take_findIdx_not, List.length_take]
  simp only [bne, Bool.not_not]
  exact Nat.min_eq_left List.findIdx_le_length

/-- The output is the map over as much of the source as was read. -/
theorem xltBuf_eq_map_take (hi src : List Byte) (n cap : Nat) :
    xltBuf hi src n cap = (src.take (xltBuf hi src n cap).length).map (xltByte hi) := by
  have hle := xltBuf_length_le hi src n cap
  have hread := List.prefix_iff_eq_take.1 (List.takeWhile_prefix (· != 0x00) (l := src.take (min n cap)))
  rw [← List.length_map (f := xltByte hi), ← xltBuf, List.take_take, Nat.min_eq_left hle] at hread
  exact congrArg (List.map (xltByte hi)) hread

theorem xltBuf_getElem? {hi src : List Byte} {n cap k : Nat} (hk : k < (xltBuf hi src n cap).length) :
    (xltBuf hi src n cap)[k]? = src[k]?.map (xltByte hi) := by
  rw [xltBuf_eq_map_take, List.getElem?_map, List.getElem?_take_of_lt hk]

theorem xltBuf_source_ne_zero {hi src : List Byte} {n cap k : Nat} (hk : k < (xltBuf hi src n cap).length) :
    src.getD k 0 ≠ 0 := by
  rw [xltBuf_length] at hk
  have hlen : k < (src.take (min n cap)).length := Nat.lt_of_lt_of_le hk List.findIdx_le_length
  have hne := ne_of_beq_false (List.not_of_lt_findIdx hk)
  rwa [List.getElem_take, List.getElem_eq_getD 0] at hne

theorem xltBuf_stops {hi src : List Byte} {n cap : Nat} (hn : n ≤ src.length) :
    (xltBuf hi src n cap).length = min n cap ∨ src.getD (xltBuf hi src n cap).length 0 = 0 := by
  have hlen : (src.take (min n cap)).length = min n cap := by rw [List.length_take]; omega
  rcases Nat.lt_or_ge (xltBuf hi src n cap).length (min n cap) with hlt | hge
  · right
    have hidx : (src.take (min n cap)).findIdx (· == 0x00) < (src.take (min n cap)).length := by
      rwa [hlen, ← xltBuf_length hi]
    have hzero := eq_of_beq (List.findIdx_getElem (w := hidx))
    rwa [List.getElem_take, List.getElem_eq_getD 0, ← xltBuf_length hi] at hzero
  · exact .inl (Nat.le_antisymm (xltBuf_length_le hi src n cap) hge)

/-- Bytes 20 to 7E hold no zero byte, and each stands for itself. -/
theorem xltBuf_ascii {hi src : List Byte} {n cap : Nat}
    (h : ∀ b ∈ src.take n, 0x20 ≤ b.toNat ∧ b.toNat ≤ 0x7E) : xltBuf hi src n cap = src.take (min n cap) := by
  have hread : ∀ b ∈ src.take (min n cap), 0x20 ≤ b.toNat ∧ b.toNat ≤ 0x7E := fun b hb =>
    h b (List.take_subset_take_left src (Nat.min_le_left n cap) hb)
  have hall : (src.take (min n cap)).takeWhile (· != 0x00) = src.take (min n cap) := by
    have hne : ∀ b ∈ src.take (min n cap), (b != 0x00) = true := fun b hb =>
      bne_iff_ne.2 fun hzero => absurd (hread b hb).1 (hzero ▸ by decide)
    have happ := List.takeWhile_append_of_pos (l₂ := []) hne
    rwa [List.takeWhile_nil, List.append_nil] at happ
  have hmap : (src.take (min n cap)).map (xltByte hi) = (src.take (min n cap)).map id :=
    List.map_congr_left fun b hb => xltByte_ascii (hread b hb).1 (by have := (hread b hb).2; omega)
  rw [xltBuf, hall, hmap, List.map_id]

/-- Settles O28: the output is a bytewise map, so its bytes are the map's, and its length is where the map stops. -/
theorem xltBufProperties : Obligations.XltBufProperties := by
  unfold Obligations.XltBufProperties
  rintro hi src out n cap hok hn rfl
  refine ⟨xltBuf_length_le hi src n cap, ?range, fun k => xltBuf_source_ne_zero, xltBuf_stops hn, xltBuf_ascii, ?bytes⟩
  case range =>
    intro c hc
    rw [xltBuf_eq_map_take, List.mem_map] at hc
    obtain ⟨b, -, rfl⟩ := hc
    exact xltByte_range hok b
  case bytes =>
    intro k b hk hb
    have hout : (xltBuf hi src n cap)[k]? = some (xltByte hi b) := by rw [xltBuf_getElem? hk, hb, Option.map_some]
    rw [hout]
    exact ⟨fun hlow => by rw [xltByte_control hlow], fun hlow hhigh => by rw [xltByte_ascii hlow hhigh],
      fun hhigh => (xltByte_getElem? (xltHiOk_entries hok).1 hhigh).symm⟩

/-! The names of an entry (46_stuffit_records.md R218): filled up with zeros to 63 bytes. -/

theorem padTo_take_length (n : Nat) (bs : List Byte) : (padTo n bs).take bs.length = bs := List.take_left

theorem padTo_getD_lt {n i : Nat} {bs : List Byte} (h : i < bs.length) : (padTo n bs).getD i 0 = bs.getD i 0 := by
  rw [padTo, List.getD_eq_getElem?_getD, List.getElem?_append_left h, ← List.getD_eq_getElem?_getD]

theorem padTo_getD_ge {n i : Nat} {bs : List Byte} (h : bs.length ≤ i) : (padTo n bs).getD i 0 = 0 := by
  rw [padTo, List.getD_eq_getElem?_getD, List.getElem?_append_right h, List.getElem?_replicate]
  split
  · rfl
  · rfl

/-- The name bytes a record gives, as many as the capped length says. -/
def entryName (p : Params) (b : List Byte) : List Byte :=
  (List.range (capName (field8 b p.entOff.namelen)).toNat).map fun i => field8 b (p.entOff.name + i)

/-- The portable name, for a name that is not empty (40_transliterator.md R144). -/
def entryPname (p : Params) (b : List Byte) : List Byte :=
  if capName (field8 b p.entOff.namelen) = 0 then []
  else xltBuf p.xltHi (entryName p b) (capName (field8 b p.entOff.namelen)).toNat 63

theorem entryOf_name (p : Params) (b : List Byte) : (entryOf p b).name = padTo 63 (entryName p b) := rfl

theorem entryOf_pname (p : Params) (b : List Byte) : (entryOf p b).pname = padTo 63 (entryPname p b) := rfl

theorem entryName_length (p : Params) (b : List Byte) :
    (entryName p b).length = (capName (field8 b p.entOff.namelen)).toNat := by
  rw [entryName, List.length_map, List.length_range]

theorem entryName_getD {p : Params} {b : List Byte} {i : Nat} (h : i < (entryName p b).length) :
    (entryName p b).getD i 0 = b.getD (p.entOff.name + i) 0 := by
  rw [← List.getElem_eq_getD (h := h)]
  simp only [entryName, List.getElem_map, List.getElem_range, field8]

theorem entryPname_length_le (p : Params) (b : List Byte) : (entryPname p b).length ≤ 63 := by
  rw [entryPname]
  split
  · exact Nat.zero_le 63
  · exact Nat.le_trans (xltBuf_length_le _ _ _ _) (Nat.min_le_right _ _)

/-- The count of the portable name fits its register. -/
theorem entryOf_pnameLen_toNat (p : Params) (b : List Byte) : (entryOf p b).pnameLen.toNat = (entryPname p b).length := by
  have hfits : (entryPname p b).length < 2 ^ 8 := Nat.lt_of_le_of_lt (entryPname_length_le p b) (by decide)
  exact Nat.mod_eq_of_lt hfits

/-- Settles O54: the two names by their bytes and their zeros; each other field is read at its own offset. -/
theorem entryFields : Obligations.EntryFields := by
  unfold Obligations.EntryFields
  rintro p b e m rfl hm
  have hcap : (capName (field8 b p.entOff.namelen)).toNat = m := (capName_toNat _).trans hm.symm
  have hlen : (entryName p b).length = m := (entryName_length p b).trans hcap
  refine ⟨hcap, entryOf_name_length p b, entryOf_pname_length p b, fun i hi => ?name, fun i hi => ?nameZeros, ?pname,
    fun i hi => ?pnameZeros, rfl, rfl, rfl, rfl, rfl, rfl, rfl, rfl, rfl, rfl, rfl, rfl, rfl, rfl⟩
  case name => rw [entryOf_name, padTo_getD_lt (hlen ▸ hi), entryName_getD (hlen ▸ hi)]
  case nameZeros => rw [entryOf_name, padTo_getD_ge (hlen ▸ hi)]
  case pname =>
    have hname : (entryOf p b).name.take m = entryName p b := by rw [entryOf_name, ← hlen, padTo_take_length]
    have hzero : capName (field8 b p.entOff.namelen) = 0 ↔ m = 0 := by
      rw [← hcap, ← BitVec.toNat_inj]
      rfl
    rw [entryOf_pnameLen_toNat, entryOf_pname, padTo_take_length, hname]
    simp only [entryPname, hzero, hcap]
  case pnameZeros => rw [entryOf_pname, padTo_getD_ge (entryOf_pnameLen_toNat p b ▸ hi)]

/-! The command (R145). -/

theorem exec_xlit {s : State} (h : s.err = none) : exec (decodeCommand 0x30) s = finish (xlitBody s) := by
  have hdec : decodeCommand 0x30 = .xlit := rfl
  rw [hdec]
  exact acceptAny_ok h

theorem xlitBody_zero {s : State} (h : s.xl.srcLen = 0 ∨ s.xl.dstCap = 0) :
    xlitBody s = .stop (fatal .badLength 1 0 s) := by
  have hz : s.xl.srcLen.toNat = 0 ∨ s.xl.dstCap.toNat = 0 :=
    h.imp (fun h => congrArg BitVec.toNat h) (fun h => congrArg BitVec.toNat h)
  exact if_pos hz

theorem xlitBody_nonzero {s : State} (hs : s.xl.srcLen ≠ 0) (hd : s.xl.dstCap ≠ 0) :
    ¬ (s.xl.srcLen.toNat = 0 ∨ s.xl.dstCap.toNat = 0) := by
  rintro (h | h)
  · exact hs (BitVec.eq_of_toNat_eq h)
  · exact hd (BitVec.eq_of_toNat_eq h)

theorem xlitBody_over {s : State} (hs : s.xl.srcLen ≠ 0) (hd : s.xl.dstCap ≠ 0)
    (h : 64 < s.xl.srcLen.toNat ∨ 64 < s.xl.dstCap.toNat) :
    xlitBody s
      = .stop (fatal .badLength 64 (BitVec.ofNat 32 (max s.xl.srcLen.toNat s.xl.dstCap.toNat)) s) :=
  (if_neg (xlitBody_nonzero hs hd)).trans (if_pos h)

theorem xlitBody_ok {s : State} (hs : s.xl.srcLen ≠ 0) (hd : s.xl.dstCap ≠ 0) (h1 : s.xl.srcLen.toNat ≤ 64)
    (h2 : s.xl.dstCap.toNat ≤ 64) {out : List Byte}
    (ho : out = xltBuf s.par.xltHi s.xl.src s.xl.srcLen.toNat s.xl.dstCap.toNat) :
    xlitBody s
      = .ok () (endOk { s with xl := { s.xl with dst := padTo 64 out, dstLen := BitVec.ofNat 7 out.length } }) := by
  rw [ho]
  exact (if_neg (xlitBody_nonzero hs hd)).trans (if_neg (by omega))

/-- Settles O27: the three cases of R145, the zero test first. -/
theorem xlitWritesDestination : Obligations.XlitWritesDestination := by
  unfold Obligations.XlitWritesDestination
  intro s out herr hout
  rw [exec_xlit herr]
  refine ⟨fun h => ?zero, fun hs hd h => ?tooLong, fun hs hd h1 h2 => ?written⟩
  case zero => rw [xlitBody_zero h, finish_stop]
  case tooLong => rw [xlitBody_over hs hd h, finish_stop]
  case written =>
    rw [xlitBody_ok hs hd h1 h2 hout, finish_ok]
    rfl

end Sys2Proof.Machine
end

section
/-! SUPPORT. The header locator (41_stream_locate.md R154, R155) over a byte sequence: the offset it stands at says whether a
start mark is met there, so a search passes over the offsets without one and ends at the first with one, or at the end. -/

namespace Sys2Proof.Machine

/-- The state with POS at offset `p`. -/
def State.atPos (p : Nat) (s : State) : State := { s with pos := BitVec.ofNat 64 p }

theorem State.atPos_zero {s : State} (h : s.pos = 0) : s.atPos 0 = s :=
  congrArg (fun p => { s with pos := p }) h.symm

theorem State.atPos_pos_succ (p : Nat) (s : State) : (s.atPos p).pos + 1 = (s.atPos (p + 1)).pos :=
  (BitVec.ofNat_add p 1).symm

theorem State.atPos_move (p q : Nat) (s : State) : { s.atPos p with pos := (s.atPos q).pos } = s.atPos q := rfl

/-- A byte sequence is read through POS as by its offsets. -/
theorem memRead_atPos {s : State} {bs : List Byte} (hs : s.stream = Memory.ofBytes bs) {p : Nat} (hp : p < 2 ^ 64) :
    memRead (s.atPos p) (s.atPos p).pos = bs[p]? := by
  show Memory.read s.stream (BitVec.ofNat 64 p).toNat = bs[p]?
  rw [hs, Memory.read_ofBytes, BitVec.toNat_ofNat, Nat.mod_eq_of_lt hp]

/-- Whether offset `p` is the beginning of a line (R155). -/
def atLineStart (bs : List Byte) (p : Nat) : Bool :=
  decide (p = 0 ∨ bs[p - 1]? = some 0x0A ∨ bs[p - 1]? = some 0x0D)

/-- After a byte the search is at the beginning of a line exactly if that byte ends one. -/
theorem atLineStart_succ {bs : List Byte} {p : Nat} {c : Byte} (h : bs[p]? = some c) :
    atLineStart bs (p + 1) = (c == 0x0A || c == 0x0D) := by
  simp [atLineStart, h, Bool.beq_eq_decide_eq]

/-- The alphabet character after a start mark at offset `p`, none where no mark stands. -/
def startMark (bs : List Byte) (p : Nat) : Option Byte :=
  if atLineStart bs p && bs[p]? == some 0x3A then (bs[p + 1]?).filter isAlphabet else none

theorem startMark_isSome {bs : List Byte} {p : Nat} : (startMark bs p).isSome = true ↔ startsAt bs p := by
  have hmark : (atLineStart bs p && bs[p]? == some 0x3A) = true
      ↔ bs[p]? = some 0x3A ∧ (p = 0 ∨ bs[p - 1]? = some 0x0A ∨ bs[p - 1]? = some 0x0D) := by
    simp [atLineStart, and_comm]
  have hchar : ((bs[p + 1]?).filter isAlphabet).isSome = true ↔ ∃ d, bs[p + 1]? = some d ∧ isAlphabet d = true := by
    simp only [Option.isSome_iff_exists, Option.filter_eq_some_iff]
  unfold startMark
  split
  case isTrue h =>
    obtain ⟨hcolon, hline⟩ := hmark.mp h
    exact hchar.trans ⟨fun hd => ⟨hcolon, hline, hd⟩, fun ⟨_, _, hd⟩ => hd⟩
  case isFalse h => exact ⟨nofun, fun ⟨hcolon, hline, _⟩ => absurd (hmark.mpr ⟨hcolon, hline⟩) h⟩

theorem startMark_eq_none {bs : List Byte} {p : Nat} (h : ¬ startsAt bs p) : startMark bs p = none := by
  rw [← startMark_isSome, Option.not_isSome_iff_eq_none] at h
  exact h

/-- A start mark lies inside the sequence. -/
theorem startsAt_lt {bs : List Byte} {a : Nat} (h : startsAt bs a) : a < bs.length :=
  (List.getElem?_eq_some_iff.mp h.1).1

section
variable {s : State} {bs : List Byte} (hs : s.stream = Memory.ofBytes bs) (hl : bs.length < 2 ^ 63)
include hs hl

/-- The search at the end of the sequence (R154). -/
theorem locateSearch_of_end (n : Nat) (bol : Bool) :
    locateSearch (n + 1) bol (s.atPos bs.length) = .stop (fatal .noStart 0x3A 0x100 (s.atPos bs.length)) := by
  have hend : memRead (s.atPos bs.length) (s.atPos bs.length).pos = none := by
    rw [memRead_atPos hs (by omega)]
    exact List.getElem?_eq_none (Nat.le_refl _)
  simp only [locateSearch, hend, raise_eq]

/-- One turn of the search inside the sequence (R154): a mark ends it, any other byte is passed over. -/
theorem locateSearch_of_lt (n : Nat) {p : Nat} (hp : p < bs.length) :
    locateSearch (n + 1) (atLineStart bs p) (s.atPos p)
      = (startMark bs p).elim (locateSearch n (atLineStart bs (p + 1)) (s.atPos (p + 1))) (.ok · (s.atPos (p + 1))) := by
  have hc : bs[p]? = some bs[p] := List.getElem?_eq_getElem hp
  have hmark : startMark bs p
      = if atLineStart bs p && bs[p] == 0x3A then (bs[p + 1]?).filter isAlphabet else none := by
    rw [startMark, hc]
    rfl
  simp only [locateSearch, memRead_atPos hs (p := p) (by omega), hc, State.atPos_pos_succ, State.atPos_move,
    memRead_atPos hs (p := p + 1) (by omega), ← atLineStart_succ hc, ← hmark]
  cases startMark bs p with
  | none => rfl
  | some d => rfl

/-- The search passes over `k` offsets without a start mark. -/
theorem locateSearch_skips (n k : Nat) {p : Nat} (hp : p + k ≤ bs.length)
    (hno : ∀ b, p ≤ b → b < p + k → ¬ startsAt bs b) :
    locateSearch (n + k) (atLineStart bs p) (s.atPos p)
      = locateSearch n (atLineStart bs (p + k)) (s.atPos (p + k)) := by
  induction k generalizing p with
  | zero => rfl
  | succ k ih =>
    have hnone := startMark_eq_none (hno p (Nat.le_refl p) (by omega))
    calc locateSearch (n + k + 1) (atLineStart bs p) (s.atPos p)
        = locateSearch (n + k) (atLineStart bs (p + 1)) (s.atPos (p + 1)) := by
          rw [locateSearch_of_lt hs hl _ (by omega), hnone, Option.elim_none]
      _ = locateSearch n (atLineStart bs (p + 1 + k)) (s.atPos (p + 1 + k)) :=
          ih (by omega) fun b hb hbk => hno b (by omega) (by omega)
      _ = locateSearch n (atLineStart bs (p + (k + 1))) (s.atPos (p + (k + 1))) := by
          rw [Nat.add_assoc p, Nat.add_comm 1]

/-- From the front the search comes to every offset that has no start mark before it, with a turn left there. -/
theorem locateSearch_reaches (h0 : s.pos = 0) {a : Nat} (ha : a ≤ bs.length) (hno : ∀ b, b < a → ¬ startsAt bs b) :
    ∃ n, locateSearch (streamFuel s) true s = locateSearch (n + 1) (atLineStart bs a) (s.atPos a) := by
  have hlen : s.stream.length = bs.length := by rw [hs, Memory.length_ofBytes]
  obtain ⟨n, hn⟩ : ∃ n, streamFuel s = n + 1 + a := ⟨streamFuel s - 1 - a, by unfold streamFuel; omega⟩
  have hskip := locateSearch_skips hs hl (n + 1) a (p := 0) (by omega) fun b _ hb => hno b (by omega)
  rw [Nat.zero_add, State.atPos_zero h0, ← hn] at hskip
  exact ⟨n, hskip⟩

/-- LOCATE on a sequence whose first start mark is at offset `a` (R154). -/
theorem locate_of_first_start (h0 : s.pos = 0) {a : Nat} (ha : startsAt bs a) (hno : ∀ b, b < a → ¬ startsAt bs b) :
    locate s = .ok () (locateMatched (s.atPos (a + 1))) := by
  have hlt := startsAt_lt ha
  obtain ⟨n, hn⟩ := locateSearch_reaches hs hl h0 (Nat.le_of_lt hlt) hno
  obtain ⟨d, hd⟩ := Option.isSome_iff_exists.mp (startMark_isSome.mpr ha)
  rw [locate, hn, locateSearch_of_lt hs hl n hlt, hd, Option.elim_some, Res.bind_ok]

/-- LOCATE on a sequence without a start mark (R154). -/
theorem locate_of_no_start (h0 : s.pos = 0) (hno : ∀ a, ¬ startsAt bs a) :
    locate s = .stop (fatal .noStart 0x3A 0x100 (s.atPos bs.length)) := by
  obtain ⟨n, hn⟩ := locateSearch_reaches hs hl h0 (Nat.le_refl _) fun b _ => hno b
  rw [locate, hn, locateSearch_of_end hs hl, Res.bind_stop]

end

/-- Settles O30: the search reaches the first start mark, or the end of the sequence. -/
theorem locateFindsFirstStart : Obligations.LocateFindsFirstStart := by
  unfold Obligations.LocateFindsFirstStart
  exact fun s bs hs hl h0 => ⟨fun a => locate_of_first_start hs hl h0, locate_of_no_start hs hl h0⟩

/-- Settles O46: the accepted command ends where LOCATE does. -/
theorem bhxHdrNoStart : Obligations.BhxHdrNoStart := by
  unfold Obligations.BhxHdrNoStart
  intro s bs he hm hg h0 hs hl hno
  have hbody : hdrBody s = .stop (fatal .noStart 0x3A 0x100 (s.atPos bs.length)) := by
    rw [hdrBody, locate_of_no_start hs hl h0 hno, Res.bind_stop]
  calc exec .bhxHdr s = finish (hdrBody s) := accept_ok he hm fun _ hx => hg.trans (Option.some.inj hx)
    _ = .next (fatal .noStart 0x3A 0x100 (s.atPos bs.length)) := by rw [hbody, finish_stop]

/-- Settles O31: the row is the locator's own update. -/
theorem locateStartRow : Obligations.LocateStartRow := by
  unfold Obligations.LocateStartRow
  exact fun c s => rfl

end Sys2Proof.Machine
end

section
/-! SUPPORT. The buffered reader beside the plain one (41_stream_locate.md R151 to R153): over one stream and from one POS
they answer the same and move POS alike. -/

namespace Sys2Proof.Machine

/-- The plain `RAWGET` (R151) answers the byte at POS and moves POS by one for a byte. -/
theorem rawgetPlain_eq (s : State) :
    rawgetPlain s = (memRead s s.pos, { s with pos := if (memRead s s.pos).isSome then s.pos + 1 else s.pos }) := by
  unfold rawgetPlain
  cases memRead s s.pos with
  | none => rfl
  | some c => rfl

/-- One call of each form, the plain one in any state with the same stream and POS (R153). -/
theorem rawget_eq_plain {s t : State} (hs : streamOk s) (hb : bufferOk s) (hstream : t.stream = s.stream)
    (hpos : t.pos = s.pos) :
    (rawget s).1 = (rawgetPlain t).1 ∧ (rawget s).2.pos = (rawgetPlain t).2.pos := by
  have hread : (rawget s).1 = memRead t t.pos := by
    rw [(rawget_bufferOk s hs hb).1, memRead, hstream, hpos]
  rw [rawgetPlain_eq, rawget_pos, hread, hpos]
  exact ⟨rfl, rfl⟩

/-- Any number of calls: the buffer agrees with the stream after each. -/
theorem gets_rawget_eq_plain (n : Nat) {s t : State} (hs : streamOk s) (hb : bufferOk s) (hstream : t.stream = s.stream)
    (hpos : t.pos = s.pos) : gets rawget n s = gets rawgetPlain n t := by
  induction n generalizing s t with
  | zero => rfl
  | succ n ih =>
    obtain ⟨hbyte, hnext⟩ := rawget_eq_plain hs hb hstream hpos
    obtain ⟨-, hb', -, -⟩ := rawget_bufferOk s hs hb
    have hstream' : (rawgetPlain t).2.stream = (rawget s).2.stream := by
      rw [rawgetPlain_eq, rawget_frame s]
      exact hstream
    simp only [gets, hbyte, hnext, ih (rawget_streamOk hs) hb' hstream' hnext.symm]

/-- The locator's empty buffer agrees with the stream (R152, R154). -/
theorem locateMatched_bufferOk {s : State} (hp : s.pos.toNat ≤ slen s) (hl : s.buf.bytes.length = rbufSize) :
    bufferOk (locateMatched s) :=
  ⟨hl, Nat.le_refl _, Nat.zero_le _, hp, rfl, fun _ hi => absurd hi (Nat.not_lt_zero _), nofun⟩

/-- Settles O29: call for call, from one state. -/
theorem bufferedReadIsPlainRead : Obligations.BufferedReadIsPlainRead := by
  unfold Obligations.BufferedReadIsPlainRead
  exact ⟨fun n s hs hb => gets_rawget_eq_plain n hs hb rfl rfl, fun s _ hp hl => locateMatched_bufferOk hp hl⟩

end Sys2Proof.Machine
end

section
/-! SUPPORT. The fetch of each symbol space (41_stream_locate.md R150) when its bytes are there: which bytes are decoded, and
the state they leave. A step then runs what they decode to. -/

namespace Sys2Proof.Machine

section
variable {s u v : State} {c d : Byte}

/-- A step whose fetch comes to decode bytes that are an instruction runs it. -/
theorem step_of_decoded {sp : Space} {bs r : List Byte} {i : Instr} (hf : fetch s = decoded sp bs u)
    (hd : decode sp bs = .ok (i, r)) : step s = exec i u :=
  step_of_run (by rw [hf, decoded, hd])

theorem charWanted_eq_true : charWanted s = true ↔ s.lend = false ∧ s.grp.length < 4 := by
  simp [charWanted]

theorem fetch_rawChar (h : s.space = .rawChar) (hw : charWanted s = true) (hr : rawget s = (some c, u)) :
    fetch s = decoded .rawChar [c] u := by
  simp only [fetch, h, hw, hr, if_true]

theorem fetch_rawChar_end (h : s.space = .rawChar) (hw : charWanted s = true) (hr : rawget s = (none, u)) :
    fetch s = .run .chTerm u := by
  simp only [fetch, h, hw, hr, if_true]

theorem fetch_rawChar_quiet (h : s.space = .rawChar) (hw : ¬ charWanted s = true) : fetch s = .quiet s := by
  simp only [fetch, h, if_neg hw]

/-- The locator answers an alphabet character (41_stream_locate.md R154). -/
theorem locateSearch_isAlphabet (n : Nat) (bol : Bool) (s : State) :
    (locateSearch n bol s).meets (fun d _ => isAlphabet d = true) fun _ => True := by
  induction n generalizing bol s with
  | zero => trivial
  | succ n ih =>
    simp only [locateSearch]
    split
    case h_1 => trivial
    case h_2 =>
      split
      case h_1 d hd =>
        split at hd
        case isTrue => exact (Option.filter_eq_some_iff.mp hd).2
        case isFalse => cases hd
      case h_2 => exact ih _ _

theorem fetch_locate (h : s.space = .locate) (hr : locateSearch (streamFuel s) true s = .ok d u) :
    fetch s = decoded .locate [0x3A, d] u := by
  simp only [fetch, h, hr, fetchWith]

theorem fetch_group (h : s.space = .group) (hg : groupReady s = true) :
    fetch s = decoded .group (groupBytes s.grp) s := by
  simp only [fetch, h, hg, if_true]

theorem fetchRaw_literal (hr : rawbyte s = .ok c u) (hc : c ≠ rleMark) : fetchRaw s = .ok [c] u := by
  rw [fetchRaw, hr, Res.bind_ok, if_pos hc]

theorem fetchRaw_pair (hr : rawbyte s = .ok rleMark u) (hn : rawbyte u = .ok d v) :
    fetchRaw s = .ok [rleMark, d] v := by
  rw [fetchRaw, hr, Res.bind_ok, if_neg (not_not_intro rfl), hn, Res.bind_ok]

theorem fetch_rawByte {bs : List Byte} (h : s.space = .rawByte) (hp : copiesPending s.rptCnt = false)
    (hr : fetchRaw s = .ok bs u) : fetch s = decoded .rawByte bs u := by
  simp only [fetch, h, hp, hr, fetchWith, Bool.false_eq_true, if_false]

/-- The two spaces of the decoded-byte queue: the record at its front is taken. -/
theorem fetch_queue {sp : Space} {r : List Byte} {i : Instr} (h : s.space = sp)
    (hsp : sp = .bhxHeader ∨ ∃ n, sp = .bhxFork n) (hd : decode sp s.dbuf = .ok (i, r)) :
    fetch s = .run i { s with dbuf := r } := by
  have hq : fetch s = decodedQueue sp s := by
    obtain rfl | ⟨n, rfl⟩ := hsp
    · simp only [fetch, h]
    · simp only [fetch, h]
  rw [hq, decodedQueue, hd]

theorem fetch_sitHeader (h : s.space = .sitHeader) (hk : (blockGot sitHdrSize s).length = sitHdrSize) :
    fetch s = decoded .sitHeader ((blockRead sitHdrSize { s with saValid := false }).recb.take sitHdrSize)
      (blockRead sitHdrSize { s with saValid := false }) := by
  simp only [fetch, h, hk, Nat.lt_irrefl, if_false]

theorem fetch_sitEntry (h : s.space = .sitEntry) (hk : (blockGot sitEntSize s).length = sitEntSize) :
    fetch s = decoded .sitEntry ((blockRead sitEntSize { s with seValid := false }).recb.take sitEntSize)
      (blockRead sitEntSize { s with seValid := false }) := by
  have hne : sitEntSize ≠ 0 := by decide
  simp only [fetch, h, hk, hne, Nat.lt_irrefl, if_false]

theorem fetch_magic1 (h : s.space = .magic1) : fetch s = decoded .magic1 (s.recb.take 4) s := by
  simp only [fetch, h]

theorem fetch_magic2 (h : s.space = .magic2) : fetch s = decoded .magic2 ((s.recb.drop 10).take 4) s := by
  simp only [fetch, h, sitMagic2Off]

theorem fetch_method (h : s.space = .method) : fetch s = decoded .method [s.se.rmeth] s := by
  simp only [fetch, h]

theorem fetch_typeCode (h : s.space = .typeCode) : fetch s = decoded .typeCode (bytes32 s.se.typ) s := by
  simp only [fetch, h]

end

/-- Settles O6: space by space, by the lemma about its fetch. -/
theorem stepRunsDecodedInstruction : Obligations.StepRunsDecodedInstruction := by
  unfold Obligations.StepRunsDecodedInstruction
  intro s u v c d i as r
  refine ⟨step_command, fun h hl hg hr => ?char, fun h hl hg hr => ?charEnd, fun h hq => ?charQuiet, fun h hr => ?locate,
    fun h hg => ?group, fun h hp hr hc => ?literal, fun h hp hr hn => ?pair, fun sp h hsp hd => ?queue,
    fun h hk hd => ?sitHeader, fun h hk hd => ?sitEntry, fun h hd => ?magic1, fun h hd => ?magic2, fun h => ?method,
    fun h ht => ?typeCode⟩
  case char => exact step_of_decoded (fetch_rawChar h (charWanted_eq_true.mpr ⟨hl, hg⟩) hr) rfl
  case charEnd => exact step_of_run (fetch_rawChar_end h (charWanted_eq_true.mpr ⟨hl, hg⟩) hr)
  case charQuiet =>
    refine step_of_quiet (fetch_rawChar_quiet h fun hw => ?_)
    obtain ⟨hl, hg⟩ := charWanted_eq_true.mp hw
    obtain hl' | hg' := hq
    · rw [hl] at hl'
      cases hl'
    · omega
  case locate =>
    have ha : isAlphabet d = true := by
      have hm := locateSearch_isAlphabet (streamFuel s) true s
      rwa [hr] at hm
    exact step_of_decoded (fetch_locate h hr) (decodeOfEncode (.locateStart d) [] ha)
  case group => exact step_of_decoded (fetch_group h hg) (decode_grpPack _ _ _ _ [])
  case literal =>
    have hwf : wellFormed (.rleLiteral c) = true := by simpa [wellFormed] using hc
    exact step_of_decoded (fetch_rawByte h hp (fetchRaw_literal hr hc)) (decodeOfEncode (.rleLiteral c) [] hwf)
  case pair => exact step_of_decoded (fetch_rawByte h hp (fetchRaw_pair hr hn)) rfl
  case queue => exact step_of_run (fetch_queue h hsp hd)
  case sitHeader => exact step_of_decoded (fetch_sitHeader h hk) hd
  case sitEntry => exact step_of_decoded (fetch_sitEntry h hk) hd
  case magic1 => exact step_of_decoded (fetch_magic1 h) hd
  case magic2 => exact step_of_decoded (fetch_magic2 h) hd
  case method => exact step_of_decoded (fetch_method h) rfl
  case typeCode =>
    have hf := fetch_typeCode h
    rw [ht] at hf
    exact step_of_decoded hf (decodeOfEncode .typeAppl [] rfl)

end Sys2Proof.Machine
end

section
/-! SUPPORT. Four sextets as the 24 bits of their three bytes (42_sextet_unpacker.md R162), and the raw bytes of a list of
sextets (R167): their number, and their bits. -/

namespace Sys2Proof

/-- The concatenation law of R162, bit by bit. -/
theorem pack_append (s0 s1 s2 s3 : Sextet) :
    (pack s0 s1 s2 s3).1 ++ (pack s0 s1 s2 s3).2.1 ++ (pack s0 s1 s2 s3).2.2 = s0 ++ s1 ++ s2 ++ s3 := by
  refine BitVec.eq_of_getLsbD_eq fun i hi => ?_
  show BitVec.getLsbD (w := 8 + 8 + 8) _ i = BitVec.getLsbD (w := 6 + 6 + 6 + 6) _ i
  rw [BitVec.getLsbD_append, BitVec.getLsbD_append, BitVec.getLsbD_append, BitVec.getLsbD_append, BitVec.getLsbD_append]
  revert i
  simp only [Nat.forall_lt_succ_right]
  simp [pack]

/-- Settles O5: the concatenation law, the two inverse laws, and the four examples of the rule. -/
theorem packIsConcatenation : Obligations.PackIsConcatenation := by
  unfold Obligations.PackIsConcatenation
  refine ⟨pack_append, unpack_pack, pack_unpack, ?examples⟩
  decide

end Sys2Proof

namespace Sys2Proof.Machine

theorem rawOf_group (s0 s1 s2 s3 : Sextet) (r : List Sextet) :
    rawOf (s0 :: s1 :: s2 :: s3 :: r)
      = (pack s0 s1 s2 s3).1 :: (pack s0 s1 s2 s3).2.1 :: (pack s0 s1 s2 s3).2.2 :: rawOf r := rfl

/-- The number of raw bytes (R167 (a)). -/
theorem rawOf_length : ∀ v : List Sextet, (rawOf v).length = v.length / 4 * 3 + (v.length % 4 - 1)
  | [] => rfl
  | [_] => by simp [rawOf]
  | [_, _] => by simp [rawOf]
  | [_, _, _] => by simp [rawOf]
  | s0 :: s1 :: s2 :: s3 :: r => by
    have ih := rawOf_length r
    simp only [rawOf_group, List.length_cons]
    omega

/-- Bit `i` of three bytes in a row is bit `i` of their concatenation, both counted from the most significant. -/
theorem getMsbD_of_bytes (b0 b1 b2 : Byte) (r : List Byte) {i : Nat} (h : i < 24) :
    ((b0 :: b1 :: b2 :: r).getD (i / 8) 0).getMsbD (i % 8) = (b0 ++ b1 ++ b2).getMsbD i := by
  simp only [BitVec.getMsbD_append]
  obtain hi | hi | hi : i / 8 = 0 ∨ i / 8 = 1 ∨ i / 8 = 2 := by omega
  case inl =>
    rw [hi, if_neg (by omega), if_neg (by omega), show i % 8 = i by omega]
    rfl
  case inr.inl =>
    rw [hi, if_neg (by omega), if_pos (by omega), show i % 8 = i - 8 by omega]
    rfl
  case inr.inr =>
    rw [hi, if_pos (by omega), show i % 8 = i - (8 + 8) by omega]
    rfl

/-- Bit `i` of four sextets in a row, likewise. -/
theorem getMsbD_of_sextets (s0 s1 s2 s3 : Sextet) (r : List Sextet) {i : Nat} (h : i < 24) :
    ((s0 :: s1 :: s2 :: s3 :: r).getD (i / 6) 0).getMsbD (i % 6) = (s0 ++ s1 ++ s2 ++ s3).getMsbD i := by
  simp only [BitVec.getMsbD_append]
  obtain hi | hi | hi | hi : i / 6 = 0 ∨ i / 6 = 1 ∨ i / 6 = 2 ∨ i / 6 = 3 := by omega
  case inl =>
    rw [hi, if_neg (by omega), if_neg (by omega), if_neg (by omega), show i % 6 = i by omega]
    rfl
  case inr.inl =>
    rw [hi, if_neg (by omega), if_neg (by omega), if_pos (by omega), show i % 6 = i - 6 by omega]
    rfl
  case inr.inr.inl =>
    rw [hi, if_neg (by omega), if_pos (by omega), show i % 6 = i - (6 + 6) by omega]
    rfl
  case inr.inr.inr =>
    rw [hi, if_pos (by omega), show i % 6 = i - (6 + 6 + 6) by omega]
    rfl

/-- Within a group the bits of the three bytes are those of the four sextets (R162). -/
theorem group_getMsbD (s0 s1 s2 s3 : Sextet) (bs : List Byte) (vs : List Sextet) {i : Nat} (h : i < 24) :
    (((pack s0 s1 s2 s3).1 :: (pack s0 s1 s2 s3).2.1 :: (pack s0 s1 s2 s3).2.2 :: bs).getD (i / 8) 0).getMsbD (i % 8)
      = ((s0 :: s1 :: s2 :: s3 :: vs).getD (i / 6) 0).getMsbD (i % 6) := by
  rw [getMsbD_of_bytes _ _ _ _ h, getMsbD_of_sextets _ _ _ _ _ h, pack_append]

/-- The bits of the raw bytes are the bits of the sextets in order (R167 (b)), group by group; a short last group is one
with sextets 0 after its own. -/
theorem rawOf_getMsbD : ∀ (v : List Sextet) (i : Nat), i < 8 * (rawOf v).length →
    ((rawOf v).getD (i / 8) 0).getMsbD (i % 8) = (v.getD (i / 6) 0).getMsbD (i % 6)
  | [], _, h => absurd h (Nat.not_lt_zero _)
  | [_], _, h => absurd h (Nat.not_lt_zero _)
  | [s0, s1], i, h => by
    have hi : i < 8 := h
    have hg := group_getMsbD s0 s1 0 0 [] [] (i := i) (by omega)
    have hb : i / 8 = 0 := by omega
    obtain hs | hs : i / 6 = 0 ∨ i / 6 = 1 := by omega
    all_goals
      rw [hb, hs] at hg ⊢
      exact hg
  | [s0, s1, s2], i, h => by
    have hi : i < 16 := h
    have hg := group_getMsbD s0 s1 s2 0 [] [] (i := i) (by omega)
    obtain hb | hb : i / 8 = 0 ∨ i / 8 = 1 := by omega
    all_goals
      obtain hs | hs | hs : i / 6 = 0 ∨ i / 6 = 1 ∨ i / 6 = 2 := by omega
      all_goals
        rw [hb, hs] at hg ⊢
        exact hg
  | s0 :: s1 :: s2 :: s3 :: r, i, h => by
    rw [rawOf_group] at h ⊢
    by_cases hi : i < 24
    case pos => exact group_getMsbD s0 s1 s2 s3 (rawOf r) r hi
    case neg =>
      have ih := rawOf_getMsbD r (i - 24) (by simp only [List.length_cons] at h; omega)
      rw [show i / 8 = (i - 24) / 8 + 3 by omega, show i / 6 = (i - 24) / 6 + 4 by omega,
        show i % 8 = (i - 24) % 8 by omega, show i % 6 = (i - 24) % 6 by omega]
      exact ih

end Sys2Proof.Machine
end

section
/-! SUPPORT. The characters from POS on as the unit SXT reads them (42_sextet_unpacker.md R161 to R165): RAWGET over a stream
with known bytes ahead, SEXTET over line ends, FILLRING over a whole group, over a short one at the end and over a broken
one, RAWBYTE over a whole payload. -/

namespace Sys2Proof.Machine

/-- `bs` are the stream's bytes from POS on, and the buffered reader will hand them out. -/
def Ahead (bs : List Byte) (s : State) : Prop :=
  streamOk s ∧ bufferOk s ∧ (s.stream.map Prod.snd).drop s.pos.toNat = bs

/-- What reading a payload changes while no end is met: POS, the read buffer, the latch and the ring. -/
def State.reading (p : Pos) (b : ReadBuf) (g : List Sextet) (r : Ring) (s : State) : State :=
  { s with pos := p, buf := b, grp := g, ring := r }

theorem Ahead.pos_add_length {bs : List Byte} {s : State} (h : Ahead bs s) : s.pos.toNat + bs.length = slen s := by
  obtain ⟨-, ⟨-, -, -, hfpos, hpos, -, -⟩, rfl⟩ := h
  have hle : s.pos.toNat ≤ slen s := by omega
  rw [List.length_drop, List.length_map]
  exact Nat.add_sub_cancel' hle

theorem Ahead.length_lt_streamFuel {bs : List Byte} {s : State} (h : Ahead bs s) : bs.length < streamFuel s := by
  have hlen := h.pos_add_length
  have hs : slen s = s.stream.length := rfl
  unfold streamFuel
  omega

/-! One raw character. -/

theorem rawget_reading (s : State) : (rawget s).2 = s.reading (rawget s).2.pos (rawget s).2.buf s.grp s.ring :=
  rawget_frame s

/-- RAWGET with a byte ahead (41_stream_locate.md R151, R152). -/
theorem rawget_ahead_cons {c : Byte} {bs : List Byte} {s : State} (h : Ahead (c :: bs) s) :
    ∃ p b, rawget s = (some c, s.reading p b s.grp s.ring) ∧ Ahead bs (s.reading p b s.grp s.ring) := by
  obtain ⟨hs, hb, hdrop⟩ := h
  obtain ⟨hbyte, hb', hpos, -⟩ := rawget_bufferOk s hs hb
  have hc : (rawget s).1 = some c := by
    rw [hbyte, read_of_streamOk hs, ← List.head?_drop, hdrop]
    rfl
  refine ⟨_, _, Prod.ext hc (rawget_reading s), ?_⟩
  rw [← rawget_reading]
  refine ⟨rawget_streamOk hs, hb', ?_⟩
  have hstream : (rawget s).2.stream = s.stream := by rw [rawget_frame s]
  rw [hpos, hc, hstream, Option.isSome_some, if_pos rfl, ← List.drop_drop, hdrop]
  rfl

/-- RAWGET at the end of the stream (R151, R152). -/
theorem rawget_ahead_nil {s : State} (h : Ahead [] s) :
    ∃ p b, rawget s = (none, s.reading p b s.grp s.ring) := by
  obtain ⟨hs, hb, hdrop⟩ := h
  obtain ⟨hbyte, -, -, -⟩ := rawget_bufferOk s hs hb
  have hc : (rawget s).1 = none := by
    rw [hbyte, read_of_streamOk hs, ← List.head?_drop, hdrop]
    rfl
  exact ⟨_, _, Prod.ext hc (rawget_reading s)⟩

/-! One sextet. -/

/-- Line ends that stand ahead are passed over (R161). -/
theorem sextet_skips {ls bs : List Byte} {s : State} {n : Nat} (hls : ∀ c ∈ ls, charClass c = .skip)
    (h : Ahead (ls ++ bs) s) (hn : (ls ++ bs).length < n) :
    ∃ m p b, sextet n s = sextet (m + 1) (s.reading p b s.grp s.ring) ∧ Ahead bs (s.reading p b s.grp s.ring) := by
  induction ls generalizing s n with
  | nil =>
    obtain ⟨m, rfl⟩ := Nat.exists_eq_add_of_lt hn
    exact ⟨_, s.pos, s.buf, rfl, h⟩
  | cons l ls ih =>
    obtain ⟨hl, hls⟩ := List.forall_mem_cons.mp hls
    obtain ⟨k, rfl⟩ := Nat.exists_eq_succ_of_ne_zero (Nat.ne_zero_of_lt hn)
    obtain ⟨p, b, hget, ha⟩ := rawget_ahead_cons h
    obtain ⟨m, p', b', hs, ha'⟩ := ih hls ha (Nat.lt_of_succ_lt_succ hn)
    refine ⟨m, p', b', ?_, ha'⟩
    simp only [sextet, hget, hl]
    exact hs

/-- The characters of a payload before its end (30_encoding.md R106): line ends and alphabet characters. -/
def PayloadChar (c : Byte) : Prop := charClass c = .skip ∨ ∃ v, charClass c = .sextet v

/-- The sextets `vs` stand ahead, line ends between them, and then the bytes `rest`. -/
def SextetsAhead (vs : List Sextet) (rest : List Byte) (s : State) : Prop :=
  ∃ cs, (∀ c ∈ cs, PayloadChar c) ∧ sextetsOf cs = vs ∧ Ahead (cs ++ rest) s

theorem sextetsOf_skip {c : Byte} (h : charClass c = .skip) (cs : List Byte) : sextetsOf (c :: cs) = sextetsOf cs := by
  simp only [sextetsOf, h]

theorem sextetsOf_sextet {c : Byte} {v : Sextet} (h : charClass c = .sextet v) (cs : List Byte) :
    sextetsOf (c :: cs) = v :: sextetsOf cs := by
  simp only [sextetsOf, h]

/-- Payload characters without a sextet are line ends. -/
theorem skips_of_sextetsOf_nil {cs : List Byte} (hcs : ∀ c ∈ cs, PayloadChar c) (h : sextetsOf cs = []) :
    ∀ c ∈ cs, charClass c = .skip := by
  induction cs with
  | nil => exact nofun
  | cons c cs ih =>
    obtain ⟨hc, hcs⟩ := List.forall_mem_cons.mp hcs
    obtain hc | ⟨v, hc⟩ := hc
    · rw [sextetsOf_skip hc] at h
      exact List.forall_mem_cons.mpr ⟨hc, ih hcs h⟩
    · rw [sextetsOf_sextet hc] at h
      cases h

/-- The first sextet of payload characters stands after line ends. -/
theorem split_of_sextetsOf_cons {cs : List Byte} {v : Sextet} {vs : List Sextet} (hcs : ∀ c ∈ cs, PayloadChar c)
    (h : sextetsOf cs = v :: vs) :
    ∃ ls c r, cs = ls ++ c :: r ∧ (∀ l ∈ ls, charClass l = .skip) ∧ charClass c = .sextet v
      ∧ (∀ l ∈ r, PayloadChar l) ∧ sextetsOf r = vs := by
  induction cs with
  | nil => cases h
  | cons c cs ih =>
    obtain ⟨hc, hcs⟩ := List.forall_mem_cons.mp hcs
    obtain hc | ⟨w, hc⟩ := hc
    · rw [sextetsOf_skip hc] at h
      obtain ⟨ls, d, r, rfl, hls, hrest⟩ := ih hcs h
      exact ⟨c :: ls, d, r, rfl, List.forall_mem_cons.mpr ⟨hc, hls⟩, hrest⟩
    · rw [sextetsOf_sextet hc] at h
      obtain ⟨rfl, hvs⟩ := List.cons.inj h
      exact ⟨[], c, cs, rfl, nofun, hc, hcs, hvs⟩

/-- SEXTET with a sextet ahead (R161). -/
theorem sextet_ahead_cons {v : Sextet} {vs : List Sextet} {rest : List Byte} {s : State}
    (h : SextetsAhead (v :: vs) rest s) :
    ∃ p b, sextet (streamFuel s) s = .ok (some v) (s.reading p b s.grp s.ring)
      ∧ SextetsAhead vs rest (s.reading p b s.grp s.ring) := by
  obtain ⟨cs, hcs, hvs, ha⟩ := h
  obtain ⟨ls, c, r, rfl, hls, hc, hr, hrs⟩ := split_of_sextetsOf_cons hcs hvs
  rw [List.append_assoc] at ha
  obtain ⟨m, p, b, hskip, ha⟩ := sextet_skips hls ha ha.length_lt_streamFuel
  obtain ⟨p', b', hget, ha⟩ := rawget_ahead_cons ha
  refine ⟨p', b', ?_, r, hr, hrs, ha⟩
  rw [hskip]
  simp only [sextet, hget, hc]
  rfl

/-- Where the payload ends (R161): at a terminator or with the stream. -/
def EndsPayload (rest : List Byte) : Prop := rest = [] ∨ ∃ r, rest = 0x3A :: r

/-- SEXTET with no sextet ahead of the end (R161). -/
theorem sextet_ahead_end {rest : List Byte} {s : State} (h : SextetsAhead [] rest s) (hend : EndsPayload rest) :
    ∃ p b, sextet (streamFuel s) s = .ok none (s.reading p b s.grp s.ring) := by
  obtain ⟨cs, hcs, hvs, ha⟩ := h
  obtain ⟨m, p, b, hskip, ha⟩ := sextet_skips (skips_of_sextetsOf_nil hcs hvs) ha ha.length_lt_streamFuel
  obtain rfl | ⟨r, rfl⟩ := hend
  · obtain ⟨p', b', hget⟩ := rawget_ahead_nil ha
    refine ⟨p', b', ?_⟩
    rw [hskip]
    simp only [sextet, hget]
    rfl
  · obtain ⟨p', b', hget, -⟩ := rawget_ahead_cons ha
    refine ⟨p', b', ?_⟩
    rw [hskip]
    simp only [sextet, hget, charClass_eq_term.mpr]
    rfl

/-- SEXTET with no sextet ahead of an INVALID character (R161), which is consumed. -/
theorem sextet_ahead_invalid {c : Byte} {rest : List Byte} {s : State} (h : SextetsAhead [] (c :: rest) s)
    (hc : charClass c = .invalid) :
    ∃ p b, sextet (streamFuel s) s = .stop (fatal .badChar 0 (c.setWidth 32) (s.reading p b s.grp s.ring))
      ∧ Ahead rest (s.reading p b s.grp s.ring) := by
  obtain ⟨cs, hcs, hvs, ha⟩ := h
  obtain ⟨m, p, b, hskip, ha⟩ := sextet_skips (skips_of_sextetsOf_nil hcs hvs) ha ha.length_lt_streamFuel
  obtain ⟨p', b', hget, ha⟩ := rawget_ahead_cons ha
  refine ⟨p', b', ?_, ha⟩
  rw [hskip]
  simp only [sextet, hget, hc]
  rfl

/-! One group. -/

/-- The loop of FILLRING over sextets that stand ahead (R163): they join the group. -/
theorem collect_ahead {vs ws : List Sextet} {rest : List Byte} {s : State} (n : Nat)
    (h : SextetsAhead (vs ++ ws) rest s) :
    ∃ p b, collect (vs.length + n) s = collect n (s.reading p b (s.grp ++ vs) s.ring)
      ∧ SextetsAhead ws rest (s.reading p b (s.grp ++ vs) s.ring) := by
  induction vs generalizing s with
  | nil =>
    rw [List.append_nil, List.length_nil, Nat.zero_add]
    exact ⟨s.pos, s.buf, rfl, h⟩
  | cons v vs ih =>
    obtain ⟨p, b, hsextet, ha⟩ := sextet_ahead_cons h
    obtain ⟨p', b', hcollect, ha'⟩ := ih (s := pushSextet v (s.reading p b s.grp s.ring)) ha
    have hgrp : (pushSextet v (s.reading p b s.grp s.ring)).grp ++ vs = s.grp ++ v :: vs := List.append_cons _ _ _ |>.symm
    rw [hgrp] at hcollect ha'
    refine ⟨p', b', ?_, ha'⟩
    rw [List.length_cons, Nat.succ_add, collect, hsextet]
    exact hcollect

/-- The ring after a group of four sextets (R163), read up to `rd`. -/
def groupRing (s0 s1 s2 s3 : Sextet) (cnt rd : BitVec 2) : Ring :=
  { b0 := (pack s0 s1 s2 s3).1, b1 := (pack s0 s1 s2 s3).2.1, b2 := (pack s0 s1 s2 s3).2.2, cnt := cnt, rd := rd }

/-- FILLRING over sextets that stand ahead, up to the last `n` of its four (R163). -/
theorem fillring_ahead {vs ws : List Sextet} {rest : List Byte} {s : State} {n : Nat} (hn : vs.length + n = 4)
    (h : SextetsAhead (vs ++ ws) rest s) :
    ∃ p b, fillring s = (collect n (s.reading p b vs s.ring)).bind (fun _ u => .ok () (packRead u))
      ∧ ∀ g r, SextetsAhead ws rest (s.reading p b g r) := by
  obtain ⟨p, b, hcollect, ha⟩ := collect_ahead (s := s.reading s.pos s.buf [] s.ring) n h
  refine ⟨p, b, ?_, fun _ _ => ha⟩
  rw [hn] at hcollect
  exact congrArg (Res.bind · _) hcollect

/-- FILLRING over a whole group (R163). -/
theorem fillring_ahead_group {s0 s1 s2 s3 : Sextet} {vs : List Sextet} {rest : List Byte} {s : State}
    (h : SextetsAhead (s0 :: s1 :: s2 :: s3 :: vs) rest s) (hl : s.lend = false) :
    ∃ p b, fillring s = .ok () (s.reading p b [] (groupRing s0 s1 s2 s3 3 0))
      ∧ ∀ g r, SextetsAhead vs rest (s.reading p b g r) := by
  obtain ⟨p, b, hfill, ha⟩ := fillring_ahead (vs := [s0, s1, s2, s3]) (n := 0) rfl h
  refine ⟨p, b, ?_, ha⟩
  have hpack : packRead (s.reading p b [s0, s1, s2, s3] s.ring) = s.reading p b [] (groupRing s0 s1 s2 s3 3 0) := by
    simp only [packRead, packGroup, State.reading, hl]
    rfl
  rw [← hpack]
  exact hfill

/-- FILLRING over the group the end of the payload cuts short (R163): LEND is set, and the ring has the bytes of the sextets
there are. -/
theorem fillring_ahead_end {vs : List Sextet} {rest : List Byte} {s : State} (h : SextetsAhead vs rest s)
    (hlen : vs.length < 4) (hend : EndsPayload rest) :
    ∃ u, fillring s = .ok () u ∧ u.lend = true
      ∧ u.ring = groupRing (vs.getD 0 0) (vs.getD 1 0) (vs.getD 2 0) (vs.getD 3 0) (ringCount vs.length) 0 := by
  obtain ⟨k, hk⟩ := Nat.exists_eq_add_of_lt hlen
  rw [← List.append_nil vs] at h
  obtain ⟨p, b, hfill, ha⟩ := fillring_ahead (n := k + 1) hk.symm h
  obtain ⟨p', b', hnone⟩ := sextet_ahead_end (ha vs s.ring) hend
  rw [collect, hnone] at hfill
  exact ⟨_, hfill, rfl, rfl⟩

/-- FILLRING over the group an INVALID character breaks (R161, R163). -/
theorem fillring_ahead_invalid {vs : List Sextet} {c : Byte} {rest : List Byte} {s : State}
    (h : SextetsAhead vs (c :: rest) s) (hlen : vs.length < 4) (hc : charClass c = .invalid) :
    ∃ p b, fillring s = .stop (fatal .badChar 0 (c.setWidth 32) (s.reading p b vs s.ring))
      ∧ Ahead rest (s.reading p b vs s.ring) := by
  obtain ⟨k, hk⟩ := Nat.exists_eq_add_of_lt hlen
  rw [← List.append_nil vs] at h
  obtain ⟨p, b, hfill, ha⟩ := fillring_ahead (n := k + 1) hk.symm h
  obtain ⟨p', b', hstop, ha'⟩ := sextet_ahead_invalid (ha vs s.ring) hc
  rw [collect, hstop] at hfill
  exact ⟨p', b', hfill, ha'⟩

/-! Raw bytes. -/

/-- RAWBYTE with an empty ring, before the end: FILLRING first (R165). -/
theorem rawbyte_of_empty {s : State} (hr : s.ring.cnt ≤ s.ring.rd) (hl : s.lend = false) :
    rawbyte s = (fillring s).bind fun _ u => if u.ring.cnt = 0 then raise .streamEnd 1 0 u else takeRing u := by
  rw [rawbyte, if_pos hr, hl]
  rfl

/-- RAWBYTE with an empty ring, after the end (R165). -/
theorem rawbyte_of_end {s : State} (hr : s.ring.cnt ≤ s.ring.rd) (hl : s.lend = true) :
    rawbyte s = .stop (fatal .streamEnd 1 0 s) := by
  rw [rawbyte, if_pos hr, hl]
  rfl

/-- RAWBYTE with a byte in the ring (R165). -/
theorem rawbyte_of_ring {s : State} (hr : s.ring.rd < s.ring.cnt) : rawbyte s = takeRing s := by
  rw [rawbyte, if_neg (BitVec.not_le.mpr hr)]

/-- The three bytes of the ring, in order (10_state.md R26). -/
def Ring.bytes (r : Ring) : List Byte := [r.b0, r.b1, r.b2]

theorem ringByte_cons_drop {r : Ring} (h : r.rd.toNat < 3) :
    r.bytes.drop r.rd.toNat = ringByte r :: r.bytes.drop (r.rd.toNat + 1) := by
  obtain ⟨b0, b1, b2, cnt, rd⟩ := r
  obtain rfl | rfl | rfl : rd = 0 ∨ rd = 1 ∨ rd = 2 := by bv_omega
  all_goals rfl

/-- The ring read up to an index. -/
def State.readTo (k : BitVec 2) (s : State) : State := { s with ring := { s.ring with rd := k } }

theorem takeRing_eq (s : State) : takeRing s = .ok (ringByte s.ring) (s.readTo (s.ring.rd + 1)) := rfl

/-- Calls that hand out bytes of the ring, in order (R165). -/
theorem calls_rawbyte_ring {s : State} {n : Nat} (h : s.ring.rd.toNat + n ≤ s.ring.cnt.toNat) :
    calls rawbyte n s
      = .ok ((s.ring.bytes.drop s.ring.rd.toNat).take n) (s.readTo (s.ring.rd + BitVec.ofNat 2 n)) := by
  induction n generalizing s with
  | zero =>
    rw [BitVec.add_zero]
    rfl
  | succ n ih =>
    have hcnt := s.ring.cnt.isLt
    have hrd : (s.ring.rd + 1).toNat = s.ring.rd.toNat + 1 := by bv_omega
    have hlt : s.ring.rd < s.ring.cnt := by bv_omega
    have hsum : s.ring.rd + 1 + BitVec.ofNat 2 n = s.ring.rd + BitVec.ofNat 2 (n + 1) := by
      rw [BitVec.ofNat_add, BitVec.add_assoc, BitVec.add_comm 1]
      rfl
    have hle : (s.readTo (s.ring.rd + 1)).ring.rd.toNat + n ≤ s.ring.cnt.toNat := by
      show (s.ring.rd + 1).toNat + n ≤ s.ring.cnt.toNat
      omega
    have hnext : calls rawbyte n (s.readTo (s.ring.rd + 1))
        = .ok ((s.ring.bytes.drop (s.ring.rd + 1).toNat).take n) (s.readTo (s.ring.rd + 1 + BitVec.ofNat 2 n)) := ih hle
    rw [calls, rawbyte_of_ring hlt, takeRing_eq, Res.bind_ok, hnext, Res.bind_ok, hsum, hrd,
      ringByte_cons_drop (by omega), List.take_succ_cons]

/-- Once FILLRING has put bytes into an empty ring, calls in a row hand them out (R165). -/
theorem calls_of_fillring {s u : State} (hr : s.ring.cnt ≤ s.ring.rd) (hl : s.lend = false) (h : fillring s = .ok () u)
    (hrd : u.ring.rd = 0#2) (hne : u.ring.cnt ≠ 0) :
    calls rawbyte u.ring.cnt.toNat s = .ok (u.ring.bytes.take u.ring.cnt.toNat) (u.readTo u.ring.cnt) := by
  have hlt : u.ring.rd < u.ring.cnt := by
    rw [hrd]
    bv_omega
  have hfirst : rawbyte s = rawbyte u := by
    rw [rawbyte_of_empty hr hl, h, Res.bind_ok, if_neg hne, rawbyte_of_ring hlt]
  have hsame : calls rawbyte u.ring.cnt.toNat s = calls rawbyte u.ring.cnt.toNat u := by
    obtain ⟨k, hk⟩ := Nat.exists_eq_succ_of_ne_zero fun h0 => hne (BitVec.eq_of_toNat_eq h0)
    rw [hk]
    simp only [calls, hfirst]
  have hring := calls_rawbyte_ring (s := u) (n := u.ring.cnt.toNat) (by rw [hrd]; exact Nat.le_of_eq (Nat.zero_add _))
  rw [hrd, BitVec.ofNat_toNat, BitVec.setWidth_eq, BitVec.zero_add] at hring
  exact hsame.trans hring

/-- Calls in a row after calls in a row. -/
theorem calls_of_append {op : State → Res Byte} {xs ys : List Byte} {s t u : State}
    (hx : calls op xs.length s = .ok xs t) (hy : calls op ys.length t = .ok ys u) :
    calls op (xs ++ ys).length s = .ok (xs ++ ys) u := by
  induction xs generalizing s with
  | nil =>
    cases hx
    exact hy
  | cons x xs ih =>
    rw [List.length_cons, calls] at hx
    obtain ⟨b, v, hop, hrest⟩ := Res.bind_eq_ok.mp hx
    obtain ⟨r, w, hr, hw⟩ := Res.bind_eq_ok.mp hrest
    cases hw
    rw [List.cons_append, List.length_cons, calls, hop, Res.bind_ok, ih hr]
    rfl

/-- The calls over one whole group: its three bytes, and the ring is empty again (R165). -/
theorem calls_group {s0 s1 s2 s3 : Sextet} {vs : List Sextet} {rest : List Byte} {s : State}
    (h : SextetsAhead (s0 :: s1 :: s2 :: s3 :: vs) rest s) (hr : s.ring.cnt ≤ s.ring.rd) (hl : s.lend = false) :
    ∃ p b, calls rawbyte 3 s = .ok (groupRing s0 s1 s2 s3 3 0).bytes (s.reading p b [] (groupRing s0 s1 s2 s3 3 3))
      ∧ SextetsAhead vs rest (s.reading p b [] (groupRing s0 s1 s2 s3 3 3)) := by
  obtain ⟨p, b, hfill, ha⟩ := fillring_ahead_group h hl
  exact ⟨p, b, calls_of_fillring hr hl hfill rfl (by decide : (3 : BitVec 2) ≠ 0), ha _ _⟩

/-- The calls over whole groups (R167 (b)): their raw bytes, and the ring is empty again. -/
theorem calls_groups (vs : List Sextet) (rest : List Byte) :
    ∀ (ws : List Sextet) (s : State), ws.length % 4 = 0 → SextetsAhead (ws ++ vs) rest s → s.ring.cnt ≤ s.ring.rd →
      s.lend = false →
      ∃ p b g r, calls rawbyte (rawOf ws).length s = .ok (rawOf ws) (s.reading p b g r) ∧ r.cnt ≤ r.rd
        ∧ SextetsAhead vs rest (s.reading p b g r)
  | [], s, _, h, hr, _ => ⟨s.pos, s.buf, s.grp, s.ring, rfl, hr, h⟩
  | [_], _, hw, _, _, _ => absurd hw (by simp)
  | [_, _], _, hw, _, _, _ => absurd hw (by simp)
  | [_, _, _], _, hw, _, _, _ => absurd hw (by simp)
  | s0 :: s1 :: s2 :: s3 :: ws, s, hw, h, hr, hl => by
    have hw' : ws.length % 4 = 0 := by
      simp only [List.length_cons] at hw
      omega
    obtain ⟨p, b, hcalls, ha⟩ := calls_group h hr hl
    obtain ⟨p', b', g, r, hcalls', hr', ha'⟩ := calls_groups vs rest ws _ hw' ha (BitVec.le_refl _) hl
    exact ⟨p', b', g, r, calls_of_append (xs := (groupRing s0 s1 s2 s3 3 0).bytes) hcalls hcalls', hr', ha'⟩

/-- The raw bytes of a group cut short are the first of its three, as many as the ring counts (R163). -/
theorem rawOf_short {vs : List Sextet} (h : vs.length < 4) :
    rawOf vs = (groupRing (vs.getD 0 0) (vs.getD 1 0) (vs.getD 2 0) (vs.getD 3 0) (ringCount vs.length) 0).bytes.take
      (ringCount vs.length).toNat := by
  match vs, h with
  | [], _ => rfl
  | [_], _ => rfl
  | [_, _], _ => rfl
  | [_, _, _], _ => rfl

/-- The calls over the group the end of the payload cuts short (R163, R165), and the call after them (R167 (c)). -/
theorem calls_end {vs : List Sextet} {rest : List Byte} {s : State} (h : SextetsAhead vs rest s) (hlen : vs.length < 4)
    (hend : EndsPayload rest) (hr : s.ring.cnt ≤ s.ring.rd) (hl : s.lend = false) :
    ∃ t u, calls rawbyte (rawOf vs).length s = .ok (rawOf vs) t ∧ rawbyte t = .stop (fatal .streamEnd 1 0 u) := by
  obtain ⟨u, hfill, hlend, hring⟩ := fillring_ahead_end h hlen hend
  have hrd : u.ring.rd = 0#2 := by rw [hring]; rfl
  have hcnt : ringCount vs.length = u.ring.cnt := by rw [hring]; rfl
  have hraw : rawOf vs = u.ring.bytes.take u.ring.cnt.toNat := by rw [rawOf_short hlen, ← hring, hcnt]
  have hlt := u.ring.cnt.isLt
  have hn : (rawOf vs).length = u.ring.cnt.toNat := by
    rw [hraw, List.length_take]
    exact Nat.min_eq_left (Nat.le_of_lt_succ hlt)
  by_cases hz : u.ring.cnt = 0
  case pos =>
    have hnil : rawOf vs = [] := List.eq_nil_of_length_eq_zero (by rw [hn, hz]; rfl)
    refine ⟨s, u, by rw [hnil]; rfl, ?_⟩
    rw [rawbyte_of_empty hr hl, hfill, Res.bind_ok, if_pos hz, raise_eq]
  case neg =>
    refine ⟨u.readTo u.ring.cnt, _, ?_, rawbyte_of_end (BitVec.le_refl _) hlend⟩
    rw [hn, hraw]
    exact calls_of_fillring hr hl hfill hrd hz

/-- The call over a group an INVALID character breaks (R161, R165). -/
theorem rawbyte_invalid {vs : List Sextet} {c : Byte} {rest : List Byte} {s : State} (h : SextetsAhead vs (c :: rest) s)
    (hlen : vs.length < 4) (hc : charClass c = .invalid) (hr : s.ring.cnt ≤ s.ring.rd) (hl : s.lend = false) :
    ∃ p b, rawbyte s = .stop (fatal .badChar 0 (c.setWidth 32) (s.reading p b vs s.ring))
      ∧ Ahead rest (s.reading p b vs s.ring) := by
  obtain ⟨p, b, hfill, ha⟩ := fillring_ahead_invalid h hlen hc
  refine ⟨p, b, ?_, ha⟩
  rw [rawbyte_of_empty hr hl, hfill, Res.bind_stop]

/-! The whole payload. -/

/-- Whole groups and a rest of fewer than four sextets (R163). -/
theorem take_groups_length (v : List Sextet) : (v.take (v.length / 4 * 4)).length % 4 = 0 := by
  rw [List.length_take]
  omega

theorem drop_groups_length (v : List Sextet) : (v.drop (v.length / 4 * 4)).length < 4 := by
  rw [List.length_drop]
  omega

/-- The raw bytes of whole groups come before those of the sextets after them. -/
theorem rawOf_append (vs : List Sextet) : ∀ ws : List Sextet, ws.length % 4 = 0 → rawOf (ws ++ vs) = rawOf ws ++ rawOf vs
  | [], _ => rfl
  | [_], hw => absurd hw (by simp)
  | [_, _], hw => absurd hw (by simp)
  | [_, _, _], hw => absurd hw (by simp)
  | s0 :: s1 :: s2 :: s3 :: ws, hw => by
    have hw' : ws.length % 4 = 0 := by
      simp only [List.length_cons] at hw
      omega
    simp only [List.cons_append, rawOf_group, rawOf_append vs ws hw']

theorem sextetsAhead_groups {v : List Sextet} {rest : List Byte} {s : State} (h : SextetsAhead v rest s) :
    SextetsAhead (v.take (v.length / 4 * 4) ++ v.drop (v.length / 4 * 4)) rest s := by
  rw [List.take_append_drop]
  exact h

/-- A payload up to its end (R167 (b), (c)). -/
theorem calls_payload {v : List Sextet} {rest : List Byte} {s : State} (h : SextetsAhead v rest s)
    (hend : EndsPayload rest) (hr : s.ring.cnt ≤ s.ring.rd) (hl : s.lend = false) :
    ∃ t u, calls rawbyte (rawOf v).length s = .ok (rawOf v) t ∧ rawbyte t = .stop (fatal .streamEnd 1 0 u) := by
  have hw := take_groups_length v
  obtain ⟨p, b, g, r, hcalls, hr', ha⟩ := calls_groups _ rest _ s hw (sextetsAhead_groups h) hr hl
  obtain ⟨t, u, hcalls', hstop⟩ := calls_end ha (drop_groups_length v) hend hr' hl
  have hall := calls_of_append hcalls hcalls'
  rw [← rawOf_append _ _ hw, List.take_append_drop] at hall
  exact ⟨t, u, hall, hstop⟩

/-- A payload up to an INVALID character (R161, R163, R165): the whole groups before it, then `BAD_CHAR`. -/
theorem calls_payload_invalid {v : List Sextet} {c : Byte} {rest : List Byte} {s : State}
    (h : SextetsAhead v (c :: rest) s) (hc : charClass c = .invalid) (hr : s.ring.cnt ≤ s.ring.rd)
    (hl : s.lend = false) :
    ∃ p b g r p' b' g', calls rawbyte (rawOf (v.take (v.length / 4 * 4))).length s
          = .ok (rawOf (v.take (v.length / 4 * 4))) (s.reading p b g r)
        ∧ rawbyte (s.reading p b g r) = .stop (fatal .badChar 0 (c.setWidth 32) (s.reading p' b' g' r))
        ∧ Ahead rest (s.reading p' b' g' r) := by
  obtain ⟨p, b, g, r, hcalls, hr', ha⟩ := calls_groups _ _ _ s (take_groups_length v) (sextetsAhead_groups h) hr hl
  obtain ⟨p', b', hstop, ha'⟩ := rawbyte_invalid ha (drop_groups_length v) hc hr' hl
  exact ⟨p, b, g, r, p', b', _, hcalls, hstop, ha'⟩

/-- POS after bytes ahead were consumed, by their number. -/
theorem Ahead.pos_eq_add {bs rest : List Byte} {s u : State} (hs : Ahead (bs ++ rest) s) (hu : Ahead rest u)
    (hstream : u.stream = s.stream) : u.pos = s.pos + BitVec.ofNat 64 bs.length := by
  have h1 := hs.pos_add_length
  have h2 := hu.pos_add_length
  have hlen : slen s < 2 ^ 63 := hs.1.2
  have hslen : slen u = slen s := congrArg List.length hstream
  rw [List.length_append] at h1
  refine BitVec.eq_of_toNat_eq ?_
  rw [BitVec.toNat_add, BitVec.toNat_ofNat]
  omega

/-- Settles O36: the number and the bits of the raw bytes group by group; the calls by whole groups and then the group the
end cuts short or the INVALID character breaks. -/
theorem payloadRawBytes : Obligations.PayloadRawBytes := by
  unfold Obligations.PayloadRawBytes
  refine ⟨rawOf_length, rawOf_getMsbD, fun s cs hs hb hr hl hcs => ⟨?ends, ?invalid⟩⟩
  case ends =>
    rintro (hdrop | ⟨rest, hdrop⟩)
    · exact calls_payload ⟨cs, hcs, rfl, hs, hb, hdrop.trans (List.append_nil cs).symm⟩ (.inl rfl) hr hl
    · exact calls_payload ⟨cs, hcs, rfl, hs, hb, hdrop⟩ (.inr ⟨rest, rfl⟩) hr hl
  case invalid =>
    rintro c rest whole hc hdrop rfl
    have ha : Ahead (cs ++ c :: rest) s := ⟨hs, hb, hdrop⟩
    obtain ⟨p, b, g, r, p', b', g', hcalls, hstop, ha'⟩ := calls_payload_invalid ⟨cs, hcs, rfl, ha⟩ hc hr hl
    refine ⟨_, _, hcalls, hstop, ?_⟩
    rw [List.append_cons] at ha
    have hpos : p' = s.pos + BitVec.ofNat 64 (cs ++ [c]).length := ha.pos_eq_add ha' rfl
    rw [List.length_append, List.length_singleton] at hpos
    rw [← hpos]
    rfl

end Sys2Proof.Machine
end

section
/-! SUPPORT. The run-length decoder (43_run_length.md R171 to R173, R177): one call of DECBYTE by what is pending and by the
raw bytes; a run of pending copies; that RAWBYTE does not look at the repeat registers; and so, by induction over what an
encoder wrote, that DECBYTE gives the bytes back. -/

namespace Sys2Proof.Machine

theorem copiesPending_eq_true {n : BitVec 16} : copiesPending n = true ↔ 0 < n.toInt := by
  simp [copiesPending]

theorem copiesPending_eq_false {n : BitVec 16} : copiesPending n = false ↔ n.toInt ≤ 0 := by
  simp [copiesPending]

/-! The pairs. -/

/-- The count of a run as a natural number (R176): no subtraction below zero. -/
theorem startRun_eq {n : Byte} (h : 2 ≤ n.toNat) (s : State) :
    startRun n s = .ok s.rptChar { s with rptCnt := BitVec.ofNat 16 (n.toNat - 2) } := by
  have hcount : (n.toNat : Int) - 2 = ((n.toNat - 2 : Nat) : Int) := by omega
  rw [startRun, hcount, BitVec.ofInt_natCast]

section
variable {s : State}

theorem countOne_emitOne (h : s.par.count1 = .emitOne) : countOne s = .ok (some s.rptChar) { s with rptCnt := -1 } := by
  rw [countOne, h]
  rfl

theorem countOne_emitZero (h : s.par.count1 = .emitZero) : countOne s = .ok none { s with rptCnt := 0 } := by
  rw [countOne, h]

theorem countOne_fault (h : s.par.count1 = .fault) : countOne s = .stop (fatal .rleCount1 2 1 s) := by
  rw [countOne, h]
  rfl

end

/-- Settles O37: each row delivers the byte of its unit's operation, a count of 1 by the mode. -/
theorem runLengthRows : Obligations.RunLengthRows := by
  unfold Obligations.RunLengthRows
  intro b n s
  refine ⟨rfl, rfl, fun hn => ?run, fun h => ?emitOne, fun h => ?emitZero, fun h => ?fault⟩
  case run =>
    show finish (deliver (startRun n s)) = _
    rw [startRun_eq hn]
    rfl
  case emitOne =>
    show finish (deliverSome (countOne s)) = _
    rw [countOne_emitOne h]
    rfl
  case emitZero =>
    have hnone : s.dbuf ++ (none : Option Byte).toList = s.dbuf := List.append_nil _
    show finish (deliverSome (countOne s)) = _
    rw [countOne_emitZero h, deliverSome, Res.bind_ok, finish_ok, hnone]
  case fault =>
    show finish (deliverSome (countOne s)) = _
    rw [countOne_fault h]
    rfl

/-- What DECBYTE does with the second byte of a pair; `k` bounds the turns left to its loop (R171, R172). -/
def pairByte (k : Nat) (n : Byte) (s : State) : Res Byte :=
  if n = 0 then markLiteral s
  else if n = 1 then
    (countOne s).bind fun r u =>
      match r with
      | some c => .ok c u
      | none => decbyteLoop k u
  else startRun n s

/-- What it does with a first byte (R171). -/
def firstByte (k : Nat) (b : Byte) (s : State) : Res Byte :=
  if b ≠ rleMark then literalByte b s else (rawbyte s).bind (pairByte k)

theorem pairByte_run {n : Byte} (h : 2 ≤ n.toNat) (k : Nat) (s : State) : pairByte k n s = startRun n s := by
  have h0 : n ≠ 0 := by
    rintro rfl
    exact absurd h (by decide)
  have h1 : n ≠ 1 := by
    rintro rfl
    exact absurd h (by decide)
  rw [pairByte, if_neg h0, if_neg h1]

theorem firstByte_literal {b : Byte} (h : b ≠ rleMark) (k : Nat) (s : State) : firstByte k b s = literalByte b s :=
  if_pos h

theorem firstByte_mark (k : Nat) (s : State) : firstByte k rleMark s = (rawbyte s).bind (pairByte k) :=
  if_neg (not_not_intro rfl)

/-! One call of DECBYTE. -/

section
variable {s t u : State} {b n : Byte}

theorem decbyte_pending (hp : copiesPending s.rptCnt = true) : decbyte s = pendingCopy s := by
  rw [decbyte, decbyteLoop, if_pos hp]

theorem decbyte_reads (hp : copiesPending s.rptCnt = false) :
    decbyte s = (rawbyte s).bind (firstByte (streamFuel s + 2)) := by
  rw [decbyte, decbyteLoop, if_neg (Bool.eq_false_iff.mp hp)]
  rfl

theorem decbyte_literal (hp : copiesPending s.rptCnt = false) (ht : rawbyte s = .ok b t) (hb : b ≠ rleMark) :
    decbyte s = literalByte b t := by
  rw [decbyte_reads hp, ht, Res.bind_ok, firstByte_literal hb]

theorem decbyte_stop (hp : copiesPending s.rptCnt = false) (ht : rawbyte s = .stop t) : decbyte s = .stop t := by
  rw [decbyte_reads hp, ht, Res.bind_stop]

theorem decbyte_mark (hp : copiesPending s.rptCnt = false) (ht : rawbyte s = .ok rleMark t) :
    decbyte s = (rawbyte t).bind (pairByte (streamFuel s + 2)) := by
  rw [decbyte_reads hp, ht, Res.bind_ok, firstByte_mark]

theorem decbyte_mark_stop (hp : copiesPending s.rptCnt = false) (ht : rawbyte s = .ok rleMark t)
    (hu : rawbyte t = .stop u) : decbyte s = .stop u := by
  rw [decbyte_mark hp ht, hu, Res.bind_stop]

theorem decbyte_pair (hp : copiesPending s.rptCnt = false) (ht : rawbyte s = .ok rleMark t) (hu : rawbyte t = .ok n u) :
    decbyte s = pairByte (streamFuel s + 2) n u := by
  rw [decbyte_mark hp ht, hu, Res.bind_ok]

theorem decbyte_run (hp : copiesPending s.rptCnt = false) (ht : rawbyte s = .ok rleMark t) (hu : rawbyte t = .ok n u)
    (hn : 2 ≤ n.toNat) : decbyte s = .ok u.rptChar { u with rptCnt := BitVec.ofNat 16 (n.toNat - 2) } := by
  rw [decbyte_pair hp ht hu, pairByte_run hn, startRun_eq hn]

/-- The parameters are no state: RAWBYTE leaves them (00_scope.md R9). -/
theorem rawbyte_par (h : rawbyte s = .ok b t) : t.par = s.par := by
  have hframe := rawbyte_does s
  rw [h, stackDoes, Res.meets_ok, stackFrame] at hframe
  rw [hframe]

/-- The restart of `EMIT_ZERO` (R172) is a call of DECBYTE of its own: its bound is still above the raw bytes left. -/
theorem decbyteLoop_restart (hs : streamOk s) (ht : rawbyte s = .ok b t) (hu : rawbyte t = .ok n u) :
    decbyteLoop (streamFuel s + 2) { u with rptCnt := 0 } = decbyte { u with rptCnt := 0 } := by
  have hst := rawbyte_bytesLeft hs
  rw [ht, Res.meets_ok] at hst
  obtain ⟨hsT, hltT⟩ := hst
  have hsu := rawbyte_bytesLeft hsT
  rw [hu, Res.meets_ok] at hsu
  obtain ⟨hsU, hltU⟩ := hsu
  have hs_lt := bytesLeft_lt s
  have hleft : bytesLeft { u with rptCnt := 0 } = bytesLeft u := rfl
  exact decbyteLoop_bound (s := { u with rptCnt := 0 }) hsU (by omega) (bytesLeft_lt _)

end

/-- Settles O38: one lemma for each way a call can go. -/
theorem decbyteReads : Obligations.DecbyteReads := by
  unfold Obligations.DecbyteReads
  intro s t u b n
  simp only [← copiesPending_eq_true, ← copiesPending_eq_false]
  refine ⟨decbyte_pending, decbyte_literal, fun hp ht hu => ?mark, fun hp ht hu => ?countOne, decbyte_stop,
    decbyte_mark_stop, decbyte_run⟩
  case mark => exact decbyte_pair hp ht hu
  case countOne =>
    have hpar : u.par = s.par := (rawbyte_par hu).trans (rawbyte_par ht)
    rw [decbyte_pair hp ht hu, ← hpar]
    refine ⟨fun h => ?emitOne, fun h hs => ?emitZero, fun h => ?fault⟩
    case emitOne =>
      show (countOne u).bind _ = _
      rw [countOne_emitOne h]
      rfl
    case emitZero =>
      show (countOne u).bind _ = _
      rw [countOne_emitZero h]
      exact decbyteLoop_restart hs ht hu
    case fault =>
      show (countOne u).bind _ = _
      rw [countOne_fault h]
      rfl

/-! RAWBYTE and the repeat registers. -/

/-- A state with other values in RPT_CHAR and RPT_CNT (10_state.md R27). -/
def State.withRepeat (c : Byte) (n : BitVec 16) (s : State) : State := { s with rptChar := c, rptCnt := n }

section
variable (c : Byte) (n : BitVec 16)

@[simp] theorem State.withRepeat_rptCnt (s : State) : (s.withRepeat c n).rptCnt = n := rfl
@[simp] theorem State.withRepeat_buf (s : State) : (s.withRepeat c n).buf = s.buf := rfl
@[simp] theorem State.withRepeat_ring (s : State) : (s.withRepeat c n).ring = s.ring := rfl
@[simp] theorem State.withRepeat_lend (s : State) : (s.withRepeat c n).lend = s.lend := rfl

theorem refill_withRepeat (s : State) : refill (s.withRepeat c n) = (refill s).withRepeat c n := rfl

theorem takeBuf_withRepeat (s : State) :
    takeBuf (s.withRepeat c n) = ((takeBuf s).1, (takeBuf s).2.withRepeat c n) := rfl

theorem rawget_withRepeat (s : State) :
    rawget (s.withRepeat c n) = ((rawget s).1, (rawget s).2.withRepeat c n) := by
  rw [rawget_eq, rawget_eq, State.withRepeat_buf, refill_withRepeat, takeBuf_withRepeat, takeBuf_withRepeat,
    State.withRepeat_buf]
  split
  · split
    · rfl
    · split <;> rfl
  · rfl

theorem sextet_withRepeat (k : Nat) (s : State) :
    sextet k (s.withRepeat c n) = (sextet k s).onState (State.withRepeat c n) := by
  induction k generalizing s with
  | zero => rfl
  | succ k ih =>
    simp only [sextet, rawget_withRepeat]
    rcases rawget s with ⟨_ | d, u⟩
    · rfl
    · simp only
      cases charClass d with
      | skip => exact ih u
      | sextet v => rfl
      | term => rfl
      | invalid => rfl

theorem collect_withRepeat (k : Nat) (s : State) :
    collect k (s.withRepeat c n) = (collect k s).onState (State.withRepeat c n) := by
  induction k generalizing s with
  | zero => rfl
  | succ k ih =>
    have hfuel : streamFuel (s.withRepeat c n) = streamFuel s := rfl
    rw [collect, collect, hfuel, sextet_withRepeat]
    refine Res.onState_bind _ _ fun r u => ?_
    cases r with
    | none => rfl
    | some v => exact ih (pushSextet v u)

theorem fillring_withRepeat (s : State) :
    fillring (s.withRepeat c n) = (fillring s).onState (State.withRepeat c n) := by
  have hcollect := collect_withRepeat c n 4 { s with grp := [] }
  exact (congrArg (Res.bind · _) hcollect).trans (Res.onState_bind _ _ fun _ _ => rfl)

/-- RAWBYTE neither reads nor writes the repeat registers (42_sextet_unpacker.md R165). -/
theorem rawbyte_withRepeat (s : State) :
    rawbyte (s.withRepeat c n) = (rawbyte s).onState (State.withRepeat c n) := by
  rw [rawbyte, rawbyte, State.withRepeat_ring, State.withRepeat_lend, fillring_withRepeat]
  split
  · split
    · rfl
    · refine Res.onState_bind _ _ fun _ u => ?_
      rw [State.withRepeat_ring]
      split <;> rfl
  · rfl

end

section
variable {s t u : State} {b c m : Byte} {n : BitVec 16}

theorem rawbyte_ok_withRepeat (h : rawbyte s = .ok b t) (c : Byte) (n : BitVec 16) :
    rawbyte (s.withRepeat c n) = .ok b (t.withRepeat c n) := by
  rw [rawbyte_withRepeat, h]
  rfl

/-! Calls in a row over what an encoder wrote (R177). -/

/-- One call and then the rest. -/
theorem calls_cons {op : State → Res Byte} {xs : List Byte} (hb : op s = .ok b t) (hxs : calls op xs.length t = .ok xs u) :
    calls op (b :: xs).length s = .ok (b :: xs) u := by
  rw [List.length_cons, calls, hb, Res.bind_ok, hxs]
  rfl

theorem calls_cons_inv {op : State → Res Byte} {xs : List Byte} (h : calls op (b :: xs).length s = .ok (b :: xs) u) :
    ∃ t, op s = .ok b t ∧ calls op xs.length t = .ok xs u := by
  rw [List.length_cons, calls] at h
  obtain ⟨b', t, hb, hrest⟩ := Res.bind_eq_ok.mp h
  obtain ⟨xs', v, hxs, hv⟩ := Res.bind_eq_ok.mp hrest
  cases hv
  exact ⟨t, hb, hxs⟩

/-- The copies of a run still pending (R171): as many calls give the run's byte, with no raw byte read. -/
theorem calls_pending (s : State) (c : Byte) {k : Nat} (hk : k < 2 ^ 15) :
    calls decbyte (List.replicate k c).length (s.withRepeat c (BitVec.ofNat 16 k))
      = .ok (List.replicate k c) (s.withRepeat c 0) := by
  induction k with
  | zero => rfl
  | succ k ih =>
    have hp : copiesPending (s.withRepeat c (BitVec.ofNat 16 (k + 1))).rptCnt = true := by
      rw [State.withRepeat_rptCnt, copiesPending_eq_true, BitVec.toInt_ofNat', Int.bmod_eq_of_le (by omega) (by omega)]
      omega
    have hcnt : BitVec.ofNat 16 (k + 1) - 1 = BitVec.ofNat 16 k := by
      rw [BitVec.ofNat_add]
      exact BitVec.add_sub_cancel _ _
    have hone : decbyte (s.withRepeat c (BitVec.ofNat 16 (k + 1))) = .ok c (s.withRepeat c (BitVec.ofNat 16 k)) := by
      rw [decbyte_pending hp, pendingCopy, ← hcnt]
      rfl
    exact calls_cons hone (ih (by omega))

theorem decbyte_literal_withRepeat (hn : copiesPending n = false) (ht : rawbyte s = .ok b t) (hb : b ≠ rleMark) :
    decbyte (s.withRepeat c n) = .ok b (t.withRepeat b n) :=
  decbyte_literal (s := s.withRepeat c n) hn (rawbyte_ok_withRepeat ht c n) hb

theorem decbyte_mark_withRepeat (hn : copiesPending n = false) (ht : rawbyte s = .ok rleMark t)
    (hu : rawbyte t = .ok 0 u) : decbyte (s.withRepeat c n) = .ok rleMark (u.withRepeat rleMark n) :=
  decbyte_pair (s := s.withRepeat c n) hn (rawbyte_ok_withRepeat ht c n) (rawbyte_ok_withRepeat hu c n)

/-- A pair 90 `m` after a byte `c` (R171): the copies that make it a run of `m`. -/
theorem calls_run (hn : copiesPending n = false) (ht : rawbyte s = .ok rleMark t) (hu : rawbyte t = .ok m u)
    (hm : 2 ≤ m.toNat) :
    calls decbyte (List.replicate (m.toNat - 1) c).length (s.withRepeat c n)
      = .ok (List.replicate (m.toNat - 1) c) (u.withRepeat c 0) := by
  have hlt := m.isLt
  have hsub : m.toNat - 1 = m.toNat - 2 + 1 := by omega
  rw [hsub, List.replicate_succ]
  exact calls_cons
    (decbyte_run (s := s.withRepeat c n) hn (rawbyte_ok_withRepeat ht c n) (rawbyte_ok_withRepeat hu c n) hm)
    (calls_pending u c (by omega))

end

/-- DECBYTE in a row from `s`, with no copy pending and any RPT_CHAR, gives `x` and ends at `t` but for the repeat
registers, with no copy pending. -/
def Decodes (x : List Byte) (s t : State) : Prop :=
  ∀ c n, copiesPending n = false →
    ∃ c' n', calls decbyte x.length (s.withRepeat c n) = .ok x (t.withRepeat c' n') ∧ copiesPending n' = false

/-- Bytes decoded up to `u`, and more from there on. -/
theorem Decodes.append {x y : List Byte} {s u t : State} (hx : Decodes x s u) (hy : Decodes y u t) :
    Decodes (x ++ y) s t := by
  intro c n hn
  obtain ⟨c1, n1, hcalls, hn1⟩ := hx c n hn
  obtain ⟨c2, n2, hcalls', hn2⟩ := hy c1 n1 hn1
  exact ⟨c2, n2, calls_of_append hcalls hcalls', hn2⟩

section
variable {s t u v : State} {b m : Byte}

theorem decodes_literal (ht : rawbyte s = .ok b t) (hb : b ≠ rleMark) : Decodes [b] s t := fun _ n hn =>
  ⟨b, n, calls_cons (xs := []) (decbyte_literal_withRepeat hn ht hb) rfl, hn⟩

theorem decodes_mark (ht : rawbyte s = .ok rleMark t) (hu : rawbyte t = .ok 0 u) : Decodes [rleMark] s u := fun _ n hn =>
  ⟨rleMark, n, calls_cons (xs := []) (decbyte_mark_withRepeat hn ht hu) rfl, hn⟩

/-- A byte `b`, which is then RPT_CHAR, and a pair 90 `m`: `m` of it (R177). -/
theorem decodes_run (hb : ∀ c n, copiesPending n = false → decbyte (s.withRepeat c n) = .ok b (t.withRepeat b n))
    (hu : rawbyte t = .ok rleMark u) (hv : rawbyte u = .ok m v) (hm : 2 ≤ m.toNat) :
    Decodes (List.replicate m.toNat b) s v := by
  intro c n hn
  have hsucc : m.toNat = m.toNat - 1 + 1 := by omega
  rw [hsucc, List.replicate_succ]
  exact ⟨b, 0, calls_cons (hb c n hn) (calls_run hn hu hv hm), rfl⟩

end

/-- The encoder's rules one by one (R177): reading `e` raw, DECBYTE gives `x`. -/
theorem RleEnc.decodes {x e : List Byte} (h : RleEnc x e) :
    ∀ {s t : State}, calls rawbyte e.length s = .ok e t → Decodes x s t := by
  induction h with
  | nil =>
    intro s t he c n hn
    cases he
    exact ⟨c, n, rfl, hn⟩
  | literal v hv _ ih =>
    intro s t he
    obtain ⟨s1, h1, he⟩ := calls_cons_inv he
    exact (decodes_literal h1 hv).append (ih he)
  | mark _ ih =>
    intro s t he
    obtain ⟨s1, h1, he⟩ := calls_cons_inv he
    obtain ⟨s2, h2, he⟩ := calls_cons_inv he
    exact (decodes_mark h1 h2).append (ih he)
  | run v r hv hr _ ih =>
    intro s t he
    obtain ⟨s1, h1, he⟩ := calls_cons_inv he
    obtain ⟨s2, h2, he⟩ := calls_cons_inv he
    obtain ⟨s3, h3, he⟩ := calls_cons_inv he
    exact (decodes_run (fun _ _ hn => decbyte_literal_withRepeat hn h1 hv) h2 h3 hr).append (ih he)
  | markRun r hr _ ih =>
    intro s t he
    obtain ⟨s1, h1, he⟩ := calls_cons_inv he
    obtain ⟨s2, h2, he⟩ := calls_cons_inv he
    obtain ⟨s3, h3, he⟩ := calls_cons_inv he
    obtain ⟨s4, h4, he⟩ := calls_cons_inv he
    exact (decodes_run (fun _ _ hn => decbyte_mark_withRepeat hn h1 h2) h3 h4 hr).append (ih he)

/-- Settles O39: by induction over the encoding, whatever RPT_CHAR and RPT_CNT hold when no copy is pending. -/
theorem runLengthRoundTrip : Obligations.RunLengthRoundTrip := by
  unfold Obligations.RunLengthRoundTrip
  intro s t x e henc hp he
  obtain ⟨c, n, hcalls, hn⟩ := henc.decodes he s.rptChar s.rptCnt hp
  exact ⟨t.withRepeat c n, hcalls, rfl, hn⟩

end Sys2Proof.Machine
end

section
/-! SUPPORT. CRCUPD as arithmetic (44_crc16.md R181, R186): it is linear over exclusive or, it shifts its byte in where the
register's high byte is 0, and it loses nothing of the register. -/

namespace Sys2Proof.Machine

/-! One iteration. The shift with the bit that comes in is the library's `BitVec.shiftConcat`. -/

theorem shiftConcat_xor (c d : Half) (x y : Bool) :
    (c ^^^ d).shiftConcat (x ^^ y) = c.shiftConcat x ^^^ d.shiftConcat y := by
  rw [BitVec.shiftConcat, ← BitVec.concat_xor_concat]
  exact BitVec.setWidth_xor

theorem shiftConcat_eq_or (c : Half) (x : Bool) : c.shiftConcat x = (c <<< 1) ||| (if x then 1 else 0) := by
  apply BitVec.eq_of_getLsbD_eq
  intro i hi
  rw [BitVec.getLsbD_shiftConcat, BitVec.getLsbD_or, BitVec.getLsbD_shiftLeft]
  cases x <;> by_cases h0 : i = 0 <;> simp [hi, h0]

/-- One iteration: the bit comes in at the low end, and the polynomial stands for the bit that goes out. -/
theorem crcBit_eq_xor (c : Half) (x : Bool) : crcBit c x = c.shiftConcat x ^^^ (if c.msb then crcPoly else 0) := by
  rw [shiftConcat_eq_or, crcBit]
  cases c.msb <;> simp

/-- While a 0 goes out the register is only shifted. -/
theorem crcBit_of_lt {c : Half} (x : Bool) {k : Nat} (hk : k < 16) (h : c.toNat < 2 ^ k) :
    crcBit c x = c.shiftConcat x := by
  have hpow : 2 ^ k ≤ 2 ^ 15 := Nat.pow_le_pow_right (by decide) (by omega)
  have hmsb : c.msb = false := BitVec.msb_eq_false_iff_two_mul_lt.mpr (by omega)
  simp [crcBit_eq_xor, hmsb]

theorem crcBit_xor (c d : Half) (x y : Bool) : crcBit (c ^^^ d) (x ^^ y) = crcBit c x ^^^ crcBit d y := by
  have hpoly : (if (c ^^^ d).msb then crcPoly else 0)
      = (if c.msb then crcPoly else 0) ^^^ (if d.msb then crcPoly else 0) := by
    rw [BitVec.msb_xor]
    cases c.msb <;> cases d.msb <;> simp
  rw [crcBit_eq_xor, crcBit_eq_xor, crcBit_eq_xor, shiftConcat_xor, hpoly]
  ac_rfl

/-- The bit shifted out shows at bit 0, as the polynomial has bit 0 set (R181 (c)). -/
theorem getLsbD_zero_crcBit (c : Half) (x : Bool) : (crcBit c x).getLsbD 0 = (x ^^ c.msb) := by
  rw [crcBit_eq_xor, BitVec.getLsbD_xor, BitVec.getLsbD_shiftConcat]
  cases c.msb <;> simp [crcPoly]

theorem crcBit_injective (x : Bool) : Function.Injective (crcBit · x) := by
  intro c d h
  replace h : crcBit c x = crcBit d x := h
  have hmsb : c.msb = d.msb := by
    have hbit := congrArg (·.getLsbD 0) h
    simp only [getLsbD_zero_crcBit] at hbit
    exact Bool.xor_right_inj.mp hbit
  rw [crcBit_eq_xor, crcBit_eq_xor, hmsb, BitVec.xor_left_inj] at h
  apply BitVec.eq_of_getLsbD_eq
  intro i hi
  by_cases htop : i = 15
  · subst htop
    exact hmsb
  · have hbit := congrArg (·.getLsbD (i + 1)) h
    simp only [BitVec.getLsbD_shiftConcat] at hbit
    simpa [show i + 1 < 16 by omega] using hbit

/-! The eight iterations. -/

theorem crcLoop_xor (n : Nat) (c d : Half) (v w : Byte) :
    crcLoop n (c ^^^ d) (v ^^^ w) = crcLoop n c v ^^^ crcLoop n d w := by
  induction n generalizing c d v w with
  | zero => rfl
  | succ n ih => rw [crcLoop, BitVec.msb_xor, crcBit_xor, BitVec.shiftLeft_xor_distrib, ih, crcLoop, crcLoop]

theorem crcLoop_injective (n : Nat) (v : Byte) : Function.Injective (crcLoop n · v) := by
  induction n generalizing v with
  | zero => exact Function.injective_id
  | succ n ih => exact (ih (v <<< 1)).comp (crcBit_injective v.msb)

/-- The loop by its last iteration: the bits of the byte come in from bit 7 downwards. -/
theorem crcLoop_succ (n : Nat) (c : Half) (v : Byte) (h : n < 8) :
    crcLoop (n + 1) c v = crcBit (crcLoop n c v) (v.getLsbD (7 - n)) := by
  induction n generalizing c v with
  | zero => rfl
  | succ n ih =>
    have hbit : (v <<< 1).getLsbD (7 - n) = v.getLsbD (7 - (n + 1)) := by
      rw [BitVec.getLsbD_shiftLeft, Nat.sub_sub]
      simp [show 7 - n < 8 by omega, show ¬ 7 - n < 1 by omega]
    rw [crcLoop, ih _ _ (by omega), hbit, crcLoop]

theorem crcLoop_eq_foldl (n : Nat) (c : Half) (v : Byte) (h : n ≤ 8) :
    crcLoop n c v = (List.range n).foldl (fun a i => crcBit a (v.getLsbD (7 - i))) c := by
  induction n with
  | zero => rfl
  | succ n ih =>
    rw [crcLoop_succ n c v h, ih (by omega), List.range_succ, List.foldl_append]
    rfl

/-- From a register whose high byte is 0 the loop only moves up, and no iteration shifts a 1 out. -/
theorem toNat_crcLoop_lt (n : Nat) {c : Half} (v : Byte) (hn : n ≤ 8) (h : c.toNat < 2 ^ 8) :
    (crcLoop n c v).toNat < 2 ^ (8 + n) := by
  induction n with
  | zero => exact h
  | succ n ih =>
    have hlt := ih (by omega)
    rw [crcLoop_succ n c v hn, crcBit_of_lt _ (show 8 + n < 16 by omega) hlt]
    exact BitVec.toNat_shiftConcat_lt_of_lt (show 8 + n < 16 by omega) hlt

/-- From such a register the loop puts the byte's top `n` bits behind the register's. -/
theorem toNat_crcLoop_of_lt (n : Nat) {c : Half} (v : Byte) (hn : n ≤ 8) (h : c.toNat < 2 ^ 8) :
    (crcLoop n c v).toNat = c.toNat * 2 ^ n + v.toNat / 2 ^ (8 - n) := by
  induction n with
  | zero =>
    rw [Nat.div_eq_of_lt v.isLt]
    exact (Nat.mul_one _).symm
  | succ n ih =>
    have hlt := toNat_crcLoop_lt n v (by omega) h
    have hbit : (v.getLsbD (7 - n)).toNat = v.toNat / 2 ^ (7 - n) % 2 := Nat.toNat_testBit ..
    have hdiv : v.toNat / 2 ^ (8 - n) = v.toNat / 2 ^ (7 - n) / 2 := by
      rw [Nat.div_div_eq_div_mul, ← Nat.pow_succ, show (7 - n).succ = 8 - n by omega]
    rw [crcLoop_succ n c v hn, crcBit_of_lt _ (show 8 + n < 16 by omega) hlt,
      BitVec.toNat_shiftConcat_eq_of_lt (show 8 + n < 16 by omega) hlt, ih (by omega), hbit, hdiv, Nat.pow_succ,
      ← Nat.mul_assoc, show 8 - (n + 1) = 7 - n by omega]
    omega

theorem crcByte_xor (c d : Half) (b b' : Byte) : crcByte (c ^^^ d) (b ^^^ b') = crcByte c b ^^^ crcByte d b' :=
  crcLoop_xor 8 c d b b'

theorem toNat_be16 (a b : Byte) : (be16 a b).toNat = a.toNat * 2 ^ 8 + b.toNat := by
  rw [← Nat.shiftLeft_eq, Nat.shiftLeft_add_eq_or_of_lt b.isLt, be16, BitVec.toNat_or, BitVec.toNat_shiftLeft,
    BitVec.toNat_setWidth_of_le (by decide), BitVec.toNat_setWidth_of_le (by decide), Nat.mod_eq_of_lt]
  rw [Nat.shiftLeft_eq]
  omega

/-- Where the high byte is 0 the register and the byte are simply put together (R181 (b)). -/
theorem crcByte_setWidth (a b : Byte) : crcByte (a.setWidth 16) b = be16 a b := by
  have ha : (a.setWidth 16).toNat = a.toNat := BitVec.toNat_setWidth_of_le (by decide)
  apply BitVec.eq_of_toNat_eq
  rw [crcByte, toNat_crcLoop_of_lt 8 b (Nat.le_refl 8) (ha ▸ a.isLt), ha, toNat_be16]
  exact congrArg (_ + ·) (Nat.div_one _)

theorem crcByte_zero (b : Byte) : crcByte 0 b = b.setWidth 16 := by
  simpa [be16] using crcByte_setWidth 0 b

/-- The byte goes in unchanged beside what a zero byte makes of the register. -/
theorem crcByte_eq_xor (c : Half) (b : Byte) : crcByte c b = crcByte c 0 ^^^ b.setWidth 16 := by
  calc crcByte c b = crcByte (c ^^^ 0) (0 ^^^ b) := by simp
    _ = crcByte c 0 ^^^ b.setWidth 16 := by rw [crcByte_xor, crcByte_zero]

theorem crcByte_injective_left (b : Byte) : Function.Injective (crcByte · b) := crcLoop_injective 8 b

theorem crcByte_injective_right (c : Half) : Function.Injective (crcByte c) := by
  intro b b' h
  rw [crcByte_eq_xor c b, crcByte_eq_xor c b', BitVec.xor_right_inj] at h
  simpa using congrArg (BitVec.setWidth 8) h

/-! Byte sequences. -/

theorem crcFrom_cons (c : Half) (b : Byte) (m : List Byte) : crcFrom c (b :: m) = crcFrom (crcByte c b) m := rfl

theorem crc16_eq_crcFrom (m : List Byte) : crc16 m = crcFrom (acc m) [0, 0] := crcFrom_append ..

theorem crcFrom_xor (c d : Half) (a b : List Byte) (h : a.length = b.length) :
    crcFrom (c ^^^ d) (List.zipWith (· ^^^ ·) a b) = crcFrom c a ^^^ crcFrom d b := by
  induction a generalizing c d b with
  | nil =>
    cases List.eq_nil_of_length_eq_zero h.symm
    rfl
  | cons x a ih =>
    cases b with
    | nil => cases h
    | cons y b =>
      rw [List.zipWith_cons_cons, crcFrom_cons, crcByte_xor, ih _ _ _ (Nat.succ.inj h), crcFrom_cons, crcFrom_cons]

theorem crcFrom_injective (m : List Byte) : Function.Injective (crcFrom · m) := by
  induction m with
  | nil => exact Function.injective_id
  | cons b m ih => exact ih.comp (crcByte_injective_left b)

theorem crcFrom_zero_bytes16 (f : Half) : crcFrom 0 (bytes16 f) = f := by
  rw [bytes16, crcFrom_cons, crcByte_zero, crcFrom_cons, crcByte_setWidth, be16_bytes]
  rfl

/-- Two bytes of a field fold to the field and what two zeros in its place give: the idea of R183. -/
theorem crcFrom_bytes16 (c f : Half) : crcFrom c (bytes16 f) = crcFrom c [0, 0] ^^^ f := by
  calc crcFrom c (bytes16 f) = crcFrom (c ^^^ 0) (List.zipWith (· ^^^ ·) [0, 0] (bytes16 f)) := by simp [bytes16]
    _ = crcFrom c [0, 0] ^^^ f := by rw [crcFrom_xor c 0 [0, 0] (bytes16 f) rfl, crcFrom_zero_bytes16]

theorem crcFrom_zero_replicate (n : Nat) : crcFrom 0 (List.replicate n 0) = 0 := by
  induction n with
  | zero => rfl
  | succ n ih =>
    rw [List.replicate_succ, crcFrom_cons, crcByte_zero]
    exact ih

/-! Behind the decode stack. -/

/-- The decode stack leaves the parser's registers, so behind it only the accumulator shows the bytes counted. -/
theorem withParser_counted_of_frame {s t : State} (h : stackFrame s t) (bs : List Byte) :
    t.withParser (ParserRegs.counted bs ⟨s.crc, s.sinkD, s.sinkR, s.bh, s.bhValid⟩)
      = { t with crc := crcFrom s.crc bs } := by
  unfold stackFrame at h
  rw [h]
  rfl

end Sys2Proof.Machine
end

section
/-! The checksum's obligations (44_crc16.md R181 to R186). -/

namespace Sys2Proof.Machine

/-- Settles O40: the two zeros at the end are the exclusive or of themselves, and the accumulator is linear. -/
theorem crcLinear : Obligations.CrcLinear := by
  unfold Obligations.CrcLinear
  intro a b h
  have hacc : acc (List.zipWith (· ^^^ ·) a b) = acc a ^^^ acc b := crcFrom_xor 0 0 a b h
  rw [crc16_eq_crcFrom, crc16_eq_crcFrom, crc16_eq_crcFrom, hacc]
  exact crcFrom_xor (acc a) (acc b) [0, 0] [0, 0] rfl

/-- R186 (b). -/
theorem acc_append_bytes16_crc16 (m : List Byte) : acc (m ++ bytes16 (crc16 m)) = 0 := by
  rw [acc, crcFrom_append, crcFrom_bytes16, crc16_eq_crcFrom]
  exact BitVec.xor_self

/-- R186 (e). -/
theorem crc16_replicate_zero (n : Nat) : crc16 (List.replicate n 0) = 0 := by
  have hzeros : List.replicate n (0 : Byte) ++ [0, 0] = List.replicate (n + 2) 0 :=
    List.replicate_append_replicate (m := 2)
  rw [crc16, hzeros]
  exact crcFrom_zero_replicate (n + 2)

/-- Settles O41: the bytes are put in bit by bit; the worked values are computed. -/
theorem crcStepAndResidue : Obligations.CrcStepAndResidue := by
  unfold Obligations.CrcStepAndResidue
  refine ⟨fun c b => crcLoop_eq_foldl 8 c b (Nat.le_refl 8), crcByte_zero, rfl, rfl, rfl, rfl,
    by decide +kernel, by decide +kernel, by decide +kernel, by decide +kernel,
    acc_append_bytes16_crc16, crc16_replicate_zero⟩

/-- Settles O42: the differing byte makes two different registers, and the bytes after it keep them apart. -/
theorem crcSeesEveryByte : Obligations.CrcSeesEveryByte := by
  unfold Obligations.CrcSeesEveryByte
  intro p q b c hne heq
  have hsplit : ∀ x : Byte, crc16 (p ++ x :: q) = crcFrom (crcByte (acc p) x) (q ++ [0, 0]) := fun x => by
    rw [crc16, acc, List.append_assoc, crcFrom_append]
    rfl
  rw [hsplit, hsplit] at heq
  exact hne (crcByte_injective_right (acc p) (crcFrom_injective (q ++ [0, 0]) heq))

/-- Settles O43: the check by the two bytes the stack delivers, in a state with its own parser registers. -/
theorem crcCheckCompares : Obligations.CrcCheckCompares := by
  unfold Obligations.CrcCheckCompares
  intro s t hi lo c h
  have hframe : stackFrame s t := calls_nextDecoded_frame _ _ _ _ h
  have hcheck := crcCheck_of_calls c ⟨s.crc, s.sinkD, s.sinkR, s.bh, s.bhValid⟩ h
  rw [← State.withParser_self, withParser_counted_of_frame hframe] at hcheck
  constructor
  · intro heq
    rw [← heq] at hcheck ⊢
    exact hcheck.trans (if_pos rfl)
  · intro hne
    exact hcheck.trans (if_neg hne)

end Sys2Proof.Machine
end

section
/-! SUPPORT. The BinHex commands before they read (45_binhex_records.md R198, R199, R202), and decoded bytes that stand queued
in front of the record parser (41_stream_locate.md R150): the rows of the records. -/

namespace Sys2Proof.Machine

/-- Settles O24: acceptance in another stage. -/
theorem wrongStageRaises : Obligations.WrongStageRaises := by
  unfold Obligations.WrongStageRaises
  intro s he hm
  exact ⟨accept_stage he hm, accept_stage he hm, accept_stage he hm⟩

/-- A length with its top bit set is a negative one (R202). -/
theorem isNegative_of_le {len : Word} (h : 0x80000000 ≤ len.toNat) : isNegative len = true := by
  have hneg : len.toInt < 0 := BitVec.toInt_neg_iff.mpr (by omega)
  exact decide_eq_true hneg

theorem forkBody_of_negative (k : Sink) {len : Word} (h : 0x80000000 ≤ len.toNat) (s : State) :
    forkBody k len s = .stop (fatal .negLength 0 len s) :=
  if_pos (isNegative_of_le h)

/-- Settles O49: the length is looked at as soon as the command is accepted. -/
theorem negativeLengthRaises : Obligations.NegativeLengthRaises := by
  unfold Obligations.NegativeLengthRaises
  intro s he hm
  refine ⟨fun hg hl => ?data, fun hg hl => ?rsrc⟩
  case data =>
    have hrun : exec .bhxData s = finish (forkBody .data s.bh.dlen s) :=
      accept_ok he hm fun x hx => hg.trans (Option.some.inj hx)
    rw [hrun, forkBody_of_negative .data hl, finish_stop]
  case rsrc =>
    have hrun : exec .bhxRsrc s = finish (forkBody .rsrc s.bh.rlen s) :=
      accept_ok he hm fun x hx => hg.trans (Option.some.inj hx)
    rw [hrun, forkBody_of_negative .rsrc hl, finish_stop]

/-! Decoded bytes in a row. -/

/-- From `s` the decode stack delivers the bytes `bs`, and is then in `v`. -/
abbrev delivers (bs : List Byte) (s v : State) : Prop := calls nextDecoded bs.length s = .ok bs v

/-- Bytes that are queued are the next ones delivered. -/
theorem delivers_queued (bs : List Byte) (s : State) : delivers bs { s with dbuf := bs ++ s.dbuf } s := by
  induction bs with
  | nil => rfl
  | cons b bs ih =>
    have hb : nextDecoded { s with dbuf := b :: bs ++ s.dbuf } = .ok b { s with dbuf := bs ++ s.dbuf } := rfl
    rw [delivers, List.length_cons, calls, hb, Res.bind_ok, ih]
    rfl

/-! The fork row. -/

/-- The row of a fork runs the fork record on its own bytes. -/
theorem forkRecord_queued (k : Sink) (r : BhxForkRec) (s : State) :
    forkRecord k r.body.length { s with dbuf := encode (.recBhxfork r) ++ s.dbuf } =
      if crc16 r.body = r.crc then
        .ok () (forkDone k r.crc (s.withParser { (spanRegs s).copied k r.body with crc := crc16 r.body }))
      else .stop (fatal .badForkCrc ((crc16 r.body).setWidth 32) (r.crc.setWidth 32)
        (s.withParser { (spanRegs s).copied k r.body with crc := crc16 r.body })) := by
  have hlen : (encode (.recBhxfork r)).length = r.body.length + 2 := List.length_append
  exact forkRecord_of_calls k (hlen ▸ delivers_queued (encode (.recBhxfork r)) s)

theorem exec_recBhxfork_data (r : BhxForkRec) {s : State} (h : s.stage = .forkData) :
    exec (.recBhxfork r) s = finish (forkRecord .data r.body.length { s with dbuf := encode (.recBhxfork r) ++ s.dbuf }) :=
  if_pos h

theorem exec_recBhxfork_rsrc (r : BhxForkRec) {s : State} (h : s.stage = .forkRsrc) :
    exec (.recBhxfork r) s =
      finish (forkRecord .rsrc r.body.length { s with dbuf := encode (.recBhxfork r) ++ s.dbuf }) := by
  have hd : s.stage ≠ .forkData := by rw [h]; decide
  exact (if_neg hd).trans (if_pos h)

/-- Settles O48: the fork record on the row's own bytes, in each of the two stages. -/
theorem forkRow : Obligations.ForkRow := by
  unfold Obligations.ForkRow
  intro r s
  refine ⟨fun hg hc => ?goodData, fun hg hc => ?goodRsrc, fun hg hc => ?badData, fun hg hc => ?badRsrc, fun hd hr => ?stage⟩
  case goodData =>
    rw [exec_recBhxfork_data r hg, forkRecord_queued, if_pos hc, hc]
    rfl
  case goodRsrc =>
    rw [exec_recBhxfork_rsrc r hg, forkRecord_queued, if_pos hc, hc]
    rfl
  case badData =>
    rw [exec_recBhxfork_data r hg, forkRecord_queued, if_neg hc]
    rfl
  case badRsrc =>
    rw [exec_recBhxfork_rsrc r hg, forkRecord_queued, if_neg hc]
    rfl
  case stage => exact (if_neg hd).trans (if_neg hr)

end Sys2Proof.Machine
end

section
/-! SUPPORT. The header record run on the decoded bytes that follow (45_binhex_records.md R190 to R196): the length byte, the
name with its terminator, five fields and the stored checksum, each when its bytes are delivered and when the decode stack
stops inside it. -/

namespace Sys2Proof.Machine

/-! Decoded bytes in a row, cut in two. -/

theorem delivers_append {xs ys : List Byte} {s v : State} (h : delivers (xs ++ ys) s v) :
    ∃ u, delivers xs s u ∧ delivers ys u v :=
  calls_append nextDecoded xs ys s v (List.length_append ▸ h)

theorem delivers_cons {b : Byte} {bs : List Byte} {s v : State} (h : delivers (b :: bs) s v) :
    ∃ u, nextDecoded s = .ok b u ∧ delivers bs u v := by
  simp only [delivers, List.length_cons, calls] at h
  obtain ⟨b', u, hb, h⟩ := Res.bind_eq_ok.mp h
  obtain ⟨bs', v', hbs, h⟩ := Res.bind_eq_ok.mp h
  cases h
  exact ⟨u, hb, hbs⟩

/-- `GETC` over a byte the stack delivers, its count in the checksum named. -/
theorem getc_counted (r : ParserRegs) {b : Byte} {s v : State} (h : nextDecoded s = .ok b v) :
    getc (s.withParser r) = .ok b (v.withParser (r.counted [b])) := getc_withParser r h

/-! `GETBE` (R194). -/

/-- The word that bytes make behind those of `v`, most significant first. -/
def beWord (v : Word) (bs : List Byte) : Word := bs.foldl (fun v b => (v <<< 8) ||| b.setWidth 32) v

theorem beWord_four (b0 b1 b2 b3 : Byte) : beWord 0 [b0, b1, b2, b3] = be32 b0 b1 b2 b3 := by
  refine BitVec.eq_of_getLsbD_eq ?_
  simp only [Nat.forall_lt_succ_right]
  simp [beWord, be32]

theorem beWord_two (b0 b1 : Byte) : (beWord 0 [b0, b1]).setWidth 16 = be16 b0 b1 := by
  refine BitVec.eq_of_getLsbD_eq ?_
  simp only [Nat.forall_lt_succ_right]
  simp [beWord, be16]

theorem getbeFrom_of_delivers (m : Nat) {bs : List Byte} (w : Word) (r : ParserRegs) {s v : State}
    (h : delivers bs s v) :
    getbeFrom (bs.length + m) w (s.withParser r) = getbeFrom m (beWord w bs) (v.withParser (r.counted bs)) := by
  induction bs generalizing s w r with
  | nil =>
    cases h
    rw [List.length_nil, Nat.zero_add]
    rfl
  | cons b bs ih =>
    obtain ⟨u, hb, hbs⟩ := delivers_cons h
    rw [List.length_cons, Nat.add_right_comm, getbeFrom, getc_counted r hb, Res.bind_ok, ih _ _ hbs]
    rfl

theorem getbe_of_delivers {bs : List Byte} (r : ParserRegs) {s v : State} (h : delivers bs s v) :
    getbe bs.length (s.withParser r) = .ok (beWord 0 bs) (v.withParser (r.counted bs)) :=
  getbeFrom_of_delivers 0 0 r h

theorem getbe_of_stop {k : Nat} {got : List Byte} (r : ParserRegs) {s v t : State} (h : delivers got s v)
    (ht : nextDecoded v = .stop t) (hk : got.length < k) :
    getbe k (s.withParser r) = .stop (t.withParser (r.counted got)) := by
  obtain ⟨m, rfl⟩ : ∃ m, k = got.length + (m + 1) := ⟨k - got.length - 1, by omega⟩
  rw [getbe, getbeFrom_of_delivers _ 0 r h, getbeFrom, getc_withParser_stop _ ht]
  rfl

/-! The name (R193). -/

/-- The name buffer with the bytes `nm` at its front. -/
def ParserRegs.named (nm : List Byte) (r : ParserRegs) : ParserRegs := { r with bh := { r.bh with name := padTo 64 nm } }

theorem padTo_set {n : Nat} {pre : List Byte} (b : Byte) (h : pre.length < n) :
    (padTo n pre).set pre.length b = padTo n (pre ++ [b]) := by
  obtain ⟨m, hm⟩ : ∃ m, n - pre.length = m + 1 := ⟨n - pre.length - 1, by omega⟩
  have hm' : n - (pre ++ [b]).length = m := by
    rw [List.length_append, List.length_singleton]
    omega
  rw [padTo, padTo, hm, hm', List.set_append_right _ _ (Nat.le_refl _), Nat.sub_self, List.replicate_succ,
    List.set_cons_zero, List.append_assoc]
  rfl

/-- A byte in its place in the name buffer. -/
def putName (i : Nat) (b : Byte) (s : State) : State := { s with bh := { s.bh with name := s.bh.name.set i b } }

theorem readName_succ (n i : Nat) (s : State) :
    readName (n + 1) i s = (getc s).bind fun b s => readName n (i + 1) (putName i b s) := rfl

theorem putName_withParser (i : Nat) (b : Byte) (nm : List Byte) (r : ParserRegs) (s : State) :
    putName i b (s.withParser ((r.named nm).counted [b]))
      = s.withParser { r.counted [b] with bh := { r.bh with name := (padTo 64 nm).set i b } } := rfl

/-- One turn of the name's loop, after its byte has been decoded. -/
theorem putName_next {pre : List Byte} (b : Byte) (r : ParserRegs) (s : State) (h : pre.length < 64) :
    putName pre.length b (s.withParser ((r.named pre).counted [b]))
      = s.withParser ((r.counted [b]).named (pre ++ [b])) := by
  rw [putName_withParser, padTo_set b h]
  rfl

/-- The name's loop behind the bytes `pre`, over bytes the stack delivers. -/
theorem readName_of_delivers (m : Nat) (pre : List Byte) {bs : List Byte} (r : ParserRegs) {s v : State}
    (h : delivers bs s v) (hlen : pre.length + bs.length ≤ 64) :
    readName (bs.length + m) pre.length (s.withParser (r.named pre))
      = readName m (pre.length + bs.length) (v.withParser ((r.counted bs).named (pre ++ bs))) := by
  induction bs generalizing s pre r with
  | nil =>
    cases h
    rw [List.length_nil, Nat.zero_add, Nat.add_zero, List.append_nil]
    rfl
  | cons b bs ih =>
    obtain ⟨u, hb, hbs⟩ := delivers_cons h
    rw [List.length_cons] at hlen
    have hpre : (pre ++ [b]).length = pre.length + 1 := List.length_append
    have hrest := ih (pre ++ [b]) (r.counted [b]) hbs (by omega)
    rw [List.length_cons, Nat.add_right_comm, readName_succ, getc_counted _ hb, Res.bind_ok,
      putName_next b r u (by omega), ← hpre, hrest, hpre, List.append_assoc, Nat.add_right_comm]
    rfl

/-- The name and its terminator, from the front of the buffer. -/
theorem readName_whole {nm : List Byte} (r : ParserRegs) {s v : State} (h : delivers nm s v) (hlen : nm.length ≤ 64) :
    readName nm.length 0 (s.withParser (r.named [])) = .ok () (v.withParser ((r.counted nm).named nm)) := by
  have hread := readName_of_delivers 0 [] r h (by simpa using hlen)
  exact hread

theorem readName_of_stop {k : Nat} {nm : List Byte} (r : ParserRegs) {s v t : State} (h : delivers nm s v)
    (ht : nextDecoded v = .stop t) (hk : nm.length < k) (hlen : nm.length ≤ 64) :
    readName k 0 (s.withParser (r.named [])) = .stop (t.withParser ((r.counted nm).named nm)) := by
  obtain ⟨m, rfl⟩ : ∃ m, k = nm.length + (m + 1) := ⟨k - nm.length - 1, by omega⟩
  have hread := readName_of_delivers (m + 1) [] r h (by simpa using hlen)
  rw [List.length_nil] at hread
  rw [hread, readName, getc_withParser_stop _ ht]
  rfl

/-- `BH_NAMELEN` and the portable name over the parser's registers (R190). -/
def ParserRegs.titled (hi : List Byte) (l : Byte) (r : ParserRegs) : ParserRegs :=
  let pn := if l = 0 then [] else xltBuf hi (r.bh.name.take l.toNat) l.toNat 64
  { r with bh := { r.bh with nameLen := l, pname := padTo 64 pn, pnameLen := BitVec.ofNat 8 pn.length } }

theorem setBhName_withParser (l : Byte) (r : ParserRegs) (s : State) :
    setBhName l (s.withParser r) = s.withParser (r.titled s.par.xltHi l) := rfl

/-! The fields between the name and the checksum (R111, R195), as a list. -/

/-- A field of the header record: its width in bytes, and where its value goes. -/
structure HeaderField where
  width : Nat
  store : Word → BinHexRegs → BinHexRegs

/-- Type, creator, Finder flags, and the two fork lengths. -/
def headerFields : List HeaderField :=
  [⟨4, fun v b => { b with typ := v }⟩, ⟨4, fun v b => { b with creator := v }⟩,
   ⟨2, fun v b => { b with flags := v.setWidth 16 }⟩, ⟨4, fun v b => { b with dlen := v }⟩,
   ⟨4, fun v b => { b with rlen := v }⟩]

/-- The fields `fs` read one after the other, then `k`. -/
def readFields (k : State → Res Unit) : List HeaderField → State → Res Unit
  | [], s => k s
  | f :: fs, s => (getbe f.width s).bind fun v s => readFields k fs { s with bh := f.store v s.bh }

/-- The stored checksum of the header, and the header's good end (R190). -/
def headerEnd (s : State) : Res Unit :=
  (crcCheck .badHdrCrc s).bind fun h s =>
    .ok () (endOk { s with bh := { s.bh with hcrc := h }, bhValid := true, stage := .forkData })

/-- The header record in its parts. -/
theorem headerRecord_eq (s : State) :
    headerRecord s = (getc (headerStart s)).bind fun l s =>
      if l.toNat + 1 ≥ nameLimit then raise .nameTooLong 63 (BitVec.ofNat 32 (l.toNat + 1)) s
      else (readName (l.toNat + 1) 0 s).bind fun _ s => readFields headerEnd headerFields (setBhName l s) := rfl

/-- The width of all the fields. -/
def fieldsWidth (fs : List HeaderField) : Nat := (fs.map HeaderField.width).sum

/-- The `BH_*` registers after the fields have been read from `got`: those that are there whole are stored. -/
def fieldRegs : List HeaderField → List Byte → BinHexRegs → BinHexRegs
  | [], _, b => b
  | f :: fs, got, b =>
    if f.width ≤ got.length then fieldRegs fs (got.drop f.width) (f.store (beWord 0 (got.take f.width)) b) else b

/-- The fields over the parser's registers. -/
def ParserRegs.stored (fs : List HeaderField) (got : List Byte) (r : ParserRegs) : ParserRegs :=
  { r.counted got with bh := fieldRegs fs got r.bh }

theorem ParserRegs.stored_cons (f : HeaderField) (fs : List HeaderField) {got : List Byte} (r : ParserRegs)
    (h : f.width ≤ got.length) :
    r.stored (f :: fs) got =
      ParserRegs.stored fs (got.drop f.width)
        { r.counted (got.take f.width) with bh := f.store (beWord 0 (got.take f.width)) r.bh } := by
  have hcrc : crcFrom r.crc got = crcFrom (crcFrom r.crc (got.take f.width)) (got.drop f.width) := by
    rw [← crcFrom_append, List.take_append_drop]
  simp only [stored, counted, fieldRegs, if_pos h, hcrc]

theorem ParserRegs.stored_cons_of_short (f : HeaderField) (fs : List HeaderField) {got : List Byte} (r : ParserRegs)
    (h : got.length < f.width) : r.stored (f :: fs) got = r.counted got := by
  rw [stored, fieldRegs, if_neg (Nat.not_le.mpr h)]
  rfl

/-- The first field, when its bytes are delivered. -/
theorem readFields_cons_of_delivers (k : State → Res Unit) (f : HeaderField) (fs : List HeaderField) {got : List Byte}
    (r : ParserRegs) {s v : State} (h : delivers got s v) (hw : f.width ≤ got.length) :
    ∃ u, delivers (got.drop f.width) u v
      ∧ readFields k (f :: fs) (s.withParser r) = readFields k fs (u.withParser
          { r.counted (got.take f.width) with bh := f.store (beWord 0 (got.take f.width)) r.bh }) := by
  rw [← List.take_append_drop f.width got] at h
  obtain ⟨u, hfield, hrest⟩ := delivers_append h
  have hread := getbe_of_delivers r hfield
  rw [List.length_take_of_le hw] at hread
  refine ⟨u, hrest, ?_⟩
  rw [readFields, hread]
  rfl

theorem readFields_of_delivers (k : State → Res Unit) (fs : List HeaderField) {got : List Byte} (r : ParserRegs)
    {s v : State} (h : delivers got s v) (hw : got.length = fieldsWidth fs) :
    readFields k fs (s.withParser r) = k (v.withParser (r.stored fs got)) := by
  induction fs generalizing got s r with
  | nil =>
    cases List.eq_nil_of_length_eq_zero hw
    cases h
    rfl
  | cons f fs ih =>
    have hsum : got.length = f.width + fieldsWidth fs := hw
    obtain ⟨u, hrest, hread⟩ := readFields_cons_of_delivers k f fs r h (by omega)
    rw [hread, ih _ hrest (by rw [List.length_drop]; omega), ParserRegs.stored_cons f fs r (by omega)]

theorem readFields_of_stop (k : State → Res Unit) (fs : List HeaderField) {got : List Byte} (r : ParserRegs)
    {s v t : State} (h : delivers got s v) (ht : nextDecoded v = .stop t) (hw : got.length < fieldsWidth fs) :
    readFields k fs (s.withParser r) = .stop (t.withParser (r.stored fs got)) := by
  induction fs generalizing got s r with
  | nil => exact absurd hw (Nat.not_lt_zero _)
  | cons f fs ih =>
    have hsum : got.length < f.width + fieldsWidth fs := hw
    by_cases hf : f.width ≤ got.length
    · obtain ⟨u, hrest, hread⟩ := readFields_cons_of_delivers k f fs r h hf
      rw [hread, ih _ hrest (by rw [List.length_drop]; omega), ParserRegs.stored_cons f fs r hf]
    · rw [readFields, getbe_of_stop r h ht (by omega), ParserRegs.stored_cons_of_short f fs r (by omega)]
      rfl

end Sys2Proof.Machine
end

section
/-! SUPPORT. The header record as a whole (45_binhex_records.md R190 to R196, 60_exceptions.md R271): what it leaves in the
parser's registers when it is read to its checksum, and where the decode stack stops inside it. -/

namespace Sys2Proof.Machine

/-! The fields by their offsets (R111). -/

theorem beWord_bytes32 (w : Word) : beWord 0 (bytes32 w) = w := by
  rw [bytes32, beWord_four, be32_bytes]

theorem beWord_bytes16 (h : Half) : (beWord 0 (bytes16 h)).setWidth 16 = h := by
  rw [bytes16, beWord_two, be16_bytes]

theorem beWord_eq_field32 {g : List Byte} {off : Nat} (h : off + 4 ≤ g.length) :
    beWord 0 ((g.drop off).take 4) = field32 g off := by
  have hlen : (bytes32 (field32 g off)).length = 4 := rfl
  rw [← bytes32_field32_append_drop h, List.take_left' hlen, beWord_bytes32]

theorem beWord_eq_field16 {g : List Byte} {off : Nat} (h : off + 2 ≤ g.length) :
    (beWord 0 ((g.drop off).take 2)).setWidth 16 = field16 g off := by
  have hlen : (bytes16 (field16 g off)).length = 2 := rfl
  rw [← bytes16_field16_append_drop h, List.take_left' hlen, beWord_bytes16]

/-- Each field is stored when its last byte is there. -/
theorem fieldRegs_headerFields (g : List Byte) (b : BinHexRegs) :
    fieldRegs headerFields g b = { b with
      typ := if 4 ≤ g.length then field32 g 0 else b.typ
      creator := if 8 ≤ g.length then field32 g 4 else b.creator
      flags := if 10 ≤ g.length then field16 g 8 else b.flags
      dlen := if 14 ≤ g.length then field32 g 10 else b.dlen
      rlen := if 18 ≤ g.length then field32 g 14 else b.rlen } := by
  have htyp := beWord_eq_field32 (g := g) (off := 0)
  have hcreator := beWord_eq_field32 (g := g) (off := 4)
  have hflags := beWord_eq_field16 (g := g) (off := 8)
  have hdlen := beWord_eq_field32 (g := g) (off := 10)
  have hrlen := beWord_eq_field32 (g := g) (off := 14)
  simp only [fieldRegs, headerFields, List.length_drop, List.drop_drop]
  cases b
  grind

/-- Bytes behind the fields do not show in them. -/
theorem fieldRegs_append (fs : List HeaderField) {got : List Byte} (rest : List Byte) (b : BinHexRegs)
    (h : fieldsWidth fs ≤ got.length) : fieldRegs fs (got ++ rest) b = fieldRegs fs got b := by
  induction fs generalizing got b with
  | nil => rfl
  | cons f fs ih =>
    have hsum : f.width + fieldsWidth fs ≤ got.length := h
    have hf : f.width ≤ got.length := by omega
    have hf' : f.width ≤ (got ++ rest).length := by
      rw [List.length_append]
      omega
    rw [fieldRegs, fieldRegs, if_pos hf, if_pos hf', List.take_append_of_le_length hf, List.drop_append_of_le_length hf,
      ih _ (by rw [List.length_drop]; omega)]

/-! The parser's registers through the record. -/

/-- The registers when the first byte is read (R190). -/
def ParserRegs.blank (r : ParserRegs) : ParserRegs :=
  { r with bh := { r.bh with name := List.replicate 64 0, pname := List.replicate 64 0, pnameLen := 0 }, bhValid := false }

theorem headerStart_eq (s : State) : headerStart s = s.withParser ((spanRegs s).blank.named []) := rfl

/-- The registers after the length byte `l` and the bytes `nm` of the name and its terminator. -/
def ParserRegs.inName (l : Byte) (nm : List Byte) (r : ParserRegs) : ParserRegs := (r.blank.counted (l :: nm)).named nm

/-- The registers after the whole name and the bytes `g` of the fields. -/
def ParserRegs.inFields (hi : List Byte) (l : Byte) (nm g : List Byte) (r : ParserRegs) : ParserRegs :=
  ((r.inName l nm).titled hi l).stored headerFields g

/-! The record, by the bytes decoded. -/

/-- A length byte that is too large (R192). -/
theorem headerRecord_of_long {l : Byte} {s v : State} (h : nextDecoded s = .ok l v) (hl : 63 ≤ l.toNat) :
    headerRecord s = .stop (fatal .nameTooLong 63 (BitVec.ofNat 32 (l.toNat + 1))
      (v.withParser ((spanRegs s).blank.counted [l]))) := by
  have hlim : nameLimit ≤ l.toNat + 1 := Nat.succ_le_succ hl
  rw [headerRecord_eq, headerStart_eq, getc_counted _ h, Res.bind_ok, if_pos hlim]
  rfl

/-- A length byte in range: the name comes next. -/
theorem headerRecord_of_length {l : Byte} {s v : State} (h : nextDecoded s = .ok l v) (hl : l.toNat ≤ 62) :
    headerRecord s =
      (readName (l.toNat + 1) 0 (v.withParser (((spanRegs s).blank.counted [l]).named []))).bind fun _ s =>
        readFields headerEnd headerFields (setBhName l s) := by
  have hlim : ¬ nameLimit ≤ l.toNat + 1 := Nat.not_le.mpr (Nat.succ_lt_succ (Nat.lt_succ_of_le hl))
  rw [headerRecord_eq, headerStart_eq, getc_counted _ h, Res.bind_ok, if_neg hlim]
  rfl

theorem stackFrame_par {s v : State} (h : stackFrame s v) : v.par = s.par := by
  unfold stackFrame at h
  rw [h]

/-- The whole name: the fields come next. -/
theorem headerRecord_of_name {l : Byte} {nm : List Byte} {s v : State} (h : delivers (l :: nm) s v) (hl : l.toNat ≤ 62)
    (hnm : nm.length = l.toNat + 1) :
    headerRecord s =
      readFields headerEnd headerFields (v.withParser (((spanRegs s).inName l nm).titled s.par.xltHi l)) := by
  have hpar : v.par = s.par := stackFrame_par (calls_nextDecoded_frame _ _ _ _ h)
  obtain ⟨u, hb, hrest⟩ := delivers_cons h
  rw [headerRecord_of_length hb hl, ← hnm, readName_whole _ hrest (by omega), Res.bind_ok, setBhName_withParser, hpar]
  rfl

/-- The record up to its checksum. -/
theorem headerRecord_of_delivers {l : Byte} {nm g : List Byte} {s v : State} (h : delivers (l :: nm ++ g) s v)
    (hl : l.toNat ≤ 62) (hnm : nm.length = l.toNat + 1) (hg : g.length = 18) :
    headerRecord s = headerEnd (v.withParser ((spanRegs s).inFields s.par.xltHi l nm g)) := by
  obtain ⟨u, hname, hfields⟩ := delivers_append h
  rw [headerRecord_of_name hname hl hnm, readFields_of_delivers headerEnd headerFields _ hfields hg]
  rfl

/-- Where the decode stack stops before the first byte. -/
theorem headerRecord_stop_first {s t : State} (ht : nextDecoded s = .stop t) :
    headerRecord s = .stop (t.withParser (spanRegs s).blank) := by
  rw [headerRecord_eq, headerStart_eq, getc_withParser_stop _ ht]
  rfl

/-- Where it stops in the name. -/
theorem headerRecord_stop_name {l : Byte} {nm : List Byte} {s v t : State} (h : delivers (l :: nm) s v)
    (ht : nextDecoded v = .stop t) (hl : l.toNat ≤ 62) (hnm : nm.length < l.toNat + 1) :
    headerRecord s = .stop (t.withParser ((spanRegs s).inName l nm)) := by
  obtain ⟨u, hb, hrest⟩ := delivers_cons h
  rw [headerRecord_of_length hb hl, readName_of_stop _ hrest ht hnm (by omega)]
  rfl

/-- Where it stops in the fields. -/
theorem headerRecord_stop_fields {l : Byte} {nm g : List Byte} {s v t : State} (h : delivers (l :: nm ++ g) s v)
    (ht : nextDecoded v = .stop t) (hl : l.toNat ≤ 62) (hnm : nm.length = l.toNat + 1) (hg : g.length < 18) :
    headerRecord s = .stop (t.withParser ((spanRegs s).inFields s.par.xltHi l nm g)) := by
  obtain ⟨u, hname, hfields⟩ := delivers_append h
  rw [headerRecord_of_name hname hl hnm, readFields_of_stop headerEnd headerFields _ hfields ht hg]
  rfl

/-- Where it stops in the stored checksum. -/
theorem headerRecord_stop_crc {l : Byte} {nm g x : List Byte} {s v t : State} (h : delivers (l :: nm ++ g ++ x) s v)
    (ht : nextDecoded v = .stop t) (hl : l.toNat ≤ 62) (hnm : nm.length = l.toNat + 1) (hg : g.length = 18)
    (hx : x.length < 2) :
    headerRecord s = .stop (t.withParser
      (((spanRegs s).inFields s.par.xltHi l nm g).counted (List.replicate x.length 0))) := by
  obtain ⟨u, hbody, hfield⟩ := delivers_append h
  rw [headerRecord_of_delivers hbody hl hnm hg, headerEnd, crcCheck_of_stop .badHdrCrc _ hfield ht hx]
  rfl

end Sys2Proof.Machine
end

section
/-! SUPPORT. The header row and `BHX.HDR` (45_binhex_records.md R190 to R196): a whole record's bytes, and a record that was
cut short, as the statements write their registers. -/

namespace Sys2Proof.Machine

/-- The record changes the checksum, the `BH_*` registers and BH_VALID. -/
theorem inFields_eq (hi : List Byte) (l : Byte) (nm g : List Byte) (p : ParserRegs) :
    p.inFields hi l nm g =
      ⟨crcFrom p.crc (l :: nm ++ g), p.sinkD, p.sinkR, (p.inFields hi l nm g).bh, false⟩ := by
  rw [crcFrom_append]
  rfl

/-! A whole record. -/

/-- The bytes of a record's five fields (R111). -/
def fieldBytes (r : BhxHeaderRec) : List Byte :=
  bytes32 r.typ ++ bytes32 r.creator ++ bytes16 r.flags ++ bytes32 r.dlen ++ bytes32 r.rlen

theorem fieldBytes_length (r : BhxHeaderRec) : (fieldBytes r).length = 18 := rfl

/-- The bytes the checksum covers (R196). -/
def headerBody (r : BhxHeaderRec) : List Byte := r.len :: (r.name ++ [r.tm]) ++ fieldBytes r

theorem encode_recBhxhdr (r : BhxHeaderRec) : encode (.recBhxhdr r) = headerBody r ++ bytes16 r.hcrc := by
  simp [encode, headerBody, fieldBytes]

section
variable {r : BhxHeaderRec} (hwf : wellFormed (.recBhxhdr r) = true)
include hwf

theorem terminated_length : (r.name ++ [r.tm]).length = r.len.toNat + 1 := by
  rw [List.length_append, wellFormed_recBhxhdr.mp hwf]
  rfl

theorem headerBody_length : (headerBody r).length = 20 + r.len.toNat := by
  rw [headerBody, List.length_append, List.length_cons, terminated_length hwf, fieldBytes_length]
  omega

theorem encode_recBhxhdr_length : (encode (.recBhxhdr r)).length = 22 + r.len.toNat := by
  have hcrc : (bytes16 r.hcrc).length = 2 := rfl
  rw [encode_recBhxhdr, List.length_append, headerBody_length hwf, hcrc]
  omega

theorem encode_recBhxhdr_take : (encode (.recBhxhdr r)).take (20 + r.len.toNat) = headerBody r := by
  rw [encode_recBhxhdr, List.take_left' (headerBody_length hwf)]

end

/-- The portable name of a record (R190). -/
def portableName (hi : List Byte) (r : BhxHeaderRec) : List Byte :=
  if r.len = 0 then [] else xltBuf hi r.name r.len.toNat 64

/-- The `BH_*` registers with a record's fields, all but the stored checksum. -/
def recordRegs (hi : List Byte) (r : BhxHeaderRec) (b : BinHexRegs) : BinHexRegs :=
  { b with
    nameLen := r.len, name := padTo 64 (r.name ++ [r.tm]), pnameLen := BitVec.ofNat 8 (portableName hi r).length
    pname := padTo 64 (portableName hi r), typ := r.typ, creator := r.creator, flags := r.flags, dlen := r.dlen
    rlen := r.rlen }

theorem fieldRegs_fieldBytes (r : BhxHeaderRec) (b : BinHexRegs) :
    fieldRegs headerFields (fieldBytes r) b =
      { b with typ := r.typ, creator := r.creator, flags := r.flags, dlen := r.dlen, rlen := r.rlen } := by
  simp [fieldRegs_headerFields, fieldBytes, field32, field16, field8, bytes32, bytes16, be32_bytes, be16_bytes]

/-- The name in the buffer, without what stands behind it. -/
theorem padTo_take_of_le {k n : Nat} {bs : List Byte} (h : k ≤ bs.length) : (padTo n bs).take k = bs.take k :=
  List.take_append_of_le_length h

/-- A whole record's fields in the registers. -/
theorem inFields_bh_of_record {r : BhxHeaderRec} (hwf : wellFormed (.recBhxhdr r) = true) (hi : List Byte)
    (p : ParserRegs) :
    (p.inFields hi r.len (r.name ++ [r.tm]) (fieldBytes r)).bh = recordRegs hi r p.bh := by
  have hname : (padTo 64 (r.name ++ [r.tm])).take r.len.toNat = r.name := by
    rw [padTo_take_of_le (by rw [terminated_length hwf]; omega), List.take_left' (wellFormed_recBhxhdr.mp hwf)]
  rw [ParserRegs.inFields, ParserRegs.stored, fieldRegs_fieldBytes]
  simp only [ParserRegs.titled, ParserRegs.inName, ParserRegs.named, hname]
  rfl

/-- The header record on a whole record's bytes (R196). -/
theorem headerRecord_of_record {r : BhxHeaderRec} (hwf : wellFormed (.recBhxhdr r) = true) (hl : r.len.toNat ≤ 62)
    {s v : State} (h : delivers (encode (.recBhxhdr r)) s v) :
    headerRecord s =
      if crc16 (headerBody r) = r.hcrc then
        .ok () { v with
          crc := r.hcrc, bh := { recordRegs s.par.xltHi r s.bh with hcrc := r.hcrc }, bhValid := true, stage := .forkData
          status := .ok }
      else .stop (fatal .badHdrCrc ((crc16 (headerBody r)).setWidth 32) (r.hcrc.setWidth 32)
        { v with crc := crc16 (headerBody r), bh := recordRegs s.par.xltHi r s.bh, bhValid := false }) := by
  obtain ⟨hD, hR, -, -⟩ := stackFrame_parser (calls_nextDecoded_frame _ _ _ _ h)
  rw [encode_recBhxhdr] at h
  obtain ⟨u, hbody, hfield⟩ := delivers_append h
  have hregs : ((spanRegs s).inFields s.par.xltHi r.len (r.name ++ [r.tm]) (fieldBytes r)).counted [0, 0]
      = ⟨crc16 (headerBody r), v.sinkD, v.sinkR, recordRegs s.par.xltHi r s.bh, false⟩ := by
    rw [inFields_eq, inFields_bh_of_record hwf, crc16_eq_crcFrom, hD, hR]
    rfl
  rw [headerRecord_of_delivers hbody hl (terminated_length hwf) (fieldBytes_length r), headerEnd,
    crcCheck_of_calls .badHdrCrc _ hfield, be16_bytes, hregs]
  split
  case isTrue hc =>
    rw [← hc]
    rfl
  case isFalse => rfl

/-- Settles O44: the header record on the row's own bytes. -/
theorem headerRow : Obligations.HeaderRow := by
  unfold Obligations.HeaderRow
  intro r s body pn regs hwf hbody hpn hregs
  rw [encode_recBhxhdr_take hwf] at hbody
  subst hbody hpn hregs
  have hexec : exec (.recBhxhdr r) s = finish (headerRecord { s with dbuf := encode (.recBhxhdr r) ++ s.dbuf }) := rfl
  have hnext := delivers_queued (encode (.recBhxhdr r)) s
  refine ⟨fun hl hc => ?good, fun hl hc => ?bad, fun hl => ?long⟩
  case good =>
    rw [hexec, headerRecord_of_record hwf hl hnext, if_pos hc]
    rfl
  case bad =>
    rw [hexec, headerRecord_of_record hwf hl hnext, if_neg hc]
    rfl
  case long =>
    rw [encode_recBhxhdr] at hexec hnext
    obtain ⟨u, hlen, -⟩ := delivers_cons hnext
    rw [hexec, headerRecord_of_long hlen hl]
    cases hlen
    rfl

/-! A record that was cut short (60_exceptions.md R271). -/

/-- The portable name when `got` has been read: there once the whole name is. -/
def cutPortableName (hi got : List Byte) : List Byte :=
  let n := (field8 got 0).toNat
  if n = 0 ∨ got.length < n + 2 then [] else xltBuf hi ((got.drop 1).take n) n 64

/-- The `BH_*` registers when `got` has been read: the fields that are there whole. They begin at the offset `m`. -/
def cutRegs (hi got : List Byte) (b : BinHexRegs) : BinHexRegs :=
  let m := (field8 got 0).toNat + 2
  { b with
    nameLen := if m ≤ got.length then field8 got 0 else b.nameLen
    name := padTo 64 ((got.drop 1).take (m - 1)), pnameLen := BitVec.ofNat 8 (cutPortableName hi got).length
    pname := padTo 64 (cutPortableName hi got)
    typ := if m + 4 ≤ got.length then field32 got m else b.typ
    creator := if m + 8 ≤ got.length then field32 got (m + 4) else b.creator
    flags := if m + 10 ≤ got.length then field16 got (m + 8) else b.flags
    dlen := if m + 14 ≤ got.length then field32 got (m + 10) else b.dlen
    rlen := if m + 18 ≤ got.length then field32 got (m + 14) else b.rlen }

/-- The checksum when `got` has been read: a byte of the stored field counts as a zero (44_crc16.md R183). -/
def cutCrc (got : List Byte) : Half :=
  let n := (field8 got 0).toNat
  acc (got.take (20 + n) ++ List.replicate (got.length - (20 + n)) 0)

/-- All the parser's registers when `got` has been read. -/
def ParserRegs.cut (hi got : List Byte) (p : ParserRegs) : ParserRegs :=
  { p with crc := cutCrc got, bh := cutRegs hi got p.bh, bhValid := false }

theorem cutCrc_of_le {got : List Byte} (h : got.length ≤ 20 + (field8 got 0).toNat) : cutCrc got = acc got := by
  rw [cutCrc, List.take_of_length_le h, Nat.sub_eq_zero_of_le h, List.replicate_zero, List.append_nil]

section
variable {p : List Byte} {m : Nat} (hp : p.length = m) (g : List Byte) (k : Nat)
include hp

theorem field8_append_left : field8 (p ++ g) (m + k) = field8 g k := by
  rw [Nat.add_comm]
  exact getD_append_of_length hp g k

theorem field16_append_left : field16 (p ++ g) (m + k) = field16 g k := by
  simp only [field16, Nat.add_assoc, field8_append_left hp]

theorem field32_append_left : field32 (p ++ g) (m + k) = field32 g k := by
  simp only [field32, Nat.add_assoc, field8_append_left hp]

end

/-- Within the name nothing is stored but its bytes. -/
theorem cutRegs_of_short {hi got : List Byte} (b : BinHexRegs) (h : got.length < (field8 got 0).toNat + 2) :
    cutRegs hi got b =
      { b with name := padTo 64 (got.drop 1), pname := List.replicate 64 0, pnameLen := 0 } := by
  have hnm : (got.drop 1).take ((field8 got 0).toNat + 2 - 1) = got.drop 1 :=
    List.take_of_length_le (by rw [List.length_drop]; omega)
  have hpn : cutPortableName hi got = [] := if_pos (.inr h)
  have hlater : ∀ k, ¬ (field8 got 0).toNat + 2 + k ≤ got.length := fun k => by omega
  simp only [cutRegs, hnm, hpn, if_neg (hlater 0), if_neg (hlater 4), if_neg (hlater 8), if_neg (hlater 10),
    if_neg (hlater 14), if_neg (hlater 18)]
  rfl

/-- The portable name once the whole name is there. -/
theorem cutPortableName_of_name {l : Byte} {nm : List Byte} (hi g : List Byte) (hnm : nm.length = l.toNat + 1) :
    cutPortableName hi (l :: nm ++ g) = if l = 0 then [] else xltBuf hi (nm.take l.toNat) l.toNat 64 := by
  have hlen : ¬ (l :: nm ++ g).length < l.toNat + 2 := by
    rw [List.length_append, List.length_cons]
    omega
  have hzero : l.toNat = 0 ↔ l = 0 := (BitVec.toNat_eq (y := 0)).symm
  have hname : (nm ++ g).take l.toNat = nm.take l.toNat := List.take_append_of_le_length (by omega)
  rw [← hname]
  exact ite_congr (propext ((or_iff_left hlen).trans hzero)) (fun _ => rfl) fun _ => rfl

/-- The whole name, and what is there of the fields. -/
theorem inFields_bh {l : Byte} {nm : List Byte} (hi g : List Byte) (p : ParserRegs) (hnm : nm.length = l.toNat + 1) :
    (p.inFields hi l nm g).bh = cutRegs hi (l :: nm ++ g) p.bh := by
  have hp : (l :: nm).length = l.toNat + 2 := congrArg (· + 1) hnm
  have hle : ∀ k, l.toNat + 2 + k ≤ (l :: nm ++ g).length ↔ k ≤ g.length := fun k => by
    rw [List.length_append, hp, Nat.add_le_add_iff_left]
  have hl : field8 (l :: nm ++ g) 0 = l := rfl
  have hname : ((l :: nm ++ g).drop 1).take (l.toNat + 2 - 1) = nm := List.take_left' hnm
  have hbuf : (padTo 64 nm).take l.toNat = nm.take l.toNat := padTo_take_of_le (by omega)
  rw [cutRegs, hl, hname, cutPortableName_of_name hi g hnm, ← hbuf]
  simp only [hle, if_pos ((hle 0).mpr (Nat.zero_le _)), field32_append_left hp, field16_append_left hp,
    show field32 (l :: nm ++ g) (l.toNat + 2) = field32 g 0 from field32_append_left hp g 0]
  rw [ParserRegs.inFields, ParserRegs.stored, fieldRegs_headerFields]
  rfl

section
variable {l : Byte} {nm g : List Byte} (hi : List Byte) (s : State)

theorem inName_eq_cut (hnm : nm.length < l.toNat + 1) : (spanRegs s).inName l nm = (spanRegs s).cut hi (l :: nm) := by
  have hl : field8 (l :: nm) 0 = l := rfl
  have hlen : (l :: nm).length < l.toNat + 2 := Nat.succ_lt_succ hnm
  rw [ParserRegs.cut, cutCrc_of_le (by rw [hl]; omega), cutRegs_of_short _ (by rw [hl]; exact hlen)]
  rfl

theorem inFields_eq_cut (hnm : nm.length = l.toNat + 1) (hg : g.length ≤ 18) :
    (spanRegs s).inFields hi l nm g = (spanRegs s).cut hi (l :: nm ++ g) := by
  have hl : field8 (l :: nm ++ g) 0 = l := rfl
  have hlen : (l :: nm ++ g).length ≤ 20 + l.toNat := by
    rw [List.length_append, List.length_cons]
    omega
  rw [inFields_eq, inFields_bh hi g _ hnm, ParserRegs.cut, cutCrc_of_le (by rw [hl]; exact hlen)]
  rfl

/-- In the stored checksum: the fields stay, and its bytes count as zeros. -/
theorem inFields_counted_eq_cut (hnm : nm.length = l.toNat + 1) (hg : g.length = 18) (x : List Byte) :
    ((spanRegs s).inFields hi l nm g).counted (List.replicate x.length 0)
      = (spanRegs s).cut hi (l :: nm ++ g ++ x) := by
  have hl : field8 (l :: nm ++ g ++ x) 0 = l := rfl
  have hlen : (l :: nm ++ g).length = 20 + l.toNat := by
    rw [List.length_append, List.length_cons]
    omega
  have hcrc : cutCrc (l :: nm ++ g ++ x) = crcFrom (acc (l :: nm ++ g)) (List.replicate x.length 0) := by
    rw [cutCrc, hl, List.take_left' hlen, List.length_append, hlen, Nat.add_sub_cancel_left, acc, crcFrom_append]
    rfl
  have hbh : ((spanRegs s).inFields hi l nm g).bh = cutRegs hi (l :: nm ++ g ++ x) (spanRegs s).bh := by
    rw [List.append_assoc, ← inFields_bh hi (g ++ x) (spanRegs s) hnm]
    exact (fieldRegs_append headerFields x _ (Nat.le_of_eq hg.symm)).symm
  rw [inFields_eq, hbh, ParserRegs.cut, hcrc]
  rfl

end

/-- The header record where the decode stack stops before its end. -/
theorem headerRecord_of_cut {got : List Byte} {s v t : State} (h : delivers got s v) (ht : nextDecoded v = .stop t)
    (hl : (field8 got 0).toNat ≤ 62) (hlen : got.length < 22 + (field8 got 0).toNat) :
    headerRecord s = .stop (t.withParser ((spanRegs s).cut s.par.xltHi got)) := by
  match got with
  | [] =>
    cases h
    exact headerRecord_stop_first ht
  | l :: rest =>
    have hl : l.toNat ≤ 62 := hl
    have hlen : rest.length + 1 < 22 + l.toNat := hlen
    by_cases hname : rest.length < l.toNat + 1
    · rw [headerRecord_stop_name h ht hl hname, inName_eq_cut _ s hname]
    obtain ⟨nm, g, rfl, hnm⟩ : ∃ nm g, rest = nm ++ g ∧ nm.length = l.toNat + 1 :=
      ⟨_, _, (List.take_append_drop (l.toNat + 1) rest).symm, List.length_take_of_le (Nat.le_of_not_lt hname)⟩
    by_cases hfields : g.length < 18
    · rw [headerRecord_stop_fields h ht hl hnm hfields, inFields_eq_cut _ s hnm (Nat.le_of_lt hfields)]
      rfl
    obtain ⟨g, x, rfl, hg⟩ : ∃ g' x, g = g' ++ x ∧ g'.length = 18 :=
      ⟨_, _, (List.take_append_drop 18 g).symm, List.length_take_of_le (Nat.le_of_not_lt hfields)⟩
    rw [List.length_append, List.length_append] at hlen
    rw [← List.append_assoc] at h ⊢
    rw [headerRecord_stop_crc h ht hl hnm hg (by omega), inFields_counted_eq_cut _ s hnm hg x]
    rfl

/-! The command. -/

/-- An accepted `BHX.HDR`, when the locator matches, reads the header record. -/
theorem exec_bhxHdr {s u : State} (he : s.err = none) (hm : s.mode = .bhx) (hg : s.stage = .searching)
    (hloc : locate s = .ok () u) : exec .bhxHdr s = finish (headerRecord u) := by
  have hrun : exec .bhxHdr s = finish (hdrBody s) := accept_ok he hm fun x hx => hg.trans (Option.some.inj hx)
  rw [hrun, hdrBody, hloc, Res.bind_ok]

/-- The locator leaves what the record parser starts from, and the parameters. -/
theorem locate_parser {s u : State} (h : locate s = .ok () u) : spanRegs u = spanRegs s ∧ u.par = s.par := by
  have hframe := locate_frame s
  rw [h] at hframe
  obtain ⟨p, rfl⟩ := hframe
  exact ⟨rfl, rfl⟩

/-- Settles O45: the command runs the header record, which is known by the decoded bytes. -/
theorem bhxHdrByItsBytes : Obligations.BhxHdrByItsBytes := by
  unfold Obligations.BhxHdrByItsBytes
  intro s u v t he hm hg hloc
  obtain ⟨hregs, hpar⟩ := locate_parser hloc
  have hbh : u.bh = s.bh := congrArg ParserRegs.bh hregs
  rw [exec_bhxHdr he hm hg hloc, ← hpar, ← hbh]
  refine ⟨?whole, ?long, ?cut⟩
  case whole =>
    intro r body pn regs hwf hl h hbody hpn hregs
    rw [encode_recBhxhdr_take hwf] at hbody
    subst hbody hpn hregs
    rw [← encode_recBhxhdr_length hwf] at h
    rw [headerRecord_of_record hwf hl h]
    exact ⟨fun hc => by rw [if_pos hc]; rfl, fun hc => by rw [if_neg hc]; rfl⟩
  case long =>
    intro l h hl
    have hframe : stackFrame u v := by
      have hdoes := nextDecoded_does u
      rwa [h] at hdoes
    obtain ⟨-, -, hbh', hregs'⟩ := stackFrame_parser hframe
    rw [headerRecord_of_long h hl, ← hregs', ← hbh']
    rfl
  case cut =>
    intro got pn n h ht hn hl hlen hpn
    subst hn hpn
    have hstop := nextDecoded_does v
    rw [ht] at hstop
    obtain ⟨c, e, f, w, rfl, hc, hw⟩ := hstop
    obtain ⟨hD, hR, hbh', hregs'⟩ := stackFrame_parser (stackFrame_trans (calls_nextDecoded_frame _ _ _ _ h) hw)
    refine ⟨c, e, f, w, rfl, hc, hbh', ?_, ?_, ?_⟩
    · exact hD.trans (congrArg ParserRegs.sinkD hregs)
    · exact hR.trans (congrArg ParserRegs.sinkR hregs)
    · rw [headerRecord_of_cut h ht hl hlen, ← hregs', ← hbh']
      rfl

end Sys2Proof.Machine
end

section
/-! SUPPORT. `BLOCKREAD` (46_stuffit_records.md R211): which bytes it gets and the state it leaves; and the fields of a
record that has other bytes behind it in REC (R210). -/

namespace Sys2Proof

/-! A field that lies inside the bytes at the front of REC is theirs. -/

theorem field8_append_of_lt {p : List Byte} (q : List Byte) {off : Nat} (h : off < p.length) :
    field8 (p ++ q) off = field8 p off := by
  rw [field8, field8, List.getD_eq_getElem?_getD, List.getElem?_append_left h, ← List.getD_eq_getElem?_getD]

theorem field16_append_of_le {p : List Byte} (q : List Byte) {off : Nat} (h : off + 2 ≤ p.length) :
    field16 (p ++ q) off = field16 p off := by
  rw [field16, field16, field8_append_of_lt q (by omega), field8_append_of_lt q (by omega)]

theorem field32_append_of_le {p : List Byte} (q : List Byte) {off : Nat} (h : off + 4 ≤ p.length) :
    field32 (p ++ q) off = field32 p off := by
  rw [field32, field32, field8_append_of_lt q (by omega), field8_append_of_lt q (by omega),
    field8_append_of_lt q (by omega), field8_append_of_lt q (by omega)]

end Sys2Proof

namespace Sys2Proof.Machine

theorem blockGot_length {s : State} (hs : streamOk s) {n : Nat} (hn : n < 2 ^ 62) :
    (blockGot n s).length = min n (slen s - s.pos.toNat) := readRun_length s hs n s.pos hn

/-- The bytes from POS on, wherever POS stands: beyond the end of the stream there are none. -/
theorem blockGot_eq {s : State} (hs : streamOk s) {n : Nat} (hn : n < 2 ^ 62) :
    blockGot n s = ((s.stream.map Prod.snd).drop s.pos.toNat).take n := by
  rcases Nat.le_total s.pos.toNat (2 ^ 63) with hpos | hpos
  · exact readRun_of_streamOk hs n s.pos hpos hn
  · have hend : slen s ≤ s.pos.toNat := Nat.le_trans (Nat.le_of_lt hs.2) hpos
    have hnone : blockGot n s = [] := by
      rw [← List.length_eq_zero_iff, blockGot_length hs hn, Nat.sub_eq_zero_of_le hend, Nat.min_zero]
    rw [hnone, List.drop_eq_nil_of_le (by rwa [List.length_map]), List.take_nil]

/-- The state `BLOCKREAD` leaves when its bytes fit in REC. -/
theorem blockRead_state {s : State} (hr : s.recb.length = 112) {n : Nat} (hn : n ≤ 112) :
    blockRead n s = { s with
      recb := blockGot n s ++ s.recb.drop (blockGot n s).length
      pos := s.pos + BitVec.ofNat 64 (blockGot n s).length } := by
  rw [blockRead, loadRec_state hr (Nat.le_trans (blockGot_length_le n s) hn)]

/-- Settles O50: the bytes from POS on, at the front of REC. -/
theorem blockReadGets : Obligations.BlockReadGets := by
  unfold Obligations.BlockReadGets
  rintro n s got hs hr hn - rfl
  have hle : n ≤ 112 := by omega
  have hlt : n < 2 ^ 62 := by omega
  refine ⟨blockGot_eq hs hlt, ?_⟩
  rw [← blockGot_length hs hlt]
  exact blockRead_state hr hle

end Sys2Proof.Machine
end

section
/-! SUPPORT. `SIT.HDR` and `SIT.NEXT` (46_stuffit_records.md R212 to R221) by how many bytes `BLOCKREAD` gets. -/

namespace Sys2Proof.Machine

/-- Acceptance of a StuffIt command, which asks for no stage (48_commands.md R240). -/
theorem accept_sit {body : State → Res Unit} {s : State} (he : s.err = none) (hm : s.mode = .sit) :
    accept .sit none body s = finish (body s) := accept_ok (g := none) he hm fun _ h => nomatch h

/-! The archive header. -/

theorem exec_sitHdr {s : State} (he : s.err = none) (hm : s.mode = .sit) :
    exec (decodeCommand 0x20) s = finish (sitHdrBody s) := by
  have hdec : decodeCommand 0x20 = .sitHdr := rfl
  rw [hdec]
  exact accept_sit he hm

theorem sitHdrBody_short {s : State} (h : (blockGot 22 s).length < 22) :
    sitHdrBody s = .stop (fatal .shortBlock 22 (BitVec.ofNat 32 (blockGot 22 s).length)
      (blockRead 22 { s with saValid := false })) := if_pos h

theorem sitHdrBody_whole {s : State} (h : (blockGot 22 s).length = 22) :
    sitHdrBody s = checkMagic1 (blockRead 22 { s with saValid := false }) :=
  if_neg (Nat.not_lt_of_ge (Nat.le_of_eq h.symm))

/-- Settles O51: the number of bytes first, then the two magic words, which are read from the front of REC. -/
theorem sitHdrByItsBytes : Obligations.SitHdrByItsBytes := by
  unfold Obligations.SitHdrByItsBytes
  rintro s u got he hm hr hver rfl hu
  have hread : blockRead 22 { s with saValid := false } = u :=
    (blockRead_state (s := { s with saValid := false }) hr (by decide)).trans hu.symm
  have hrec : u.recb = blockGot 22 s ++ s.recb.drop (blockGot 22 s).length := by rw [hu]
  have hpar : u.par = s.par := by rw [hu]
  have field32_rec : ∀ off, off + 4 ≤ (blockGot 22 s).length → field32 u.recb off = field32 (blockGot 22 s) off :=
    fun off hoff => by rw [hrec, field32_append_of_le _ hoff]
  rw [exec_sitHdr he hm]
  refine ⟨fun hk => ?short, fun hk hbad => ?magic1, fun hk hgood hbad => ?magic2, fun hk hgood hgood2 => ?good⟩
  case short => rw [sitHdrBody_short hk, hread, finish_stop]
  all_goals
    have h0 := field32_rec 0 (by omega)
    have h10 := field32_rec 10 (by omega)
    rw [sitHdrBody_whole hk, hread]
  case magic1 => rw [checkMagic1_bad (by rwa [h0]), finish_stop, h0]
  case magic2 => rw [checkMagic1_good (by rwa [h0]), checkMagic2_bad _ (by rwa [h10]), finish_stop, h10]
  case good =>
    have h4 : field16 u.recb 4 = field16 (blockGot 22 s) 4 := by
      rw [hrec, field16_append_of_le _ (by omega)]
    have h6 := field32_rec 6 (by omega)
    have hv : field8 u.recb s.par.verOff = field8 (blockGot 22 s) s.par.verOff := by
      rw [hrec, field8_append_of_lt _ (by omega)]
    rw [checkMagic1_good (by rwa [h0]), checkMagic2_good _ (h10.trans hgood2), finish_ok, magic2Passed, h0, h4, h6,
      hpar, hv]
    rfl

/-! The entries. -/

theorem exec_sitNext {s : State} (he : s.err = none) (hm : s.mode = .sit) :
    exec .sitNext s = finish (sitNextBody s) := accept_sit he hm

theorem exec_sitNext_end {s : State} (he : s.err = none) (hm : s.mode = .sit) (h : (blockGot 112 s).length = 0) :
    exec .sitNext s = .next { s with seValid := false, status := .endOfEntries } :=
  (exec_sitNext he hm).trans (congrArg finish (if_pos h))

theorem sitNextBody_short {s : State} (h0 : (blockGot 112 s).length ≠ 0) (h : (blockGot 112 s).length < 112) :
    sitNextBody s = .stop (fatal .shortBlock 112 (BitVec.ofNat 32 (blockGot 112 s).length)
      (blockRead 112 { s with seValid := false })) := (if_neg h0).trans (if_pos h)

theorem sitNextBody_whole {s : State} (h : (blockGot 112 s).length = 112) :
    sitNextBody s = .ok () (entryRecord (blockRead 112 { s with seValid := false })) :=
  (if_neg (h ▸ by decide)).trans (if_neg (Nat.not_lt_of_ge (Nat.le_of_eq h.symm)))

/-- A whole record fills REC. -/
theorem blockRead_whole {s : State} (hr : s.recb.length = 112) (h : (blockGot 112 s).length = 112) :
    blockRead 112 s = { s with recb := blockGot 112 s, pos := s.pos + 112 } := by
  rw [blockRead_state hr (Nat.le_refl 112), h, List.drop_eq_nil_of_le (Nat.le_of_eq hr), List.append_nil]
  rfl

/-- Settles O52: the entry of the record that fills REC, and its payload's lengths from the place after it. -/
theorem sitNextCompletes : Obligations.SitNextCompletes := by
  unfold Obligations.SitNextCompletes
  rintro s got e he hm hr rfl hgot rfl
  have hread := blockRead_whole (s := { s with seValid := false }) hr hgot
  rw [exec_sitNext he hm, sitNextBody_whole hgot, finish_ok, hread, entryRecord_eq]
  simp only [isFolder_iff]
  rfl

/-- `SIT.NEXT` ends with `END` only when `BLOCKREAD` got no byte (46_stuffit_records.md R217). -/
theorem blockGot_nil_of_endOfEntries {s t : State} (h : finish (sitNextBody s) = .next t)
    (ht : t.status = .endOfEntries) : blockGot 112 s = [] := by
  rcases Res.meets_of_finish (sitNextBody_meets s) h with ⟨-, ⟨hnil, -⟩ | ⟨-, rfl⟩⟩ | ⟨c, e, f, u, rfl, -, -⟩
  · exact hnil
  · rw [entryRecord_eq] at ht
    cases ht
  · cases ht

/-- Settles O53: END by the number of bytes left, which END does not change, and a block cut short. -/
theorem sitNextEnd : Obligations.SitNextEnd := by
  unfold Obligations.SitNextEnd
  rintro s he hm hs -
  have hlen : (blockGot 112 s).length = min 112 (slen s - s.pos.toNat) := blockGot_length hs (by decide)
  have hnone : slen s ≤ s.pos.toNat → (blockGot 112 s).length = 0 := by omega
  refine ⟨⟨?onlyEnd, fun hle => ⟨_, exec_sitNext_end he hm (hnone hle), rfl⟩⟩,
    fun hle => ⟨exec_sitNext_end he hm (hnone hle), ?again⟩, ?short⟩
  case onlyEnd =>
    rintro ⟨t, ht, hst⟩
    rw [exec_sitNext he hm] at ht
    rw [blockGot_nil_of_endOfEntries ht hst, List.length_nil] at hlen
    omega
  case again =>
    exact exec_sitNext_end (s := { s with seValid := false, status := .endOfEntries }) he hm (hnone hle)
  case short =>
    intro got u hlt hshort hr hgot hu
    have hall : blockGot 112 s = got := by
      have hfits : ((s.stream.map Prod.snd).drop s.pos.toNat).length ≤ 112 := by
        rw [List.length_drop, List.length_map, Nat.sub_le_iff_le_add']
        exact Nat.le_of_lt hshort
      rw [blockGot_eq hs (by decide), hgot, List.take_of_length_le hfits]
    have hread : blockRead 112 { s with seValid := false } = u := by
      rw [hu, ← hall]
      exact blockRead_state (s := { s with seValid := false }) hr (Nat.le_refl 112)
    have hnum : got.length = slen s - s.pos.toNat := by
      rw [← hall, hlen]
      omega
    refine ⟨?_, hnum, ?_⟩
    · rw [exec_sitNext he hm, sitNextBody_short (by omega) (by omega), finish_stop, hread, hall]
    · have hbound : slen s < 2 ^ 63 := hs.2
      rw [hu, BitVec.toNat_add, BitVec.toNat_ofNat, hnum]
      omega

end Sys2Proof.Machine
end

section
/-! SUPPORT. The seven accessors (46_stuffit_records.md R225 to R231) of a valid entry. -/

namespace Sys2Proof.Machine

theorem accept_accessor {f : EntryRegs → Pos} {s : State} (he : s.err = none) (hm : s.mode = .sit)
    (hv : s.seValid = true) {r : Pos} (hr : f s.se = r) :
    accept .sit none (accessorBody f) s = .next { s with result := r, status := .ok } := by
  rw [accept_sit he hm, accessorBody_valid f hv, finish_ok, hr]
  rfl

theorem flag_beq {w : Nat} (a b : BitVec w) : flag (a == b) = if a = b then 1 else 0 := by
  simp only [flag, beq_iff_eq]

/-- The sum is of the lengths as numbers, before any truncation (30_encoding.md R125). -/
theorem lengthSum_eq_ofNat (a b : Word) : lengthSum a b = BitVec.ofNat 64 (a.toNat + b.toNat) := by
  rw [lengthSum, BitVec.ofNat_add, BitVec.ofNat_toNat, BitVec.ofNat_toNat]

/-- Settles O58: each command is an accessor of the one entry, by its own function of the entry's registers. -/
theorem accessors : Obligations.Accessors := by
  unfold Obligations.Accessors
  intro s he hm hv
  exact ⟨accept_accessor he hm hv (flag_beq s.se.rmeth 16), accept_accessor he hm hv (flag_beq s.se.rmeth 32),
    accept_accessor he hm hv (flag_beq s.se.rmeth 33), accept_accessor he hm hv (flag_beq s.se.typ 0x4150504C),
    accept_accessor he hm hv (lengthSum_eq_ofNat s.se.crlen s.se.cdlen),
    accept_accessor he hm hv (lengthSum_eq_ofNat s.se.rlen s.se.dlen),
    accept_accessor he hm hv (BitVec.ofNat_toNat 64 s.se.mdate).symm⟩

end Sys2Proof.Machine
end

section
/-! SUPPORT. The fatal-error path (60_exceptions.md R270, R261), and that every instruction of the table ends in a next state:
a command by what acceptance asks of it (48_commands.md R240), a row of another space by its own meaning. -/

namespace Sys2Proof.Machine

/-- The class of a cause by the cause's code (R261). -/
theorem cls_code_of_code (c : Cause) :
    c.cls.code =
      (if c.code = 9 ∨ c.code = 10 then 3
       else if c.code = 15 ∨ c.code = 16 then 5
       else if (11 ≤ c.code ∧ c.code ≤ 14) ∨ c.code = 18 then 4 else 2) := by
  cases c <;> decide

/-- Settles O20: the path is one update of the state, and a sequence ends where its first part raises. -/
theorem fatalPath : Obligations.FatalPath := by
  unfold Obligations.FatalPath
  exact fun c e f s => ⟨rfl, fun _ _ k => Res.bind_stop _ k, rfl, cls_code_of_code c⟩

theorem accept_next (need : Mode) (g : Option Stage) (body : State → Res Unit) (s : State) :
    ∃ t, accept need g body s = .next t := by
  rcases accept_cases need g body s with ⟨c, -, ha⟩ | ⟨-, c, e, f, -, ha⟩ | ⟨-, -, -, ha⟩
  · exact ⟨_, ha⟩
  · exact ⟨_, ha⟩
  · rw [ha]
    exact finish_next _

/-- Everything acceptance can do for a command that needs no session (48_commands.md R240). -/
theorem acceptAny_cases (body : State → Res Unit) (s : State) :
    (∃ c, s.err = some c ∧ acceptAny body s = .next { s with status := .failed c })
    ∨ (s.err = none ∧ acceptAny body s = finish (body s)) := by
  rcases he : s.err with _ | c
  · exact .inr ⟨rfl, acceptAny_ok he⟩
  · exact .inl ⟨c, rfl, he ▸ acceptAny_err he⟩

theorem acceptAny_next (body : State → Res Unit) (s : State) : ∃ t, acceptAny body s = .next t := by
  rcases acceptAny_cases body s with ⟨c, -, ha⟩ | ⟨-, ha⟩
  · exact ⟨_, ha⟩
  · rw [ha]
    exact finish_next _

/-- The three ways into a command (R240): `OPEN.*` and `CLOSE` run at once, the others through one of the acceptances. -/
theorem exec_command_entry {i : Instr} (hi : spaceOf i = .command) (s : State) :
    ((opens i = true ∨ i = .close) ∧ ∃ r : Res Unit, exec i s = finish r)
    ∨ (∃ need g body, exec i s = accept need g body s) ∨ ∃ body, exec i s = acceptAny body s := by
  rcases exec_command hi s with ⟨rfl, he⟩ | ⟨rfl, he⟩ | ⟨rfl, he⟩ | ⟨-, he⟩ | ⟨-, he⟩ | ⟨-, he⟩ | ⟨-, he⟩ | ⟨-, he⟩
    | ⟨-, f, he⟩ | ⟨-, he⟩ | ⟨c, -, he⟩
  · exact .inl ⟨.inl rfl, _, he⟩
  · exact .inl ⟨.inl rfl, _, he⟩
  · exact .inl ⟨.inr rfl, _, he⟩
  · exact .inr (.inl ⟨_, _, _, he⟩)
  · exact .inr (.inl ⟨_, _, _, he⟩)
  · exact .inr (.inl ⟨_, _, _, he⟩)
  · exact .inr (.inl ⟨_, _, _, he⟩)
  · exact .inr (.inl ⟨_, _, _, he⟩)
  · exact .inr (.inl ⟨_, _, _, he⟩)
  · exact .inr (.inr ⟨_, he⟩)
  · exact .inr (.inr ⟨_, he⟩)

theorem exec_command_next {i : Instr} (hi : spaceOf i = .command) (s : State) : ∃ t, exec i s = .next t := by
  rcases exec_command_entry hi s with ⟨-, r, he⟩ | ⟨need, g, body, he⟩ | ⟨body, he⟩
  all_goals rw [he]
  · exact finish_next r
  · exact accept_next need g body s
  · exact acceptAny_next body s

/-- The fork record's row: a record for each of the two forks, and in another stage an error. -/
theorem exec_recBhxfork_next (r : BhxForkRec) (s : State) : ∃ t, exec (.recBhxfork r) s = .next t := by
  simp only [exec, execRecBhxfork]
  split
  · exact finish_next _
  · split <;> exact finish_next _

/-- A row outside the command space: either one update of the state, or an operation run to its end. -/
theorem exec_row_next {i : Instr} (hi : spaceOf i ≠ .command) (s : State) : ∃ t, exec i s = .next t := by
  cases i
  case recBhxfork r => exact exec_recBhxfork_next r s
  case rleCount1 | recBhxhdr | recSithdr22 | magic1Sit | magic1St46 | magic1St50 | magic1St60 | magic1St65 | magic1Stin
    | magic1Sti2 | magic1Sti3 | magic1Sti4 | typeAppl => exact finish_next _
  case openBhx | openSit | close | bhxHdr | bhxData | bhxRsrc | sitHdr | sitNext | sitIsenc | sitIsfst | sitIsfend
    | sitIsapp | sitCsize | sitUsize | sitMtime | xlit | reservedCommand => exact absurd rfl hi
  all_goals exact ⟨_, rfl⟩

/-- Settles O15: an error is a next state too. -/
theorem execAlwaysAnswersNext : Obligations.ExecAlwaysAnswersNext := by
  unfold Obligations.ExecAlwaysAnswersNext
  intro i s
  by_cases hi : spaceOf i = .command
  · exact exec_command_next hi s
  · exact exec_row_next hi s

end Sys2Proof.Machine
end

section
/-! SUPPORT. Acceptance and sessions (48_commands.md R240 to R244): the commands by the personality they need, the reserved
bytes, and `OPEN.*` and `CLOSE` case by case. -/

namespace Sys2Proof.Machine

/-! Commands by what they need. -/

/-- The seven accessors (46_stuffit_records.md R225 to R231). -/
abbrev accessorCommands : List Instr := [.sitIsenc, .sitIsfst, .sitIsfend, .sitIsapp, .sitCsize, .sitUsize, .sitMtime]

theorem exec_accessor {i : Instr} (hi : i ∈ accessorCommands) (s : State) :
    ∃ f, exec i s = accept .sit none (accessorBody f) s := by
  simp only [accessorCommands, List.mem_cons, List.not_mem_nil, or_false] at hi
  rcases hi with rfl | rfl | rfl | rfl | rfl | rfl | rfl <;> exact ⟨_, rfl⟩

/-- A StuffIt command needs a StuffIt session and no stage. -/
theorem exec_sit {i : Instr} (hi : i ∈ Instr.sitHdr :: .sitNext :: accessorCommands) (s : State) :
    ∃ body, exec i s = accept .sit none body s := by
  rcases List.mem_cons.mp hi with rfl | hi
  · exact ⟨_, rfl⟩
  · rcases List.mem_cons.mp hi with rfl | hi
    · exact ⟨_, rfl⟩
    · obtain ⟨f, hf⟩ := exec_accessor hi s
      exact ⟨_, hf⟩

/-- A BinHex command needs a BinHex session and a stage. -/
theorem exec_bhx {i : Instr} (hi : i ∈ [Instr.bhxHdr, .bhxData, .bhxRsrc]) (s : State) :
    ∃ g body, exec i s = accept .bhx (some g) body s := by
  simp only [List.mem_cons, List.not_mem_nil, or_false] at hi
  rcases hi with rfl | rfl | rfl <;> exact ⟨_, _, rfl⟩

/-- Settles O23: acceptance in another mode, before it looks at the stage. -/
theorem wrongModeRaises : Obligations.WrongModeRaises := by
  unfold Obligations.WrongModeRaises
  intro i s he
  refine ⟨fun hi hm => ?bhx, fun hi hm => ?sit⟩
  case bhx =>
    obtain ⟨g, body, hx⟩ := exec_bhx hi s
    exact hx.trans (accept_mode he hm)
  case sit =>
    obtain ⟨body, hx⟩ := exec_sit hi s
    exact hx.trans (accept_mode he hm)

/-- Settles O59: the accessor is accepted, and stops at SE_VALID. -/
theorem accessorsWithoutEntry : Obligations.AccessorsWithoutEntry := by
  unfold Obligations.AccessorsWithoutEntry
  intro s i he hm hv hi
  obtain ⟨f, hx⟩ := exec_accessor hi s
  rw [hx, accept_sit he hm, accessorBody_invalid f hv, finish_stop]

/-! The sticky error, and the reserved bytes. -/

/-- A command byte is the one its row is written as. -/
theorem eq_of_decodeCommand_eq {c b : Byte} {i : Instr} (h : decodeCommand c = i) (hb : encode i = [b]) : c = b := by
  obtain ⟨-, -, hrow⟩ := decodeCommand_isRow c
  rw [h, hb] at hrow
  exact (List.singleton_inj.mp hrow).symm

/-- With ERR set, every command but `OPEN.*` and `CLOSE` only writes STATUS (R240). -/
theorem exec_of_err {i : Instr} (hi : spaceOf i = .command) (ho : opens i = false) (hc : i ≠ .close) {s : State}
    {e : ErrClass} (he : s.err = some e) : exec i s = .next { s with status := .failed e } := by
  rcases exec_command_entry hi s with ⟨ho' | hc', -⟩ | ⟨need, g, body, hx⟩ | ⟨body, hx⟩
  · cases ho.symm.trans ho'
  · exact absurd hc' hc
  · exact hx.trans (accept_err he)
  · exact hx.trans (acceptAny_err he)

/-- Only two bytes are `OPEN.*`. -/
theorem opens_decodeCommand {c : Byte} (h1 : c ≠ 0x01) (h2 : c ≠ 0x02) : opens (decodeCommand c) = false := by
  generalize hd : decodeCommand c = i
  cases i
  case openBhx => exact absurd (eq_of_decodeCommand_eq hd rfl) h1
  case openSit => exact absurd (eq_of_decodeCommand_eq hd rfl) h2
  all_goals rfl

/-- Settles O21: the byte is a command that is neither `OPEN.*` nor `CLOSE`, and acceptance looks at ERR first. -/
theorem stickyError : Obligations.StickyError := by
  unfold Obligations.StickyError
  intro c e s h1 h2 h3 he
  have hclose : decodeCommand c ≠ .close := fun hd => h3 (eq_of_decodeCommand_eq hd rfl)
  exact exec_of_err (spaceOf_decodeCommand c) (opens_decodeCommand h1 h2) hclose he

/-- The ranges of the reserved bytes (30_encoding.md R103). -/
abbrev inReservedRange (c : Byte) : Prop :=
  c.toNat = 0 ∨ (0x04 ≤ c.toNat ∧ c.toNat ≤ 0x0F) ∨ (0x13 ≤ c.toNat ∧ c.toNat ≤ 0x1F)
    ∨ (0x22 ≤ c.toNat ∧ c.toNat ≤ 0x27) ∨ c.toNat = 0x2F ∨ 0x31 ≤ c.toNat

/-- None of the 16 codes lies in a reserved range. -/
theorem not_inReservedRange_of_mem : ∀ c ∈ commandCodes, ¬ inReservedRange c := by decide

/-- Settles O22: a byte of the ranges is none of the 16 codes, and its row raises once it is accepted. -/
theorem reservedCommandRaises : Obligations.ReservedCommandRaises := by
  unfold Obligations.ReservedCommandRaises
  intro c s hc he
  have hcode : c ∉ commandCodes := fun h => not_inReservedRange_of_mem c h hc
  exact ⟨decodeCommand_reserved hcode, acceptAny_ok he⟩

/-! `OPEN.*` and `CLOSE`. -/

theorem openSession_of_open (m : Mode) {s : State} (h : s.mode ≠ .closed) :
    openSession m s = .stop (fatal .badMode 0 (s.mode.code.setWidth 32) s) :=
  if_pos h

theorem openSession_of_closed (m : Mode) {s : State} (h : s.mode = .closed) :
    openSession m s =
      if s.openOk = true then .ok () { loadReset s with mode := m }
      else .stop (fatal .openFailed 0 s.ioCause (loadReset s)) :=
  if_neg (not_not_intro h)

theorem closeSession_of_closed {s : State} (h : s.mode = .closed) : closeSession s = .ok () (endOk s) :=
  if_pos h

/-- The end of a session, with what it leaves also when the close fails (R244). -/
theorem closeSession_of_open {s : State} (h : s.mode ≠ .closed) :
    closeSession s =
      if s.closeOk = true then .ok () (endOk { s with mode := .closed, buf := bufReset })
      else .stop (fatal .closeFailed 0 s.ioCause { s with mode := .closed, buf := bufReset }) :=
  if_neg h

/-- Settles O25: the session's start by MODE and `OPEN_OK`; an accepted open starts from `loadReset`. -/
theorem openStartsSession : Obligations.OpenStartsSession := by
  unfold Obligations.OpenStartsSession
  intro s i m hi
  have hx : exec i s = finish (openSession m s) := by
    rcases hi with ⟨rfl, rfl⟩ | ⟨rfl, rfl⟩ <;> rfl
  rw [hx]
  refine ⟨fun hm => ?opened, fun hm ho => ?failed, fun hm ho => ?ok⟩
  case opened => rw [openSession_of_open m hm, finish_stop]
  case failed =>
    refine ⟨loadReset s, ?_, rfl⟩
    rw [openSession_of_closed m hm, if_neg (by rw [ho]; nofun), finish_stop]
  case ok =>
    rw [openSession_of_closed m hm, if_pos ho, finish_ok]
    rfl

/-- Settles O26: the session's end by MODE and `CLOSE_OK`. -/
theorem closeEndsSession : Obligations.CloseEndsSession := by
  unfold Obligations.CloseEndsSession
  intro s
  have hx : exec (decodeCommand 0x03) s = finish (closeSession s) := rfl
  rw [hx]
  refine ⟨fun hm => ?none, fun hm hc => ?ok, fun hm hc => ?failed⟩
  case none =>
    rw [closeSession_of_closed hm]
    rfl
  case ok =>
    rw [closeSession_of_open hm, if_pos hc]
    rfl
  case failed => rw [closeSession_of_open hm, if_neg (by rw [hc]; nofun), finish_stop]

end Sys2Proof.Machine
end

section
/-! SUPPORT. How a command ends (48_commands.md R256, 60_exceptions.md R263): either with ERR and ERRSUB kept or cleared and
STAGE where it was or moved as the stage machine allows, or by a `raise` of one of the command's own causes. -/

namespace Sys2Proof.Machine

/-- ERR and ERRSUB are those of `s`. -/
def errKept (s t : State) : Prop := t.err = s.err ∧ t.errSub = s.errSub

/-- The decode stack looks at neither register. -/
theorem errKept_closed (s : State) : StackClosed (errKept s) where
  raw t h := by
    rw [rawget_frame t]
    exact h
  free t u h hu := by
    rw [hu]
    exact h
  upper t u h hu := by
    rw [hu]
    exact h
  taken _ _ _ h _ := h

/-- What a command that does not raise leaves of ERR, ERRSUB and STAGE. -/
def endsWell (i : Instr) (s t : State) : Prop :=
  (errKept s t ∨ t.err = none ∧ t.errSub = none) ∧ (t.stage = s.stage ∨ stageMoves i s.stage t.stage = true)

theorem endsWell_of_kept {i : Instr} {s t : State} (he : errKept s t) (hg : t.stage = s.stage) : endsWell i s t :=
  ⟨.inl he, .inl hg⟩

theorem endsWell_of_moved {i : Instr} {s t : State} (he : errKept s t) (hg : stageMoves i s.stage t.stage = true) :
    endsWell i s t :=
  ⟨.inl he, .inr hg⟩

/-- `t` is a state in which a cause of the command `i` was raised. -/
abbrev endsRaised (i : Instr) (t : State) : Prop := raisedFrom (causesOf i) (fun _ => True) t

theorem endsRaised_fatal {i : Instr} {c : Cause} (hc : c ∈ causesOf i) (e f : Word) (s : State) :
    endsRaised i (fatal c e f s) :=
  ⟨c, e, f, s, rfl, trivial, hc⟩

/-- The two ends of the command `i` from `s`. -/
def commandEnd (i : Instr) (s t : State) : Prop := endsWell i s t ∨ endsRaised i t

/-- The same of a command's body. -/
abbrev bodyEnds (i : Instr) (s : State) (r : Res Unit) : Prop := r.meets (fun _ => endsWell i s) (endsRaised i)

/-- A body whose good ends are ends of the command, and whose causes are causes of the command. -/
theorem bodyEnds_of {i : Instr} {s : State} {Q : Unit → State → Prop} {cs : List Cause} {K : State → Prop} {r : Res Unit}
    (h : r.meets Q (raisedFrom cs K)) (hQ : ∀ a t, Q a t → endsWell i s t) (hc : ∀ c ∈ cs, c ∈ causesOf i) :
    bodyEnds i s r :=
  Res.meets_mono h hQ fun _ ht => raisedFrom_mono ht hc fun _ _ => trivial

theorem commandEnd_of_finish {i : Instr} {s t : State} {r : Res Unit} (h : bodyEnds i s r) (ht : finish r = .next t) :
    commandEnd i s t := by
  cases r with
  | ok a u => cases ht; exact .inl h
  | stop u => cases ht; exact .inr h

/-- A command that needs a session: its causes hold those of acceptance (R240), and its body ends as the command may when
STAGE is the one it needs. -/
theorem commandEnd_of_accept {i : Instr} {need : Mode} {g : Option Stage} {body : State → Res Unit} {s t : State}
    (hm : .badMode ∈ causesOf i) (hg : g ≠ none → .badStage ∈ causesOf i)
    (hb : (∀ x, g = some x → s.stage = x) → bodyEnds i s (body s)) (ht : accept need g body s = .next t) :
    commandEnd i s t := by
  rcases accept_cases need g body s with ⟨c, -, ha⟩ | ⟨-, c, e, f, hc, ha⟩ | ⟨-, -, hs, ha⟩
  · cases ha.symm.trans ht
    exact .inl (endsWell_of_kept ⟨rfl, rfl⟩ rfl)
  · cases ha.symm.trans ht
    rcases hc with rfl | ⟨rfl, hne⟩
    · exact .inr (endsRaised_fatal hm e f s)
    · exact .inr (endsRaised_fatal (hg hne) e f s)
  · exact commandEnd_of_finish (hb hs) (ha.symm.trans ht)

theorem commandEnd_of_acceptAny {i : Instr} {body : State → Res Unit} {s t : State} (hb : bodyEnds i s (body s))
    (ht : acceptAny body s = .next t) : commandEnd i s t := by
  rcases acceptAny_cases body s with ⟨c, -, ha⟩ | ⟨-, ha⟩
  · cases ha.symm.trans ht
    exact .inl (endsWell_of_kept ⟨rfl, rfl⟩ rfl)
  · exact commandEnd_of_finish hb (ha.symm.trans ht)

/-! The bodies. -/

/-- `OPEN.*` that is accepted clears the error and starts in `SEARCHING` (R242). -/
theorem openSession_bodyEnds {i : Instr} (hc : causesOf i = [.badMode, .openFailed])
    (hg : ∀ g, stageMoves i g .searching = true) (m : Mode) (s : State) : bodyEnds i s (openSession m s) := by
  refine Res.meets_mono (openSession_meets m s) ?_ ?_
  · rintro - t ⟨-, rfl⟩
    exact ⟨.inr ⟨rfl, rfl⟩, .inr (hg s.stage)⟩
  · rintro t (⟨-, e, f, rfl⟩ | ⟨-, e, f, rfl⟩)
    · exact endsRaised_fatal (by simp [hc]) e f s
    · exact endsRaised_fatal (by simp [hc]) e f (loadReset s)

/-- `CLOSE` leaves ERR, ERRSUB and STAGE (R244). -/
theorem closeSession_bodyEnds (s : State) : bodyEnds .close s (closeSession s) := by
  refine Res.meets_mono (closeSession_meets s) ?_ ?_
  · rintro - t (⟨-, rfl⟩ | ⟨-, rfl⟩) <;> exact endsWell_of_kept ⟨rfl, rfl⟩ rfl
  · rintro t ⟨-, e, f, rfl⟩
    exact endsRaised_fatal (by simp [causesOf]) e f _

/-- `BHX.HDR` from `SEARCHING` ends in `FORK_DATA` (45_binhex_records.md R190). -/
theorem hdrBody_bodyEnds {s : State} (hg : s.stage = .searching) : bodyEnds .bhxHdr s (hdrBody s) := by
  have hloc : (locate s).meets (fun _ => errKept s) (endsRaised .bhxHdr) := by
    refine Res.meets_mono (locate_frame s) ?_ fun t ht => raisedFrom_mono ht (by simp [causesOf]) fun _ _ => trivial
    rintro - t ⟨p, rfl⟩
    exact ⟨rfl, rfl⟩
  refine Res.meets_bind hloc fun _ u hu => ?_
  refine bodyEnds_of (headerRecord_keeps (errKept_closed s).rawClosed (fun _ _ hv _ _ => hv) u hu) ?_
    (by simp [headerCauses, causesOf])
  rintro - t ⟨v, hv, rfl⟩
  exact endsWell_of_moved hv (by rw [hg]; rfl)

/-- A fork's body ends with the fork's next stage (45_binhex_records.md R198, R199). -/
theorem forkBody_bodyEnds {i : Instr} (k : Sink) (len : Word) {s : State}
    (hg : ∀ c u, stageMoves i s.stage (forkDone k c u).stage = true)
    (hc : ∀ c ∈ Cause.negLength :: forkCauses, c ∈ causesOf i) : bodyEnds i s (forkBody k len s) := by
  have hsink : ∀ v u, errKept s u → errKept s (appendSink k v u) := by
    intro v u hu
    cases k <;> exact hu
  refine bodyEnds_of (forkBody_meets (errKept_closed s).rawClosed k hsink len s ⟨rfl, rfl⟩) ?_ hc
  rintro - t ⟨u, c, ⟨herr, hsub⟩, rfl⟩
  refine endsWell_of_moved ⟨?_, ?_⟩ (hg c u)
  · rw [forkDone_err, herr]
  · rw [forkDone_errSub, hsub]

theorem sitHdrBody_bodyEnds (s : State) : bodyEnds .sitHdr s (sitHdrBody s) := by
  refine bodyEnds_of (sitHdrBody_meets s) ?_ (by simp [causesOf])
  rintro - t ⟨m, rfl⟩
  exact endsWell_of_kept ⟨rfl, rfl⟩ rfl

theorem sitNextBody_bodyEnds (s : State) : bodyEnds .sitNext s (sitNextBody s) := by
  refine bodyEnds_of (sitNextBody_meets s) ?_ (by simp [causesOf])
  rintro - t (⟨-, rfl⟩ | ⟨-, rfl⟩)
  · exact endsWell_of_kept ⟨rfl, rfl⟩ rfl
  · rw [entryRecord_eq]
    exact endsWell_of_kept ⟨rfl, rfl⟩ rfl

theorem accessorBody_bodyEnds {i : Instr} (hc : .noEntry ∈ causesOf i) (f : EntryRegs → Pos) (s : State) :
    bodyEnds i s (accessorBody f s) := by
  cases hv : s.seValid with
  | true =>
    rw [accessorBody_valid f hv]
    exact endsWell_of_kept ⟨rfl, rfl⟩ rfl
  | false =>
    rw [accessorBody_invalid f hv]
    exact endsRaised_fatal hc 1 0 s

theorem xlitBody_bodyEnds (s : State) : bodyEnds .xlit s (xlitBody s) := by
  refine bodyEnds_of (xlitBody_meets s) ?_ (by simp [causesOf])
  rintro - t ⟨d, n, -, rfl⟩
  exact endsWell_of_kept ⟨rfl, rfl⟩ rfl

/-- A reserved byte's body is the `raise` (R241). -/
theorem reserved_bodyEnds (c : Byte) (s : State) :
    bodyEnds (.reservedCommand c) s (raise .illegalCmd 0 (c.setWidth 32) s) :=
  endsRaised_fatal (i := .reservedCommand c) (by simp [causesOf]) 0 (c.setWidth 32) s

/-! The commands. -/

theorem causesOf_accessor {i : Instr} (hi : i ∈ accessorCommands) : causesOf i = [.badMode, .noEntry] := by
  simp only [accessorCommands, List.mem_cons, List.not_mem_nil, or_false] at hi
  rcases hi with rfl | rfl | rfl | rfl | rfl | rfl | rfl <;> rfl

/-- Every command ends in one of its two ways. -/
theorem exec_commandEnd {i : Instr} (hi : spaceOf i = .command) {s t : State} (ht : exec i s = .next t) :
    commandEnd i s t := by
  rcases exec_command hi s with ⟨rfl, he⟩ | ⟨rfl, he⟩ | ⟨rfl, he⟩ | ⟨rfl, he⟩ | ⟨rfl, he⟩ | ⟨rfl, he⟩ | ⟨rfl, he⟩
    | ⟨rfl, he⟩ | ⟨ha, f, he⟩ | ⟨rfl, he⟩ | ⟨c, rfl, he⟩
  all_goals rw [he] at ht
  · exact commandEnd_of_finish (openSession_bodyEnds rfl (fun _ => rfl) .bhx s) ht
  · exact commandEnd_of_finish (openSession_bodyEnds rfl (fun _ => rfl) .sit s) ht
  · exact commandEnd_of_finish (closeSession_bodyEnds s) ht
  · exact commandEnd_of_accept (by simp [causesOf]) (by simp [causesOf]) (fun hg => hdrBody_bodyEnds (hg _ rfl)) ht
  · refine commandEnd_of_accept (by simp [causesOf]) (by simp [causesOf]) (fun hg => ?_) ht
    exact forkBody_bodyEnds .data _ (fun _ _ => by rw [hg _ rfl]; rfl) (by simp [forkCauses, causesOf])
  · refine commandEnd_of_accept (by simp [causesOf]) (by simp [causesOf]) (fun hg => ?_) ht
    exact forkBody_bodyEnds .rsrc _ (fun _ _ => by rw [hg _ rfl]; rfl) (by simp [forkCauses, causesOf])
  · exact commandEnd_of_accept (by simp [causesOf]) (absurd rfl) (fun _ => sitHdrBody_bodyEnds s) ht
  · exact commandEnd_of_accept (by simp [causesOf]) (absurd rfl) (fun _ => sitNextBody_bodyEnds s) ht
  · have hc := causesOf_accessor ha
    exact commandEnd_of_accept (by simp [hc]) (absurd rfl) (fun _ => accessorBody_bodyEnds (by simp [hc]) f s) ht
  · exact commandEnd_of_acceptAny (xlitBody_bodyEnds s) ht
  · exact commandEnd_of_acceptAny (reserved_bodyEnds c s) ht

/-- Settles O13: a good end moves STAGE as the command may, and a `raise` leaves it in `ERROR` with ERR set. -/
theorem stageTransitions : Obligations.StageTransitions := by
  unfold Obligations.StageTransitions
  intro s t i hi ht
  rcases exec_commandEnd hi ht with ⟨-, hsame | hmove⟩ | ⟨c, e, f, u, rfl, -, -⟩
  · exact .inl hsame
  · exact .inr (.inr hmove)
  · exact .inr (.inl ⟨fatal_stage c e f u, Option.some_ne_none _⟩)

/-- Settles O14: a good end keeps or clears ERR and ERRSUB, and a `raise` writes the registers R270 names. -/
theorem causesOfCommands : Obligations.CausesOfCommands := by
  unfold Obligations.CausesOfCommands
  intro s t i hi ht
  rcases exec_commandEnd hi ht with ⟨hkept | hclear, -⟩ | ⟨c, e, f, u, rfl, -, hc⟩
  · exact .inl hkept
  · exact .inr (.inl hclear)
  · exact .inr (.inr ⟨c, hc, rfl, rfl, rfl, rfl, rfl⟩)

end Sys2Proof.Machine
end

section
/-! SUPPORT. What the commands that start no session leave (48_commands.md R240): a property of the state a command answers
follows from the same property of each way its body can end. -/

namespace Sys2Proof.Machine

/-- `P` of the state an operation leaves, whether it goes on or a `raise` ended it. -/
abbrev Res.leaves {α : Type} (P : State → Prop) (r : Res α) : Prop := r.meets (fun _ => P) P

theorem Res.leaves_of {α : Type} {P K : State → Prop} {Q : α → State → Prop} {cs : List Cause} {r : Res α}
    (h : r.meets Q (raisedFrom cs K)) (hQ : ∀ a t, Q a t → P t) (hK : ∀ c e f u, K u → P (fatal c e f u)) :
    r.leaves P := by
  refine Res.meets_mono h hQ ?_
  rintro - ⟨c, e, f, u, rfl, hu, -⟩
  exact hK c e f u hu

theorem Res.leaves_finish {α : Type} {P : State → Prop} {r : Res α} {t : State} (h : r.leaves P)
    (ht : finish r = .next t) : P t :=
  (Res.meets_of_finish h ht).elim (fun ⟨_, hP⟩ => hP) id

/-- What must be shown of the state `s` for every end of the command `i` from it to meet `P`: the sticky error, a `raise`
that finds the registers as the command met them, and the ends of the body. -/
structure CommandLeaves (i : Instr) (P : State → Prop) (s : State) : Prop where
  sticky : ∀ c, s.err = some c → P { s with status := .failed c }
  raised : ∀ c e f, P (fatal c e f s)
  close : i = .close → (closeSession s).leaves P
  hdr : i = .bhxHdr → s.err = none → s.mode = .bhx → (hdrBody s).leaves P
  data : i = .bhxData → s.err = none → s.mode = .bhx → s.stage = .forkData → (forkBody .data s.bh.dlen s).leaves P
  rsrc : i = .bhxRsrc → s.err = none → s.mode = .bhx → s.stage = .forkRsrc → (forkBody .rsrc s.bh.rlen s).leaves P
  sitHdr : i = .sitHdr → s.err = none → s.mode = .sit → (sitHdrBody s).leaves P
  sitNext : i = .sitNext → s.err = none → s.mode = .sit → (sitNextBody s).leaves P
  answer : i ∈ accessorCommands → s.err = none → s.mode = .sit → ∀ r, P (answer r s)
  xlit : i = .xlit → s.err = none → ∀ d n, d.length = 64 → P (endOk { s with xl := { s.xl with dst := d, dstLen := n } })

theorem accept_leaves {P : State → Prop} {need : Mode} {g : Option Stage} {body : State → Res Unit} {s t : State}
    (hsticky : ∀ c, s.err = some c → P { s with status := .failed c }) (hraised : ∀ c e f, P (fatal c e f s))
    (hbody : s.err = none → s.mode = need → (∀ x, g = some x → s.stage = x) → (body s).leaves P)
    (ht : accept need g body s = .next t) : P t := by
  rcases accept_cases need g body s with ⟨c, he, ha⟩ | ⟨-, c, e, f, -, ha⟩ | ⟨he, hm, hg, ha⟩
  · cases ha.symm.trans ht
    exact hsticky c he
  · cases ha.symm.trans ht
    exact hraised c e f
  · exact Res.leaves_finish (hbody he hm hg) (ha.symm.trans ht)

theorem acceptAny_leaves {P : State → Prop} {body : State → Res Unit} {s t : State}
    (hsticky : ∀ c, s.err = some c → P { s with status := .failed c })
    (hbody : s.err = none → (body s).leaves P) (ht : acceptAny body s = .next t) : P t := by
  rcases acceptAny_cases body s with ⟨c, he, ha⟩ | ⟨he, ha⟩
  · cases ha.symm.trans ht
    exact hsticky c he
  · exact Res.leaves_finish (hbody he) (ha.symm.trans ht)

theorem accessorBody_leaves {P : State → Prop} {f : EntryRegs → Pos} {s : State} (hr : ∀ c e f, P (fatal c e f s))
    (ha : ∀ r, P (answer r s)) : (accessorBody f s).leaves P := by
  unfold accessorBody
  split
  · exact ha _
  · exact hr _ _ _

theorem xlitBody_leaves {P : State → Prop} {s : State} (hr : ∀ c e f, P (fatal c e f s))
    (hx : ∀ d n, d.length = 64 → P (endOk { s with xl := { s.xl with dst := d, dstLen := n } })) :
    (xlitBody s).leaves P := by
  refine Res.leaves_of (xlitBody_meets s) ?_ ?_
  · rintro - t ⟨d, n, hd, rfl⟩
    exact hx d n hd
  · rintro c e f u rfl
    exact hr c e f

/-- Every command but `OPEN.*` ends in a state that meets `P`. -/
theorem exec_leaves {i : Instr} {P : State → Prop} {s t : State} (h : CommandLeaves i P s) (hi : spaceOf i = .command)
    (ho : opens i = false) (ht : exec i s = .next t) : P t := by
  rcases exec_command hi s with ⟨rfl, -⟩ | ⟨rfl, -⟩ | ⟨hc, he⟩ | ⟨hc, he⟩ | ⟨hc, he⟩ | ⟨hc, he⟩ | ⟨hc, he⟩ | ⟨hc, he⟩
    | ⟨hc, f, he⟩ | ⟨hc, he⟩ | ⟨c, -, he⟩
  · cases ho
  · cases ho
  all_goals rw [he] at ht
  · exact Res.leaves_finish (h.close hc) ht
  · exact accept_leaves h.sticky h.raised (fun he hm _ => h.hdr hc he hm) ht
  · exact accept_leaves h.sticky h.raised (fun he hm hg => h.data hc he hm (hg _ rfl)) ht
  · exact accept_leaves h.sticky h.raised (fun he hm hg => h.rsrc hc he hm (hg _ rfl)) ht
  · exact accept_leaves h.sticky h.raised (fun he hm _ => h.sitHdr hc he hm) ht
  · exact accept_leaves h.sticky h.raised (fun he hm _ => h.sitNext hc he hm) ht
  · exact accept_leaves h.sticky h.raised (fun he hm _ => accessorBody_leaves h.raised (h.answer hc he hm)) ht
  · exact acceptAny_leaves h.sticky (fun he => xlitBody_leaves h.raised (h.xlit hc he)) ht
  · have hreserved : Res.leaves (α := Unit) P (raise .illegalCmd 0 (c.setWidth 32) s) := h.raised _ _ _
    exact acceptAny_leaves h.sticky (fun _ => hreserved) ht

/-- A predicate that survives every change the decode stack makes is kept by the stack. -/
theorem stackClosed_of_frame {K : State → Prop} (h : ∀ s t, K s → stackFrame s t → K t) : StackClosed K where
  raw s hs := h s _ hs (by unfold stackFrame; rw [rawget_frame s])
  free s t hs ht := h s t hs (by unfold stackFrame; rw [ht])
  upper s t hs ht := h s t hs (by unfold stackFrame; rw [ht])
  taken s b r hs _ := h s _ hs rfl

end Sys2Proof.Machine
end

section
/-! SUPPORT. The invariant of the registers (10_state.md R26 to R29, R33, R35, R52, R56) is kept: by a `raise` and by a good
end over any state whose buffers and decode registers are in order, by the changes that do not look at those, and so by each
command and each action of the host. -/

namespace Sys2Proof.Machine

/-- A `raise` sets the control registers itself: of the state it finds only the buffers, the decode registers and the port
matter. -/
theorem inv_fatal {u : State} (hw : Memory.wf u.stream = true) (hz : sizesOk u) (hs : stackOk u)
    (hp : u.space = .command) (c : Cause) (e f : Word) : Inv (fatal c e f u) :=
  ⟨hw, hz, hs, ⟨by simp, rfl, fun _ h => by simpa using h, by simp, fun _ => .inr rfl⟩, hp, rfl, rfl⟩

theorem Inv.fatal {s : State} (h : Inv s) (c : Cause) (e f : Word) : Inv (fatal c e f s) := by
  obtain ⟨hw, hz, hs, -, hp, -, -⟩ := h
  exact inv_fatal hw hz hs hp c e f

/-- The control registers agree when no error is latched. -/
theorem controlOk_of_noError {t : State} (he : t.err = none) (hsub : t.errSub = none) (hst : ∀ c, t.status ≠ .failed c)
    (hne : t.stage ≠ .error) (hnh : t.stage ≠ .headerRead) (hm : t.mode = .sit → t.stage = .searching) : controlOk t :=
  ⟨by simp [he, hne], by simp [he, hsub], fun c hc => absurd hc (hst c), hnh, fun h => .inl (hm h)⟩

/-- Before the first error ERRSUB holds none (60_exceptions.md R261). -/
theorem errSub_of_err {s : State} (h : controlOk s) (he : s.err = none) : s.errSub = none := by
  obtain ⟨-, hsub, -⟩ := h
  rw [he] at hsub
  exact Option.map_eq_none_iff.mp hsub

/-- The invariant does not look at POS, the record registers' values, the answers and the host's list; of REC, the names and
the transliterator's buffers it asks the size, of STATUS that a failure is ERR's. -/
theorem Inv.update {s t : State} (h : Inv s)
    (ht : t = { s with
      pos := t.pos, saValid := t.saValid, seValid := t.seValid, status := t.status, result := t.result, sa := t.sa,
      se := t.se, xl := t.xl, recb := t.recb, openOk := t.openOk, closeOk := t.closeOk, ioCause := t.ioCause,
      todo := t.todo })
    (hz : t.se.name.length = 63 ∧ t.se.pname.length = 63 ∧ t.xl.src.length = 64 ∧ t.xl.dst.length = 64
      ∧ t.recb.length = 112)
    (hf : ∀ c, t.status = .failed c → s.err = some c) : Inv t := by
  obtain ⟨hw, ⟨hn, hpn, -, -, -, -, hbuf, -⟩, hs, ⟨he, hsub, -, hnh, hm⟩, hidle⟩ := h
  obtain ⟨hsn, hspn, hsrc, hdst, hrec⟩ := hz
  refine ⟨?_, ⟨?_, ?_, hsn, hspn, hsrc, hdst, ?_, hrec⟩, ?_, ⟨?_, ?_, fun c hc => ?failed, ?_, ?_⟩, ?_⟩
  case failed =>
    rw [ht]
    exact hf c hc
  all_goals
    rw [ht]
    assumption

/-- The sizes that `Inv.update` asks for, of a state that meets the invariant. -/
theorem Inv.sizes {s : State} (h : Inv s) :
    s.se.name.length = 63 ∧ s.se.pname.length = 63 ∧ s.xl.src.length = 64 ∧ s.xl.dst.length = 64
      ∧ s.recb.length = 112 := by
  obtain ⟨-, ⟨-, -, hsn, hspn, hsrc, hdst, -, hrec⟩, -⟩ := h
  exact ⟨hsn, hspn, hsrc, hdst, hrec⟩

/-! The sessions. -/

/-- What an accepted `OPEN.*` loads (48_commands.md R242), with the mode of the session it starts. -/
theorem loadReset_inv {s : State} (h : Inv s) (m : Mode) : Inv { loadReset s with mode := m } := by
  obtain ⟨hw, ⟨-, -, -, -, hsrc, hdst, -, -⟩, -, -, hp, -, -⟩ := h
  obtain ⟨hn, hpn, hsn, hspn, -, -, hbuf, hrec⟩ := resetEvent_sizesOk s
  exact ⟨hw, ⟨hn, hpn, hsn, hspn, hsrc, hdst, hbuf, hrec⟩, resetEvent_stackOk s,
    controlOk_of_noError rfl rfl nofun nofun nofun fun _ => rfl, hp, rfl, rfl⟩

theorem openSession_inv (m : Mode) {s : State} (h : Inv s) : (openSession m s).leaves Inv := by
  refine Res.meets_mono (openSession_meets m s) ?_ ?_
  · rintro - t ⟨-, rfl⟩
    exact loadReset_inv h m
  · rintro t (⟨-, e, f, rfl⟩ | ⟨-, e, f, rfl⟩)
    · exact h.fatal _ e f
    · exact (loadReset_inv h .closed).fatal _ e f

/-- The end of a session empties the read buffer (20_memory.md R89), which keeps its size and its bounds. -/
theorem inv_closed {s : State} (h : Inv s) : Inv { s with mode := .closed, buf := bufReset, status := .ok } := by
  obtain ⟨hw, ⟨hn, hpn, hsn, hspn, hsrc, hdst, -, hrec⟩, ⟨hring, hlo, hhi, hsev, -, -⟩, ⟨he, hsub, -, hnh, -⟩, hidle⟩ := h
  exact ⟨hw, ⟨hn, hpn, hsn, hspn, hsrc, hdst, bufReset_length, hrec⟩,
    ⟨hring, hlo, hhi, hsev, Nat.le_refl _, Nat.zero_le _⟩, ⟨he, hsub, nofun, hnh, nofun⟩, hidle⟩

theorem closeSession_inv {s : State} (h : Inv s) : (closeSession s).leaves Inv := by
  refine Res.meets_mono (closeSession_meets s) ?_ ?_
  · rintro - t (⟨-, rfl⟩ | ⟨-, rfl⟩)
    · exact h.update rfl h.sizes nofun
    · exact inv_closed (s := s) h
  · rintro t ⟨-, e, f, rfl⟩
    exact (inv_closed (s := s) h).fatal .closeFailed e f

/-! The BinHex commands. -/

/-- What a BinHex command in a session without an error does not touch of what the invariant speaks of, beside the names and
the decode registers. -/
structure BhxRun (s : State) : Prop where
  wf : Memory.wf s.stream = true
  seName : s.se.name.length = 63
  sePname : s.se.pname.length = 63
  src : s.xl.src.length = 64
  dst : s.xl.dst.length = 64
  recb : s.recb.length = 112
  err : s.err = none
  errSub : s.errSub = none
  mode : s.mode = .bhx
  space : s.space = .command
  dbuf : s.dbuf = []

theorem bhxRun_of_inv {s : State} (h : Inv s) (he : s.err = none) (hm : s.mode = .bhx) : BhxRun s := by
  obtain ⟨hw, ⟨-, -, hsn, hspn, hsrc, hdst, -, hrec⟩, -, hctl, hp, -, hd⟩ := h
  exact ⟨hw, hsn, hspn, hsrc, hdst, hrec, he, errSub_of_err hctl he, hm, hp, hd⟩

theorem bhxRun_closed : StackClosed BhxRun where
  raw s h := by
    rw [rawget_frame s]
    exact { h with }
  free s t h ht := by
    rw [ht]
    exact { h with }
  upper s t h ht := by
    rw [ht]
    exact { h with }
  taken s b r h hd := absurd (hd.symm.trans h.dbuf) nofun

/-- The sizes of all buffers, of a run whose names and read buffer have theirs. -/
theorem BhxRun.sizesOk {s : State} (h : BhxRun s) (hn : namesOk s) (hb : bufWf s) : sizesOk s :=
  ⟨hn.1, hn.2, h.seName, h.sePname, h.src, h.dst, hb.1, h.recb⟩

/-- What stands between the micro-operations of a BinHex command. -/
abbrev runK (s : State) : Prop := BhxRun s ∧ namesOk s

theorem runK_closed : StackClosed runK where
  raw s h := ⟨bhxRun_closed.raw s h.1, by rw [rawget_frame s]; exact h.2⟩
  free s t h ht := ⟨bhxRun_closed.free s t h.1 ht, by rw [ht]; exact h.2⟩
  upper s t h ht := ⟨bhxRun_closed.upper s t h.1 ht, by rw [ht]; exact h.2⟩
  taken s b r h hd := ⟨bhxRun_closed.taken s b r h.1 hd, h.2⟩

theorem restK_of_inv {s : State} (h : Inv s) (he : s.err = none) (hm : s.mode = .bhx) : restK runK s := by
  have hrun := bhxRun_of_inv h he hm
  obtain ⟨-, ⟨hn, hpn, -, -, -, -, hbuf, -⟩, hs, -, -, hg, -⟩ := h
  obtain ⟨-, -, -, -, hidx, hfill⟩ := id hs
  exact ⟨⟨⟨hs, hbuf, hidx, hfill⟩, hrun, hn, hpn⟩, hg⟩

/-- A `raise` inside a BinHex command. -/
theorem inv_of_runFail {u : State} (h : boundK runK u) (c : Cause) (e f : Word) : Inv (fatal c e f u) := by
  obtain ⟨⟨hs, hb⟩, hrun, hn⟩ := h
  exact inv_fatal hrun.wf (hrun.sizesOk hn hb) hs hrun.space c e f

/-- The good end of a BinHex command: STATUS is `OK`, and STAGE none of the two that need more. -/
theorem inv_of_runEnd {u t : State} (h : restK runK u)
    (ht : t = { u with bh := t.bh, bhValid := t.bhValid, stage := t.stage, status := .ok })
    (hn : namesOk t) (hne : t.stage ≠ .error) (hnh : t.stage ≠ .headerRead) : Inv t := by
  obtain ⟨⟨⟨hs, hb⟩, hrun, -⟩, hg⟩ := h
  have hm : t.mode ≠ .sit := by
    rw [ht]
    exact fun h => nomatch hrun.mode.symm.trans h
  refine ⟨?_, ?sizes, ?_, controlOk_of_noError ?_ ?_ ?_ hne hnh fun h => absurd h hm, ?_, ?_, ?_⟩
  case sizes =>
    refine BhxRun.sizesOk ?_ hn ?_
    · rw [ht]
      exact { hrun with }
    · rw [ht]
      exact hb
  all_goals rw [ht]
  · exact hrun.wf
  · exact hs
  · exact hrun.err
  · exact hrun.errSub
  · nofun
  · exact hrun.space
  · exact hg
  · exact hrun.dbuf

theorem headerRecord_inv {s : State} (h : restK runK s) : (headerRecord s).leaves Inv := by
  have hfree : ∀ u r v, BhxRun u → BhxRun { u with bh := r, bhValid := v } := fun u r v hu => { hu with }
  obtain ⟨⟨hbound, hrun, -⟩, hg⟩ := h
  refine Res.leaves_of (headerRecord_meets bhxRun_closed hfree s ⟨⟨hbound, hrun⟩, hg⟩) ?_ ?_
  · rintro - t ⟨u, ⟨⟨hbound, hrun, hn, -⟩, hg⟩, rfl⟩
    exact inv_of_runEnd ⟨⟨hbound, hrun, hn⟩, hg⟩ rfl hn nofun nofun
  · rintro c e f u ⟨hbound, hrun, hn, -⟩
    exact inv_of_runFail ⟨hbound, hrun, hn⟩ c e f

/-- The locator's match (41_stream_locate.md R154) empties the read buffer, and moves POS and STAGE. -/
theorem locateMatched_restK {s : State} (h : restK runK s) (p : Pos) : restK runK (locateMatched { s with pos := p }) := by
  obtain ⟨⟨⟨⟨hring, hlo, hhi, hsev, -, -⟩, hbytes, -, -⟩, hrun, hn⟩, hg⟩ := h
  exact ⟨⟨⟨⟨hring, hlo, hhi, hsev, Nat.le_refl _, Nat.zero_le _⟩, hbytes, Nat.le_refl _, Nat.zero_le _⟩,
    { hrun with }, hn⟩, hg⟩

theorem hdrBody_inv {s : State} (h : restK runK s) : (hdrBody s).leaves Inv := by
  have hloc : (locate s).meets (fun _ => restK runK) Inv := by
    refine Res.meets_mono (locate_frame s) ?_ ?_
    · rintro - t ⟨p, rfl⟩
      exact locateMatched_restK h p
    · rintro - ⟨c, e, f, u, rfl, hu, -⟩
      refine inv_of_runFail ?_ c e f
      obtain ⟨⟨hbound, hrun, hn⟩, -⟩ := h
      rw [hu]
      exact ⟨hbound, { hrun with }, hn⟩
  exact Res.meets_bind hloc fun _ t ht => headerRecord_inv ht

theorem appendSink_restK (k : Sink) (v : Byte) (s : State) (h : restK runK s) : restK runK (appendSink k v s) := by
  obtain ⟨⟨hbound, hrun, hn⟩, hg⟩ := h
  cases k <;> exact ⟨⟨hbound, { hrun with }, hn⟩, hg⟩

theorem forkDone_inv (k : Sink) (c : Half) {u : State} (h : restK runK u) : Inv (forkDone k c u) := by
  obtain ⟨⟨-, -, hn⟩, -⟩ := id h
  cases k <;> exact inv_of_runEnd h rfl hn nofun nofun

theorem forkBody_inv (k : Sink) (len : Word) {s : State} (h : restK runK s) : (forkBody k len s).leaves Inv := by
  refine Res.leaves_of (forkBody_meets (stackOk_closed runK_closed) k (appendSink_restK k) len s h) ?_ ?_
  · rintro - t ⟨u, c, hu, rfl⟩
    exact forkDone_inv k c hu
  · exact fun c e f u hu => inv_of_runFail hu c e f

/-! The StuffIt commands. -/

/-- A block read fills REC's front and moves POS (46_stuffit_records.md R211). -/
theorem blockRead_inv {s : State} (h : Inv s) {n : Nat} (hn : n ≤ 112) : Inv (blockRead n s) := by
  obtain ⟨hsn, hspn, hsrc, hdst, hrec⟩ := h.sizes
  have hgot := blockGot_length_le n s
  obtain ⟨-, -, -, ⟨-, -, hf, -⟩, -⟩ := id h
  exact h.update rfl ⟨hsn, hspn, hsrc, hdst, loadRec_length _ s hrec (by omega)⟩ hf

theorem entryRecord_inv {s : State} (h : Inv s) : Inv (entryRecord s) := by
  obtain ⟨-, -, hsrc, hdst, hrec⟩ := h.sizes
  rw [entryRecord_eq]
  exact h.update rfl ⟨entryOf_name_length _ _, entryOf_pname_length _ _, hsrc, hdst, hrec⟩ nofun

theorem sitHdrBody_inv {s : State} (h : Inv s) : (sitHdrBody s).leaves Inv := by
  obtain ⟨-, -, -, ⟨-, -, hf, -⟩, -⟩ := id h
  have hread : Inv (blockRead sitHdrSize { s with saValid := false }) :=
    blockRead_inv (h.update rfl h.sizes hf) (by decide)
  refine Res.leaves_of (sitHdrBody_meets s) ?_ ?_
  · rintro - t ⟨m, rfl⟩
    exact hread.update rfl hread.sizes nofun
  · rintro c e f u rfl
    exact hread.fatal c e f

theorem sitNextBody_inv {s : State} (h : Inv s) : (sitNextBody s).leaves Inv := by
  obtain ⟨-, -, -, ⟨-, -, hf, -⟩, -⟩ := id h
  have hread : Inv (blockRead sitEntSize { s with seValid := false }) :=
    blockRead_inv (h.update rfl h.sizes hf) (by decide)
  refine Res.leaves_of (sitNextBody_meets s) ?_ ?_
  · rintro - t (⟨-, rfl⟩ | ⟨-, rfl⟩)
    · exact h.update rfl h.sizes nofun
    · exact entryRecord_inv hread
  · rintro c e f u rfl
    exact hread.fatal c e f

/-! The commands and the steps. -/

theorem commandLeaves_inv (i : Instr) {s : State} (h : Inv s) : CommandLeaves i Inv s where
  sticky c he := h.update rfl h.sizes fun d hd => by cases hd; exact he
  raised := h.fatal
  close _ := closeSession_inv h
  hdr _ he hm := hdrBody_inv (restK_of_inv h he hm)
  data _ he hm _ := forkBody_inv .data _ (restK_of_inv h he hm)
  rsrc _ he hm _ := forkBody_inv .rsrc _ (restK_of_inv h he hm)
  sitHdr _ _ _ := sitHdrBody_inv h
  sitNext _ _ _ := sitNextBody_inv h
  answer _ _ _ _ := h.update rfl h.sizes nofun
  xlit _ _ d n hd := by
    obtain ⟨hsn, hspn, hsrc, -, hrec⟩ := h.sizes
    exact h.update rfl ⟨hsn, hspn, hsrc, hd, hrec⟩ nofun

theorem exec_inv {i : Instr} (hi : spaceOf i = .command) {s t : State} (h : Inv s) (ht : exec i s = .next t) : Inv t := by
  cases ho : opens i with
  | false => exact exec_leaves (commandLeaves_inv i h) hi ho ht
  | true =>
    cases i
    case openBhx => exact Res.leaves_finish (openSession_inv .bhx h) ht
    case openSit => exact Res.leaves_finish (openSession_inv .sit h) ht
    all_goals cases ho

/-- The host takes an action off its list, and sets its answers and the transliterator's inputs (48_commands.md R250). -/
theorem inv_of_hostWrite {s t : State} (h : Inv s) (hsrc : t.xl.src.length = 64)
    (ht : t = { s with
      todo := t.todo, openOk := t.openOk, closeOk := t.closeOk, ioCause := t.ioCause
      xl := { s.xl with src := t.xl.src, srcLen := t.xl.srcLen, dstCap := t.xl.dstCap } }) : Inv t := by
  obtain ⟨hsn, hspn, -, hdst, hrec⟩ := h.sizes
  obtain ⟨-, -, -, ⟨-, -, hf, -⟩, -⟩ := id h
  refine h.update (by rw [ht]) ⟨?_, ?_, hsrc, ?_, ?_⟩ fun c hc => hf c ?failed
  case failed =>
    rw [ht] at hc
    exact hc
  all_goals
    rw [ht]
    assumption

/-- Settles O10: the command byte by the command's ends, the reset event by what it loads, another stream by its form. -/
theorem stepKeepsInv : Obligations.StepKeepsInv := by
  unfold Obligations.StepKeepsInv
  intro s t h ht
  obtain ⟨-, -, hsrc, -, -⟩ := h.sizes
  have htodo : ∀ r, Inv { s with todo := r } := fun r => inv_of_hostWrite h hsrc rfl
  obtain ⟨hwf, -, -, -, hspace, -, -⟩ := id h
  rcases step_cases hspace with ⟨-, hs⟩ | ⟨c, r, -, hs⟩ | ⟨r, -, hs⟩ | ⟨bs, r, -, ⟨-, hs⟩ | ⟨-, -, hs⟩ | ⟨-, -, hs⟩⟩
    | ⟨o, c, w, r, -, hs⟩ | ⟨i, b, r, -, hs⟩ | ⟨n, r, -, hs⟩ | ⟨n, r, -, hs⟩
  case inr.inl => exact exec_inv (spaceOf_decodeCommand c) (htodo r) (hs.symm.trans ht)
  all_goals cases hs.symm.trans ht
  · exact h
  · exact resetEvent_inv hwf
  · exact ⟨Memory.wf_ofBytes bs, (htodo r).2⟩
  · exact inv_of_hostWrite h hsrc rfl
  · exact inv_of_hostWrite h (by rw [List.length_set]; exact hsrc) rfl
  · exact inv_of_hostWrite h hsrc rfl
  · exact inv_of_hostWrite h hsrc rfl

end Sys2Proof.Machine
end

section
/-! SUPPORT. The invariant of POS and the read buffer (10_state.md R24, 41_stream_locate.md R152, 46_stuffit_records.md R221)
is kept, and no command but `OPEN.*` moves POS back (R24, 48_commands.md R258). Both are shown of one predicate. -/

namespace Sys2Proof.Machine

/-- The invariant, with POS at `p` or beyond. -/
abbrev MovedOn (p : Nat) (t : State) : Prop := PosInv t ∧ p ≤ t.pos.toNat

/-- In stage `ERROR` nothing is asked of the read buffer but its size. -/
theorem posInv_fatal {u : State} (hs : streamOk u) (hp : u.space = .command) (hb : u.mode = .bhx → u.pos.toNat ≤ slen u)
    (hsit : u.mode = .sit → u.pos.toNat ≤ slen u + 2 ^ 33) (hl : u.buf.bytes.length = rbufSize) (c : Cause)
    (e f : Word) : PosInv (fatal c e f u) :=
  ⟨hs, hp, rfl, hb, hsit, hl, fun _ hg => by simp at hg⟩

theorem PosInv.fatal {s : State} (h : PosInv s) (c : Cause) (e f : Word) : PosInv (fatal c e f s) := by
  obtain ⟨hs, hp, -, hb, hsit, hl, -⟩ := h
  exact posInv_fatal hs hp hb hsit hl c e f

/-- Outside a session nothing is asked of POS. -/
theorem posInv_of_closed {t : State} (hs : streamOk t) (hp : t.space = .command) (hd : t.dbuf = [])
    (hl : t.buf.bytes.length = rbufSize) (hm : t.mode = .closed) : PosInv t := by
  have hne : ∀ m : Mode, m ≠ .closed → t.mode ≠ m := fun m h he => h (he.symm.trans hm)
  exact ⟨hs, hp, hd, fun h => absurd h (hne .bhx nofun), fun h => absurd h (hne .sit nofun), hl,
    fun h => absurd h (hne .bhx nofun)⟩

/-- In a StuffIt session nothing is asked of the read buffer but its size. -/
theorem posInv_of_sit {t : State} (hs : streamOk t) (hp : t.space = .command) (hd : t.dbuf = [])
    (hl : t.buf.bytes.length = rbufSize) (hm : t.mode = .sit) (hpos : t.pos.toNat ≤ slen t + 2 ^ 33) : PosInv t := by
  have hne : t.mode ≠ .bhx := fun he => nomatch he.symm.trans hm
  exact ⟨hs, hp, hd, fun h => absurd h hne, fun _ => hpos, hl, fun h => absurd h hne⟩

/-! The sessions. -/

/-- A session starts with POS 0, before any header (48_commands.md R242). -/
theorem loadReset_posInv {s : State} (h : PosInv s) (m : Mode) : PosInv { loadReset s with mode := m } := by
  obtain ⟨hs, hp, -, -, -, -, -⟩ := h
  exact ⟨hs, hp, rfl, fun _ => Nat.zero_le _, fun _ => Nat.zero_le _, bufReset_length,
    fun _ hg => by simp at hg⟩

theorem openSession_posInv (m : Mode) {s : State} (h : PosInv s) : (openSession m s).leaves PosInv := by
  refine Res.meets_mono (openSession_meets m s) ?_ ?_
  · rintro - t ⟨-, rfl⟩
    exact loadReset_posInv h m
  · rintro t (⟨-, e, f, rfl⟩ | ⟨-, e, f, rfl⟩)
    · exact h.fatal _ e f
    · exact (loadReset_posInv h .closed).fatal _ e f

theorem closeSession_movedOn {s : State} (h : PosInv s) : (closeSession s).leaves (MovedOn s.pos.toNat) := by
  have hclosed : PosInv { s with mode := .closed, buf := bufReset } := by
    obtain ⟨hs, hp, hd, -, -, -, -⟩ := h
    exact posInv_of_closed hs hp hd bufReset_length rfl
  refine Res.meets_mono (closeSession_meets s) ?_ ?_
  · rintro - t (⟨-, rfl⟩ | ⟨-, rfl⟩)
    · exact ⟨h, Nat.le_refl _⟩
    · exact ⟨hclosed, Nat.le_refl _⟩
  · rintro t ⟨-, e, f, rfl⟩
    exact ⟨hclosed.fatal _ e f, Nat.le_refl _⟩

/-! The BinHex commands. -/

/-- What stands between the micro-operations of a BinHex command after the start mark: the buffered reader's side, from some
offset on. -/
structure BhxReading (p : Nat) (s : State) : Prop where
  read : readK p s
  mode : s.mode = .bhx
  space : s.space = .command
  dbuf : s.dbuf = []

theorem bhxReading_closed (p : Nat) : StackClosed (BhxReading p) where
  raw s h := by
    have hr := (readK_closed p).raw s h.read
    rw [rawget_frame s] at hr ⊢
    exact { h with read := hr }
  free s t h ht := by
    rw [ht]
    exact { h with }
  upper s t h ht := by
    rw [ht]
    exact { h with }
  taken s b r h hd := absurd (hd.symm.trans h.dbuf) nofun

/-- A buffer that agrees with the stream has POS inside it (41_stream_locate.md R152). -/
theorem pos_le_slen_of_bufferOk {s : State} (h : bufferOk s) : s.pos.toNat ≤ slen s := by
  obtain ⟨-, -, -, hfpos, hpos, -, -⟩ := h
  omega

/-- Where a BinHex command ends well, the buffer agrees with the stream. -/
theorem BhxReading.movedOn {p : Nat} {t : State} (h : BhxReading p t) : MovedOn p t := by
  obtain ⟨⟨hs, hb, hp⟩, hm, hsp, hd⟩ := h
  exact ⟨⟨hs, hsp, hd, fun _ => pos_le_slen_of_bufferOk hb, fun hsit => absurd (hm.symm.trans hsit) nofun, hb.1,
    fun _ _ => hb⟩, hp⟩

theorem BhxReading.fatal {p : Nat} {u : State} (h : BhxReading p u) (c : Cause) (e f : Word) :
    MovedOn p (fatal c e f u) :=
  ⟨h.movedOn.1.fatal c e f, h.movedOn.2⟩

/-- The search moves POS on inside the stream (41_stream_locate.md R154). -/
theorem locateSearch_pos (n : Nat) (bol : Bool) {s : State} (hs : streamOk s) (hp : s.pos.toNat ≤ slen s) :
    (locateSearch n bol s).leaves fun t => s.pos.toNat ≤ t.pos.toNat ∧ t.pos.toNat ≤ slen s := by
  have here : s.pos.toNat ≤ s.pos.toNat ∧ s.pos.toNat ≤ slen s := ⟨Nat.le_refl _, hp⟩
  induction n generalizing bol s with
  | zero => exact here
  | succ n ih =>
    simp only [locateSearch]
    split
    · exact here
    next c hc =>
      have hlt : s.pos.toNat < slen s := by
        by_contra hge
        cases ((read_none_of_streamOk hs _).mpr (Nat.le_of_not_lt hge)).symm.trans hc
      have hlen : slen s < 2 ^ 63 := hs.2
      have hnext : (s.pos + 1).toNat = s.pos.toNat + 1 := pos_succ (by omega)
      split
      · exact ⟨show s.pos.toNat ≤ (s.pos + 1).toNat by omega, show (s.pos + 1).toNat ≤ slen s by omega⟩
      · have hle : (s.pos + 1).toNat ≤ slen s := by omega
        have hrest := ih (c == 0x0A || c == 0x0D) (s := { s with pos := s.pos + 1 }) hs hle ⟨Nat.le_refl _, hle⟩
        have hback : ∀ t : State, (s.pos + 1).toNat ≤ t.pos.toNat ∧ t.pos.toNat ≤ slen s →
            s.pos.toNat ≤ t.pos.toNat ∧ t.pos.toNat ≤ slen s := fun t ht => ⟨by omega, ht.2⟩
        exact Res.meets_mono hrest (fun _ => hback) hback

/-- The locator in a BinHex session: the reader's side behind the start mark, or `NO_START`. -/
theorem locate_movedOn {s : State} (h : PosInv s) (hm : s.mode = .bhx) :
    (locate s).meets (fun _ => BhxReading s.pos.toNat) (MovedOn s.pos.toNat) := by
  obtain ⟨hs, hsp, hd, hp, -, hl, -⟩ := h
  have hsearch := Res.meets_and (locateSearch_frame (streamFuel s) true s)
    (locateSearch_pos (streamFuel s) true hs (hp hm))
  have hstop : (locateSearch (streamFuel s) true s).meets
      (fun _ t => t = { s with pos := t.pos } ∧ s.pos.toNat ≤ t.pos.toNat ∧ t.pos.toNat ≤ slen s)
      (MovedOn s.pos.toNat) := by
    refine Res.meets_mono hsearch (fun _ _ ht => ht) ?_
    rintro - ⟨⟨c, e, f, u, rfl, hu, -⟩, hle, hlen⟩
    refine ⟨?_, hle⟩
    rw [fatal_pos] at hlen
    rw [hu]
    have hsit : s.mode ≠ .sit := fun hsit => absurd (hm.symm.trans hsit) nofun
    exact posInv_fatal (u := { s with pos := u.pos }) hs hsp (fun _ => hlen) (fun h => absurd h hsit) hl c e f
  refine Res.meets_bind hstop ?_
  rintro - t ⟨ht, hle, hlen⟩
  have hb : bufferOk (locateMatched { s with pos := t.pos }) := locateMatched_bufferOk hlen hl
  rw [ht]
  exact ⟨⟨hs, hb, hle⟩, hm, hsp, hd⟩

theorem headerRecord_movedOn {p : Nat} {s : State} (h : BhxReading p s) : (headerRecord s).leaves (MovedOn p) := by
  refine Res.leaves_of
    (headerRecord_keeps (bhxReading_closed p).rawClosed (fun _ _ hu _ _ => { hu with }) s { h with }) ?_ ?_
  · rintro - t ⟨u, hu, rfl⟩
    exact BhxReading.movedOn { hu with }
  · exact fun c e f u hu => hu.fatal c e f

theorem hdrBody_movedOn {s : State} (h : PosInv s) (hm : s.mode = .bhx) :
    (hdrBody s).leaves (MovedOn s.pos.toNat) :=
  Res.meets_bind (locate_movedOn h hm) fun _ _ ht => headerRecord_movedOn ht

theorem appendSink_bhxReading {p : Nat} (k : Sink) (v : Byte) (s : State) (h : BhxReading p s) :
    BhxReading p (appendSink k v s) := by
  cases k <;> exact { h with }

theorem forkDone_bhxReading {p : Nat} (k : Sink) (c : Half) {s : State} (h : BhxReading p s) :
    BhxReading p (forkDone k c s) := by
  cases k <;> exact { h with }

theorem forkBody_movedOn {p : Nat} (k : Sink) (len : Word) {s : State} (h : BhxReading p s) :
    (forkBody k len s).leaves (MovedOn p) := by
  refine Res.leaves_of (forkBody_meets (bhxReading_closed p).rawClosed k (appendSink_bhxReading k) len s h) ?_ ?_
  · rintro - t ⟨u, c, hu, rfl⟩
    exact (forkDone_bhxReading k c hu).movedOn
  · exact fun c e f u hu => hu.fatal c e f

/-- A fork command starts where the header or the fork before it left the buffer. -/
theorem bhxReading_of_posInv {s : State} (h : PosInv s) (hm : s.mode = .bhx)
    (hg : s.stage = .forkData ∨ s.stage = .forkRsrc) : BhxReading s.pos.toNat s := by
  obtain ⟨hs, hsp, hd, -, -, -, hb⟩ := h
  exact ⟨⟨hs, hb hm (hg.imp_right .inl), Nat.le_refl _⟩, hm, hsp, hd⟩

/-! The StuffIt commands. -/

/-- A block read moves POS on, and not beyond the end of the stream unless POS was there (46_stuffit_records.md R211). -/
theorem blockRead_pos_bounds {s : State} (hs : streamOk s) {n : Nat} (hn : n < 2 ^ 62)
    (hp : s.pos.toNat ≤ slen s + 2 ^ 33) :
    s.pos.toNat ≤ (blockRead n s).pos.toNat ∧ (blockRead n s).pos.toNat ≤ slen s + 2 ^ 33 := by
  have hlen : slen s < 2 ^ 63 := hs.2
  have hgot := blockGot_length hs hn
  rw [blockRead_pos, BitVec.toNat_add, BitVec.toNat_ofNat]
  omega

/-- The payload skip of an entry is shorter than 2^33 bytes (46_stuffit_records.md R221). -/
theorem entryRecord_pos_lt {s : State} (hp : s.pos.toNat < 2 ^ 63) : (entryRecord s).pos.toNat < s.pos.toNat + 2 ^ 33 := by
  rw [entryRecord_eq]
  simp only
  split
  · omega
  · have hlt := lengthSum_lt (entryOf s.par s.recb).crlen (entryOf s.par s.recb).cdlen
    rw [BitVec.toNat_add]
    omega

theorem blockRead_movedOn {s : State} (h : PosInv s) (hm : s.mode = .sit) {n : Nat} (hn : n < 2 ^ 62) :
    MovedOn s.pos.toNat (blockRead n s) := by
  obtain ⟨hs, hsp, hd, -, hp, hl, -⟩ := h
  obtain ⟨hle, hub⟩ := blockRead_pos_bounds hs hn (hp hm)
  exact ⟨posInv_of_sit hs hsp hd hl hm hub, hle⟩

/-- An entry read inside the stream leaves POS at most its payload beyond the end. -/
theorem entryRecord_movedOn {s : State} (h : PosInv s) (hm : s.mode = .sit) (hp : s.pos.toNat ≤ slen s) :
    MovedOn s.pos.toNat (entryRecord s) := by
  obtain ⟨hs, hsp, hd, -, -, hl, -⟩ := h
  have hlen : slen s < 2 ^ 63 := hs.2
  have hskip := entryRecord_pos_lt (s := s) (by omega)
  have hub : (entryRecord s).pos.toNat ≤ slen s + 2 ^ 33 := by omega
  refine ⟨?_, entryRecord_pos_le (by omega)⟩
  rw [entryRecord_eq] at hub ⊢
  exact posInv_of_sit hs hsp hd hl hm hub

theorem sitHdrBody_movedOn {s : State} (h : PosInv s) (hm : s.mode = .sit) :
    (sitHdrBody s).leaves (MovedOn s.pos.toNat) := by
  have hread : MovedOn s.pos.toNat (blockRead sitHdrSize { s with saValid := false }) :=
    blockRead_movedOn (s := { s with saValid := false }) h hm (by decide)
  refine Res.leaves_of (sitHdrBody_meets s) ?_ ?_
  · rintro - t ⟨m, rfl⟩
    exact hread
  · rintro c e f u rfl
    exact ⟨hread.1.fatal c e f, hread.2⟩

theorem sitNextBody_movedOn {s : State} (h : PosInv s) (hm : s.mode = .sit) :
    (sitNextBody s).leaves (MovedOn s.pos.toNat) := by
  have hread : MovedOn s.pos.toNat (blockRead sitEntSize { s with seValid := false }) :=
    blockRead_movedOn (s := { s with seValid := false }) h hm (by decide)
  refine Res.leaves_of (sitNextBody_meets s) ?_ ?_
  · rintro - t (⟨-, rfl⟩ | ⟨hwhole, rfl⟩)
    · exact ⟨h, Nat.le_refl _⟩
    · obtain ⟨hat, hend⟩ :=
        blockRead_pos_of_full (s := { s with seValid := false }) h.1 (by decide) hwhole (by decide)
      have hentry := entryRecord_movedOn hread.1 hm (hat.symm ▸ hend)
      exact ⟨hentry.1, Nat.le_trans hread.2 hentry.2⟩
  · rintro c e f u rfl
    exact ⟨hread.1.fatal c e f, hread.2⟩

/-! The commands and the steps. -/

theorem commandLeaves_movedOn (i : Instr) {s : State} (h : PosInv s) : CommandLeaves i (MovedOn s.pos.toNat) s where
  sticky _ _ := ⟨h, Nat.le_refl _⟩
  raised c e f := ⟨h.fatal c e f, Nat.le_refl _⟩
  close _ := closeSession_movedOn h
  hdr _ _ hm := hdrBody_movedOn h hm
  data _ _ hm hg := forkBody_movedOn .data _ (bhxReading_of_posInv h hm (.inl hg))
  rsrc _ _ hm hg := forkBody_movedOn .rsrc _ (bhxReading_of_posInv h hm (.inr hg))
  sitHdr _ _ hm := sitHdrBody_movedOn h hm
  sitNext _ _ hm := sitNextBody_movedOn h hm
  answer _ _ _ _ := ⟨h, Nat.le_refl _⟩
  xlit _ _ _ _ _ := ⟨h, Nat.le_refl _⟩

theorem exec_movedOn {i : Instr} (hi : spaceOf i = .command) (ho : opens i = false) {s t : State} (h : PosInv s)
    (ht : exec i s = .next t) : MovedOn s.pos.toNat t :=
  exec_leaves (commandLeaves_movedOn i h) hi ho ht

theorem exec_posInv {i : Instr} (hi : spaceOf i = .command) {s t : State} (h : PosInv s) (ht : exec i s = .next t) :
    PosInv t := by
  cases ho : opens i with
  | false => exact (exec_movedOn hi ho h ht).1
  | true =>
    cases i
    case openBhx => exact Res.leaves_finish (openSession_posInv .bhx h) ht
    case openSit => exact Res.leaves_finish (openSession_posInv .sit h) ht
    all_goals cases ho

/-- A stream put behind the port is a sequence. -/
theorem streamOk_attached (s : State) {bs : List Byte} (h : bs.length < 2 ^ 63) :
    streamOk { s with stream := Memory.ofBytes bs } :=
  ⟨congrArg Memory.ofBytes (Memory.map_ofBytes bs).symm, (Memory.length_ofBytes bs).symm ▸ h⟩

/-- Settles O11: the command byte by the command's ends; a stream is attached outside a session only. -/
theorem stepKeepsPosInv : Obligations.StepKeepsPosInv := by
  unfold Obligations.StepKeepsPosInv
  intro s t h ht
  obtain ⟨hstream, hspace, hd, -, -, hl, -⟩ := id h
  rcases step_cases hspace with ⟨-, hs⟩ | ⟨c, r, -, hs⟩ | ⟨r, -, hs⟩ | ⟨bs, r, -, ⟨-, hs⟩ | ⟨-, -, hs⟩ | ⟨hm, hlen, hs⟩⟩
    | ⟨o, c, w, r, -, hs⟩ | ⟨i, b, r, -, hs⟩ | ⟨n, r, -, hs⟩ | ⟨n, r, -, hs⟩
  case inr.inl => exact exec_posInv (s := { s with todo := r }) (spaceOf_decodeCommand c) h (hs.symm.trans ht)
  all_goals cases hs.symm.trans ht
  · exact h
  · exact resetEvent_posInv hstream
  · exact posInv_of_closed (streamOk_attached s hlen) hspace hd hl hm
  all_goals exact h

/-- Settles O12: every end of the command has POS where the command met it or beyond. -/
theorem posNeverMovesBack : Obligations.PosNeverMovesBack := by
  unfold Obligations.PosNeverMovesBack
  intro s t i h hi ho ht
  exact (exec_movedOn hi ho h ht).2

end Sys2Proof.Machine
end

section
/-! SUPPORT. The host's actions at the ports other than the command port (48_commands.md R250, 10_state.md R52). -/

namespace Sys2Proof.Machine

/-- An action that ends the step at once, as every write of the host and the reset event do. -/
theorem step_hostAct {s u : State} {a : HostAct} {as : List HostAct} (h : s.space = .command) (ht : s.todo = a :: as)
    (ha : hostAct a { s with todo := as } = .quiet u) : step s = .next u :=
  step_of_quiet ((fetch_todo h ht).trans ha)

section
variable {s : State} {bs : List Byte} {as : List HostAct} (h : s.space = .command) (ht : s.todo = .attach bs :: as)
include h ht

/-- A stream is attached outside a session (20_memory.md R70). -/
theorem step_attach (hm : s.mode = .closed) (hl : bs.length < 2 ^ 63) :
    step s = .next { s with todo := as, stream := Memory.ofBytes bs } := by
  refine step_hostAct h ht ?_
  rw [hostAct, if_neg (not_not_intro hm), if_neg (Nat.not_le_of_lt hl)]

/-- A stream outside the spec (10_state.md R24) stops the machine. -/
theorem step_attach_tooLong (hm : s.mode = .closed) (hl : 2 ^ 63 ≤ bs.length) : step s = .fault .streamTooLong := by
  rw [step, fetch_todo h ht, hostAct, if_neg (not_not_intro hm), if_pos hl]

/-- A stream change inside a session (70_reset_and_hazards.md R301) is refused. -/
theorem step_attach_inSession (hm : s.mode ≠ .closed) : step s = .refused .streamChangedInSession := by
  rw [step, fetch_todo h ht, hostAct, if_pos hm]

end

/-- Settles O7: action by action. -/
theorem hostActionSteps : Obligations.HostActionSteps := by
  unfold Obligations.HostActionSteps
  intro s as h
  refine ⟨step_idle h, fun ht => ?reset, fun o c w ht => ?answers, fun i b ht => ?xsrc, fun n ht => ?srcLen,
    fun n ht => ?dstCap, fun bs => step_attach h, fun bs => step_attach_tooLong h, fun bs => step_attach_inSession h⟩
  all_goals exact step_hostAct h ht rfl

end Sys2Proof.Machine
end

section
/-! SUPPORT. The result port (48_commands.md R250): the codes of the enumerated registers, the values of the others, and zero
everywhere after reset (70_reset_and_hazards.md R290). -/

namespace Sys2Proof.Machine

/-! The codes (10_state.md R32 to R36, 60_exceptions.md R261), as the port extends them. -/

theorem mode_port : ∀ p ∈ [(Mode.closed, 0), (.bhx, 1), (.sit, 2)], ((p.1.code.setWidth 64 : Pos)).toNat = p.2 := by
  decide

theorem stage_port : ∀ p ∈ [(Stage.searching, 0), (.headerRead, 1), (.forkData, 2), (.forkRsrc, 3), (.done, 4),
    (.error, 5)], ((p.1.code.setWidth 64 : Pos)).toNat = p.2 := by
  decide

theorem status_port : ∀ p ∈ [(Status.ok, 0), (.endOfEntries, 1), (.failed .format, 2), (.failed .shortRead, 3),
    (.failed .sequencing, 4), (.failed .resource, 5)], ((p.1.code.setWidth 64 : Pos)).toNat = p.2 := by
  decide

theorem err_port : ∀ p ∈ [(none, 0), (some ErrClass.format, 2), (some .shortRead, 3), (some .sequencing, 4),
    (some .resource, 5)], (((errCode p.1).setWidth 64 : Pos)).toNat = p.2 := by
  decide

theorem errSub_port : ∀ p ∈ [(none, 0), (some Cause.noStart, 1), (some .badChar, 2), (some .nameTooLong, 3),
    (some .badHdrCrc, 4), (some .badForkCrc, 5), (some .badMagic1, 6), (some .badMagic2, 7), (some .negLength, 8),
    (some .streamEnd, 9), (some .shortBlock, 10), (some .badStage, 11), (some .illegalCmd, 12), (some .noEntry, 13),
    (some .badLength, 14), (some .openFailed, 15), (some .closeFailed, 16), (some .rleCount1, 17), (some .badMode, 18)],
    (((errSubCode p.1).setWidth 64 : Pos)).toNat = p.2 := by
  decide

/-- A register of at most 64 bits keeps its value at the port. -/
theorem toNat_port {w : Nat} (hw : w ≤ 64) (x : BitVec w) : ((x.setWidth 64 : Pos)).toNat = x.toNat :=
  BitVec.toNat_setWidth_of_le hw

theorem bitOf_toNat (b : Bool) : (bitOf b).toNat = b.toNat := by
  cases b <;> rfl

/-- A buffer of zeros shows a zero at every index, inside it and beyond. -/
theorem field8_replicate_zero (n i : Nat) : field8 (List.replicate n 0) i = 0 := by
  rw [field8, List.getD_eq_getElem?_getD, List.getElem?_replicate]
  split <;> rfl

/-- Every register the port shows is zero right after reset (R290, 10_state.md R60). -/
theorem resultPort_reset (r : RegName) : resultPort r State.reset = 0 := by
  have hname : ∀ n i, (field8 (List.replicate n 0) i).setWidth 64 = (0 : Pos) := fun n i => by
    rw [field8_replicate_zero]
    rfl
  cases r
  case ring i => exact hname 3 i
  case bhName i | bhPname i | xsrc i | xdst i => exact hname 64 i
  case seName i | sePname i => exact hname 63 i
  all_goals rfl

/-- What a reset event keeps of the old state belongs to the host, and the port does not show it (R292, R294). -/
theorem resultPort_resetEvent (r : RegName) (s : State) : resultPort r (resetEvent s) = resultPort r State.reset := by
  cases r <;> rfl

/-- Settles O8: the codes by their tables, the other registers by their width, the reset values by register. -/
theorem resultPortAndReset : Obligations.ResultPortAndReset := by
  unfold Obligations.ResultPortAndReset
  refine ⟨fun s => ⟨?mode, ?stage, ?status, ?err, ?errSub, ?block, ?bh, ?se, ?arrays⟩, ?zero,
    fun s => ⟨rfl, rfl, rfl, rfl⟩⟩
  case mode => exact fun p hp h => (congrArg (fun m => (m.code.setWidth 64 : Pos).toNat) h).trans (mode_port p hp)
  case stage => exact fun p hp h => (congrArg (fun g => (g.code.setWidth 64 : Pos).toNat) h).trans (stage_port p hp)
  case status => exact fun p hp h => (congrArg (fun c => (c.code.setWidth 64 : Pos).toNat) h).trans (status_port p hp)
  case err => exact fun p hp h => (congrArg (fun c => ((errCode c).setWidth 64 : Pos).toNat) h).trans (err_port p hp)
  case errSub =>
    exact fun p hp h => (congrArg (fun c => ((errSubCode c).setWidth 64 : Pos).toNat) h).trans (errSub_port p hp)
  case zero =>
    rintro t (rfl | ⟨s, rfl⟩)
    · exact ⟨resultPort_reset, rfl, rfl⟩
    · exact ⟨fun r => (resultPort_resetEvent r s).trans (resultPort_reset r), rfl, rfl⟩
  all_goals simp [resultPort, toNat_port, bitOf_toNat, field8, -BitVec.toNat_setWidth]

end Sys2Proof.Machine
end

section
/-! SUPPORT. The row that packs a group (42_sextet_unpacker.md R163). -/

namespace Sys2Proof.Machine

/-- How many bytes a group of at most four sextets gives (R163). -/
theorem ringCount_eq {j : Nat} {n : BitVec 2}
    (h : (j = 4 ∧ n = 3) ∨ (j = 3 ∧ n = 2) ∨ (j = 2 ∧ n = 1) ∨ (j ≤ 1 ∧ n = 0)) : ringCount j = n := by
  rcases h with ⟨rfl, rfl⟩ | ⟨rfl, rfl⟩ | ⟨rfl, rfl⟩ | ⟨hj, rfl⟩
  · rfl
  · rfl
  · rfl
  · rw [ringCount, if_neg (by omega), if_neg (by omega), if_neg (by omega)]

/-- Settles O35: the row is `packGroup`, whose count is the number of sextets read. -/
theorem groupRow : Obligations.GroupRow := by
  unfold Obligations.GroupRow
  intro s0 s1 s2 s3 s n h
  rw [← ringCount_eq h]
  rfl

end Sys2Proof.Machine
end

section
/-! SUPPORT. What no instruction writes (10_state.md R21, 20_memory.md R70, R88, 70_reset_and_hazards.md R294): the stream, the
parameters, and the host's side of the ports. -/

namespace Sys2Proof.Machine

/-- The host's side: what only the host writes. -/
structure HostRegs where
  stream : List Host.Cell
  par : Params
  todo : List HostAct
  space : Space
  openOk : Bool
  closeOk : Bool
  ioCause : Word
  src : List Byte
  srcLen : BitVec 7
  dstCap : BitVec 7

def hostRegs (s : State) : HostRegs :=
  ⟨s.stream, s.par, s.todo, s.space, s.openOk, s.closeOk, s.ioCause, s.xl.src, s.xl.srcLen, s.xl.dstCap⟩

/-- The host's side of `t` is `h`. -/
abbrev HostIs (h : HostRegs) (t : State) : Prop := hostRegs t = h

theorem hostIs_closed (h : HostRegs) : StackClosed (HostIs h) :=
  stackClosed_of_frame fun s t hs ht => by
    unfold stackFrame at ht
    rw [ht]
    exact hs

section
variable {h : HostRegs} {s : State} (hs : HostIs h s)
include hs

theorem headerRecord_host : (headerRecord s).leaves (HostIs h) := by
  refine Res.leaves_of (headerRecord_keeps (hostIs_closed h).rawClosed (fun _ _ hu _ _ => hu) s hs) ?_
    fun _ _ _ _ hu => hu
  rintro - t ⟨u, hu, rfl⟩
  exact hu

theorem hdrBody_host : (hdrBody s).leaves (HostIs h) := by
  have hloc : (locate s).leaves (HostIs h) := by
    refine Res.leaves_of (locate_frame s) ?_ ?_
    · rintro - t ⟨p, rfl⟩
      exact hs
    · intro c e f u hu
      rw [hu]
      exact hs
  exact Res.meets_bind hloc fun _ t ht => headerRecord_host ht

theorem forkRecord_host (k : Sink) (n : Nat) : (forkRecord k n s).leaves (HostIs h) := by
  have hsink : ∀ v u, HostIs h u → HostIs h (appendSink k v u) := fun v u hu => by cases k <;> exact hu
  refine Res.leaves_of (forkRecord_meets (hostIs_closed h).rawClosed k hsink n s hs) ?_ fun _ _ _ _ hu => hu
  rintro - t ⟨u, c, hu, rfl⟩
  cases k <;> exact hu

theorem forkBody_host (k : Sink) (len : Word) : (forkBody k len s).leaves (HostIs h) := by
  unfold forkBody
  split
  · exact hs
  · exact forkRecord_host hs k _

theorem entryRecord_host : HostIs h (entryRecord s) := by
  rw [entryRecord_eq]
  exact hs

theorem sitHdrBody_host : (sitHdrBody s).leaves (HostIs h) := by
  refine Res.leaves_of (sitHdrBody_meets s) ?_ ?_
  · rintro - t ⟨m, rfl⟩
    exact hs
  · rintro c e f u rfl
    exact hs

theorem sitNextBody_host : (sitNextBody s).leaves (HostIs h) := by
  refine Res.leaves_of (sitNextBody_meets s) ?_ ?_
  · rintro - t (⟨-, rfl⟩ | ⟨-, rfl⟩)
    · exact hs
    · exact entryRecord_host (s := blockRead sitEntSize { s with seValid := false }) hs
  · rintro c e f u rfl
    exact hs

theorem openSession_host (m : Mode) : (openSession m s).leaves (HostIs h) := by
  refine Res.meets_mono (openSession_meets m s) ?_ ?_
  · rintro - t ⟨-, rfl⟩
    exact hs
  · rintro t (⟨-, e, f, rfl⟩ | ⟨-, e, f, rfl⟩) <;> exact hs

theorem closeSession_host : (closeSession s).leaves (HostIs h) := by
  refine Res.meets_mono (closeSession_meets s) ?_ ?_
  · rintro - t (⟨-, rfl⟩ | ⟨-, rfl⟩) <;> exact hs
  · rintro t ⟨-, e, f, rfl⟩
    exact hs

theorem commandLeaves_host (i : Instr) : CommandLeaves i (HostIs h) s where
  sticky _ _ := hs
  raised _ _ _ := hs
  close _ := closeSession_host hs
  hdr _ _ _ := hdrBody_host hs
  data _ _ _ _ := forkBody_host hs .data _
  rsrc _ _ _ _ := forkBody_host hs .rsrc _
  sitHdr _ _ _ := sitHdrBody_host hs
  sitNext _ _ _ := sitNextBody_host hs
  answer _ _ _ _ := hs
  xlit _ _ _ _ _ := hs

theorem exec_command_host {i : Instr} {t : State} (hi : spaceOf i = .command) (ht : exec i s = .next t) :
    HostIs h t := by
  cases ho : opens i with
  | false => exact exec_leaves (commandLeaves_host hs i) hi ho ht
  | true =>
    cases i
    case openBhx => exact Res.leaves_finish (openSession_host hs .bhx) ht
    case openSit => exact Res.leaves_finish (openSession_host hs .sit) ht
    all_goals cases ho

/-! The rows of the other spaces. -/

theorem checkMagic2_host (m : Word) : (checkMagic2 m s).leaves (HostIs h) := by
  simp only [checkMagic2]
  split <;> exact hs

theorem checkMagic1_host : (checkMagic1 s).leaves (HostIs h) := by
  simp only [checkMagic1]
  split
  · exact checkMagic2_host hs _
  · exact hs

theorem deliverSome_countOne_host : (deliverSome (countOne s)).leaves (HostIs h) := by
  have hc : (countOne s).leaves (HostIs h) := by
    unfold countOne
    split <;> exact hs
  exact Res.meets_bind hc fun _ _ ht => ht

theorem exec_recBhxfork_host {r : BhxForkRec} {t : State} (ht : exec (.recBhxfork r) s = .next t) : HostIs h t := by
  have hd : HostIs h { s with dbuf := encode (.recBhxfork r) ++ s.dbuf } := hs
  simp only [exec, execRecBhxfork] at ht
  split at ht
  · exact Res.leaves_finish (forkRecord_host hd .data _) ht
  · split at ht
    · exact Res.leaves_finish (forkRecord_host hd .rsrc _) ht
    · cases ht
      exact hs

theorem exec_row_host {i : Instr} {t : State} (hi : spaceOf i ≠ .command) (ht : exec i s = .next t) : HostIs h t := by
  cases i
  case recBhxfork r => exact exec_recBhxfork_host hs ht
  case recBhxhdr r =>
    have hd : HostIs h { s with dbuf := encode (.recBhxhdr r) ++ s.dbuf } := hs
    exact Res.leaves_finish (headerRecord_host hd) ht
  case rleCount1 => exact Res.leaves_finish (deliverSome_countOne_host hs) ht
  case recSithdr22 r =>
    have hl : HostIs h (loadRec (encode (.recSithdr22 r)) { s with saValid := false }) := hs
    exact Res.leaves_finish (checkMagic1_host hl) ht
  case magic1Sit | magic1St46 | magic1St50 | magic1St60 | magic1St65 | magic1Stin | magic1Sti2 | magic1Sti3
    | magic1Sti4 => exact Res.leaves_finish (checkMagic2_host hs _) ht
  case recSitent112 r =>
    have hl : HostIs h (loadRec (encode (.recSitent112 r)) { s with seValid := false }) := hs
    cases ht
    exact entryRecord_host hl
  case methEncrypted | methFolderStart | methFolderEnd | methOther =>
    cases ht
    split <;> exact hs
  case typeAppl =>
    exact Res.leaves_finish (accessorBody_leaves (P := HostIs h) (fun _ _ _ => hs) (fun _ => hs)) ht
  case openBhx | openSit | close | bhxHdr | bhxData | bhxRsrc | sitHdr | sitNext | sitIsenc | sitIsfst | sitIsfend
    | sitIsapp | sitCsize | sitUsize | sitMtime | xlit | reservedCommand => exact absurd rfl hi
  all_goals
    cases ht
    exact hs

end

/-- Settles O16: a command by its ends, a row of another space by its meaning. -/
theorem hostSideUnchanged : Obligations.HostSideUnchanged := by
  unfold Obligations.HostSideUnchanged
  intro i s t ht
  have hkept : hostRegs t = hostRegs s := by
    by_cases hi : spaceOf i = .command
    · exact exec_command_host rfl hi ht
    · exact exec_row_host rfl hi ht
  simpa only [hostRegs, HostRegs.mk.injEq] using hkept

end Sys2Proof.Machine
end

section
/-! SUPPORT. What the commands of each personality leave (48_commands.md R257, 45_binhex_records.md R188, 10_state.md R37),
whether they end well or by an error (60_exceptions.md R271). -/

namespace Sys2Proof.Machine

/-! The StuffIt commands write their own records, REC, POS and RESULT, and the control registers. -/

/-- What the StuffIt command `i` leaves as it is. -/
abbrev SitKeeps (i : Instr) (s t : State) : Prop :=
  t.crc = s.crc ∧ t.ring = s.ring ∧ t.rptChar = s.rptChar ∧ t.rptCnt = s.rptCnt ∧ t.lend = s.lend ∧ t.eofsev = s.eofsev
    ∧ t.buf = s.buf ∧ t.bh = s.bh ∧ t.bhValid = s.bhValid ∧ t.xl = s.xl ∧ t.mode = s.mode
    ∧ (i ≠ .sitHdr → t.sa = s.sa ∧ t.saValid = s.saValid) ∧ (i ≠ .sitNext → t.se = s.se ∧ t.seValid = s.seValid)
    ∧ (i ≠ .sitHdr → i ≠ .sitNext → t.recb = s.recb ∧ t.pos = s.pos)

/-- A change of the control registers and of RESULT is within what every StuffIt command may do. -/
theorem sitKeeps_of_control {i : Instr} {s t : State}
    (ht : t = { s with
      stage := t.stage, status := t.status, err := t.err, errSub := t.errSub, errExpected := t.errExpected,
      errFound := t.errFound, errPos := t.errPos, result := t.result, grp := t.grp, dbuf := t.dbuf }) :
    SitKeeps i s t := by
  rw [ht]
  exact ⟨rfl, rfl, rfl, rfl, rfl, rfl, rfl, rfl, rfl, rfl, rfl, fun _ => ⟨rfl, rfl⟩, fun _ => ⟨rfl, rfl⟩,
    fun _ _ => ⟨rfl, rfl⟩⟩

/-- `SIT.HDR` may also change the archive's records, REC and POS (46_stuffit_records.md R211, R212). -/
theorem sitKeeps_of_header {s t : State}
    (ht : t = { s with
      pos := t.pos, recb := t.recb, sa := t.sa, saValid := t.saValid, stage := t.stage, status := t.status, err := t.err,
      errSub := t.errSub, errExpected := t.errExpected, errFound := t.errFound, errPos := t.errPos, grp := t.grp,
      dbuf := t.dbuf }) :
    SitKeeps .sitHdr s t := by
  rw [ht]
  exact ⟨rfl, rfl, rfl, rfl, rfl, rfl, rfl, rfl, rfl, rfl, rfl, absurd rfl, fun _ => ⟨rfl, rfl⟩, absurd rfl⟩

/-- `SIT.NEXT` may also change the entry's records, REC and POS (46_stuffit_records.md R211, R216). -/
theorem sitKeeps_of_entry {s t : State}
    (ht : t = { s with
      pos := t.pos, recb := t.recb, se := t.se, seValid := t.seValid, stage := t.stage, status := t.status, err := t.err,
      errSub := t.errSub, errExpected := t.errExpected, errFound := t.errFound, errPos := t.errPos, grp := t.grp,
      dbuf := t.dbuf }) :
    SitKeeps .sitNext s t := by
  rw [ht]
  exact ⟨rfl, rfl, rfl, rfl, rfl, rfl, rfl, rfl, rfl, rfl, rfl, fun _ => ⟨rfl, rfl⟩, absurd rfl, fun _ => absurd rfl⟩

theorem sitHdrBody_keeps (s : State) : (sitHdrBody s).leaves (SitKeeps .sitHdr s) := by
  refine Res.leaves_of (sitHdrBody_meets s) ?_ ?_
  · rintro - t ⟨m, rfl⟩
    exact sitKeeps_of_header rfl
  · rintro c e f u rfl
    exact sitKeeps_of_header rfl

theorem sitNextBody_keeps (s : State) : (sitNextBody s).leaves (SitKeeps .sitNext s) := by
  refine Res.leaves_of (sitNextBody_meets s) ?_ ?_
  · rintro - t (⟨-, rfl⟩ | ⟨-, rfl⟩)
    · exact sitKeeps_of_entry rfl
    · rw [entryRecord_eq]
      exact sitKeeps_of_entry rfl
  · rintro c e f u rfl
    exact sitKeeps_of_entry rfl

/-- The commands that need a StuffIt session. -/
abbrev sitCommands : List Instr := .sitHdr :: .sitNext :: accessorCommands

theorem commandLeaves_sit {i : Instr} (hi : i ∈ sitCommands) (s : State) : CommandLeaves i (SitKeeps i s) s where
  sticky _ _ := sitKeeps_of_control rfl
  raised _ _ _ := sitKeeps_of_control rfl
  close hc := by subst hc; simp at hi
  hdr hc := by subst hc; simp at hi
  data hc := by subst hc; simp at hi
  rsrc hc := by subst hc; simp at hi
  sitHdr hc _ _ := by subst hc; exact sitHdrBody_keeps s
  sitNext hc _ _ := by subst hc; exact sitNextBody_keeps s
  answer _ _ _ _ := sitKeeps_of_control rfl
  xlit hc := by subst hc; simp at hi

/-! The BinHex commands write the decode registers, their own records and sink, and the control registers. -/

/-- What no BinHex command writes: the StuffIt side, RESULT, REC, the transliterator's buffers and MODE. -/
abbrev BhxSideKept (s t : State) : Prop :=
  t.sa = s.sa ∧ t.saValid = s.saValid ∧ t.se = s.se ∧ t.seValid = s.seValid ∧ t.result = s.result ∧ t.recb = s.recb
    ∧ t.xl = s.xl ∧ t.mode = s.mode

/-- What the BinHex command `i` leaves as it is. -/
abbrev BhxKeeps (i : Instr) (s t : State) : Prop :=
  BhxSideKept s t ∧ (i = .bhxHdr → t.bh.dcrc = s.bh.dcrc ∧ t.bh.rcrc = s.bh.rcrc)
    ∧ (i = .bhxData → t.bhValid = s.bhValid ∧ t.bh = { s.bh with dcrc := t.bh.dcrc })
    ∧ (i = .bhxRsrc → t.bhValid = s.bhValid ∧ t.bh = { s.bh with rcrc := t.bh.rcrc })

theorem bhxSideKept_refl (s : State) : BhxSideKept s s := ⟨rfl, rfl, rfl, rfl, rfl, rfl, rfl, rfl⟩

/-- The fields of the header record, one after the other, for a predicate that each of them keeps where it is stored. -/
theorem readFields_keeps {K K' P : State → Prop} (hK : RawClosed K K') {k : State → Res Unit}
    (hfatal : ∀ c e f u, K' u → P (fatal c e f u)) (hk : ∀ s, K s → (k s).leaves P) (fs : List HeaderField)
    (hf : ∀ f ∈ fs, ∀ v s, K s → K { s with bh := f.store v s.bh }) (s : State) (h : K s) :
    (readFields k fs s).leaves P := by
  induction fs generalizing s with
  | nil => exact hk s h
  | cons f fs ih =>
    have hget : (getbe f.width s).meets (fun _ => K) P := by
      refine Res.meets_mono (getbe_keeps hK f.width s h) (fun _ _ ht => ht) ?_
      rintro - ⟨c, e, x, u, rfl, hu, -⟩
      exact hfatal c e x u hu
    exact Res.meets_bind hget fun v t ht =>
      ih (fun f' hf' => hf f' (List.mem_cons_of_mem _ hf')) _ (hf f List.mem_cons_self v t ht)

/-- No field of the header record is a fork's checksum. -/
theorem headerFields_store {f : HeaderField} (hf : f ∈ headerFields) (v : Word) (b : BinHexRegs) :
    (f.store v b).dcrc = b.dcrc ∧ (f.store v b).rcrc = b.rcrc := by
  simp only [headerFields, List.mem_cons, List.not_mem_nil, or_false] at hf
  rcases hf with rfl | rfl | rfl | rfl | rfl <;> exact ⟨rfl, rfl⟩

/-- What stands while the header record is being read. -/
abbrev HeaderKept (s t : State) : Prop := BhxSideKept s t ∧ t.bh.dcrc = s.bh.dcrc ∧ t.bh.rcrc = s.bh.rcrc

theorem headerKept_closed (s : State) : StackClosed (HeaderKept s) :=
  stackClosed_of_frame fun t u ht hu => by
    unfold stackFrame at hu
    rw [hu]
    exact ht

/-- The header record (45_binhex_records.md R190) leaves the two fork checksums. -/
theorem headerRecord_kept {s u : State} (h : HeaderKept s u) : (headerRecord u).leaves (HeaderKept s) := by
  have hK := (headerKept_closed s).rawClosed
  have hfail : ∀ {α : Type} {cs : List Cause} {r : Res α},
      r.meets (fun _ => HeaderKept s) (raisedFrom cs (HeaderKept s)) → r.leaves (HeaderKept s) := fun hr =>
    Res.leaves_of hr (fun _ _ ht => ht) fun _ _ _ _ hu => hu
  have hend : ∀ t, HeaderKept s t → (headerEnd t).leaves (HeaderKept s) := fun t ht =>
    Res.meets_bind (hfail (crcCheck_keeps hK .badHdrCrc t ht)) fun _ _ hv => hv
  have hstore : ∀ f ∈ headerFields, ∀ v t, HeaderKept s t → HeaderKept s { t with bh := f.store v t.bh } := by
    intro f hf v t ⟨hside, hd, hr⟩
    obtain ⟨hsd, hsr⟩ := headerFields_store hf v t.bh
    exact ⟨hside, hsd.trans hd, hsr.trans hr⟩
  rw [headerRecord_eq]
  refine Res.meets_bind (hfail (getc_keeps hK (headerStart u) h)) fun l t ht => ?_
  split
  · exact ht
  · refine Res.meets_bind (hfail (readName_keeps hK (fun _ _ _ hv => hv) _ 0 t ht)) fun _ v hv => ?_
    exact readFields_keeps hK (fun _ _ _ _ hx => hx) hend headerFields hstore _ hv

theorem hdrBody_keeps (s : State) : (hdrBody s).leaves (BhxKeeps .bhxHdr s) := by
  have hloc : (locate s).leaves (HeaderKept s) := by
    refine Res.leaves_of (locate_frame s) ?_ ?_
    · rintro - t ⟨p, rfl⟩
      exact ⟨bhxSideKept_refl s, rfl, rfl⟩
    · intro c e f u hu
      rw [hu]
      exact ⟨bhxSideKept_refl s, rfl, rfl⟩
  have hkeeps : ∀ t, HeaderKept s t → BhxKeeps .bhxHdr s t := fun t ⟨hside, hcrcs⟩ =>
    ⟨hside, fun _ => hcrcs, nofun, nofun⟩
  exact Res.meets_mono (Res.meets_bind hloc fun _ _ ht => headerRecord_kept ht) (fun _ => hkeeps) hkeeps

/-- What stands while a fork is being read. -/
abbrev ForkKept (s t : State) : Prop := BhxSideKept s t ∧ t.bhValid = s.bhValid ∧ t.bh = s.bh

theorem forkKept_closed (s : State) : StackClosed (ForkKept s) :=
  stackClosed_of_frame fun t u ht hu => by
    unfold stackFrame at hu
    rw [hu]
    exact ht

/-- The command of a fork. -/
def forkCommand : Sink → Instr
  | .data => .bhxData
  | .rsrc => .bhxRsrc

theorem bhxKeeps_of_forkKept (k : Sink) {s t : State} (h : ForkKept s t) : BhxKeeps (forkCommand k) s t := by
  obtain ⟨hside, hv, hb⟩ := h
  refine ⟨hside, ?_, ?_, ?_⟩
  · cases k <;> nofun
  · exact fun _ => ⟨hv, by rw [hb]⟩
  · exact fun _ => ⟨hv, by rw [hb]⟩

/-- The good end of a fork stores its own checksum (45_binhex_records.md R198, R199). -/
theorem forkDone_keeps (k : Sink) (c : Half) {s u : State} (h : ForkKept s u) :
    BhxKeeps (forkCommand k) s (forkDone k c u) := by
  obtain ⟨hside, hv, hb⟩ := h
  cases k with
  | data => exact ⟨hside, nofun, fun _ => ⟨hv, by rw [← hb]; rfl⟩, nofun⟩
  | rsrc => exact ⟨hside, nofun, nofun, fun _ => ⟨hv, by rw [← hb]; rfl⟩⟩

theorem forkBody_keeps (k : Sink) (len : Word) (s : State) : (forkBody k len s).leaves (BhxKeeps (forkCommand k) s) := by
  have hsink : ∀ v u, ForkKept s u → ForkKept s (appendSink k v u) := fun v u hu => by cases k <;> exact hu
  refine Res.leaves_of
    (forkBody_meets (forkKept_closed s).rawClosed k hsink len s ⟨bhxSideKept_refl s, rfl, rfl⟩) ?_ ?_
  · rintro - t ⟨u, c, hu, rfl⟩
    exact forkDone_keeps k c hu
  · exact fun c e f u hu => bhxKeeps_of_forkKept k hu

/-- The commands that need a BinHex session. -/
abbrev bhxCommands : List Instr := [.bhxHdr, .bhxData, .bhxRsrc]

theorem commandLeaves_bhx {i : Instr} (hi : i ∈ bhxCommands) (s : State) : CommandLeaves i (BhxKeeps i s) s where
  sticky _ _ := ⟨bhxSideKept_refl s, fun _ => ⟨rfl, rfl⟩, fun _ => ⟨rfl, rfl⟩, fun _ => ⟨rfl, rfl⟩⟩
  raised _ _ _ := ⟨bhxSideKept_refl s, fun _ => ⟨rfl, rfl⟩, fun _ => ⟨rfl, rfl⟩, fun _ => ⟨rfl, rfl⟩⟩
  close hc := by subst hc; simp at hi
  hdr hc _ _ := by subst hc; exact hdrBody_keeps s
  data hc _ _ _ := by subst hc; exact forkBody_keeps .data _ s
  rsrc hc _ _ _ := by subst hc; exact forkBody_keeps .rsrc _ s
  sitHdr hc := by subst hc; simp at hi
  sitNext hc := by subst hc; simp at hi
  answer ha := by
    simp only [List.mem_cons, List.not_mem_nil, or_false] at hi
    rcases hi with rfl | rfl | rfl <;> simp at ha
  xlit hc := by subst hc; simp at hi

/-! RESULT is the accessors' (10_state.md R37). -/

theorem result_of_bhxKeeps {i : Instr} {s t : State} (h : BhxKeeps i s t) : t.result = s.result := by
  obtain ⟨⟨-, -, -, -, hres, -, -, -⟩, -⟩ := h
  exact hres

theorem commandLeaves_result {i : Instr} (hi : i ∉ accessorCommands) (s : State) :
    CommandLeaves i (fun t => t.result = s.result) s where
  sticky _ _ := rfl
  raised _ _ _ := rfl
  close _ := by
    refine Res.meets_mono (closeSession_meets s) ?_ ?_
    · rintro - t (⟨-, rfl⟩ | ⟨-, rfl⟩) <;> rfl
    · rintro t ⟨-, e, f, rfl⟩
      rfl
  hdr _ _ _ := Res.meets_mono (hdrBody_keeps s) (fun _ _ => result_of_bhxKeeps) fun _ => result_of_bhxKeeps
  data _ _ _ _ := Res.meets_mono (forkBody_keeps .data _ s) (fun _ _ => result_of_bhxKeeps) fun _ => result_of_bhxKeeps
  rsrc _ _ _ _ := Res.meets_mono (forkBody_keeps .rsrc _ s) (fun _ _ => result_of_bhxKeeps) fun _ => result_of_bhxKeeps
  sitHdr _ _ _ := by
    refine Res.leaves_of (sitHdrBody_meets s) ?_ ?_
    · rintro - t ⟨m, rfl⟩
      rfl
    · rintro c e f u rfl
      rfl
  sitNext _ _ _ := by
    refine Res.leaves_of (sitNextBody_meets s) ?_ ?_
    · rintro - t (⟨-, rfl⟩ | ⟨-, rfl⟩)
      · rfl
      · rw [entryRecord_eq]
        rfl
    · rintro c e f u rfl
      rfl
  answer ha := absurd ha hi
  xlit _ _ _ _ _ := rfl

/-- The commands of the two personalities are commands that start no session. -/
theorem personality_commands : ∀ i ∈ bhxCommands ++ sitCommands, spaceOf i = .command ∧ opens i = false := by decide

/-- Settles O18: each command by its own ends. -/
theorem personalitiesKeepApart : Obligations.PersonalitiesKeepApart := by
  unfold Obligations.PersonalitiesKeepApart
  intro i s t ht
  refine ⟨fun hi => ?sit, fun hi => ?bhx, fun hi ho hacc => ?result⟩
  case sit =>
    obtain ⟨hspace, hopens⟩ := personality_commands i (List.mem_append_right _ hi)
    exact exec_leaves (commandLeaves_sit hi s) hspace hopens ht
  case bhx =>
    obtain ⟨hspace, hopens⟩ := personality_commands i (List.mem_append_left _ hi)
    obtain ⟨⟨hsa, hsav, hse, hsev, hres, hrec, hxl, hmode⟩, hrecords⟩ :=
      exec_leaves (commandLeaves_bhx hi s) hspace hopens ht
    exact ⟨hsa, hsav, hse, hsev, hres, hrec, hxl, hmode, hrecords⟩
  case result => exact exec_leaves (commandLeaves_result hacc s) hi ho ht

end Sys2Proof.Machine
end
